-- ==== Sys2Proof/Word.lean ====
section
/-! DEFINITION. The words of the machine: 52-bit words, 13-bit control groups, addresses and modifiers (spec 00_scope R4, R5). -/

namespace Sys2Proof

/-- A word of core or fast memory: 52 bits (R4, R10). -/
abbrev Word := BitVec 52

/-- A quarter word: a control group, a modifier or an address, 13 bits (R4, R5, R7). -/
abbrev Group := BitVec 13

/-- A core word address: 13 bits, every sum taken modulo 8192 (R5, R40). -/
abbrev Addr := BitVec 13

/-- A paper tape character: 7 bits (R29). -/
abbrev Char7 := BitVec 7

end Sys2Proof
end

