-- ==== Sys2Proof/Config.lean ====
section
/-! DEFINITION. What an implementation fixes (00_scope R4) and the free values: opaque constants without a body, so that no proof can know them. -/

namespace Sys2Proof.Machine

/-- The implementation parameters of 00_scope R4. They are arguments of the model, held in State, and no step changes them. -/
structure Params where
  /-- TWO_MEMORIES. CORE_WORDS is 8192 with two memories and 4096 with one (R4, R10, log 7). -/
  twoMemories : Bool
  /-- INTERPLAY_PRESENT: Interplay and the Block Checker are built (R4, R170). -/
  interplayPresent : Bool
  /-- SPECIAL_REGISTERS_DECODED: only special register 0 is the paper tape (R4, R182). -/
  specialDecoded : Bool
  /-- OV_INTERRUPTS: an order that turns OV on also raises the Arithmetic interrupt (R4, R234). -/
  ovInterrupts : Bool
  /-- ImmOperandWord is the default of R85; with false it is any word of the same value (R4, D3, log 10). -/
  immDefault : Bool
  /-- The channels other than 0 whose device works on fixed 256-word blocks: for them the device is a parameter (R247, log 18). -/
  fixedBlocks : Vector Bool 32
  deriving DecidableEq, Repr

/-- The final machine of 1962 (the last column of R4's table), with the drum as the one fixed-block device (log 18). -/
def Params.finalMachine : Params :=
  { twoMemories := true, interplayPresent := true, specialDecoded := true, ovInterrupts := false, immDefault := true,
    fixedBlocks := Vector.replicate 32 false }

/-- CORE_WORDS (R4, R10). -/
def Params.coreWords (p : Params) : Nat := if p.twoMemories then 8192 else 4096

end Sys2Proof.Machine

namespace Sys2Proof

/-- DivRemainder (R115, D9): the remainder fraction and exponent that R, ES hold after a divide, as a function of the prepared dividend and divisor. -/
opaque Config.divRemainder (fn en xd yd : Int) : BitVec 45 × Int

/-- ImmOperandWord where the default of R85 is not taken (D3): the word that C = 3 with this B and N produces. It counts only where it has the value of R85 (Machine.immOperandWord). -/
opaque Config.immOperandWord (b : BitVec 4) (n : BitVec 13) : Word

/-- The word SRM stores when the last Delayed Control order was not a divide (R151, U6). -/
opaque Config.freeWord : Nat → Word

/-- OV after such an SRM (U6). -/
opaque Config.freeOverflow : Nat → Bool

/-- What special registers 1 to 63 read as (R182, D24, U5). -/
opaque Config.freeSpecial : Nat → BitVec 13

/-- Whether a jump into the held pair reads the pair again from core (R53, D12). -/
opaque Config.freeRefetch : Nat → Bool

/-- Whether an order of a held word whose core word has changed is obeyed from the core word (R55, U7). -/
opaque Config.freeFreshCopy : Nat → Bool

/-- Whether HLT stops the machine while the black switch is held up (N29). -/
opaque Config.freeStop : Nat → Bool

end Sys2Proof
end

