-- ==== Sys2Proof/Syntax.lean ====
section
/-! DEFINITION. The orders of the machine: one constructor per row of spec/opcode_table.json (R72), with its operand forms (R62 to R71). -/

namespace Sys2Proof

/-- Normal address construction (R82): C = 0, 1, 2, and C = 3 with B = 8. -/
inductive NormalAddr where
  /-- C = 0: the address is in M_B -/
  | direct (m : BitVec 4)
  /-- C = 1: the address is in M_B, which is then counted (R83) -/
  | counted (m : BitVec 4)
  /-- C = 2: N + (M_B) -/
  | indexed (m : BitVec 4) (n : Addr)
  /-- C = 3, B = 8: N -/
  | fixed (n : Addr)
  deriving DecidableEq, Repr

/-- Operand of a full-word arithmetic order (R63). -/
inductive Operand where
  /-- a core word -/
  | core (a : NormalAddr)
  /-- C = 3, B = 0 to 7: fast register F_B -/
  | fast (r : BitVec 3)
  /-- C = 3, B = 9: the integer N -/
  | integer (n : Addr)
  /-- C = 3, B = 10: the fraction N / 4096 -/
  | fraction (n : Addr)
  /-- C = 3, B = 11 to 15: floating point zero (15 by assignment, 11 to 14 reserved, R75) -/
  | zero (b : BitVec 4)
  deriving DecidableEq, Repr

/-- Destination of a full-word store order (R64). -/
inductive Dest where
  /-- a core word -/
  | core (a : NormalAddr)
  /-- C = 3, B other than 8: fast register F_B for B = 0, 2 to 7; illegal for B = 1 and B >= 9 (R74) -/
  | fast (b : BitVec 4)
  deriving DecidableEq, Repr

/-- Address of an order that uses the address itself as its operand (R65). -/
inductive AddrForm where
  /-- a constructed address -/
  | addr (a : NormalAddr)
  /-- C = 3, B other than 8: illegal (R74) -/
  | noAddress (b : BitVec 4)
  deriving DecidableEq, Repr

/-- The sixteen conditions of JDC, numbered by B (R206). -/
inductive Condition where
  /-- 0: unconditional, and leave the interrupt mode -/
  | leaveInterrupt
  /-- 1: never -/
  | never
  /-- 2: accumulator positive or zero -/
  | posOrZero
  /-- 3: accumulator negative -/
  | negative
  /-- 4: accumulator unequal to zero -/
  | nonzero
  /-- 5: accumulator zero -/
  | zero
  /-- 6: accumulator positive and not zero -/
  | positive
  /-- 7: accumulator zero or negative -/
  | zeroOrNeg
  /-- 8: OV on -/
  | ovOn
  /-- 9: OV not on -/
  | ovOff
  /-- 10: OV on, then clear OV in any case -/
  | ovOnClear
  /-- 11: OV not on, then clear OV in any case -/
  | ovOffClear
  /-- 12: green switch center -/
  | greenCenter
  /-- 13: green switch down -/
  | greenDown
  /-- 14: digit a_0 = 0 -/
  | signZero
  /-- 15: digit a_0 = 1 -/
  | signOne
  deriving DecidableEq, Repr

/-- The 77 orders (R72). In LFR, SFR and the modifier arithmetic orders N is present iff C_1 = 1 (R69, R70). -/
inductive Instr where
  /-- CSB (80), Clear Subtract (R121) -/
  | csb (o : Operand)
  /-- CST (81), Clear Subtract Twice (R123) -/
  | cst (o : Operand)
  /-- CAD (82), Clear Add (R120) -/
  | cad (o : Operand)
  /-- CAT (83), Clear Add Twice (R122) -/
  | cat (o : Operand)
  /-- NOT (84), Clear Add Digitwise Complement (R124) -/
  | not (o : Operand)
  /-- AND (85), Digitwise Logical Multiply (R125) -/
  | and (o : Operand)
  /-- LOR (86), Digitwise Logical OR (R126) -/
  | lor (o : Operand)
  /-- DBA (87), Single Binary Logical Left Shift of A (R127) -/
  | dba (o : Operand)
  /-- SUB (90), Subtract (R131) -/
  | sub (o : Operand)
  /-- ADD (92), Add (R129) -/
  | add (o : Operand)
  /-- MPY (+0), Multiply (R130) -/
  | mpy (o : Operand)
  /-- DIV (+1), Divide (R132) -/
  | div (o : Operand)
  /-- NDV (+2), Negative Divide (R133) -/
  | ndv (o : Operand)
  /-- VID (+3), Inverse Divide (R134) -/
  | vid (o : Operand)
  /-- LDQ (a1), Load Q (R128) -/
  | ldq (o : Operand)
  /-- DAV (a2), Difference Absolute Value (R135) -/
  | dav (o : Operand)
  /-- SSC (94), Subtract and Store Clear (R154) -/
  | ssc (d : Dest)
  /-- ASC (96), Add and Store Clear (R153) -/
  | asc (d : Dest)
  /-- STR (+4), Normalize Round and Store (R141) -/
  | str (d : Dest)
  /-- XCH (+5), exchange (R146) -/
  | xch (d : Dest)
  /-- STC (+6), Store Clear (R150) -/
  | stc (d : Dest)
  /-- STN (+7), store negative (R143) -/
  | stn (d : Dest)
  /-- STF (-0), Store Fixed Point Rounded (R144) -/
  | stf (d : Dest)
  /-- SIF (-1), Store Integer Part as a Floating Point Number (R147) -/
  | sif (d : Dest)
  /-- SEQ (-2), Store Rounded with Exponent Equal (R145) -/
  | seq (d : Dest)
  /-- STU (-4), Store Unnormalized but Rounded (R142) -/
  | stu (d : Dest)
  /-- STL (-5), Store Logical (R148) -/
  | stl (d : Dest)
  /-- STQ (-6), Store Q (R149) -/
  | stq (d : Dest)
  /-- SRM (a3), Store Remainder (R151) -/
  | srm (d : Dest)
  /-- ATN (21), Add to Next Address (R179) -/
  | atn (a : AddrForm)
  /-- IBT (22), Initiate Block Transfer (R176) -/
  | ibt (a : AddrForm)
  /-- PID (23), Prepare Input Device (R172) -/
  | pid (a : AddrForm)
  /-- SFN (41), Subtract from Next Address (R180) -/
  | sfn (a : AddrForm)
  /-- FBF (42), Free Block Flipflop (R174) -/
  | fbf (a : AddrForm)
  /-- BBF (43), Busy Block Flipflop (R173) -/
  | bbf (a : AddrForm)
  /-- JLH (54), Jump to Left-Hand Control Group (R178) -/
  | jlh (a : AddrForm)
  /-- LIN (60), Load IN Register (R177) -/
  | lin (a : AddrForm)
  /-- ORB (61), Logical OR with B Digits of the Next Instruction (R181) -/
  | orb (a : AddrForm)
  /-- POD (62), Prepare Output Device (R175) -/
  | pod (a : AddrForm)
  /-- SBE (91), Subtract from Exponent (R164) -/
  | sbe (a : AddrForm)
  /-- ADE (93), Add to Exponent (R163) -/
  | ade (a : AddrForm)
  /-- CSE (95), Clear Subtract Exponent (R162) -/
  | cse (a : AddrForm)
  /-- CAE (97), Clear Add Exponent (R161) -/
  | cae (a : AddrForm)
  /-- LRS (a5), Long Logical Right Shift (R166) -/
  | lrs (a : AddrForm)
  /-- ARS (a7), Logical Right Shift A (R165) -/
  | ars (a : AddrForm)
  /-- CJS (55), Count and Conditional Jump to Second (R192) -/
  | cjs (m : BitVec 4) (c : BitVec 2)
  /-- CJF (57), Count and Conditional Jump to First (R191) -/
  | cjf (m : BitVec 4) (c : BitVec 2)
  /-- SIA (-3), Store Integer Address (R168) -/
  | sia (m : BitVec 4) (c : BitVec 2)
  /-- SEX (-7), Store Exponent (R167) -/
  | sex (m : BitVec 4) (c : BitVec 2)
  /-- ASN (32), Add Special Register to Next Address (R183) -/
  | asn (r : BitVec 6)
  /-- SSN (72), Subtract Special Register from Next Address (R184) -/
  | ssn (r : BitVec 6)
  /-- SSR (73), Store in Special Register (R185) -/
  | ssr (r : BitVec 6)
  /-- SQW (31), Store Quarter Word from Fast Memory to Core Memory (R211) -/
  | sqw (b : BitVec 4) (c : BitVec 2) (n : Addr)
  /-- JNM (34), Jump if Negative Modifier (R201) -/
  | jnm (b : BitVec 4) (c : BitVec 2) (n : Addr)
  /-- JZM (35), Jump if Zero Modifier (R202) -/
  | jzm (b : BitVec 4) (c : BitVec 2) (n : Addr)
  /-- CJZ (37), Count and Jump if the Result is Zero (R199) -/
  | cjz (b : BitVec 4) (c : BitVec 2) (n : Addr)
  /-- JDC (56), Jump on One of a Diversity of Conditions (R206) -/
  | jdc (t : Condition) (c : BitVec 2) (n : Addr)
  /-- LDM (71), Load Modifier from Core Memory (R210) -/
  | ldm (b : BitVec 4) (c : BitVec 2) (n : Addr)
  /-- JPM (74), Jump if Positive Modifier (R200) -/
  | jpm (b : BitVec 4) (c : BitVec 2) (n : Addr)
  /-- JUM (75), Jump if Modifier is Unequal to Zero (R203) -/
  | jum (b : BitVec 4) (c : BitVec 2) (n : Addr)
  /-- JSB (76), Jump to Subroutine (R205) -/
  | jsb (b : BitVec 4) (c : BitVec 2) (n : Addr)
  /-- CJU (77), Count and Jump if the Result is Unequal to Zero (R198) -/
  | cju (b : BitVec 4) (c : BitVec 2) (n : Addr)
  /-- SFR (30), Store Fast Register (R214) -/
  | sfr (b : BitVec 4) (n : Option Addr) (c2 : Bool)
  /-- LFR (70), Load Fast Register (R213) -/
  | lfr (b : BitVec 4) (n : Option Addr) (c2 : Bool)
  /-- CNM (24), Clear Negate Modifier (R220) -/
  | cnm (m : BitVec 4) (n : Option Addr) (toNext : Bool)
  /-- CSM (25), Clear Subtract Modifier (R218) -/
  | csm (m : BitVec 4) (n : Option Addr) (toNext : Bool)
  /-- CRM (26), Circular Right Shift Modifier (R221) -/
  | crm (m : BitVec 4) (n : Option Addr) (toNext : Bool)
  /-- CAM (27), Clear Add Modifier (R217) -/
  | cam (m : BitVec 4) (n : Option Addr) (toNext : Bool)
  /-- NOM (44), Negate, then OR with Modifier (R227) -/
  | nom (m : BitVec 4) (n : Option Addr) (toNext : Bool)
  /-- NAM (45), Negate then AND with Modifier (R226) -/
  | nam (m : BitVec 4) (n : Option Addr) (toNext : Bool)
  /-- ORM (46), OR with Modifier (R223) -/
  | orm (m : BitVec 4) (n : Option Addr) (toNext : Bool)
  /-- ANM (47), AND with Modifier (R222) -/
  | anm (m : BitVec 4) (n : Option Addr) (toNext : Bool)
  /-- EQM (64), Equivalence with Modifier (R225) -/
  | eqm (m : BitVec 4) (n : Option Addr) (toNext : Bool)
  /-- SBM (65), Subtract from Modifier (R219) -/
  | sbm (m : BitVec 4) (n : Option Addr) (toNext : Bool)
  /-- EOM (66), Exclusive OR with Modifier (R224) -/
  | eom (m : BitVec 4) (n : Option Addr) (toNext : Bool)
  /-- ADM (67), Add to Modifier (R216) -/
  | adm (m : BitVec 4) (n : Option Addr) (toNext : Bool)
  /-- HLT (63), Black Switch Conditional Stop (R196) -/
  | hlt (b : BitVec 4) (c : BitVec 2)
  deriving DecidableEq, Repr

end Sys2Proof
end

