-- ==== Sys2Proof/Machine/State.lean ====
section
/-! DEFINITION. The state of the machine as plain data (10_state), the reasons a step can stop, and the state after reset. -/

namespace Sys2Proof.Machine

/-- The control counter: a core word address and a control group number (R13). -/
structure Counter where
  word : Addr
  group : BitVec 2
  deriving DecidableEq, Repr

/-- The floating point accumulator and its indicators (R15 to R19). -/
structure Acc where
  /-- A, 45 bits, two's complement (R15) -/
  a : BitVec 45
  /-- Q, 44 bits, no sign digit (R16) -/
  q : BitVec 44
  /-- E, 8 bits, two's complement (R17) -/
  e : BitVec 8
  /-- Z, the zero indicator (R18) -/
  z : Bool
  /-- OV, the overflow indicator (R19) -/
  ov : Bool
  deriving DecidableEq, Repr

/-- The causes of program interrupt, under the spec's own labels (R230 to R236). -/
inductive Cause where
  /-- cause (1), a correctable machine malfunction (R231) -/
  | malfunction
  /-- cause (2), completion of a block transfer (R233) -/
  | blockDone
  /-- cause (3), an illegal order (R232) -/
  | illegalOrder
  /-- cause (4), an unusual arithmetic result (R234) -/
  | arithmetic
  /-- cause (5), a clock signal (R235) -/
  | clock
  /-- a reference to a busy block (R236) -/
  | busyBlock
  deriving DecidableEq, Repr

/-- Direction of a block transfer (R172, R175). -/
inductive Direction where
  /-- into core -/
  | input
  /-- from core -/
  | output
  deriving DecidableEq, Repr

/-- The message of a PID or POD order (R280). -/
structure Message where
  direction : Direction
  channel : BitVec 5
  detail : BitVec 8
  deriving DecidableEq, Repr

/-- A block transfer in progress (R280, R247). -/
structure Transfer where
  direction : Direction
  detail : BitVec 8
  /-- next core address -/
  next : Addr
  /-- last core address of the block -/
  last : Addr
  deriving DecidableEq, Repr

/-- One word moved by an Interplay channel: `word` is what an input device gives, `stop` its stop indication (R247). -/
structure ChannelWord where
  channel : BitVec 5
  word : Word
  stop : Bool
  deriving DecidableEq, Repr

/-- Positions of the black switch (R31). -/
inductive BlackSwitch where
  /-- up, spring loaded -/
  | up
  /-- center: HLT stops -/
  | center
  /-- down: HLT is ignored -/
  | down
  deriving DecidableEq, Repr

/-- Positions of the green switch that D0 names (R32, N20). -/
inductive GreenSwitch where
  /-- center -/
  | center
  /-- down, its normal position -/
  | down
  deriving DecidableEq, Repr

/-- What acts on the machine from outside, between two orders (R270, R247, R235, log 17). -/
inductive Event where
  /-- nothing: the processor obeys its next order -/
  | order
  /-- an Interplay channel moves one word; `word` is what an input device gives, `stop` its stop indication (R247) -/
  | transfer (channel : BitVec 5) (word : Word) (stop : Bool)
  /-- a device reports a malfunction, through Interplay (R231) -/
  | malfunction
  /-- a completed block transfer asks for an interrupt (R233) -/
  | blockDone
  /-- the clock gives its signal (R235) -/
  | clock
  /-- the operator moves the black switch (R31) -/
  | black (p : BlackSwitch)
  /-- the operator moves the green switch (R32) -/
  | green (p : GreenSwitch)
  /-- the operator sets the engineering switch (R30) -/
  | engineering (on : Bool)
  /-- the operator sets the Interplay-legality switch (R33) -/
  | interplayLegal (always : Bool)
  /-- the paper tape reader gets one more character (R29, R270) -/
  | tape (c : Char7)
  deriving DecidableEq, Repr

/-- The state of the machine (10_state). -/
structure State where
  /-- core memory: (address, word) pairs in canonical form (R10, R40, log 1, log 2) -/
  core : List (Nat × Word)
  /-- the fast registers F0 to F9, with the modifiers as the quarters of F4 to F7 (R11, R12, R24) -/
  fast : Vector Word 10
  /-- the control counter cc (R13) -/
  cc : Counter
  /-- number of the pair held in F8, F9; the word address held in F9 in the one-memory period (R24, R59) -/
  ip : BitVec 13
  /-- A, Q, E, Z, OV (R15 to R19) -/
  acc : Acc
  /-- R, the fraction of the remainder (R21, R115) -/
  r : BitVec 45
  /-- ES, the exponent of the remainder (R21, R115, log 11) -/
  es : Int
  /-- the last Delayed Control order was a divide (R21) -/
  divLast : Bool
  /-- the interrupt mode (R26, R238) -/
  intMode : Bool
  /-- the cause recorded by the last program interrupt (R237) -/
  cause : Option Cause
  /-- the pending amount for the next address (R27, R92) -/
  na : BitVec 13
  /-- the pending value for the next B digits (R27, R94) -/
  nb : BitVec 4
  /-- the block flipflops (R28) -/
  busy : Vector Bool 32
  /-- the last PID or POD message (R280) -/
  prepared : Message
  /-- the transfer in progress on each channel (R280) -/
  channels : Vector (Option Transfer) 32
  /-- the completion indicator (R233, R280) -/
  blockDone : Bool
  /-- words delivered to devices by channel, oldest first (R247) -/
  deviceOut : List (BitVec 5 × Word)
  /-- characters the paper tape reader has yet to give (R29) -/
  tapeIn : List Char7
  /-- characters punched, oldest first (R29) -/
  tapeOut : List Char7
  /-- black switch (R31) -/
  black : BlackSwitch
  /-- green switch (R32) -/
  green : GreenSwitch
  /-- engineering switch is on (R30) -/
  engineering : Bool
  /-- the Interplay-legality switch says always legal (R33) -/
  interplayAlways : Bool
  /-- stopped by HLT (R31, R196) -/
  stopped : Bool
  /-- implementation parameters, never changed by a step (00_scope R4) -/
  params : Params
  /-- MODEL: cc was last set by a jump that names a core word (R53, log 15) -/
  jumped : Bool
  /-- MODEL: index of the next free value (log 27) -/
  free : Nat
  /-- MODEL: what acts from outside between orders, one a step (log 17) -/
  events : List Event
  /-- MODEL: the Interplay references that fall between two core references of one order: one entry for each such place that the processor passes, in order (R50, R57, log 19) -/
  inside : List (List ChannelWord)
  deriving DecidableEq, Repr

/-- Reasons for which the machine's run ends as faulted. -/
inductive Fault where
  /-- A program interrupt (R237, D10): raised by illegal orders, busy-block references, overflow with OV_INTERRUPTS, and outside events. It carries the cause and the state the interrupt leaves, the two arguments an InterruptEntry would take. Safe: D0 gives no entry (log 8). -/
  | programInterrupt (cause : Cause) (after : State)
  /-- A non-existent order where no interrupt can occur (D26, U4): raised by the fetch. Safe: the spec gives no effect (log 9). -/
  | nonexistentUninterruptible (f : BitVec 7)
  /-- An illegal field combination, or an Interplay order with Interplay absent, where no interrupt can occur (D26, U3): raised by the order. Safe: the spec gives no effect (log 9). -/
  | illegalUninterruptible
  deriving DecidableEq, Repr

/-- Reasons for which the model defines no outcome. -/
inductive Refusal where
  /-- An instruction without a meaning yet: raised by a refused arm of exec only. Safe. -/
  | notModelled (mnemonic : String)
  /-- ASN or SSN with no character left on the tape (R182, U9): raised by the read of special register 0. Safe: D0 gives no effect (log 20). -/
  | tapeReaderEmpty
  deriving DecidableEq, Repr

/-- What a meaning answers. -/
abbrev Out := Host.Outcome State Fault Refusal

/-- The machine after reset. D0 states no reset value (R36, R260), so these are the values of log 2 to log 7; na, nb, divLast, stopped, the held pair and the idle channels are the launch premises of R261. -/
def State.reset : State :=
  { core := []
    fast := Vector.replicate 10 0
    cc := ⟨0, 0⟩
    ip := 0
    acc := ⟨0, 0, 0, false, false⟩
    r := 0
    es := 0
    divLast := false
    intMode := false
    cause := none
    na := 0
    nb := 0
    busy := Vector.replicate 32 false
    prepared := ⟨.input, 0, 0⟩
    channels := Vector.replicate 32 none
    blockDone := false
    deviceOut := []
    tapeIn := []
    tapeOut := []
    black := .center
    green := .down
    engineering := false
    interplayAlways := false
    stopped := false
    params := Params.finalMachine
    jumped := false
    free := 0
    events := []
    inside := [] }

end Sys2Proof.Machine
end

