-- ==== Sys2Proof/Machine/Ops.lean ====
section
/-! DEFINITION. Named operations over words, core memory, registers, the control counter, the Block Checker and program interrupt. -/

namespace Sys2Proof.Machine

/-! Fields of a word (00_scope R7). -/

/-- quarter(W, k), k counted from the left (R7, R41). -/
def quarter (w : Word) (k : Nat) : Group := w.extractLsb' (39 - 13 * (k % 4)) 13

/-- The word with the four given quarters, from the left (R7). -/
def ofQuarters (q0 q1 q2 q3 : Group) : Word := q0 ++ q1 ++ q2 ++ q3

/-- setquarter(W, k, v) (R7). -/
def setQuarter (w : Word) (k : Nat) (v : Group) : Word :=
  match k % 4 with
  | 0 => ofQuarters v (quarter w 1) (quarter w 2) (quarter w 3)
  | 1 => ofQuarters (quarter w 0) v (quarter w 2) (quarter w 3)
  | 2 => ofQuarters (quarter w 0) (quarter w 1) v (quarter w 3)
  | _ => ofQuarters (quarter w 0) (quarter w 1) (quarter w 2) v

/-- rep4(v) (R6). -/
def rep4 (v : Group) : Word := ofQuarters v v v v

/-- frac(W), the 45-bit fraction field (R7). -/
def frac (w : Word) : BitVec 45 := w.extractLsb' 7 45

/-- expf(W), the 7-bit exponent field (R7). -/
def expf (w : Word) : BitVec 7 := w.extractLsb' 0 7

/-- xval(W): the fraction as an integer in units of 2^-44 (R7). -/
def xval (w : Word) : Int := (frac w).toInt

/-- yval(W): the exponent (R7). -/
def yval (w : Word) : Int := (expf w).toInt

/-- mkword(m, y) (R7). -/
def mkword (m y : Int) : Word := BitVec.ofInt 45 m ++ BitVec.ofInt 7 y

/-- ZEROWORD, floating point zero 0·4^-64 (R7, R20). -/
def zeroWord : Word := mkword 0 (-64)

/-! Core memory (R10, R40, log 1, log 2). -/

/-- What an unlisted core word reads as (log 2). -/
def unlistedWord : Word := 0

/-- The word at an index of core. -/
def Mem.read : List (Nat × Word) → Nat → Word
  | [], _ => unlistedWord
  | (b, w) :: t, a => if a = b then w else Mem.read t a

/-- Core with the word at one index replaced, in canonical form. -/
def Mem.write : List (Nat × Word) → Nat → Word → List (Nat × Word)
  | [], a, v => if v = unlistedWord then [] else [(a, v)]
  | (b, w) :: t, a, v =>
    if a < b then (if v = unlistedWord then (b, w) :: t else (a, v) :: (b, w) :: t)
    else if a = b then (if v = unlistedWord then t else (a, v) :: t)
    else (b, w) :: Mem.write t a v

/-- Every listed address lies above `lo`, and they rise strictly. -/
def Mem.risingAbove (lo : Nat) : List (Nat × Word) → Bool
  | [] => true
  | (a, _) :: t => decide (lo ≤ a) && Mem.risingAbove (a + 1) t

/-- Core is in canonical form: addresses strictly rising and inside core, no word listed that an unlisted address reads as. -/
def Mem.wf (m : List (Nat × Word)) : Bool :=
  Mem.risingAbove 0 m && m.all fun p => decide (p.1 < 8192) && decide (p.2 ≠ unlistedWord)

/-- The index of a core address: addresses are taken modulo CORE_WORDS (R44, R45, R59). -/
def coreIndex (p : Params) (addr : Addr) : Nat := addr.toNat % p.coreWords

/-- The core word an address names (R44). -/
def State.coreWord (s : State) (addr : Addr) : Word := Mem.read s.core (coreIndex s.params addr)

/-- Core with the word an address names replaced (R45). -/
def State.setCore (s : State) (addr : Addr) (v : Word) : State :=
  { s with core := Mem.write s.core (coreIndex s.params addr) v }

/-! Fast registers and modifiers (R8, R11, R12). -/

/-- F[j] (R8). -/
def State.getF (s : State) (j : Nat) : Word := s.fast.getD j 0

/-- F[j] <- v (R8). -/
def State.setF (s : State) (j : Nat) (v : Word) : State := { s with fast := s.fast.setIfInBounds j v }

/-- M[i] = quarter(F[4 + i div 4], i mod 4) (R12). -/
def State.getM (s : State) (i : BitVec 4) : Group := quarter (s.getF (4 + i.toNat / 4)) (i.toNat % 4)

/-- M[i] <- v (R12). -/
def State.setM (s : State) (i : BitVec 4) (v : Group) : State :=
  s.setF (4 + i.toNat / 4) (setQuarter (s.getF (4 + i.toNat / 4)) (i.toNat % 4) v)

/-- One is added to a modifier, modulo 8192 (R197, R83). -/
def State.countM (s : State) (i : BitVec 4) : State := s.setM i (s.getM i + 1)

/-! Other single updates. -/

/-- The pending amounts are consumed (step 6 of R80). -/
def State.clearPending (s : State) : State := { s with na := 0, nb := 0 }

/-- The accumulator after a Delayed Control order other than a divide (R21). -/
def State.afterDC (s : State) (x : Acc) : State := { s with acc := x, divLast := false }

/-- The accumulator and the remainder after a divide (R21, R115). -/
def State.afterDivide (s : State) (x : Acc) (rem : BitVec 45 × Int) : State :=
  { s with acc := x, r := rem.1, es := rem.2, divLast := true }

/-! The control counter (R13, R14, R190). -/

/-- next(w, p), wrapping from word 8191 to word 0 (R14, D11). -/
def Counter.succ (c : Counter) : Counter :=
  if c.group = 3 then ⟨c.word + 1, 0⟩ else ⟨c.word, c.group + 1⟩

/-- cc past an order of `groups` control groups (R14). -/
def Counter.past (c : Counter) (groups : Nat) : Counter :=
  match groups with
  | 0 => c
  | n + 1 => Counter.past c.succ n

/-- Advance cc past the order (R14). -/
def State.advance (s : State) (groups : Nat) : State := { s with cc := s.cc.past groups }

/-- Jump to word `w`, position `c` (R190). The refill comes with the fetch of the next order (R53, log 15). -/
def State.jumpTo (s : State) (w : Addr) (c : BitVec 2) : State := { s with cc := ⟨w, c⟩, jumped := true }

/-- Jump inside the held words, without any refill (R54). -/
def State.jumpHeld (s : State) (w : Addr) (c : BitVec 2) : State := { s with cc := ⟨w, c⟩ }

/-- The core address of the word held in F8 (`second` false) or F9 (`second` true); in the one-memory period both orders mean the one held word (R54, R59). -/
def State.heldAddr (s : State) (second : Bool) : Addr :=
  if s.params.twoMemories then (if second then 2 * s.ip + 1 else 2 * s.ip) else s.ip

/-! Program interrupt (R230 to R241). -/

/-- An interrupt can be taken: not in the interrupt mode, engineering switch off (R238, R240, R251). -/
def State.interruptible (s : State) : Bool := !s.intMode && !s.engineering

/-- What D0 says of taking an interrupt: the interrupt mode is set; the cause is recorded (R237). -/
def State.enterInterrupt (s : State) (c : Cause) : State := { s with intMode := true, cause := some c }

/-- Leaving the interrupt mode, by JDC with B = 0; nothing else is restored (R239). -/
def State.leaveInterrupt (s : State) : State := { s with intMode := false }

/-- A program interrupt ends the run: D0 gives no entry (R237, D10, log 8). -/
def raiseInterrupt (c : Cause) (s : State) : Out := .fault (.programInterrupt c (s.enterInterrupt c))

/-- An interrupt request that has no effect where no interrupt can occur (R238 (c), R240 (a), log 17). -/
def requestInterrupt (c : Cause) (s : State) : Out :=
  if s.interruptible then raiseInterrupt c s else .next s

/-- An illegal field combination (R74): IllegalOrder before any change of state (R96), or a fault where no interrupt can occur (D26). -/
def illegalOrder (s : State) : Out :=
  if s.interruptible then raiseInterrupt .illegalOrder s else .fault .illegalUninterruptible

/-- A non-existent order (R73, D26). -/
def nonexistentOrder (f : BitVec 7) (s : State) : Out :=
  if s.interruptible then raiseInterrupt .illegalOrder s else .fault (.nonexistentUninterruptible f)

/-! The Block Checker and checked references (R44 to R47). -/

/-- The block of an address (R47). -/
def blockOf (addr : Addr) : BitVec 5 := addr.extractLsb' 8 5

/-- busy[k] (R28). -/
def State.isBusy (s : State) (k : BitVec 5) : Bool := s.busy.getD k.toNat false

/-- busy[k] <- v (R173, R174). -/
def State.setBusy (s : State) (k : BitVec 5) (v : Bool) : State :=
  { s with busy := s.busy.setIfInBounds k.toNat v }

/-- A reference to `addr` is a violation (R46). -/
def State.violation (s : State) (addr : Addr) : Bool :=
  s.isBusy (blockOf addr) && !s.intMode && !s.engineering

/-- MemRead(addr) (R44). -/
def memRead (s : State) (addr : Addr) (k : Word → Out) : Out :=
  if s.violation addr then raiseInterrupt .busyBlock s else k (s.coreWord addr)

/-- MemWrite(addr, v): a refused store leaves core unchanged (R45). -/
def memWrite (s : State) (addr : Addr) (v : Word) (k : State → Out) : Out :=
  if s.violation addr then raiseInterrupt .busyBlock s else k (s.setCore addr v)

/-! The end of an order (step 10 of R80). -/

/-- An Advanced Control order ends: cc advances. -/
def complete (groups : Nat) (s : State) : Out := .next (s.advance groups)

/-- A Delayed Control order ends: cc advances; with OV_INTERRUPTS, an order that turned OV on then asks for the Arithmetic interrupt (R234). `ovBefore` is OV before the order. -/
def completeDC (groups : Nat) (ovBefore : Bool) (s : State) : Out :=
  if s.params.ovInterrupts && !ovBefore && s.acc.ov then requestInterrupt .arithmetic (s.advance groups)
  else .next (s.advance groups)

end Sys2Proof.Machine
end

