-- ==== Sys2Proof/Machine/Flags.lean ====
section
/-! DEFINITION. The accumulator as integers and the indicators Z and OV: SetOV, the exponent range, and K, "correct overflow and detect zero" (41_fp_common R100, R105, R107, R108). -/

namespace Sys2Proof.Machine

/-- A_int = a · 2^44 (R15). -/
def Acc.aInt (x : Acc) : Int := x.a.toInt

/-- Q_int = q · 2^44 (R16). -/
def Acc.qInt (x : Acc) : Int := x.q.toNat

/-- AQ = A_int · 2^44 + Q_int = f · 2^88 (R16). -/
def Acc.aq (x : Acc) : Int := x.aInt * 2 ^ 44 + x.qInt

/-- e (R17). -/
def Acc.eInt (x : Acc) : Int := x.e.toInt

/-- AQ <- v for v in [-2^88, 2^88) (R100). -/
def Acc.setAQ (x : Acc) (v : Int) : Acc :=
  { x with a := BitVec.ofInt 45 (v / 2 ^ 44), q := BitVec.ofInt 44 v }

/-- E <- v mod 256 (R17, R108). -/
def Acc.setE (x : Acc) (v : Int) : Acc := { x with e := BitVec.ofInt 8 v }

/-- Z <- 1 where the condition holds; Z is not cleared. -/
def Acc.orZ (x : Acc) (p : Bool) : Acc := { x with z := x.z || p }

/-- Z <- 0. -/
def Acc.clearZ (x : Acc) : Acc := { x with z := false }

/-- SetOV(): inhibited when Z is on (R107). -/
def Acc.setOV (x : Acc) : Acc := if x.z then x else { x with ov := true }

/-- SetOV() where the condition holds. -/
def Acc.setOVIf (x : Acc) (p : Bool) : Acc := if p then x.setOV else x

/-- OV <- 1 although Z is on: VID only (R107, R134). -/
def Acc.forceOV (x : Acc) : Acc := { x with ov := true }

/-- wrap89(v): the integer in [-2^88, 2^88) congruent to v modulo 2^89 (R100). -/
def wrap89 (v : Int) : Int := Int.bmod v (2 ^ 89)

/-- A fraction in units of 2^-88 lies in [-1, 1) (R105). -/
def inRange (fw : Int) : Bool := decide (-2 ^ 88 ≤ fw) && decide (fw < 2 ^ 88)

/-- Z for a calculated exponent below -128, OV for one above 127 (R108). -/
def Acc.monitorE (x : Acc) (ew : Int) : Acc :=
  (x.setOVIf (decide (127 < ew))).orZ (decide (ew < -128))

/-- K(Fw, ew), correct overflow and detect zero (R105). -/
def Acc.k (x : Acc) (fw ew : Int) : Acc :=
  let x1 := x.orZ (decide (fw = 0))
  if x1.z then (x1.setAQ (wrap89 fw)).setE ew
  else if inRange fw then (x1.setAQ fw).setE ew
  else ((x1.setOVIf (decide (127 < ew + 1))).setAQ (fw / 4)).setE (ew + 1)

/-- K on the accumulator as it stands: it can only set Z. -/
def Acc.kHere (x : Acc) : Acc := x.k x.aq x.eInt

end Sys2Proof.Machine
end

