-- ==== Sys2Proof/Machine/Float.lean ====
section
/-! DEFINITION. The common operations of the floating point orders (41_fp_common R101 to R117). -/

namespace Sys2Proof.Machine

/-! Normalization (R101 to R103, R114). -/

/-- IsNorm: a fraction in units of 2^-44 is normalized (R101). -/
def isNorm (n : Int) : Bool := decide (2 ^ 42 ≤ n) || decide (n < -2 ^ 42)

/-- top45(v) (R100). -/
def top45 (v : Int) : Int := v / 2 ^ 44

/-- What normalization works on: AQ, the exponent as an integer, and Z. -/
structure NormWork where
  v : Int
  e : Int
  z : Bool
  deriving DecidableEq, Repr

/-- Step 1 of R102, or of R103 with `part`: normalization is done. -/
def NormWork.done (part : Bool) (w : NormWork) : Bool :=
  w.z || (part && decide (w.v % 2 ^ 44 = 0)) || isNorm (top45 w.v)

/-- A left shift of `p` places with the exponent counted down (R102 steps 2 and 3). -/
def NormWork.shift (w : NormWork) (p : Nat) : NormWork :=
  { v := w.v * 4 ^ p, e := w.e - p, z := w.z || decide (w.e - p < -128) }

/-- The loop of R102. 129 rounds are enough: each that goes on takes 2 from an exponent that starts at most 127, and Z stops it below -128. -/
def normLoop (part : Bool) : Nat → NormWork → NormWork
  | 0, w => w
  | fuel + 1, w =>
    if w.done part then w
    else if isNorm (top45 (w.v * 4)) then w.shift 1
    else normLoop part fuel (w.shift 2)

/-- Normalize() or, with `part`, PartialNormalize() (R102, R103). -/
def Acc.normalizeWith (part : Bool) (x : Acc) : Acc :=
  let w := normLoop part 129 ⟨x.aq, x.eInt, x.z⟩
  ({ x with z := w.z }.setAQ w.v).setE w.e

/-- Normalize() (R102). -/
def Acc.normalize (x : Acc) : Acc := x.normalizeWith false

/-- PartialNormalize() (R103). -/
def Acc.partialNormalize (x : Acc) : Acc := x.normalizeWith true

/-- The loop of R114; 23 rounds are enough for a fraction that is not 0. -/
def normOperandLoop : Nat → Int → Int → Int × Int
  | 0, xi, y => (xi, y)
  | fuel + 1, xi, y => if isNorm xi then (xi, y) else normOperandLoop fuel (xi * 4) (y - 1)

/-- NormalizeOperand(xi, y) (R114). -/
def normalizeOperand (xi y : Int) : Int × Int :=
  if xi = 0 then (xi, y) else normOperandLoop 23 xi y

/-! Round-off (R104). -/

/-- a_r in units of 2^-44 (R104). -/
def Acc.round (x : Acc) : Int :=
  if x.qInt < 2 ^ 43 then x.aInt
  else if x.qInt = 2 ^ 43 then x.aInt + x.aInt % 2
  else x.aInt + 1

/-- ε of R104 and R150: 1 where rounding added one. -/
def Acc.eps (x : Acc) : Int := x.round - x.aInt

/-! Storing (R106, R117). -/

/-- The rounded fraction and exponent with +1 and -1/4 replaced (R106). -/
def storeAdjust (m es : Int) : Int × Int :=
  if m = 2 ^ 44 then (2 ^ 42, es + 1)
  else if m = -2 ^ 42 then (-2 ^ 44, es - 1)
  else (m, es)

/-- StoreConvert(m, es): the word to store, and the accumulator with OV as it leaves it (R106). -/
def Acc.storeConvert (x : Acc) (m es : Int) : Word × Acc :=
  let p := storeAdjust m es
  if p.1 = 0 ∨ p.2 ≤ -64 then (zeroWord, x)
  else (mkword p.1 p.2, x.setOVIf (decide (64 ≤ p.2)))

/-- StrWord(norm) (R141). -/
def Acc.strWord (x : Acc) (norm : Bool) : Word × Acc :=
  if x.z then (zeroWord, x)
  else
    let x1 := if norm then x.normalize else x
    if x1.z then (zeroWord, x1) else x1.storeConvert x1.round x1.eInt

/-! Aligned addition (R110). -/

/-- AddAligned(Fa, ea, Fb, eb) (R110). -/
def addAligned (fa ea fb eb : Int) : Int × Int :=
  if eb ≤ ea then (fa + fb / 4 ^ (ea - eb).toNat, ea)
  else (fa / 4 ^ (eb - ea).toNat + fb, eb)

/-- AddSub(sg) of R129 with the operand word w. -/
def Acc.addSub (x : Acc) (sg : Int) (w : Word) : Acc :=
  let fb := sg * xval w * 2 ^ 44
  let y := yval w
  let d := x.eInt - y
  if y = -64 then x
  else if x.z then x.clearZ.k fb y
  else if 45 ≤ d then x
  else if d ≤ -45 then x.clearZ.k fb y
  else
    let p := addAligned x.aq x.eInt fb y
    x.k p.1 p.2

/-! Shifting to a given exponent (R111). -/

/-- ShiftToExponent(t), used only when Z is off (R111, D19). -/
def Acc.shiftToExponent (x : Acc) (t : Int) : Acc :=
  let n := x.eInt - t
  if 0 < n then
    let fw := x.aq * 4 ^ n.toNat
    ((x.setOVIf (!inRange fw)).setAQ (wrap89 fw)).setE t
  else (x.setAQ (x.aq / 4 ^ (-n).toNat)).setE t

/-- StoreShifted(t): the word of STF and SEQ, and the accumulator (R144, R145). -/
def Acc.storeShifted (x : Acc) (t : Int) : Word × Acc :=
  let x1 := if x.z then x else x.shiftToExponent t
  let ar := x1.round
  let x2 := x1.setOVIf (decide (ar = 2 ^ 44))
  let w := if x2.z = true ∨ ar = 0 ∨ t ≤ -64 then zeroWord else mkword ar t
  (w, x2.kHere)

/-- The integer store of SIF (t = 22) and SIA (t = 6): no rounding (R147, R168).

DEDUCED, unsafe (log 31): R168 contradicts itself on SIA of 1/2·4^0. Its corner case gives A = 0 and floating point zero, its pseudocode with R111 gives A = 2^31 and F0 = 0x0004000000006. The pseudocode is followed: floating point zero is stored only with Z on or A = 0, so SIA of a number with the integer part 0 keeps its fraction. -/
def Acc.storeInteger (x : Acc) (t : Int) : Word × Acc :=
  let x1 := if x.z then x else x.shiftToExponent t
  let w := if x1.z = true ∨ x1.aInt = 0 then zeroWord else mkword x1.aInt t
  (w, x1.kHere)

/-- The tail of STC: (q - ε), 0, e - 22 (R150). -/
def Acc.stcTail (x : Acc) : Acc :=
  let ew := x.eInt - 22
  (x.orZ (decide (ew < -128))).k ((x.qInt - x.eps * 2 ^ 44) * 2 ^ 44) ew

/-! Division (R112, R113, R115). -/

/-- The remainder set by a by-pass: floating zero (R115, D9, log 11). -/
def zeroRemainder : BitVec 45 × Int := (0, -64)

/-- The rounded quotient floor(t · 2^44 + 1/2) for t = Fn / (xd · 2^44 · 4^s) (R113). -/
def roundedQuotient (fn xd : Int) (s : Nat) : Int := Int.fdiv (2 * fn + xd * 4 ^ s) (2 * (xd * 4 ^ s))

/-- s of R112: 1 where the division is improper (D8). -/
def improper (fn xd : Int) : Nat := if xd.natAbs * 2 ^ 44 < fn.natAbs then 1 else 0

/-- DivideCore(Fn, en, xd, yd): the accumulator and the remainder (R112). `x` is the accumulator as prepared by the order. -/
def Acc.divideCore (x : Acc) (fn en xd yd : Int) : Acc × (BitVec 45 × Int) :=
  let s := improper fn xd
  let eq := en - yd + s
  if eq < -128 then (x.orZ true, zeroRemainder)
  else
    ((x.setOVIf (decide (127 < eq))).k (roundedQuotient fn xd s * 2 ^ 44) eq,
      Config.divRemainder fn en xd yd)

end Sys2Proof.Machine
end

