-- ==== Sys2Proof/Machine/Interplay.lean ====
section
/-! DEFINITION. Interplay: block transfers, the words they move, and the references of theirs that fall inside an order (20_memory R50 and R57, 45_interplay_and_address_orders R176, 60_exceptions R247; log 18, log 19). -/

namespace Sys2Proof.Machine

/-- The device of a channel works on fixed 256-word blocks: the drum, channel 0, does; for every other channel it is a parameter (R176, R247, log 18). -/
def Params.fixedBlock (p : Params) (channel : BitVec 5) : Bool :=
  channel == 0 || p.fixedBlocks.getD channel.toNat false

/-- The transfer that IBT begins (R176, R247). -/
def transferOf (p : Params) (msg : Message) (addr : Addr) : Transfer :=
  { direction := msg.direction
    detail := msg.detail
    next := if p.fixedBlock msg.channel then blockOf addr ++ (0 : BitVec 8) else addr
    last := blockOf addr ++ (255 : BitVec 8) }

/-- A transfer in progress on a channel, or none (R280). -/
def State.setChannel (s : State) (channel : BitVec 5) (t : Option Transfer) : State :=
  { s with channels := s.channels.setIfInBounds channel.toNat t }

/-- The transfer in progress on a channel (R280). -/
def State.channel (s : State) (channel : BitVec 5) : Option Transfer :=
  s.channels.getD channel.toNat none

/-- The transfer after one word, or none where it is done: `next > last`, or a stop indication on a device without fixed blocks (R247). -/
def Transfer.afterWord (p : Params) (channel : BitVec 5) (stop : Bool) (t : Transfer) : Option Transfer :=
  if t.last.toNat ≤ t.next.toNat || (stop && !p.fixedBlock channel) then none
  else some { t with next := t.next + 1 }

/-- The word itself: into core, unchecked by the Block Checker, or out to the device (R46, R247). -/
def State.moveWord (s : State) (channel : BitVec 5) (word : Word) (t : Transfer) : State :=
  match t.direction with
  | .input => s.setCore t.next word
  | .output => { s with deviceOut := s.deviceOut ++ [(channel, s.coreWord t.next)] }

/-- One word of a channel's transfer; the completion sets blockDone (R247). Nothing without Interplay (D31) or with the channel idle. -/
def State.transferWord (s : State) (channel : BitVec 5) (word : Word) (stop : Bool) : State :=
  if s.params.interplayPresent then
    match s.channel channel with
    | none => s
    | some t =>
      let s1 := (s.moveWord channel word t).setChannel channel (t.afterWord s.params channel stop)
      if (t.afterWord s.params channel stop).isNone then { s1 with blockDone := true } else s1
  else s

/-- The words some channels move, one after another (R50 (2)). -/
def State.transferWords (s : State) : List ChannelWord → State
  | [] => s
  | c :: cs => (s.transferWord c.channel c.word c.stop).transferWords cs

/-- A place between two core references of one order: the Interplay references that fall there take effect (R50 (2), R57, D20, D21, log 19). -/
def State.interlude (s : State) : State :=
  match s.inside with
  | [] => s
  | cs :: rest => { s with inside := rest }.transferWords cs

end Sys2Proof.Machine
end

