-- ==== Sys2Proof/Machine/Operands.lean ====
section
/-! DEFINITION. Address construction, operands, destinations and the shapes the orders share (40_operand_preparation). -/

namespace Sys2Proof.Machine

/-! Lengths (R62). -/

/-- Control groups of an order with a normal address (R63). -/
def normalGroups : NormalAddr → Nat
  | .direct _ => 1
  | .counted _ => 1
  | .indexed _ _ => 2
  | .fixed _ => 2

/-- Control groups of a full-word arithmetic order (R63). -/
def operandGroups : Operand → Nat
  | .core a => normalGroups a
  | .fast _ => 1
  | .integer _ => 2
  | .fraction _ => 2
  | .zero _ => 1

/-- Control groups of an order whose N is present iff C_1 = 1 (R69, R70). -/
def c1Groups (n : Option Addr) : Nat := if n.isSome then 2 else 1

/-! Addresses (R82, R83, R91). -/

/-- NormalAddress(B, C, N), with the pending amount added (R82). -/
def State.address (s : State) : NormalAddr → Addr
  | .direct m => s.getM m + s.na
  | .counted m => s.getM m + s.na
  | .indexed m n => n + s.getM m + s.na
  | .fixed n => n + s.na

/-- Counting with C = 1, after the address is formed (R83, D14). -/
def State.countFor (s : State) : NormalAddr → State
  | .counted m => s.countM m
  | _ => s

/-- Steps 5 and 6 of R80: count, then clear the pending amounts. -/
def State.prepare (s : State) (a : NormalAddr) : State := (s.countFor a).clearPending

/-- The address of the classes whose N stands alone (R91). -/
def State.plainAddress (s : State) (n : Addr) : Addr := n + s.na

/-- The address of LFR, SFR and the modifier arithmetic orders (R91, R212). -/
def State.c1Address (s : State) (n : Option Addr) : Addr := n.getD 0 + s.na

/-! Operands (R84 to R86). -/

/-- The default of R85: N in quarter 0, with exponent 6 for B = 9 and 0 for B = 10 (D3). -/
def immDefaultWord (b : BitVec 4) (n : Addr) : Word :=
  mkword (n.toInt * 2 ^ 32) (if b = 9 then 6 else 0)

/-- x·4^y of a word as an exact integer, in units of 2^-44·4^-64 (R7). -/
def exactValue (w : Word) : Int := xval w * 4 ^ (yval w + 64).toNat

/-- ImmOperandWord(9, N) and (10, N): the default, or any word of the same value (R85, D3, log 10). -/
def immOperandWord (p : Params) (b : BitVec 4) (n : Addr) : Word :=
  if p.immDefault = false ∧ exactValue (Config.immOperandWord b n) = exactValue (immDefaultWord b n) then
    Config.immOperandWord b n
  else immDefaultWord b n

/-- FetchOperand: obtain the operand word, place it in F1, and go on (R84). -/
def withOperand (s : State) (o : Operand) (k : Word → State → Out) : Out :=
  match o with
  | .core a => memRead (s.prepare a) (s.address a) fun w => k w ((s.prepare a).setF 1 w)
  | .fast r => k (s.getF r.toNat) (s.clearPending.setF 1 (s.getF r.toNat))
  | .integer n =>
    k (immOperandWord s.params 9 n) (s.clearPending.setF 1 (immOperandWord s.params 9 n))
  | .fraction n =>
    k (immOperandWord s.params 10 n) (s.clearPending.setF 1 (immOperandWord s.params 10 n))
  | .zero _ => k zeroWord (s.clearPending.setF 1 zeroWord)

/-- A full-word arithmetic order whose action turns the operand and the accumulator into an accumulator (file 42). -/
def arithOrder (o : Operand) (act : Word → Acc → Acc) (s : State) : Out :=
  withOperand s o fun w s1 =>
    completeDC (operandGroups o) s.acc.ov (s1.afterDC (act w s1.acc))

/-- A divide: the action also gives the remainder (R132 to R134). -/
def divideOrder (o : Operand) (act : Word → Acc → Acc × (BitVec 45 × Int)) (s : State) : Out :=
  withOperand s o fun w s1 =>
    completeDC (operandGroups o) s.acc.ov (s1.afterDivide (act w s1.acc).1 (act w s1.acc).2)

/-! Destinations (R64, R74, R87, R88, R140). -/

/-- A register destination is illegal for B = 1 and B >= 9 (R74). -/
def destIllegal (b : BitVec 4) : Bool := b == 1 || decide (8 ≤ b.toNat)

/-- F[0] <- W, then the copy to F_B; with B = 0 there is nothing more to copy (R87). -/
def State.storeFast (s : State) (b : BitVec 4) (w : Word) : State :=
  if b = 0 then s.setF 0 w else (s.setF 0 w).setF b.toNat w

/-- A full-word store order whose action gives the word to store and the state after the Delayed Control action (R140, R87). -/
def storeOrder (d : Dest) (act : State → Word × State) (s : State) : Out :=
  match d with
  | .core a =>
    let p := act (s.prepare a)
    memWrite (p.2.setF 0 p.1) (s.address a) p.1 fun s2 => completeDC (normalGroups a) s.acc.ov s2
  | .fast b =>
    if destIllegal b then illegalOrder s
    else
      let p := act s.clearPending
      completeDC 1 s.acc.ov (p.2.storeFast b p.1)

/-- A store order that only uses the accumulator. -/
def storeAcc (d : Dest) (act : Acc → Word × Acc) (s : State) : Out :=
  storeOrder d (fun s1 => ((act s1.acc).1, s1.afterDC (act s1.acc).2)) s

/-- XCH, ASC, SSC: the destination is first read as the operand, into F1; Interplay may refer to core between that read and the write (R57, R88, D20). -/
def exchangeOrder (d : Dest) (act : Word → Acc → Word × Acc) (s : State) : Out :=
  match d with
  | .core a =>
    memRead (s.prepare a) (s.address a) fun w =>
      let s1 := ((s.prepare a).setF 1 w).interlude
      let p := act w s1.acc
      memWrite ((s1.afterDC p.2).setF 0 p.1) (s.address a) p.1 fun s2 =>
        completeDC (normalGroups a) s.acc.ov s2
  | .fast b =>
    if destIllegal b then illegalOrder s
    else
      let w := s.getF b.toNat
      let s1 := s.clearPending.setF 1 w
      let p := act w s1.acc
      completeDC 1 s.acc.ov ((s1.afterDC p.2).storeFast b p.1)

/-! The address as operand (R89, R160, R171). -/

/-- Construct the address of a NORMAL_ADDR order; C = 3 with B other than 8 is illegal (R171, R74). -/
def withAddress (f : AddrForm) (s : State) (k : Nat → Addr → State → Out) : Out :=
  match f with
  | .addr a => k (normalGroups a) (s.address a) (s.prepare a)
  | .noAddress _ => illegalOrder s

/-- y*: the address modulo 256 as a signed number (R89). -/
def ystar (addr : Addr) : Int := (addr.extractLsb' 0 8 : BitVec 8).toInt

/-- y of the shifts: the address modulo 128 as a signed number (R89). -/
def yshift (addr : Addr) : Int := (addr.extractLsb' 0 7 : BitVec 7).toInt

/-- An exponent or shift order: four copies of the address go to F1 (R160). -/
def addressDC (f : AddrForm) (act : Addr → Acc → Acc) (s : State) : Out :=
  withAddress f s fun g addr s1 =>
    completeDC g s.acc.ov ((s1.setF 1 (rep4 addr)).afterDC (act addr s1.acc))

/-- An Advanced Control order on a constructed address. -/
def addressAC (f : AddrForm) (act : Addr → State → State) (s : State) : Out :=
  withAddress f s fun g addr s1 => complete g (act addr s1)

/-- InterplayOrderLegal, but for the address form (R170, D31). -/
def State.interplayLegal (s : State) : Bool :=
  s.params.interplayPresent && (s.intMode || s.interplayAlways || s.engineering)

/-- An Interplay or Block Checker order (R170). -/
def interplayOrder (f : AddrForm) (act : Addr → State → State) (s : State) : Out :=
  if s.interplayLegal then addressAC f act s else illegalOrder s

end Sys2Proof.Machine
end

