-- ==== Sys2Proof/Machine/Address.lean ====
section
/-! DEFINITION. Interplay and Block Checker orders, LIN, JLH, the "next address" orders and the special-register orders (45_interplay_and_address_orders). -/

namespace Sys2Proof.Machine

/-- The message of PID and POD (R172, R175). -/
def messageOf (dir : Direction) (addr : Addr) : Message := ⟨dir, blockOf addr, addr.extractLsb' 0 8⟩

/-- PID (R172). -/
def execPid (a : AddrForm) (s : State) : Out :=
  interplayOrder a (fun addr s1 => { s1 with prepared := messageOf .input addr }) s

/-- POD (R175). -/
def execPod (a : AddrForm) (s : State) : Out :=
  interplayOrder a (fun addr s1 => { s1 with prepared := messageOf .output addr }) s

/-- IBT: the request is handed over (R176, log 18). -/
def execIbt (a : AddrForm) (s : State) : Out :=
  interplayOrder a
    (fun addr s1 => s1.setChannel s1.prepared.channel (some (transferOf s1.params s1.prepared addr))) s

/-- BBF (R173). -/
def execBbf (a : AddrForm) (s : State) : Out :=
  interplayOrder a (fun addr s1 => s1.setBusy (blockOf addr) true) s

/-- FBF (R174). -/
def execFbf (a : AddrForm) (s : State) : Out :=
  interplayOrder a (fun addr s1 => s1.setBusy (blockOf addr) false) s

/-- LIN (R177). -/
def execLin (a : AddrForm) (s : State) : Out := addressAC a (fun addr s1 => s1.setF 1 (rep4 addr)) s

/-- JLH (R178). -/
def execJlh (a : AddrForm) (s : State) : Out :=
  withAddress a s fun _ addr s1 => .next (s1.jumpTo addr 0)

/-- ATN (R179). -/
def execAtn (a : AddrForm) (s : State) : Out := addressAC a (fun addr s1 => { s1 with na := addr }) s

/-- SFN (R180). -/
def execSfn (a : AddrForm) (s : State) : Out := addressAC a (fun addr s1 => { s1 with na := -addr }) s

/-- ORB (R181, R94). -/
def execOrb (a : AddrForm) (s : State) : Out :=
  addressAC a (fun addr s1 => { s1 with nb := addr.extractLsb' 0 4 }) s

/-- Special register `r` is the paper tape (R182). -/
def State.isTape (s : State) (r : BitVec 6) : Bool := !s.params.specialDecoded || r == 0

/-- ReadSR(s) (R182): the next tape character; for registers 1 to 63 a free value (D24, log 13); past the end of the tape, refused (U9, log 20). -/
def readSpecial (r : BitVec 6) (s : State) (k : BitVec 13 → State → Out) : Out :=
  if s.isTape r then
    match s.tapeIn with
    | [] => .refused .tapeReaderEmpty
    | c :: rest => k (c.zeroExtend 13) { s with tapeIn := rest }
  else k (Config.freeSpecial s.free) { s with free := s.free + 1 }

/-- WriteSR(s, v) (R182): the rightmost 7 bits are punched; registers 1 to 63 have no effect (D24). -/
def State.writeSpecial (s : State) (r : BitVec 6) (v : BitVec 13) : State :=
  if s.isTape r then { s with tapeOut := s.tapeOut ++ [v.extractLsb' 0 7] } else s

/-- ASN (R183, D5). -/
def execAsn (r : BitVec 6) (s : State) : Out :=
  readSpecial r s.clearPending fun v s1 => complete 1 { s1 with na := s.na + v }

/-- SSN (R184). -/
def execSsn (r : BitVec 6) (s : State) : Out :=
  readSpecial r s.clearPending fun v s1 => complete 1 { s1 with na := s.na - v }

/-- SSR (R185). -/
def execSsr (r : BitVec 6) (s : State) : Out := complete 1 (s.clearPending.writeSpecial r s.na)

end Sys2Proof.Machine
end

