-- ==== Sys2Proof/Machine/Arith.lean ====
section
/-! DEFINITION. The sixteen full-word arithmetic orders (42_fp_arithmetic). -/

namespace Sys2Proof.Machine

/-- Clear add of `n` times the operand: Z is cleared, then K (R120 to R123). -/
def clearAdd (n : Int) (w : Word) (x : Acc) : Acc := x.clearZ.k (n * xval w * 2 ^ 44) (yval w)

/-- CAD (R120). -/
def execCad (o : Operand) (s : State) : Out := arithOrder o (clearAdd 1) s

/-- CSB (R121). -/
def execCsb (o : Operand) (s : State) : Out := arithOrder o (clearAdd (-1)) s

/-- CAT (R122). -/
def execCat (o : Operand) (s : State) : Out := arithOrder o (clearAdd 2) s

/-- CST (R123). -/
def execCst (o : Operand) (s : State) : Out := arithOrder o (clearAdd (-2)) s

/-- A <- digitwise complement of x, Q <- 0, E <- y, then K (R124). -/
def notAcc (w : Word) (x : Acc) : Acc :=
  ({ x.clearZ with a := ~~~frac w, q := 0 }.setE (yval w)).kHere

/-- NOT (R124). -/
def execNot (o : Operand) (s : State) : Out := arithOrder o notAcc s

/-- AND (R125). -/
def execAnd (o : Operand) (s : State) : Out :=
  arithOrder o (fun w x => { x.clearZ with a := x.a &&& frac w }.kHere) s

/-- LOR (R126). -/
def execLor (o : Operand) (s : State) : Out :=
  arithOrder o (fun w x => { x.clearZ with a := x.a ||| frac w }.kHere) s

/-- DBA; the operand is fetched and not used (R127). -/
def execDba (o : Operand) (s : State) : Out :=
  arithOrder o (fun _ x => { x.clearZ with a := x.a <<< 1 }.kHere) s

/-- LDQ (R128). -/
def execLdq (o : Operand) (s : State) : Out :=
  arithOrder o (fun w x => { x.clearZ with q := w.extractLsb' 7 44 }.kHere) s

/-- ADD (R129). -/
def execAdd (o : Operand) (s : State) : Out := arithOrder o (fun w x => x.addSub 1 w) s

/-- SUB (R131). -/
def execSub (o : Operand) (s : State) : Out := arithOrder o (fun w x => x.addSub (-1) w) s

/-- The action of MPY (R130). -/
def multiply (w : Word) (x : Acc) : Acc :=
  let x1 := x.partialNormalize
  if x1.z = true ∨ yval w = -64 then x1.orZ true
  else
    let ew := x1.eInt + yval w
    (x1.monitorE ew).k (x1.round * xval w) ew

/-- MPY (R130). -/
def execMpy (o : Operand) (s : State) : Out := arithOrder o multiply s

/-- DivCommon(sg), the action of DIV and NDV (R132, R133). -/
def divCommon (sg : Int) (w : Word) (x : Acc) : Acc × (BitVec 45 × Int) :=
  let x1 := x.normalize
  let p := normalizeOperand (xval w) (yval w)
  if p.1 = 0 then (x1.setOV, zeroRemainder)
  else if x1.z then (x1, zeroRemainder)
  else x1.divideCore x1.aq x1.eInt (sg * p.1) p.2

/-- DIV (R132). -/
def execDiv (o : Operand) (s : State) : Out := divideOrder o (divCommon 1) s

/-- NDV (R133). -/
def execNdv (o : Operand) (s : State) : Out := divideOrder o (divCommon (-1)) s

/-- The action of VID (R134, D22): the interchange is made before the tests. -/
def inverseDivide (w : Word) (x : Acc) : Acc × (BitVec 45 × Int) :=
  let x1 := x.normalize
  let x2 := ({ x1 with a := frac w, q := 0 }).setE (yval w)
  if x1.z then (x2.forceOV, zeroRemainder)
  else
    let p := normalizeOperand (xval w) (yval w)
    let x3 := (x2.setAQ (p.1 * 2 ^ 44)).setE p.2
    if p.1 = 0 then (x3.orZ true, zeroRemainder)
    else x3.divideCore (p.1 * 2 ^ 44) p.2 x1.round x1.eInt

/-- VID (R134). -/
def execVid (o : Operand) (s : State) : Out := divideOrder o inverseDivide s

/-- The action of DAV (R135, D18). -/
def differenceAbs (w : Word) (x : Acc) : Acc :=
  let x1 := x.partialNormalize
  let ea := x1.eInt
  let fx := -((xval w).natAbs : Int) * 2 ^ 44
  let y := yval w
  let x2 := x1.clearZ
  if x1.z then x2.k fx y
  else
    let fa := (x1.round.natAbs : Int) * 2 ^ 44
    let d := y - ea
    if 45 ≤ d then x2.k fx y
    else if d ≤ -45 then x2.k fa ea
    else
      let p := addAligned fx y fa ea
      x2.k p.1 p.2

/-- DAV (R135). -/
def execDav (o : Operand) (s : State) : Out := arithOrder o differenceAbs s

end Sys2Proof.Machine
end

