-- ==== Sys2Proof/Machine/Exponent.lean ====
section
/-! DEFINITION. Exponent arithmetic, logical shifts and the quarter-word stores (44_exponent_shift_quarter). -/

namespace Sys2Proof.Machine

/-- E <- ew with Z and OV monitored, then K (R161 to R164). -/
def setExponent (x : Acc) (ew : Int) : Acc := ((x.monitorE ew).setE ew).kHere

/-- CAE (R161). -/
def execCae (a : AddrForm) (s : State) : Out :=
  addressDC a (fun addr x => setExponent x (ystar addr)) s

/-- CSE (R162). -/
def execCse (a : AddrForm) (s : State) : Out :=
  addressDC a (fun addr x => setExponent x (-ystar addr)) s

/-- ADE (R163). -/
def execAde (a : AddrForm) (s : State) : Out :=
  addressDC a (fun addr x => setExponent x (x.eInt + ystar addr)) s

/-- SBE (R164). -/
def execSbe (a : AddrForm) (s : State) : Out :=
  addressDC a (fun addr x => setExponent x (x.eInt - ystar addr)) s

/-- A logical shift right by `n` base-4 places, or left by `-n`: zeros enter at both ends (R165, R166, D28). -/
def logicalShift {w : Nat} (v : BitVec w) (n : Int) : BitVec w :=
  if 0 ≤ n then v >>> (2 * n.toNat) else v <<< (2 * (-n).toNat)

/-- ARS (R165). -/
def execArs (a : AddrForm) (s : State) : Out :=
  addressDC a (fun addr x => { x with a := logicalShift x.a (yshift addr) }.kHere) s

/-- A and Q as one 89-digit pattern, shifted (R166). -/
def longShift (x : Acc) (n : Int) : Acc :=
  let p : BitVec 89 := logicalShift (x.a ++ x.q) n
  { x with a := p.extractLsb' 44 45, q := p.extractLsb' 0 44 }

/-- LRS (R166). -/
def execLrs (a : AddrForm) (s : State) : Out :=
  addressDC a (fun addr x => (longShift x (yshift addr)).kHere) s

/-- A quarter-word store: the word goes to F0, and the quarter aligned with M_B to M_B (R90). -/
def quarterStore (m : BitVec 4) (act : Acc → Word × Acc) (s : State) : Out :=
  let p := act s.acc
  completeDC 1 s.acc.ov
    (((s.clearPending.afterDC p.2).setF 0 p.1).setM m (quarter p.1 (m.toNat % 4)))

/-- SEX: 39 digits of A, then the exponent extended to 13 digits (R167). C has no effect (R76). -/
def execSex (m : BitVec 4) (_c : BitVec 2) (s : State) : Out :=
  quarterStore m (fun x => (x.a.extractLsb' 6 39 ++ x.e.signExtend 13, x)) s

/-- SIA (R168; log 31 on its corner case 1/2·4^0). C has no effect (R76). -/
def execSia (m : BitVec 4) (_c : BitVec 2) (s : State) : Out :=
  quarterStore m (fun x => x.storeInteger 6) s

end Sys2Proof.Machine
end

