-- ==== Sys2Proof/Machine/Jump.lean ====
section
/-! DEFINITION. Counting jumps, the conditional stop, modifier jumps, JSB and JDC (46_jumps). -/

namespace Sys2Proof.Machine

/-- CJF and CJS: count, then jump inside the held words if the result is not zero (R191, R192). -/
def countHeld (second : Bool) (m : BitVec 4) (c : BitVec 2) (s : State) : Out :=
  let s1 := s.clearPending.countM m
  if s1.getM m ≠ 0 then .next (s1.jumpHeld (s1.heldAddr second) c) else complete 1 s1

/-- CJF (R191). -/
def execCjf (m : BitVec 4) (c : BitVec 2) (s : State) : Out := countHeld false m c s

/-- CJS (R192). -/
def execCjs (m : BitVec 4) (c : BitVec 2) (s : State) : Out := countHeld true m c s

/-- HLT (R196): B and C have no effect. With the black switch held up, whether it stops is a free value (N29, log 16). -/
def execHlt (_b : BitVec 4) (_c : BitVec 2) (s : State) : Out :=
  match s.black with
  | .center => complete 1 { s.clearPending with stopped := true }
  | .down => complete 1 s.clearPending
  | .up => complete 1 { s.clearPending with stopped := Config.freeStop s.free, free := s.free + 1 }

/-- A long jump to word N + na, position C, if the condition holds (R190). -/
def jumpIf (t : Bool) (c : BitVec 2) (n : Addr) (s s1 : State) : Out :=
  if t then .next (s1.jumpTo (s.plainAddress n) c) else complete 2 s1

/-- CJU (R198). -/
def execCju (b : BitVec 4) (c : BitVec 2) (n : Addr) (s : State) : Out :=
  jumpIf (s.getM b + 1 != 0) c n s (s.clearPending.countM b)

/-- CJZ (R199). -/
def execCjz (b : BitVec 4) (c : BitVec 2) (n : Addr) (s : State) : Out :=
  jumpIf (s.getM b + 1 == 0) c n s (s.clearPending.countM b)

/-- JPM (R200). -/
def execJpm (b : BitVec 4) (c : BitVec 2) (n : Addr) (s : State) : Out :=
  jumpIf (!(s.getM b).msb) c n s s.clearPending

/-- JNM (R201). -/
def execJnm (b : BitVec 4) (c : BitVec 2) (n : Addr) (s : State) : Out :=
  jumpIf (s.getM b).msb c n s s.clearPending

/-- JZM (R202). -/
def execJzm (b : BitVec 4) (c : BitVec 2) (n : Addr) (s : State) : Out :=
  jumpIf (s.getM b == 0) c n s s.clearPending

/-- JUM (R203). -/
def execJum (b : BitVec 4) (c : BitVec 2) (n : Addr) (s : State) : Out :=
  jumpIf (s.getM b != 0) c n s s.clearPending

/-- H: the word that holds the second control group of an order at `cc` (R205). -/
def Counter.secondWord (c : Counter) : Addr := if c.group = 3 then c.word + 1 else c.word

/-- JSB: H + 1 into M_B, then the jump (R205). -/
def execJsb (b : BitVec 4) (c : BitVec 2) (n : Addr) (s : State) : Out :=
  jumpIf true c n s (s.clearPending.setM b (s.cc.secondWord + 1))

/-- a_0, the sign digit of A (R206). -/
def Acc.sign (x : Acc) : Bool := x.a.msb

/-- The sixteen conditions of JDC (R206). -/
def State.condition (s : State) : Condition → Bool
  | .leaveInterrupt => true
  | .never => false
  | .posOrZero => s.acc.z || !s.acc.sign
  | .negative => !s.acc.z && s.acc.sign
  | .nonzero => !s.acc.z
  | .zero => s.acc.z
  | .positive => !s.acc.z && !s.acc.sign
  | .zeroOrNeg => s.acc.z || s.acc.sign
  | .ovOn => s.acc.ov
  | .ovOff => !s.acc.ov
  | .ovOnClear => s.acc.ov
  | .ovOffClear => !s.acc.ov
  | .greenCenter => s.green == .center
  | .greenDown => s.green == .down
  | .signZero => !s.acc.sign
  | .signOne => s.acc.sign

/-- OV <- 0 (R206 rows 10 and 11). -/
def State.clearOV (s : State) : State := { s with acc := { s.acc with ov := false } }

/-- The side effects of JDC (R206). -/
def State.conditionEffect (s : State) : Condition → State
  | .leaveInterrupt => s.leaveInterrupt
  | .ovOnClear => s.clearOV
  | .ovOffClear => s.clearOV
  | _ => s

/-- JDC (R206): the condition is tested before its side effect. -/
def execJdc (t : Condition) (c : BitVec 2) (n : Addr) (s : State) : Out :=
  jumpIf (s.condition t) c n s (s.clearPending.conditionEffect t)

end Sys2Proof.Machine
end

