-- ==== Sys2Proof/Machine/Modifier.lean ====
section
/-! DEFINITION. LDM, SQW, LFR, SFR and the twelve modifier arithmetic orders (47_fast_register_and_modifier). -/

namespace Sys2Proof.Machine

/-- LDM (R210): the quarter is chosen by B mod 4; C has no effect (D27). -/
def execLdm (b : BitVec 4) (_c : BitVec 2) (n : Addr) (s : State) : Out :=
  memRead s.clearPending (s.plainAddress n) fun w =>
    complete 2 (s.clearPending.setM b (quarter w (b.toNat % 4)))

/-- SQW and SFR are illegal for B = 1 and B >= 8 (R74). -/
def sourceIllegal (b : BitVec 4) : Bool := b == 1 || decide (8 ≤ b.toNat)

/-- LFR is illegal for B = 0, B = 1 and B >= 8 (R74). -/
def loadIllegal (b : BitVec 4) : Bool := decide (b.toNat ≤ 1) || decide (8 ≤ b.toNat)

/-- SQW (R211): a read and a write of the whole word (D27). -/
def execSqw (b : BitVec 4) (c : BitVec 2) (n : Addr) (s : State) : Out :=
  if sourceIllegal b then illegalOrder s
  else
    memWrite s.clearPending (s.plainAddress n)
      (setQuarter (s.coreWord (s.plainAddress n)) c.toNat (quarter (s.getF b.toNat) c.toNat))
      (complete 2)

/-- LFR (R213). C_2 has no effect (R212). -/
def execLfr (b : BitVec 4) (n : Option Addr) (_c2 : Bool) (s : State) : Out :=
  if loadIllegal b then illegalOrder s
  else
    memRead s.clearPending (s.c1Address n) fun w =>
      complete (c1Groups n) (s.clearPending.setF b.toNat w)

/-- SFR (R214). C_2 has no effect (R212). -/
def execSfr (b : BitVec 4) (n : Option Addr) (_c2 : Bool) (s : State) : Out :=
  if sourceIllegal b then illegalOrder s
  else memWrite s.clearPending (s.c1Address n) (s.getF b.toNat) (complete (c1Groups n))

/-- MODARITH(op) (R215): the result goes to M_B, or with C_2 = 1 to the next address. -/
def modArith (op : Group → Group → Group) (m : BitVec 4) (n : Option Addr) (toNext : Bool)
    (s : State) : Out :=
  let r := op (s.c1Address n) (s.getM m)
  complete (c1Groups n)
    (if toNext then { s.clearPending with na := r } else s.clearPending.setM m r)

/-- CAM (R217). -/
def execCam (m : BitVec 4) (n : Option Addr) (toNext : Bool) (s : State) : Out :=
  modArith (fun addr _ => addr) m n toNext s

/-- CSM (R218). -/
def execCsm (m : BitVec 4) (n : Option Addr) (toNext : Bool) (s : State) : Out :=
  modArith (fun addr _ => -addr) m n toNext s

/-- ADM (R216). -/
def execAdm (m : BitVec 4) (n : Option Addr) (toNext : Bool) (s : State) : Out :=
  modArith (fun addr v => v + addr) m n toNext s

/-- SBM (R219). -/
def execSbm (m : BitVec 4) (n : Option Addr) (toNext : Bool) (s : State) : Out :=
  modArith (fun addr v => v - addr) m n toNext s

/-- CNM (R220). -/
def execCnm (m : BitVec 4) (n : Option Addr) (toNext : Bool) (s : State) : Out :=
  modArith (fun addr _ => ~~~addr) m n toNext s

/-- CRM: rotate right by the rightmost 4 bits of the address, modulo 13 (R221). -/
def execCrm (m : BitVec 4) (n : Option Addr) (toNext : Bool) (s : State) : Out :=
  modArith (fun addr v => v.rotateRight ((addr.extractLsb' 0 4 : BitVec 4).toNat % 13)) m n toNext s

/-- ANM (R222). -/
def execAnm (m : BitVec 4) (n : Option Addr) (toNext : Bool) (s : State) : Out :=
  modArith (fun addr v => addr &&& v) m n toNext s

/-- ORM (R223). -/
def execOrm (m : BitVec 4) (n : Option Addr) (toNext : Bool) (s : State) : Out :=
  modArith (fun addr v => addr ||| v) m n toNext s

/-- EOM (R224). -/
def execEom (m : BitVec 4) (n : Option Addr) (toNext : Bool) (s : State) : Out :=
  modArith (fun addr v => addr ^^^ v) m n toNext s

/-- EQM (R225). -/
def execEqm (m : BitVec 4) (n : Option Addr) (toNext : Bool) (s : State) : Out :=
  modArith (fun addr v => ~~~(addr ^^^ v)) m n toNext s

/-- NAM (R226). -/
def execNam (m : BitVec 4) (n : Option Addr) (toNext : Bool) (s : State) : Out :=
  modArith (fun addr v => ~~~addr &&& v) m n toNext s

/-- NOM (R227). -/
def execNom (m : BitVec 4) (n : Option Addr) (toNext : Bool) (s : State) : Out :=
  modArith (fun addr v => ~~~addr ||| v) m n toNext s

end Sys2Proof.Machine
end

