-- ==== Sys2Proof/Machine/Store.lean ====
section
/-! DEFINITION. The thirteen full-word store orders (43_fp_store). -/

namespace Sys2Proof.Machine

/-- The word and the accumulator of STR and STU: the word, then K on the accumulator (R141, R142). -/
def strAcc (norm : Bool) (x : Acc) : Word × Acc := ((x.strWord norm).1, (x.strWord norm).2.kHere)

/-- STR (R141). -/
def execStr (d : Dest) (s : State) : Out := storeAcc d (strAcc true) s

/-- STU (R142). -/
def execStu (d : Dest) (s : State) : Out := storeAcc d (strAcc false) s

/-- The action of STN (R143, D17). -/
def storeNegative (x : Acc) : Word × Acc :=
  let x1 := x.normalize
  let ar := x1.round
  let flip := decide (x1.z = false ∧ ar = 2 ^ 42)
  let m := if flip then -2 ^ 44 else -ar
  let en := if flip then x1.eInt - 1 else x1.eInt
  let x2 := x1.orZ (decide (en < -128))
  let p := if x2.z then (zeroWord, x2) else x2.storeConvert m en
  (p.1, p.2.k (m * 2 ^ 44) en)

/-- STN (R143). -/
def execStn (d : Dest) (s : State) : Out := storeAcc d storeNegative s

/-- STF: the exponent becomes 0 (R144). -/
def execStf (d : Dest) (s : State) : Out := storeAcc d (fun x => x.storeShifted 0) s

/-- SEQ: the exponent becomes that of the number in F1 (R145, D29). -/
def execSeq (d : Dest) (s : State) : Out :=
  storeOrder d
    (fun s1 =>
      let p := s1.acc.storeShifted (yval (s1.getF 1))
      (p.1, s1.afterDC p.2)) s

/-- XCH: store as STR, then clear add the old contents (R146). -/
def execXch (d : Dest) (s : State) : Out :=
  exchangeOrder d
    (fun w x =>
      let p := x.strWord true
      (p.1, p.2.clearZ.k (xval w * 2 ^ 44) (yval w))) s

/-- SIF: the integer part at exponent 22 (R147). -/
def execSif (d : Dest) (s : State) : Out := storeAcc d (fun x => x.storeInteger 22) s

/-- STL: A and the exponent, as they stand (R148). -/
def execStl (d : Dest) (s : State) : Out := storeAcc d (fun x => (mkword x.aInt x.eInt, x)) s

/-- STQ: Q with sign digit 0, and the exponent (R149). -/
def execStq (d : Dest) (s : State) : Out := storeAcc d (fun x => (mkword x.qInt x.eInt, x)) s

/-- STR followed by the clearing tail, the action of STC (R150). -/
def storeClear (x : Acc) : Word × Acc := ((x.strWord true).1, (x.strWord true).2.stcTail)

/-- STC (R150). -/
def execStc (d : Dest) (s : State) : Out := storeAcc d storeClear s

/-- The word of SRM and the state after it (R151): the remainder where the last Delayed Control order was a divide, else a free word and a free OV (U6, log 12). -/
def storeRemainder (s : State) : Word × State :=
  if s.divLast then
    if s.r = 0 ∨ s.es ≤ -64 then (zeroWord, s.afterDC s.acc)
    else (mkword s.r.toInt s.es, s.afterDC (s.acc.setOVIf (decide (64 ≤ s.es))))
  else
    (Config.freeWord s.free,
      { s.afterDC { s.acc with ov := Config.freeOverflow s.free } with free := s.free + 1 })

/-- SRM (R151). -/
def execSrm (d : Dest) (s : State) : Out := storeOrder d storeRemainder s

/-- ASC: ADD, then STC, on one address (R153). -/
def execAsc (d : Dest) (s : State) : Out := exchangeOrder d (fun w x => storeClear (x.addSub 1 w)) s

/-- SSC: SUB, then STC, on one address (R154). -/
def execSsc (d : Dest) (s : State) : Out := exchangeOrder d (fun w x => storeClear (x.addSub (-1) w)) s

end Sys2Proof.Machine
end

