-- ==== Sys2Proof/Machine/Dispatch.lean ====
section
/-! DEFINITION. One arm per order. -/

namespace Sys2Proof.Machine

def exec (i : Instr) (s : State) : Host.Outcome State Fault Refusal :=
  match i with
  | .csb o => Sys2Proof.Machine.execCsb o s
  | .cst o => Sys2Proof.Machine.execCst o s
  | .cad o => Sys2Proof.Machine.execCad o s
  | .cat o => Sys2Proof.Machine.execCat o s
  | .not o => Sys2Proof.Machine.execNot o s
  | .and o => Sys2Proof.Machine.execAnd o s
  | .lor o => Sys2Proof.Machine.execLor o s
  | .dba o => Sys2Proof.Machine.execDba o s
  | .sub o => Sys2Proof.Machine.execSub o s
  | .add o => Sys2Proof.Machine.execAdd o s
  | .mpy o => Sys2Proof.Machine.execMpy o s
  | .div o => Sys2Proof.Machine.execDiv o s
  | .ndv o => Sys2Proof.Machine.execNdv o s
  | .vid o => Sys2Proof.Machine.execVid o s
  | .ldq o => Sys2Proof.Machine.execLdq o s
  | .dav o => Sys2Proof.Machine.execDav o s
  | .ssc d => Sys2Proof.Machine.execSsc d s
  | .asc d => Sys2Proof.Machine.execAsc d s
  | .str d => Sys2Proof.Machine.execStr d s
  | .xch d => Sys2Proof.Machine.execXch d s
  | .stc d => Sys2Proof.Machine.execStc d s
  | .stn d => Sys2Proof.Machine.execStn d s
  | .stf d => Sys2Proof.Machine.execStf d s
  | .sif d => Sys2Proof.Machine.execSif d s
  | .seq d => Sys2Proof.Machine.execSeq d s
  | .stu d => Sys2Proof.Machine.execStu d s
  | .stl d => Sys2Proof.Machine.execStl d s
  | .stq d => Sys2Proof.Machine.execStq d s
  | .srm d => Sys2Proof.Machine.execSrm d s
  | .atn a => Sys2Proof.Machine.execAtn a s
  | .ibt a => Sys2Proof.Machine.execIbt a s
  | .pid a => Sys2Proof.Machine.execPid a s
  | .sfn a => Sys2Proof.Machine.execSfn a s
  | .fbf a => Sys2Proof.Machine.execFbf a s
  | .bbf a => Sys2Proof.Machine.execBbf a s
  | .jlh a => Sys2Proof.Machine.execJlh a s
  | .lin a => Sys2Proof.Machine.execLin a s
  | .orb a => Sys2Proof.Machine.execOrb a s
  | .pod a => Sys2Proof.Machine.execPod a s
  | .sbe a => Sys2Proof.Machine.execSbe a s
  | .ade a => Sys2Proof.Machine.execAde a s
  | .cse a => Sys2Proof.Machine.execCse a s
  | .cae a => Sys2Proof.Machine.execCae a s
  | .lrs a => Sys2Proof.Machine.execLrs a s
  | .ars a => Sys2Proof.Machine.execArs a s
  | .cjs m c => Sys2Proof.Machine.execCjs m c s
  | .cjf m c => Sys2Proof.Machine.execCjf m c s
  | .sia m c => Sys2Proof.Machine.execSia m c s
  | .sex m c => Sys2Proof.Machine.execSex m c s
  | .asn r => Sys2Proof.Machine.execAsn r s
  | .ssn r => Sys2Proof.Machine.execSsn r s
  | .ssr r => Sys2Proof.Machine.execSsr r s
  | .sqw b c n => Sys2Proof.Machine.execSqw b c n s
  | .jnm b c n => Sys2Proof.Machine.execJnm b c n s
  | .jzm b c n => Sys2Proof.Machine.execJzm b c n s
  | .cjz b c n => Sys2Proof.Machine.execCjz b c n s
  | .jdc t c n => Sys2Proof.Machine.execJdc t c n s
  | .ldm b c n => Sys2Proof.Machine.execLdm b c n s
  | .jpm b c n => Sys2Proof.Machine.execJpm b c n s
  | .jum b c n => Sys2Proof.Machine.execJum b c n s
  | .jsb b c n => Sys2Proof.Machine.execJsb b c n s
  | .cju b c n => Sys2Proof.Machine.execCju b c n s
  | .sfr b n c2 => Sys2Proof.Machine.execSfr b n c2 s
  | .lfr b n c2 => Sys2Proof.Machine.execLfr b n c2 s
  | .cnm m n toNext => Sys2Proof.Machine.execCnm m n toNext s
  | .csm m n toNext => Sys2Proof.Machine.execCsm m n toNext s
  | .crm m n toNext => Sys2Proof.Machine.execCrm m n toNext s
  | .cam m n toNext => Sys2Proof.Machine.execCam m n toNext s
  | .nom m n toNext => Sys2Proof.Machine.execNom m n toNext s
  | .nam m n toNext => Sys2Proof.Machine.execNam m n toNext s
  | .orm m n toNext => Sys2Proof.Machine.execOrm m n toNext s
  | .anm m n toNext => Sys2Proof.Machine.execAnm m n toNext s
  | .eqm m n toNext => Sys2Proof.Machine.execEqm m n toNext s
  | .sbm m n toNext => Sys2Proof.Machine.execSbm m n toNext s
  | .eom m n toNext => Sys2Proof.Machine.execEom m n toNext s
  | .adm m n toNext => Sys2Proof.Machine.execAdm m n toNext s
  | .hlt b c => Sys2Proof.Machine.execHlt b c s

end Sys2Proof.Machine
end

