-- ==== Sys2Proof/Machine/Events.lean ====
section
/-! DEFINITION. What acts on the machine from outside between two orders: Interplay channels, the clock, devices and the operator (60_exceptions R231, R233, R235, R247; 70_reset_and_hazards R270; log 17, log 18). -/

namespace Sys2Proof.Machine

/-- The operator moves the black switch; released from the up position, it lets a stopped machine go on (R31, R249). -/
def State.moveBlack (s : State) (p : BlackSwitch) : State :=
  { s with black := p, stopped := s.stopped && !(s.black == .up && p != .up) }

/-- What an event from outside does. `obey` is the processor's next order. Malfunction and BlockDone come from Interplay, and there are none without it (R231, R247, D31).

DESIGN CHOICE, unsafe (log 17): the clock, a malfunction and a completed transfer interrupt a machine stopped by HLT too: R249 says only that it keeps its state, and R271 (a) and D30 end the run there. DESIGN CHOICE, unsafe (log 17): the completion of a tape rewind, which R233 names beside that of a block transfer, has no event and leaves the indicator alone. -/
def deliver (e : Event) (s : State) (obey : State → Out) : Out :=
  match e with
  | .order => obey s
  | .transfer channel word stop => .next (s.transferWord channel word stop)
  | .malfunction => if s.params.interplayPresent then requestInterrupt .malfunction s else .next s
  | .blockDone =>
    if s.params.interplayPresent && s.blockDone then requestInterrupt .blockDone s else .next s
  | .clock => requestInterrupt .clock s
  | .black p => .next (s.moveBlack p)
  | .green p => .next { s with green := p }
  | .engineering on => .next { s with engineering := on }
  | .interplayLegal always => .next { s with interplayAlways := always }
  | .tape c => .next { s with tapeIn := s.tapeIn ++ [c] }

end Sys2Proof.Machine
end

