-- ==== Sys2Proof/WellFormed.lean ====
section
/-! DEFINITION. Which order terms are the reading of some control groups: each operand form names only the B digits that select it (R63 to R65). Illegal combinations (R74) are well-formed: they have an encoding, and the machine refuses them when it obeys them. -/

namespace Sys2Proof

/-- The zero operand has B = 11 to 15 (R63). -/
def Operand.wellFormed : Operand → Bool
  | .zero b => decide (11 ≤ b.toNat)
  | _ => true

/-- C = 3 with B = 8 is a core address, never a register destination (R64). -/
def Dest.wellFormed : Dest → Bool
  | .fast b => decide (b.toNat ≠ 8)
  | _ => true

/-- C = 3 with B = 8 constructs an address (R65). -/
def AddrForm.wellFormed : AddrForm → Bool
  | .noAddress b => decide (b.toNat ≠ 8)
  | _ => true

/-- An order that some control groups stand for. -/
def WellFormed : Instr → Bool
  | .csb o => o.wellFormed
  | .cst o => o.wellFormed
  | .cad o => o.wellFormed
  | .cat o => o.wellFormed
  | .not o => o.wellFormed
  | .and o => o.wellFormed
  | .lor o => o.wellFormed
  | .dba o => o.wellFormed
  | .sub o => o.wellFormed
  | .add o => o.wellFormed
  | .mpy o => o.wellFormed
  | .div o => o.wellFormed
  | .ndv o => o.wellFormed
  | .vid o => o.wellFormed
  | .ldq o => o.wellFormed
  | .dav o => o.wellFormed
  | .ssc d => d.wellFormed
  | .asc d => d.wellFormed
  | .str d => d.wellFormed
  | .xch d => d.wellFormed
  | .stc d => d.wellFormed
  | .stn d => d.wellFormed
  | .stf d => d.wellFormed
  | .sif d => d.wellFormed
  | .seq d => d.wellFormed
  | .stu d => d.wellFormed
  | .stl d => d.wellFormed
  | .stq d => d.wellFormed
  | .srm d => d.wellFormed
  | .atn a => a.wellFormed
  | .ibt a => a.wellFormed
  | .pid a => a.wellFormed
  | .sfn a => a.wellFormed
  | .fbf a => a.wellFormed
  | .bbf a => a.wellFormed
  | .jlh a => a.wellFormed
  | .lin a => a.wellFormed
  | .orb a => a.wellFormed
  | .pod a => a.wellFormed
  | .sbe a => a.wellFormed
  | .ade a => a.wellFormed
  | .cse a => a.wellFormed
  | .cae a => a.wellFormed
  | .lrs a => a.wellFormed
  | .ars a => a.wellFormed
  | .cjs _ _ => true
  | .cjf _ _ => true
  | .sia _ _ => true
  | .sex _ _ => true
  | .asn _ => true
  | .ssn _ => true
  | .ssr _ => true
  | .sqw _ _ _ => true
  | .jnm _ _ _ => true
  | .jzm _ _ _ => true
  | .cjz _ _ _ => true
  | .jdc _ _ _ => true
  | .ldm _ _ _ => true
  | .jpm _ _ _ => true
  | .jum _ _ _ => true
  | .jsb _ _ _ => true
  | .cju _ _ _ => true
  | .sfr _ _ _ => true
  | .lfr _ _ _ => true
  | .cnm _ _ _ => true
  | .csm _ _ _ => true
  | .crm _ _ _ => true
  | .cam _ _ _ => true
  | .nom _ _ _ => true
  | .nam _ _ _ => true
  | .orm _ _ _ => true
  | .anm _ _ _ => true
  | .eqm _ _ _ => true
  | .sbm _ _ _ => true
  | .eom _ _ _ => true
  | .adm _ _ _ => true
  | .hlt _ _ => true

end Sys2Proof
end

