-- ==== Sys2Proof/Decode.lean ====
section
/-! DEFINITION. From control groups to orders, total on any groups, rejecting by name; and the encoder, from the same tables (30_encoding R60 to R72). -/

namespace Sys2Proof

/-- The F field of a first control group (R60). -/
def groupF (g : Group) : BitVec 7 := g.extractLsb' 6 7

/-- The B field (R60). -/
def groupB (g : Group) : BitVec 4 := g.extractLsb' 2 4

/-- The C field (R60). -/
def groupC (g : Group) : BitVec 2 := g.extractLsb' 0 2

/-- The control group with fields F, B, C (R61). -/
def mkGroup (f : BitVec 7) (b : BitVec 4) (c : BitVec 2) : Group := f ++ b ++ c

/-- The control group with `nb` ORed into its B digits (R77, R81). -/
def orB (g : Group) (nb : BitVec 4) : Group := mkGroup (groupF g) (groupB g ||| nb) (groupC g)

/-- The nine address-construction classes (R62). -/
inductive OrderClass where
  /-- full-word arithmetic -/
  | normalArith
  /-- full-word store -/
  | normalStore
  /-- the address is the operand -/
  | normalAddr
  /-- short, B names a modifier -/
  | shortMB
  /-- short, 4B + C names a special register -/
  | shortSR
  /-- always long -/
  | longQW
  /-- LFR and SFR -/
  | c1Long
  /-- modifier arithmetic -/
  | modArith
  /-- HLT -/
  | shortNone
  deriving DecidableEq, Repr

/-- Why a decoder rejects some control groups. -/
inductive DecodeError where
  /-- there is no control group to decode -/
  | noGroup
  /-- the code is one of the 51 unassigned ones (R73) -/
  | nonexistent (f : BitVec 7)
  /-- the order is long and its second control group is not there -/
  | missingN
  deriving DecidableEq, Repr

/-- The class of each assigned operation code (R62, R72). -/
def orderClass (f : BitVec 7) : Option OrderClass :=
  match f.toNat with
  | 17 => some .normalAddr
  | 18 => some .normalAddr
  | 19 => some .normalAddr
  | 20 => some .modArith
  | 21 => some .modArith
  | 22 => some .modArith
  | 23 => some .modArith
  | 24 => some .c1Long
  | 25 => some .longQW
  | 26 => some .shortSR
  | 28 => some .longQW
  | 29 => some .longQW
  | 31 => some .longQW
  | 33 => some .normalAddr
  | 34 => some .normalAddr
  | 35 => some .normalAddr
  | 36 => some .modArith
  | 37 => some .modArith
  | 38 => some .modArith
  | 39 => some .modArith
  | 44 => some .normalAddr
  | 45 => some .shortMB
  | 46 => some .longQW
  | 47 => some .shortMB
  | 48 => some .normalAddr
  | 49 => some .normalAddr
  | 50 => some .normalAddr
  | 51 => some .shortNone
  | 52 => some .modArith
  | 53 => some .modArith
  | 54 => some .modArith
  | 55 => some .modArith
  | 56 => some .c1Long
  | 57 => some .longQW
  | 58 => some .shortSR
  | 59 => some .shortSR
  | 60 => some .longQW
  | 61 => some .longQW
  | 62 => some .longQW
  | 63 => some .longQW
  | 64 => some .normalArith
  | 65 => some .normalArith
  | 66 => some .normalArith
  | 67 => some .normalArith
  | 68 => some .normalArith
  | 69 => some .normalArith
  | 70 => some .normalArith
  | 71 => some .normalArith
  | 72 => some .normalArith
  | 73 => some .normalAddr
  | 74 => some .normalArith
  | 75 => some .normalAddr
  | 76 => some .normalStore
  | 77 => some .normalAddr
  | 78 => some .normalStore
  | 79 => some .normalAddr
  | 80 => some .normalArith
  | 81 => some .normalArith
  | 82 => some .normalArith
  | 83 => some .normalArith
  | 84 => some .normalStore
  | 85 => some .normalStore
  | 86 => some .normalStore
  | 87 => some .normalStore
  | 88 => some .normalStore
  | 89 => some .normalStore
  | 90 => some .normalStore
  | 91 => some .shortMB
  | 92 => some .normalStore
  | 93 => some .normalStore
  | 94 => some .normalStore
  | 95 => some .shortMB
  | 97 => some .normalArith
  | 98 => some .normalArith
  | 99 => some .normalStore
  | 101 => some .normalAddr
  | 103 => some .normalAddr
  | _ => none

/-- Whether an order is long (R62), from its class, its effective B and its C. -/
def OrderClass.isLong (k : OrderClass) (b : BitVec 4) (c : BitVec 2) : Bool :=
  match k with
  | .normalArith => c == 2 || (c == 3 && (b == 8 || b == 9 || b == 10))
  | .normalStore => c == 2 || (c == 3 && b == 8)
  | .normalAddr => c == 2 || (c == 3 && b == 8)
  | .shortMB => false
  | .shortSR => false
  | .longQW => true
  | .c1Long => c.getLsbD 1
  | .modArith => c.getLsbD 1
  | .shortNone => false

/-- The operand of a full-word arithmetic order (R63). -/
def readOperand (b : BitVec 4) (c : BitVec 2) (n : Addr) : Operand :=
  if c = 0 then .core (.direct b)
  else if c = 1 then .core (.counted b)
  else if c = 2 then .core (.indexed b n)
  else if b = 8 then .core (.fixed n)
  else if b = 9 then .integer n
  else if b = 10 then .fraction n
  else if b.toNat < 8 then .fast (b.extractLsb' 0 3)
  else .zero b

/-- The destination of a full-word store order (R64). -/
def readDest (b : BitVec 4) (c : BitVec 2) (n : Addr) : Dest :=
  if c = 0 then .core (.direct b)
  else if c = 1 then .core (.counted b)
  else if c = 2 then .core (.indexed b n)
  else if b = 8 then .core (.fixed n)
  else .fast b

/-- The address of an order whose address is its operand (R65). -/
def readAddrForm (b : BitVec 4) (c : BitVec 2) (n : Addr) : AddrForm :=
  if c = 0 then .addr (.direct b)
  else if c = 1 then .addr (.counted b)
  else if c = 2 then .addr (.indexed b n)
  else if b = 8 then .addr (.fixed n)
  else .noAddress b

/-- N where C_1 = 1 (R69, R70). -/
def readC1 (c : BitVec 2) (n : Addr) : Option Addr := if c.getLsbD 1 then some n else none

/-- The condition that the B digits of JDC name (R206). -/
def readCondition (b : BitVec 4) : Condition :=
  match b.toNat with
  | 0 => .leaveInterrupt
  | 1 => .never
  | 2 => .posOrZero
  | 3 => .negative
  | 4 => .nonzero
  | 5 => .zero
  | 6 => .positive
  | 7 => .zeroOrNeg
  | 8 => .ovOn
  | 9 => .ovOff
  | 10 => .ovOnClear
  | 11 => .ovOffClear
  | 12 => .greenCenter
  | 13 => .greenDown
  | 14 => .signZero
  | _ => .signOne

/-- The order with the fields F, B, C, N (R72); `none` for a non-existent code (R73). N is not looked at by a short order. -/
def readOrder (f : BitVec 7) (b : BitVec 4) (c : BitVec 2) (n : Addr) : Option Instr :=
  match f.toNat with
  | 17 => some (.atn (readAddrForm b c n))
  | 18 => some (.ibt (readAddrForm b c n))
  | 19 => some (.pid (readAddrForm b c n))
  | 20 => some (.cnm b (readC1 c n) (c.getLsbD 0))
  | 21 => some (.csm b (readC1 c n) (c.getLsbD 0))
  | 22 => some (.crm b (readC1 c n) (c.getLsbD 0))
  | 23 => some (.cam b (readC1 c n) (c.getLsbD 0))
  | 24 => some (.sfr b (readC1 c n) (c.getLsbD 0))
  | 25 => some (.sqw b c n)
  | 26 => some (.asn (b ++ c))
  | 28 => some (.jnm b c n)
  | 29 => some (.jzm b c n)
  | 31 => some (.cjz b c n)
  | 33 => some (.sfn (readAddrForm b c n))
  | 34 => some (.fbf (readAddrForm b c n))
  | 35 => some (.bbf (readAddrForm b c n))
  | 36 => some (.nom b (readC1 c n) (c.getLsbD 0))
  | 37 => some (.nam b (readC1 c n) (c.getLsbD 0))
  | 38 => some (.orm b (readC1 c n) (c.getLsbD 0))
  | 39 => some (.anm b (readC1 c n) (c.getLsbD 0))
  | 44 => some (.jlh (readAddrForm b c n))
  | 45 => some (.cjs b c)
  | 46 => some (.jdc (readCondition b) c n)
  | 47 => some (.cjf b c)
  | 48 => some (.lin (readAddrForm b c n))
  | 49 => some (.orb (readAddrForm b c n))
  | 50 => some (.pod (readAddrForm b c n))
  | 51 => some (.hlt b c)
  | 52 => some (.eqm b (readC1 c n) (c.getLsbD 0))
  | 53 => some (.sbm b (readC1 c n) (c.getLsbD 0))
  | 54 => some (.eom b (readC1 c n) (c.getLsbD 0))
  | 55 => some (.adm b (readC1 c n) (c.getLsbD 0))
  | 56 => some (.lfr b (readC1 c n) (c.getLsbD 0))
  | 57 => some (.ldm b c n)
  | 58 => some (.ssn (b ++ c))
  | 59 => some (.ssr (b ++ c))
  | 60 => some (.jpm b c n)
  | 61 => some (.jum b c n)
  | 62 => some (.jsb b c n)
  | 63 => some (.cju b c n)
  | 64 => some (.csb (readOperand b c n))
  | 65 => some (.cst (readOperand b c n))
  | 66 => some (.cad (readOperand b c n))
  | 67 => some (.cat (readOperand b c n))
  | 68 => some (.not (readOperand b c n))
  | 69 => some (.and (readOperand b c n))
  | 70 => some (.lor (readOperand b c n))
  | 71 => some (.dba (readOperand b c n))
  | 72 => some (.sub (readOperand b c n))
  | 73 => some (.sbe (readAddrForm b c n))
  | 74 => some (.add (readOperand b c n))
  | 75 => some (.ade (readAddrForm b c n))
  | 76 => some (.ssc (readDest b c n))
  | 77 => some (.cse (readAddrForm b c n))
  | 78 => some (.asc (readDest b c n))
  | 79 => some (.cae (readAddrForm b c n))
  | 80 => some (.mpy (readOperand b c n))
  | 81 => some (.div (readOperand b c n))
  | 82 => some (.ndv (readOperand b c n))
  | 83 => some (.vid (readOperand b c n))
  | 84 => some (.str (readDest b c n))
  | 85 => some (.xch (readDest b c n))
  | 86 => some (.stc (readDest b c n))
  | 87 => some (.stn (readDest b c n))
  | 88 => some (.stf (readDest b c n))
  | 89 => some (.sif (readDest b c n))
  | 90 => some (.seq (readDest b c n))
  | 91 => some (.sia b c)
  | 92 => some (.stu (readDest b c n))
  | 93 => some (.stl (readDest b c n))
  | 94 => some (.stq (readDest b c n))
  | 95 => some (.sex b c)
  | 97 => some (.ldq (readOperand b c n))
  | 98 => some (.dav (readOperand b c n))
  | 99 => some (.srm (readDest b c n))
  | 101 => some (.lrs (readAddrForm b c n))
  | 103 => some (.ars (readAddrForm b c n))
  | _ => none

/-- Decoding one order at the head of a list of control groups: the order and the groups after it. -/
def decode : List Group → Except DecodeError (Instr × List Group)
  | [] => .error .noGroup
  | g :: rest =>
    match orderClass (groupF g) with
    | none => .error (.nonexistent (groupF g))
    | some k =>
      if k.isLong (groupB g) (groupC g) then
        match rest with
        | [] => .error .missingN
        | n :: rest' =>
          match readOrder (groupF g) (groupB g) (groupC g) n with
          | some i => .ok (i, rest')
          | none => .error (.nonexistent (groupF g))
      else
        match readOrder (groupF g) (groupB g) (groupC g) 0 with
        | some i => .ok (i, rest)
        | none => .error (.nonexistent (groupF g))

/-- The groups of an order with a normal address (R63). -/
def encodeNormal (f : BitVec 7) : NormalAddr → List Group
  | .direct m => [mkGroup f m 0]
  | .counted m => [mkGroup f m 1]
  | .indexed m n => [mkGroup f m 2, n]
  | .fixed n => [mkGroup f 8 3, n]

/-- The groups of a full-word arithmetic order (R63). -/
def encodeOperand (f : BitVec 7) : Operand → List Group
  | .core a => encodeNormal f a
  | .fast r => [mkGroup f (r.zeroExtend 4) 3]
  | .integer n => [mkGroup f 9 3, n]
  | .fraction n => [mkGroup f 10 3, n]
  | .zero b => [mkGroup f b 3]

/-- The groups of a full-word store order (R64). -/
def encodeDest (f : BitVec 7) : Dest → List Group
  | .core a => encodeNormal f a
  | .fast b => [mkGroup f b 3]

/-- The groups of an order whose address is its operand (R65). -/
def encodeAddrForm (f : BitVec 7) : AddrForm → List Group
  | .addr a => encodeNormal f a
  | .noAddress b => [mkGroup f b 3]

/-- The groups of LFR, SFR and the modifier arithmetic orders (R69, R70). -/
def encodeC1 (f : BitVec 7) (b : BitVec 4) (n : Option Addr) (c2 : Bool) : List Group :=
  match n with
  | none => [mkGroup f b (if c2 then 1 else 0)]
  | some n => [mkGroup f b (if c2 then 3 else 2), n]

/-- The B digits that name a condition (R206). -/
def conditionB : Condition → BitVec 4
  | .leaveInterrupt => 0
  | .never => 1
  | .posOrZero => 2
  | .negative => 3
  | .nonzero => 4
  | .zero => 5
  | .positive => 6
  | .zeroOrNeg => 7
  | .ovOn => 8
  | .ovOff => 9
  | .ovOnClear => 10
  | .ovOffClear => 11
  | .greenCenter => 12
  | .greenDown => 13
  | .signZero => 14
  | .signOne => 15

/-- The control groups of an order. -/
def encode : Instr → List Group
  | .csb o => encodeOperand 64 o
  | .cst o => encodeOperand 65 o
  | .cad o => encodeOperand 66 o
  | .cat o => encodeOperand 67 o
  | .not o => encodeOperand 68 o
  | .and o => encodeOperand 69 o
  | .lor o => encodeOperand 70 o
  | .dba o => encodeOperand 71 o
  | .sub o => encodeOperand 72 o
  | .add o => encodeOperand 74 o
  | .mpy o => encodeOperand 80 o
  | .div o => encodeOperand 81 o
  | .ndv o => encodeOperand 82 o
  | .vid o => encodeOperand 83 o
  | .ldq o => encodeOperand 97 o
  | .dav o => encodeOperand 98 o
  | .ssc d => encodeDest 76 d
  | .asc d => encodeDest 78 d
  | .str d => encodeDest 84 d
  | .xch d => encodeDest 85 d
  | .stc d => encodeDest 86 d
  | .stn d => encodeDest 87 d
  | .stf d => encodeDest 88 d
  | .sif d => encodeDest 89 d
  | .seq d => encodeDest 90 d
  | .stu d => encodeDest 92 d
  | .stl d => encodeDest 93 d
  | .stq d => encodeDest 94 d
  | .srm d => encodeDest 99 d
  | .atn a => encodeAddrForm 17 a
  | .ibt a => encodeAddrForm 18 a
  | .pid a => encodeAddrForm 19 a
  | .sfn a => encodeAddrForm 33 a
  | .fbf a => encodeAddrForm 34 a
  | .bbf a => encodeAddrForm 35 a
  | .jlh a => encodeAddrForm 44 a
  | .lin a => encodeAddrForm 48 a
  | .orb a => encodeAddrForm 49 a
  | .pod a => encodeAddrForm 50 a
  | .sbe a => encodeAddrForm 73 a
  | .ade a => encodeAddrForm 75 a
  | .cse a => encodeAddrForm 77 a
  | .cae a => encodeAddrForm 79 a
  | .lrs a => encodeAddrForm 101 a
  | .ars a => encodeAddrForm 103 a
  | .cjs m c => [mkGroup 45 m c]
  | .cjf m c => [mkGroup 47 m c]
  | .sia m c => [mkGroup 91 m c]
  | .sex m c => [mkGroup 95 m c]
  | .asn r => [mkGroup 26 (r.extractLsb' 2 4) (r.extractLsb' 0 2)]
  | .ssn r => [mkGroup 58 (r.extractLsb' 2 4) (r.extractLsb' 0 2)]
  | .ssr r => [mkGroup 59 (r.extractLsb' 2 4) (r.extractLsb' 0 2)]
  | .sqw b c n => [mkGroup 25 b c, n]
  | .jnm b c n => [mkGroup 28 b c, n]
  | .jzm b c n => [mkGroup 29 b c, n]
  | .cjz b c n => [mkGroup 31 b c, n]
  | .jdc t c n => [mkGroup 46 (conditionB t) c, n]
  | .ldm b c n => [mkGroup 57 b c, n]
  | .jpm b c n => [mkGroup 60 b c, n]
  | .jum b c n => [mkGroup 61 b c, n]
  | .jsb b c n => [mkGroup 62 b c, n]
  | .cju b c n => [mkGroup 63 b c, n]
  | .sfr b n c2 => encodeC1 24 b n c2
  | .lfr b n c2 => encodeC1 56 b n c2
  | .cnm m n toNext => encodeC1 20 m n toNext
  | .csm m n toNext => encodeC1 21 m n toNext
  | .crm m n toNext => encodeC1 22 m n toNext
  | .cam m n toNext => encodeC1 23 m n toNext
  | .nom m n toNext => encodeC1 36 m n toNext
  | .nam m n toNext => encodeC1 37 m n toNext
  | .orm m n toNext => encodeC1 38 m n toNext
  | .anm m n toNext => encodeC1 39 m n toNext
  | .eqm m n toNext => encodeC1 52 m n toNext
  | .sbm m n toNext => encodeC1 53 m n toNext
  | .eom m n toNext => encodeC1 54 m n toNext
  | .adm m n toNext => encodeC1 55 m n toNext
  | .hlt b c => [mkGroup 51 b c]

/-- The control groups in an instruction whose bits are `w`, as spec/opcode_table.json numbers them: the first group is bits 12 to 0, the second bits 25 to 13; bits from `nbits` up are 0 (log 30). -/
def tableGroups (nbits w : Nat) : List Group :=
  let v := w % 2 ^ nbits
  [BitVec.ofNat 13 v, BitVec.ofNat 13 (v / 2 ^ 13)]

/-- The order the decoder reads from an instruction whose bits are `w` (log 30). -/
def decodeTableWord (nbits w : Nat) : Option Instr :=
  match decode (tableGroups nbits w) with
  | .ok (i, _) => some i
  | .error _ => none

end Sys2Proof
end

