-- ==== Sys2Proof/Machine/Fetch.lean ====
section
/-! DEFINITION. Fetching the control groups of an order from the held words F8 and F9 (10_state R24, 20_memory R52 to R55 and R59, 40_operand_preparation steps 1 to 3 of R80). -/

namespace Sys2Proof.Machine

/-- The number of the pair that contains a word; in the one-memory period the word address itself (R24, R59). -/
def State.pairOf (s : State) (w : Addr) : BitVec 13 := if s.params.twoMemories then w >>> 1 else w

/-- The word is held (R53). -/
def State.holds (s : State) (w : Addr) : Bool := s.ip == s.pairOf w

/-- The fast register that holds a word of the held pair (R11, R24, R59). -/
def State.heldIndex (s : State) (w : Addr) : Nat :=
  if s.params.twoMemories then (if w.getLsbD 0 then 9 else 8) else 9

/-- Two words held as the pair of `w` (R52). -/
def State.holdPair (s : State) (w : Addr) (v8 v9 : Word) : State :=
  { (s.setF 8 v8).setF 9 v9 with ip := s.pairOf w }

/-- The held words and `ip` as a refill leaves them where nothing comes between its references (R52, R59). -/
def State.loadPair (s : State) (w : Addr) : State :=
  if s.params.twoMemories then
    s.holdPair w (s.coreWord (2 * s.pairOf w)) (s.coreWord (2 * s.pairOf w + 1))
  else { s.setF 9 (s.coreWord w) with ip := w }

/-- A refill: one or two checked references, with Interplay between the two (R50, R52, R59, D13). -/
def refill (s : State) (w : Addr) (k : State → Out) : Out :=
  if s.params.twoMemories then
    memRead s (2 * s.pairOf w) fun v8 =>
      memRead s.interlude (2 * s.pairOf w + 1) fun v9 => k (s.interlude.holdPair w v8 v9)
  else memRead s w fun _ => k (s.loadPair w)

/-- The jump to a held word is over: the order it led to is being fetched. -/
def State.landed (s : State) : State := { s with jumped := false }

/-- The next free value has been drawn (log 27). -/
def State.drawn (s : State) : State := { s with free := s.free + 1 }

/-- A refill of the pair of `w` would show: it would be refused, or it would change a held word. -/
def State.refillShows (s : State) (w : Addr) : Bool :=
  s.violation w || (s.loadPair w).fast != s.fast

/-- Bring the pair of `w` into the held words where it is not there. After a jump into the held pair, whether it is read again is a free choice (R53, D12, log 15); the choice is drawn only where it could show. -/
def ensureHeld (s : State) (w : Addr) (k : State → Out) : Out :=
  if s.holds w then
    if s.jumped && s.refillShows w then
      if Config.freeRefetch s.free then refill s.landed.drawn w k else k s.landed.drawn
    else k s.landed
  else refill s.landed w k

/-- The instruction word `w` as orders are obeyed from it. Where the held copy differs from the core word, which of the two is obeyed is one free choice for the whole word (R55, U7, log 14). -/
def fetchWord (s : State) (w : Addr) (k : Word → State → Out) : Out :=
  ensureHeld s w fun s1 =>
    if s1.getF (s1.heldIndex w) = s1.coreWord w then k (s1.coreWord w) s1
    else if Config.freeFreshCopy s1.free then k (s1.coreWord w) s1.drawn
    else k (s1.getF (s1.heldIndex w)) s1.drawn

/-- The control group at `c`, read from a word already fetched or from the word after it, before which Interplay may refer to core (R14, R50). -/
def fetchSecond (s : State) (c : Counter) (v : Word) (k : Group → State → Out) : Out :=
  if c.group = 0 then fetchWord s.interlude c.word fun v1 s1 => k (quarter v1 0) s1
  else k (quarter v c.group.toNat) s

/-- The order that some control groups stand for, or the non-existent order (R73). -/
def withDecoded (gs : List Group) (f : BitVec 7) (s : State) (k : Instr → State → Out) : Out :=
  match decode gs with
  | .ok (i, _) => k i s
  | .error _ => nonexistentOrder f s

/-- Steps 1 to 3 of R80: fetch the first group at cc, OR the pending B digits into it (R77, R81), and fetch N where the order is long (R62). Interplay may refer to core between the fetch and the order's own references (R50). -/
def fetchOrder (s : State) (k : Instr → State → Out) : Out :=
  fetchWord s s.cc.word fun v s1 =>
    let g := orB (quarter v s.cc.group.toNat) s1.nb
    match orderClass (groupF g) with
    | none => nonexistentOrder (groupF g) s1
    | some cls =>
      if cls.isLong (groupB g) (groupC g) then
        fetchSecond s1 s1.cc.succ v fun n s2 =>
          withDecoded [g, n] (groupF g) s2 fun i s3 => k i s3.interlude
      else withDecoded [g] (groupF g) s1 fun i s3 => k i s3.interlude

/-! Placing an order where it will be fetched (log 6, log 30). -/

/-- Core with one control group replaced. -/
def State.placeGroup (s : State) (c : Counter) (g : Group) : State :=
  s.setCore c.word (setQuarter (s.coreWord c.word) c.group.toNat g)

/-- Core with the groups of an order at cc and the position after it. -/
def State.placeOrder (s : State) (gs : List Group) : State :=
  match gs with
  | [] => s
  | [g] => s.placeGroup s.cc g
  | g :: n :: _ => (s.placeGroup s.cc g).placeGroup s.cc.succ n

/-- The block of a word is free for the fetch. -/
def State.openFor (s : State) (w : Addr) : State :=
  if s.violation w then s.setBusy (blockOf w) false else s

/-- Everything else the next fetch needs: the processor acts next, is not stopped, has no ORB pending, and holds a fresh copy of the pair of cc, with nothing from outside before the order or inside it. -/
def State.readyToFetch (s : State) : State :=
  { (s.openFor s.cc.succ.word).loadPair s.cc.word with
    jumped := false, stopped := false, events := [], inside := [], nb := 0 }

end Sys2Proof.Machine
end

