-- ==== Sys2Proof/Machine/Step.lean ====
section
/-! DEFINITION. One step of the machine: the next order of the processor, or one event from outside. -/

namespace Sys2Proof.Machine

/-- The processor obeys its next order (R80); a machine stopped by HLT keeps its state (R249, log 16). -/
def obey (s : State) : Host.Outcome State Fault Refusal :=
  if s.stopped then .next s else fetchOrder s exec

/-- One step. With no event listed the processor acts (R247, R270, log 17). -/
def step (s : State) : Host.Outcome State Fault Refusal :=
  match s.events with
  | [] => obey s
  | e :: rest => deliver e { s with events := rest } obey

/-- The state with an instruction of the opcode table where the next step fetches it (log 6, log 30). -/
def State.withFetchWord (s : State) (nbits w : Nat) : State :=
  (s.placeOrder (tableGroups nbits w)).readyToFetch

end Sys2Proof.Machine
end

