-- ==== Sys2Proof/Safety.lean ====
section
/-! DEFINITION. What counts as a safe run, the invariants of the machine, and the words in which claims are stated: frames, operands as a claim reads them, and the results of the common operations as relations between integers. -/

namespace Sys2Proof.Machine

/-! Runs (70_reset_and_hazards R271). -/

/-- The step does not end the run: no interrupt, fault or refusal. -/
def SafeStep (s : State) : Prop := ∃ t, step s = .next t

/-- `n` steps without an interrupt, fault or refusal. -/
def SafeRun (n : Nat) (s : State) : Prop := ∃ t, Sys2Proof.core.run n s = .next t

/-- The run has come to its final state (R271 (a)). -/
def Final (s : State) : Prop := s.stopped = true

/-! Invariants. -/

/-- A transfer stays inside the 256-word block it was begun in, and moves toward its last word (R176, R247). -/
def Transfer.inside (t : Transfer) : Prop :=
  t.last.toNat % 256 = 255 ∧ t.next.toNat / 256 = t.last.toNat / 256

/-- Every listed core address exists (R10). -/
def State.coreInside (s : State) : Prop := ∀ p ∈ s.core, p.1 < s.params.coreWords

/-- What every step keeps, whatever the state it starts from: core in canonical form and inside the memory attached, the pair number of 12 digits (R24), no order both adding to the next address and ORing into the next B digits (R94), and each transfer inside its block. -/
def State.Inv (s : State) : Prop :=
  Mem.wf s.core = true ∧ s.coreInside ∧
  (s.params.twoMemories = true → s.ip.toNat < 4096) ∧
  (s.na = 0 ∨ s.nb = 0) ∧
  ∀ c t, s.channel c = some t → t.inside

/-- The accumulator obeys "f = 0 turns Z on" (R18, R38). -/
def Acc.zeroMarked (x : Acc) : Prop := x.aq = 0 → x.z = true

/-! The frame of an order. -/

/-- The modifiers an address form counts (R83). -/
def normalCounts : NormalAddr → List (BitVec 4)
  | .counted m => [m]
  | _ => []

/-- The modifiers an operand form counts (R83). -/
def operandCounts : Operand → List (BitVec 4)
  | .core a => normalCounts a
  | _ => []

/-- The modifiers a destination form counts (R83). -/
def destCounts : Dest → List (BitVec 4)
  | .core a => normalCounts a
  | _ => []

/-- Every fast register outside `fs` is unchanged, but for the modifiers `ms` of F4 to F7 (R11, R12). -/
def FastFrame (s t : State) (fs : List Nat) (ms : List (BitVec 4)) : Prop :=
  (∀ j, j < 4 ∨ j = 8 ∨ j = 9 → j ∉ fs → t.getF j = s.getF j) ∧
  ∀ i : BitVec 4, i ∉ ms → 4 + i.toNat / 4 ∉ fs → t.getM i = s.getM i

/-- The modifiers `ms` are one higher, modulo 8192, unless their register is in `fs` (R197). -/
def Counted (s t : State) (fs : List Nat) (ms : List (BitVec 4)) : Prop :=
  ∀ i ∈ ms, 4 + i.toNat / 4 ∉ fs → t.getM i = s.getM i + 1

/-- Every core word but that of `a` reads as before (R44, R45). -/
def CoreFrame (s t : State) (a : Addr) : Prop :=
  ∀ b : Addr, coreIndex s.params b ≠ coreIndex s.params a → t.coreWord b = s.coreWord b

/-- Every core word reads as before. -/
def SameCore (s t : State) : Prop := ∀ b : Addr, t.coreWord b = s.coreWord b

/-- Nothing changed but fast registers, cc, the pending amounts and the model's jump marker: all that a plain Advanced Control order may touch. -/
def OnlyControl (s t : State) : Prop :=
  t = { s with fast := t.fast, cc := t.cc, na := t.na, nb := t.nb, jumped := t.jumped }

/-- Nothing changed but what a Delayed Control order without a store may touch: the accumulator, R and ES, divLast, fast registers, cc and the pending amounts. -/
def OnlyArithmetic (s t : State) : Prop :=
  t = { s with acc := t.acc, r := t.r, es := t.es, divLast := t.divLast, fast := t.fast, cc := t.cc,
               na := t.na, nb := t.nb }

/-- Nothing changed but what a Delayed Control store order may touch: that, and core. -/
def OnlyStore (s t : State) : Prop :=
  t = { s with core := t.core, acc := t.acc, r := t.r, es := t.es, divLast := t.divLast, fast := t.fast,
               cc := t.cc, na := t.na, nb := t.nb }

/-- The order is over: cc past its groups, nothing pending (R14, R27). -/
def Ended (s t : State) (groups : Nat) : Prop := t.cc = s.cc.past groups ∧ t.na = 0 ∧ t.nb = 0

/-! Operands and destinations as a claim reads them. -/

/-- An order that turns OV on raises no Arithmetic interrupt (R234). -/
def State.quiet (s : State) : Prop :=
  s.params.ovInterrupts = false ∨ s.interruptible = false ∨ s.acc.ov = true

/-- The reference the operand needs is not refused (R46). -/
def State.canRead (s : State) (o : Operand) : Prop := ∀ a, o = .core a → s.violation (s.address a) = false

/-- The operand word (R84). -/
def State.operandWord (s : State) : Operand → Word
  | .core a => s.coreWord (s.address a)
  | .fast r => s.getF r.toNat
  | .integer n => immOperandWord s.params 9 n
  | .fraction n => immOperandWord s.params 10 n
  | .zero _ => zeroWord

/-- The destination is legal (R74) and its reference is not refused (R46). -/
def State.canStore (s : State) : Dest → Prop
  | .core a => s.violation (s.address a) = false
  | .fast b => destIllegal b = false

/-- The old contents of a destination (R88). -/
def State.destWord (s : State) : Dest → Word
  | .core a => s.coreWord (s.address a)
  | .fast b => s.getF b.toNat

/-- The control groups of a store order. -/
def destGroups : Dest → Nat
  | .core a => normalGroups a
  | .fast _ => 1

/-- The fast registers a destination names; F0 is written by every store order (R87). -/
def destRegisters : Dest → List Nat
  | .core _ => [0]
  | .fast b => [0, b.toNat]

/-- The word `w` has gone to F0 and to the destination, and nowhere else in core (R87). -/
def StoredAt (s t : State) (d : Dest) (w : Word) : Prop :=
  t.getF 0 = w ∧
  match d with
  | .core a => t.coreWord (s.address a) = w ∧ CoreFrame s t (s.address a)
  | .fast b => t.getF b.toNat = w ∧ SameCore s t

/-- What every arithmetic order leaves, its accumulator apart: the operand in F1, a counted modifier, the frame (R84, R22). -/
def ArithDone (s t : State) (o : Operand) : Prop :=
  OnlyArithmetic s t ∧ SameCore s t ∧ Ended s t (operandGroups o) ∧ t.getF 1 = s.operandWord o ∧
  FastFrame s t [1] (operandCounts o) ∧ Counted s t [1] (operandCounts o)

/-- What every store order that takes no operand leaves, its accumulator apart, having stored `w` (R87, R140). -/
def StoreDone (s t : State) (d : Dest) (w : Word) : Prop :=
  OnlyStore s t ∧ Ended s t (destGroups d) ∧ StoredAt s t d w ∧ t.divLast = false ∧
  FastFrame s t (destRegisters d) (destCounts d) ∧ Counted s t (destRegisters d) (destCounts d)

/-- The state as the write of XCH, ASC and SSC finds it: after a read of core, Interplay may have referred to core (R57, D20). -/
def State.beforeWrite (s : State) : Dest → State
  | .core _ => s.interlude
  | .fast _ => s

/-- The same for XCH, ASC and SSC, whose old destination contents go to F1 (R88): F1 holds what the read found, and core is what the write finds but for the word it stores. -/
def ExchangeDone (s t : State) (d : Dest) (w : Word) : Prop :=
  OnlyStore (s.beforeWrite d) t ∧ Ended s t (destGroups d) ∧ StoredAt (s.beforeWrite d) t d w ∧ t.divLast = false ∧
  t.getF 1 = s.destWord d ∧
  FastFrame s t (1 :: destRegisters d) (destCounts d) ∧ Counted s t (1 :: destRegisters d) (destCounts d)

/-! Results of the common operations, as relations between integers. -/

/-- The accumulator `y` is `x` after K(fw, ew), "correct overflow and detect zero" (R105). -/
def CorrectedTo (x : Acc) (fw ew : Int) (y : Acc) : Prop :=
  if x.z = true ∨ fw = 0 then
    y.z = true ∧ y.ov = x.ov ∧ (y.aq - fw) % 2 ^ 89 = 0 ∧ (y.eInt - ew) % 256 = 0
  else if -2 ^ 88 ≤ fw ∧ fw < 2 ^ 88 then
    y.z = false ∧ y.ov = x.ov ∧ y.aq = fw ∧ (y.eInt - ew) % 256 = 0
  else
    y.z = false ∧ y.ov = (x.ov || decide (127 < ew + 1)) ∧ y.aq = fw / 4 ∧ (y.eInt - (ew + 1)) % 256 = 0

/-- The accumulator `y` has the fraction `v`, the exponent `e` and is zero only where `v` is; OV is that of `x`. -/
def HoldsValue (x : Acc) (v e : Int) (y : Acc) : Prop :=
  y.aq = v ∧ y.eInt = e ∧ y.z = decide (v = 0) ∧ y.ov = x.ov

/-- The digits of A and Q are `a` and `q`, Z is on exactly where both are zero, E and OV are those of `x` (R124 to R128). -/
def HoldsDigits (x : Acc) (a : BitVec 45) (q : BitVec 44) (y : Acc) : Prop :=
  y.a = a ∧ y.q = q ∧ y.z = decide (a = 0 ∧ q = 0) ∧ y.ov = x.ov

/-- `w` is what storing the rounded fraction `m` with the exponent `e` puts in memory: +1 and -1/4 replaced, floating point zero for a zero fraction or an exponent of -64 or less, the exponent modulo 128 (R106). -/
def StoredAs (m e : Int) (w : Word) : Prop :=
  let e1 := if m = 2 ^ 44 then e + 1 else if m = -2 ^ 42 then e - 1 else e
  let m1 := if m = 2 ^ 44 then 2 ^ 42 else if m = -2 ^ 42 then -2 ^ 44 else m
  (m1 = 0 ∨ e1 ≤ -64 → w = zeroWord) ∧
  (m1 ≠ 0 → -64 < e1 → xval w = m1 ∧ (yval w - e1) % 128 = 0)

/-- The exponent to be stored is +64 or more, and the number is not stored as zero (R106). -/
def storeOverflows (m e : Int) : Bool :=
  decide (m ≠ 0) && decide (64 ≤ if m = 2 ^ 44 then e + 1 else if m = -2 ^ 42 then e - 1 else e)

/-- `q` is the quotient n / d rounded to an integer, a tie upward: floor(n / d + 1/2) (R113). -/
def RoundedTo (n d q : Int) : Prop :=
  (0 < d → 2 * d * q ≤ 2 * n + d ∧ 2 * n + d < 2 * d * (q + 1)) ∧
  (d < 0 → 2 * d * (q + 1) < 2 * n + d ∧ 2 * n + d ≤ 2 * d * q)

/-! Families of orders (R62 to R71), for claims that hold of every order of one. -/

/-- The operation code of an order: the F field of its first control group (R60, R72). -/
def codeOf (i : Instr) : Option Nat := (encode i).head?.map fun g => (groupF g).toNat

/-- The sixteen full-word arithmetic orders (R63). -/
def arithOrders : List (Operand → Instr) :=
  [.cad, .csb, .cat, .cst, .not, .and, .lor, .dba, .ldq, .add, .sub, .mpy, .div, .ndv, .vid, .dav]

/-- The thirteen full-word store orders (R64). -/
def storeOrders : List (Dest → Instr) :=
  [.str, .stu, .stn, .stf, .seq, .xch, .sif, .stl, .stq, .stc, .srm, .asc, .ssc]

/-- The store orders that first read their destination (R88). -/
def exchangeOrders : List (Dest → Instr) := [.xch, .asc, .ssc]

/-- The address orders that any mode may obey (R65). -/
def freeAddressOrders : List (AddrForm → Instr) :=
  [.cae, .cse, .ade, .sbe, .ars, .lrs, .lin, .jlh, .atn, .sfn, .orb]

/-- The five Interplay and Block Checker orders (R170). -/
def guardedOrders : List (AddrForm → Instr) := [.pid, .pod, .ibt, .bbf, .fbf]

/-- The combinations of digits that are illegal in every mode (R74). -/
inductive IllegalForm : Instr → Prop where
  /-- a store into F1, or with B of 9 or more -/
  | store {f : Dest → Instr} {b : BitVec 4} (hf : f ∈ storeOrders) (hb : b.toNat = 1 ∨ 9 ≤ b.toNat) :
      IllegalForm (f (.fast b))
  /-- an address order without an address -/
  | address {f : AddrForm → Instr} (b : BitVec 4) (hf : f ∈ freeAddressOrders ∨ f ∈ guardedOrders) :
      IllegalForm (f (.noAddress b))
  /-- SQW of F1, F8 or above -/
  | sqw {b : BitVec 4} (c : BitVec 2) (n : Addr) (hb : b.toNat = 1 ∨ 8 ≤ b.toNat) : IllegalForm (.sqw b c n)
  /-- SFR of F1, F8 or above -/
  | sfr {b : BitVec 4} (n : Option Addr) (c : Bool) (hb : b.toNat = 1 ∨ 8 ≤ b.toNat) :
      IllegalForm (.sfr b n c)
  /-- LFR into F0, F1, F8 or above -/
  | lfr {b : BitVec 4} (n : Option Addr) (c : Bool) (hb : b.toNat ≤ 1 ∨ 8 ≤ b.toNat) :
      IllegalForm (.lfr b n c)

/-! Fetching as a claim reads it. -/

/-- No Interplay reference falls at the next place inside an order. -/
def State.undisturbed (s : State) : Prop := s.inside.headD [] = []

/-- The state after a refill between whose two references no Interplay reference falls (R52, R59). -/
def State.refilled (s : State) (w : Addr) : State :=
  if s.params.twoMemories then s.interlude.loadPair w else s.loadPair w

/-- The state once the pair of `w` is held, where nothing refuses or clouds it. -/
def State.afterHolding (s : State) (w : Addr) : State :=
  if s.holds w then s.landed else s.landed.refilled w

/-- The pair of `w` is held and its copy of `w` is what core holds (after a jump, the whole pair is, and its block may be referred to), or it is not held and may be read, with no Interplay reference between the two of the refill (R52 to R55). -/
def State.plainFetch (s : State) (w : Addr) : Prop :=
  if s.holds w then
    s.getF (s.heldIndex w) = s.coreWord w ∧ (s.jumped = true → s.refillShows w = false)
  else s.violation w = false ∧ (s.params.twoMemories = true → s.undisturbed)

/-- The control group that core holds at a position (R41). -/
def State.groupAt (s : State) (c : Counter) : Group := quarter (s.coreWord c.word) c.group.toNat

/-- The order at cc that lies wholly in the word `v`, the pending B digits ORed in, is `i` (R14, R62). -/
def State.readsIn (s : State) (v : Word) (i : Instr) : Prop :=
  decode [orB (quarter v s.cc.group.toNat) s.nb] = .ok (i, []) ∨
  s.cc.group ≠ 3 ∧
    decode [orB (quarter v s.cc.group.toNat) s.nb, quarter v (s.cc.group.toNat + 1)] = .ok (i, [])

/-- The run ends as the program interrupt of a reference to a busy block, with nothing else changed (R46, D10). -/
def State.busyFault (s : State) : Out :=
  .fault (.programInterrupt .busyBlock { s with intMode := true, cause := some .busyBlock })

/-- The result each modifier arithmetic order makes of the address and of M_B (R216 to R227). -/
def modifierResults (a m : BitVec 13) : List (Nat × (BitVec 4 → Option Addr → Bool → Instr)) :=
  [(a.toNat, .cam), ((8192 - a.toNat) % 8192, .csm), ((m.toNat + a.toNat) % 8192, .adm),
   ((m.toNat + (8192 - a.toNat)) % 8192, .sbm), (8191 - a.toNat, .cnm),
   (m.toNat / 2 ^ (a.toNat % 16 % 13) + m.toNat % 2 ^ (a.toNat % 16 % 13) * 2 ^ (13 - a.toNat % 16 % 13), .crm),
   (a.toNat &&& m.toNat, .anm), (a.toNat ||| m.toNat, .orm), (a.toNat ^^^ m.toNat, .eom),
   (8191 - (a.toNat ^^^ m.toNat), .eqm), ((8191 - a.toNat) &&& m.toNat, .nam),
   ((8191 - a.toNat) ||| m.toNat, .nom)]

end Sys2Proof.Machine
end

