-- ==== Sys2Proof/Certificates/Slice0/Obligations.lean ====
section
/-! DEFINITION. The statements for the provers. -/

open Sys2Proof Sys2Proof.Machine

/-! Encoding. -/

/-- Every order decodes from the control groups it encodes to, whatever follows them; the number of those groups is that by which the claims about the order say that cc advances (R14, R60 to R72). -/
def Obligations.DecodeOfEncode : Prop :=
  (∀ (i : Instr) (rest : List Group), WellFormed i = true → decode (encode i ++ rest) = .ok (i, rest)) ∧
  (∀ f ∈ arithOrders, ∀ o, (encode (f o)).length = operandGroups o) ∧
  (∀ f ∈ storeOrders, ∀ d, (encode (f d)).length = destGroups d) ∧
  (∀ f ∈ freeAddressOrders ++ guardedOrders, ∀ a, (encode (f (.addr a))).length = normalGroups a) ∧
  (∀ f ∈ [Instr.lfr, .sfr, .cam, .csm, .adm, .sbm, .cnm, .crm, .anm, .orm, .eom, .eqm, .nam, .nom],
    ∀ b n c, (encode (f b n c)).length = if n.isSome then 2 else 1) ∧
  (∀ f ∈ [Instr.cju, .cjz, .jpm, .jnm, .jzm, .jum, .jsb, .ldm, .sqw], ∀ b c n, (encode (f b c n)).length = 2) ∧
  (∀ b c n, (encode (.jdc b c n)).length = 2) ∧
  (∀ f ∈ [Instr.sia, .sex, .cjf, .cjs, .hlt], ∀ b c, (encode (f b c)).length = 1) ∧
  ∀ f ∈ [Instr.asn, .ssn, .ssr], ∀ r, (encode (f r)).length = 1

/-- Whatever decodes is a well-formed order, and the groups it was read from are exactly its encoding: no bit is dropped and no bit is read twice (R60 to R72). -/
def Obligations.EncodeOfDecode : Prop :=
  ∀ (gs rest : List Group) (i : Instr), decode gs = .ok (i, rest) → WellFormed i = true ∧ encode i ++ rest = gs

/-- The non-existent orders are exactly the 51 unassigned values of F (R73). -/
def Obligations.UnassignedCodes : Prop :=
  (∀ (g : Group) (rest : List Group),
    decode (g :: rest) = .error (.nonexistent (groupF g)) ↔
      ((groupF g).toNat ≤ 16 ∨ (groupF g).toNat = 27 ∨ (groupF g).toNat = 30 ∨ (groupF g).toNat = 32 ∨
       (40 ≤ (groupF g).toNat ∧ (groupF g).toNat ≤ 43) ∨ (groupF g).toNat = 96 ∨ (groupF g).toNat = 100 ∨
       (groupF g).toNat = 102 ∨ 104 ≤ (groupF g).toNat)) ∧
  ((List.range 128).filter fun f => (orderClass (BitVec.ofNat 7 f)).isNone).length = 51

/-- A few control groups written out from the tables of the spec decode to the orders they stand for. -/
def Obligations.DecodeWords : Prop :=
  decode [0x10A3, 0x00C8] = .ok (.cad (.core (.fixed 200)), []) ∧
  decode [0x109D] = .ok (.cad (.core (.counted 7)), []) ∧
  decode [0x1407] = .ok (.mpy (.fast 1), []) ∧
  decode [0x1523, 0x00C9] = .ok (.str (.core (.fixed 201)), []) ∧
  decode [0x0BCD] = .ok (.cjf 3 1, []) ∧
  decode [0x0BAA, 0x0040] = .ok (.jdc .ovOnClear 2 64, []) ∧
  decode [0x05DE, 0x000F] = .ok (.cam 7 (some 15) false, []) ∧
  decode [0x0680] = .ok (.asn 0, [])

/-! A step. -/

/-- With no event listed and the machine not stopped, a step obeys the order that the control groups at cc and the position after it decode to, with the pending B digits ORed into the first: the pair of cc is first held, then, for a long order that crosses into the next word, the pair of that word. Interplay's references, where some fall there, take effect between the two and before the order's own (R50; the places are the model's: log 19). -/
def Obligations.StepObeysDecodedOrder : Prop :=
  ∀ (s : State) (i : Instr),
    s.events = [] → s.stopped = false → s.plainFetch s.cc.word →
    (decode [orB (s.groupAt s.cc) s.nb] = .ok (i, []) →
      step s = exec i (s.afterHolding s.cc.word).interlude) ∧
    (s.cc.group ≠ 3 → decode [orB (s.groupAt s.cc) s.nb, s.groupAt s.cc.succ] = .ok (i, []) →
      step s = exec i (s.afterHolding s.cc.word).interlude) ∧
    (s.cc.group = 3 →
      decode [orB (s.groupAt s.cc) s.nb, (s.afterHolding s.cc.word).interlude.groupAt s.cc.succ] = .ok (i, []) →
      (s.afterHolding s.cc.word).interlude.plainFetch s.cc.succ.word →
      step s = exec i ((s.afterHolding s.cc.word).interlude.afterHolding s.cc.succ.word).interlude)

/-- A control group whose F is unassigned is a non-existent order: IllegalOrder with cc still at it, or a fault where no interrupt can occur (the fault is the model's choice: D26, log 9). -/
def Obligations.StepRefusesNonexistentOrder : Prop :=
  ∀ s : State, s.events = [] → s.stopped = false → s.plainFetch s.cc.word →
    orderClass (groupF (s.groupAt s.cc)) = none →
    step s =
      if s.intMode = false ∧ s.engineering = false then
        .fault (.programInterrupt .illegalOrder
          { s.afterHolding s.cc.word with intMode := true, cause := some .illegalOrder })
      else .fault (.nonexistentUninterruptible (groupF (s.groupAt s.cc)))

/-- An order obeyed from a held word whose core word has changed is the order of the held copy or the order of the core word, and nothing else, both groups of a long order in one word coming from the same copy; of one that crosses into the other held word, each group comes from either copy of its word. After a jump into the held pair the pair may also be read again, and where its block is busy that reading is refused (the freedom is the spec's decision D12: log 14, log 15). -/
def Obligations.HeldCopyOrCoreWord : Prop :=
  ∀ s : State, s.events = [] → s.stopped = false → s.holds s.cc.word = true →
    (∀ i j : Instr, s.readsIn (s.getF (s.heldIndex s.cc.word)) i → s.readsIn (s.coreWord s.cc.word) j →
      (s.jumped = false → s.getF (s.heldIndex s.cc.word) ≠ s.coreWord s.cc.word →
        step s = exec i { s.interlude with free := s.free + 1 } ∨
        step s = exec j { s.interlude with free := s.free + 1 }) ∧
      (s.jumped = true → (s.params.twoMemories = true → s.undisturbed) →
        ∃ f, s.free ≤ f ∧ f ≤ s.free + 2 ∧
          (step s = exec i { s.interlude with jumped := false, free := f } ∨
            step s = exec j { s.interlude with jumped := false, free := f } ∨
            if s.violation s.cc.word then step s = { s with jumped := false, free := f }.busyFault
            else step s = exec j ({ s with jumped := false, free := f }.refilled s.cc.word).interlude))) ∧
    (s.jumped = false → s.cc.group = 3 → s.holds s.cc.succ.word = true →
      ∀ ord : Word → Word → Instr,
        (∀ v ∈ [s.getF (s.heldIndex s.cc.word), s.coreWord s.cc.word],
          ∀ v' ∈ [s.getF (s.heldIndex s.cc.succ.word), s.interlude.coreWord s.cc.succ.word],
          decode [orB (quarter v 3) s.nb, quarter v' 0] = .ok (ord v v', [])) →
        ∃ v ∈ [s.getF (s.heldIndex s.cc.word), s.coreWord s.cc.word],
        ∃ v' ∈ [s.getF (s.heldIndex s.cc.succ.word), s.interlude.coreWord s.cc.succ.word],
        ∃ f, step s = exec (ord v v') { s.interlude.interlude with free := f })

/-! What acts from outside. -/

/-- One word of an active transfer: an input word goes to the next core address, unchecked; an output word goes from it to the device; the transfer moves on, or is over after its last word or, on a device without fixed blocks, at a stop indication, and then blockDone is on; the drum works on fixed blocks. Inside an order Interplay does what it does between orders, word after word (R247, R50; that a device acts through the lists events and inside is the model's form: log 17, log 18, log 19). -/
def Obligations.TransferMovesOneWord : Prop :=
  (∀ p : Params, p.fixedBlock 0 = true) ∧
  (∀ (s : State) (cs : List ChannelWord) (places : List (List ChannelWord)), s.inside = cs :: places →
    Sys2Proof.core.run cs.length
        { s with inside := places, events := cs.map fun c => .transfer c.channel c.word c.stop } =
      .next { s.interlude with events := [] }) ∧
  ∀ (s : State) (rest : List Event) (c : BitVec 5) (w : Word) (stop : Bool) (x : Transfer),
    Mem.wf s.core = true → s.events = .transfer c w stop :: rest → s.params.interplayPresent = true →
    s.channel c = some x →
    ∃ t, step s = .next t ∧
      t = { s with core := t.core, deviceOut := t.deviceOut, channels := t.channels,
                   blockDone := t.blockDone, events := rest } ∧
      (x.direction = .input →
        t.coreWord x.next = w ∧ CoreFrame s t x.next ∧ t.deviceOut = s.deviceOut) ∧
      (x.direction = .output →
        SameCore s t ∧ t.deviceOut = s.deviceOut ++ [(c, s.coreWord x.next)]) ∧
      (∀ d, d ≠ c → t.channel d = s.channel d) ∧
      (if x.last.toNat ≤ x.next.toNat ∨ (stop = true ∧ s.params.fixedBlock c = false) then
        t.channel c = none ∧ t.blockDone = true
      else
        t.channel c = some { x with next := x.next + 1 } ∧ t.blockDone = s.blockDone)

/-- A clock signal, a device malfunction, or a completed block transfer with its indicator on ends the run as a program interrupt of its cause, with the interrupt mode set and the cause recorded, unless the interrupt mode or the engineering switch disables it: then it has no effect. Malfunction and completion come from Interplay: without it they have none (R231, R233, R235, D10, D31; what becomes of a disabled request, that a stopped machine is interrupted too, and that the indicator is the whole condition are the model's choices: log 17). -/
def Obligations.OutsideInterrupts : Prop :=
  ∀ (s : State) (rest : List Event) (e : Event) (c : Cause) (asks : Bool),
    (e = .clock ∧ c = .clock ∧ asks = true) ∨
      (e = .malfunction ∧ c = .malfunction ∧ asks = s.params.interplayPresent) ∨
      (e = .blockDone ∧ c = .blockDone ∧ asks = (s.params.interplayPresent && s.blockDone)) →
    s.events = e :: rest →
    step s =
      if asks = false ∨ s.intMode = true ∨ s.engineering = true then .next { s with events := rest }
      else .fault (.programInterrupt c { s with events := rest, intMode := true, cause := some c })

/-- A stopped machine keeps its state, and obeys its next order after the operator has raised and released the black switch; every other move of that switch leaves it stopped, or running, as it was. The operator's other switches take the position they are put in, and the tape to be read gets its next character at the end; nothing else changes, whether the machine is stopped or not (R29 to R33, R249, R270; a stopped machine's step leaving the state alone, and the host acting through the list of events, are the model's form: log 16, log 17). -/
def Obligations.StopAndRelease : Prop :=
  (∀ s : State, s.stopped = true → s.events = [] → step s = .next s) ∧
  (∀ (s : State) (rest : List Event) (p : BlackSwitch), s.events = .black p :: rest →
    ∃ t, step s = .next t ∧ t = { s with black := p, stopped := t.stopped, events := rest } ∧
      (t.stopped = true ↔ s.stopped = true ∧ (s.black = .up → p = .up))) ∧
  (∀ (s : State) (rest : List Event),
    (∀ p, s.events = .green p :: rest → step s = .next { s with green := p, events := rest }) ∧
    (∀ on, s.events = .engineering on :: rest → step s = .next { s with engineering := on, events := rest }) ∧
    (∀ always, s.events = .interplayLegal always :: rest →
      step s = .next { s with interplayAlways := always, events := rest }) ∧
    ∀ c, s.events = .tape c :: rest → step s = .next { s with tapeIn := s.tapeIn ++ [c], events := rest }) ∧
  ∀ (s : State) (rest : List Event) (p : BlackSwitch),
    s.events = .black .up :: .black p :: rest → p ≠ .up →
    ∃ t u, step s = .next t ∧ step t = .next u ∧
      u = { s with black := p, stopped := u.stopped, events := rest } ∧
      t.stopped = s.stopped ∧ u.stopped = false

/-! References to core. -/

/-- A checked store changes one core word and a checked read sees it; both leave core in canonical form; a refused reference changes no core word and raises BusyBlock; two addresses name one core word exactly where they agree modulo 8192, or modulo 4096 with one memory (R44, R45, R59; that the run ends there is D10: log 8). -/
def Obligations.CoreReadAndWrite : Prop :=
  ∀ (s : State) (a : Addr) (v : Word), Mem.wf s.core = true →
    (∀ b : Addr, coreIndex s.params a = coreIndex s.params b ↔
      if s.params.twoMemories then a.toNat % 8192 = b.toNat % 8192 else a.toNat % 4096 = b.toNat % 4096) ∧
    (s.violation a = false →
      (∀ k, memRead s a k = k (s.coreWord a)) ∧
      ∃ t, (∀ k, memWrite s a v k = k t) ∧ t = { s with core := t.core } ∧ Mem.wf t.core = true ∧
        t.coreWord a = v ∧ CoreFrame s t a) ∧
    (s.violation a = true →
      ∃ t, t = { s with intMode := true, cause := some .busyBlock } ∧
        (∀ k, memRead s a k = .fault (.programInterrupt .busyBlock t)) ∧
        ∀ k, memWrite s a v k = .fault (.programInterrupt .busyBlock t))

/-- Block k is the addresses 256k to 256k + 255, and a reference is a violation exactly where its block is busy, the interrupt mode is off and the engineering switch is off (R46, R47). -/
def Obligations.BlocksAndViolations : Prop :=
  ∀ (s : State) (a : Addr) (k : BitVec 5),
    (blockOf a = k ↔ 256 * k.toNat ≤ a.toNat ∧ a.toNat ≤ 256 * k.toNat + 255) ∧
    (s.violation a = true ↔
      s.isBusy (blockOf a) = true ∧ s.intMode = false ∧ s.engineering = false)

/-- An arithmetic order whose operand lies in a busy block is refused: BusyBlock, with the accumulator, F1, every core word and cc as they were; a counted modifier has been counted. LDM and LFR of a busy block are refused with nothing done, and so is the refill of F8 and F9, for the first control group of an order or for its second (R46, R52, D13; the count is the model's choice: R236, log 8). -/
def Obligations.BusyOperandRefused : Prop :=
  (∀ f ∈ arithOrders, ∀ (a : NormalAddr) (s : State), s.violation (s.address a) = true →
    ∃ t, exec (f (.core a)) s = .fault (.programInterrupt .busyBlock t) ∧
      t = { s with fast := t.fast, na := 0, nb := 0, intMode := true, cause := some .busyBlock } ∧
      FastFrame s t [] (normalCounts a) ∧ Counted s t [] (normalCounts a)) ∧
  (∀ (b : BitVec 4) (c : BitVec 2) (n : Addr) (s : State), s.violation (n + s.na) = true →
    exec (.ldm b c n) s = { s with na := 0, nb := 0 }.busyFault) ∧
  (∀ (b : BitVec 4) (n : Option Addr) (c : Bool) (s : State), 2 ≤ b.toNat → b.toNat < 8 →
    s.violation (n.getD 0 + s.na) = true → exec (.lfr b n c) s = { s with na := 0, nb := 0 }.busyFault) ∧
  ∀ s : State, s.events = [] → s.stopped = false →
    (s.holds s.cc.word = false → s.violation s.cc.word = true → step s = { s with jumped := false }.busyFault) ∧
    (∀ k, s.plainFetch s.cc.word → s.cc.group = 3 →
      orderClass (groupF (s.groupAt s.cc)) = some k →
      k.isLong (groupB (orB (s.groupAt s.cc) s.nb)) (groupC (s.groupAt s.cc)) = true →
      (s.afterHolding s.cc.word).holds s.cc.succ.word = false → s.violation s.cc.succ.word = true →
      step s = (s.afterHolding s.cc.word).interlude.busyFault)

/-- A store whose destination lies in a busy block is refused: BusyBlock, and every core word reads as before (R45). -/
def Obligations.BusyStoreRefused : Prop :=
  (∀ f ∈ storeOrders, ∀ (a : NormalAddr) (s : State), s.violation (s.address a) = true →
    ∃ t, exec (f (.core a)) s = .fault (.programInterrupt .busyBlock t) ∧
      t.core = s.core ∧ SameCore s t ∧ t.cc = s.cc) ∧
  (∀ (b : BitVec 4) (c : BitVec 2) (n : Addr) (s : State), sourceIllegal b = false →
    s.violation (n + s.na) = true →
    ∃ t, exec (.sqw b c n) s = .fault (.programInterrupt .busyBlock t) ∧ t.core = s.core ∧ t.fast = s.fast) ∧
  (∀ (b : BitVec 4) (n : Option Addr) (c : Bool) (s : State), sourceIllegal b = false →
    s.violation (n.getD 0 + s.na) = true →
    ∃ t, exec (.sfr b n c) s = .fault (.programInterrupt .busyBlock t) ∧ t.core = s.core ∧ t.fast = s.fast)

/-! Illegal orders. -/

/-- An illegal combination of digits changes nothing but the interrupt mode and the recorded cause; where no interrupt can occur the run ends as a fault (D10, D26, R96: log 8, log 9). -/
def Obligations.IllegalFormsStop : Prop :=
  ∀ (i : Instr) (s : State), IllegalForm i →
    exec i s =
      if s.intMode = false ∧ s.engineering = false then
        .fault (.programInterrupt .illegalOrder { s with intMode := true, cause := some .illegalOrder })
      else .fault .illegalUninterruptible

/-- The five Interplay and Block Checker orders complete exactly where Interplay is there, their address is one, and the interrupt mode, the console switch or the engineering switch makes them legal; elsewhere they are illegal orders (R170, D31; the run's end there: D10, D26, log 8, log 9). -/
def Obligations.InterplayLegality : Prop :=
  ∀ f ∈ guardedOrders, ∀ (x : AddrForm) (s : State),
    (s.params.interplayPresent = true ∧
      (s.intMode = true ∨ s.interplayAlways = true ∨ s.engineering = true) →
      ∀ a, x = .addr a → ∃ t, exec (f x) s = .next t) ∧
    (s.params.interplayPresent = false ∨
      (s.intMode = false ∧ s.interplayAlways = false ∧ s.engineering = false) →
      exec (f x) s =
        if s.intMode = false ∧ s.engineering = false then
          .fault (.programInterrupt .illegalOrder { s with intMode := true, cause := some .illegalOrder })
        else .fault .illegalUninterruptible)

/-- With OV_INTERRUPTS, an order that turns OV on completes and then raises the Arithmetic interrupt: the state it would have left is the state the interrupt finds (R234, D23; log 8). -/
def Obligations.OverflowInterrupts : Prop :=
  ∀ (i : Instr) (s t : State), s.params.ovInterrupts = true →
    exec i { s with params := { s.params with ovInterrupts := false } } = .next t →
    exec i s =
      if s.intMode = false ∧ s.engineering = false ∧ s.acc.ov = false ∧ t.acc.ov = true then
        .fault (.programInterrupt .arithmetic
          { t with params := s.params, intMode := true, cause := some .arithmetic })
      else .next { t with params := s.params }

/-! The common operations of the arithmetic unit. -/

/-- K corrects an overflowed fraction by one right shift and marks zero, as its three clauses say (R105; the digits kept with Z on are decision D16). -/
def Obligations.CorrectOverflowDetectZero : Prop :=
  ∀ (x : Acc) (fw ew : Int), -2 ^ 90 ≤ fw → fw < 2 ^ 90 → CorrectedTo x fw ew (x.k fw ew)

/-- Normalization and partial normalization shift AQ left by some number of places with the exponent counted down by as many, lose no digit, turn Z on exactly where the exponent passes -128, and stop with Z on, with a normalized, or for the partial one with q = 0, at the first number of places at which a is normalized or, for Z and q, at the first even one: Z and q are tested after an even number of places only, and an odd number leaves a normalized; where that holds at the start nothing changes (R101 to R103; D7). -/
def Obligations.NormalizationShifts : Prop :=
  ∀ (part : Bool) (x : Acc), ∃ k : Nat,
    (x.normalizeWith part).aq = x.aq * 4 ^ k ∧
    ((x.normalizeWith part).eInt - (x.eInt - k)) % 256 = 0 ∧
    (x.normalizeWith part).z = (x.z || decide (x.eInt - k < -128)) ∧
    (x.normalizeWith part).ov = x.ov ∧
    (∀ j < k, -2 ^ 86 ≤ x.aq * 4 ^ j ∧ x.aq * 4 ^ j < 2 ^ 86 ∧
      (j % 2 = 0 → x.z = false ∧ -128 ≤ x.eInt - j ∧ (part = true → x.aq * 4 ^ j % 2 ^ 44 ≠ 0))) ∧
    ((x.normalizeWith part).z = true ∨ (part = true ∧ (x.normalizeWith part).q = 0) ∨
      (2 ^ 42 ≤ (x.normalizeWith part).aInt ∨ (x.normalizeWith part).aInt < -2 ^ 42)) ∧
    (k % 2 = 1 → 2 ^ 42 ≤ (x.normalizeWith part).aInt ∨ (x.normalizeWith part).aInt < -2 ^ 42) ∧
    (x.z = true ∨ (part = true ∧ x.q = 0) ∨ (2 ^ 42 ≤ x.aInt ∨ x.aInt < -2 ^ 42) →
      x.normalizeWith part = x)

/-- a_r is f rounded to 45 digits, the even neighbour being taken at q = 1/2 (R104). -/
def Obligations.RoundOff : Prop :=
  ∀ x : Acc,
    -2 ^ 43 ≤ x.round * 2 ^ 44 - x.aq ∧ x.round * 2 ^ 44 - x.aq ≤ 2 ^ 43 ∧
    (x.qInt = 2 ^ 43 → x.round % 2 = 0) ∧ (x.round = x.aInt ∨ x.round = x.aInt + 1) ∧
    -2 ^ 44 ≤ x.round ∧ x.round ≤ 2 ^ 44

/-- An operand with a fraction other than 0 is normalized by at most 22 left shifts with the exponent counted down; a fraction of 0 is left alone (R114). -/
def Obligations.OperandNormalized : Prop :=
  ∀ xi y : Int, -2 ^ 44 ≤ xi → xi < 2 ^ 44 →
    (xi = 0 → normalizeOperand xi y = (xi, y)) ∧
    (xi ≠ 0 → ∃ k : Nat, k ≤ 22 ∧ normalizeOperand xi y = (xi * 4 ^ k, y - k) ∧
      (2 ^ 42 ≤ xi * 4 ^ k ∨ xi * 4 ^ k < -2 ^ 42) ∧ -2 ^ 44 ≤ xi * 4 ^ k ∧ xi * 4 ^ k < 2 ^ 44)

/-- The common tail of the floating point stores: the word is the rounded number as memory holds it, OV goes on where its exponent is +64 or more and Z is off, and nothing else of the accumulator changes (R106). -/
def Obligations.StoreConversion : Prop :=
  ∀ (x : Acc) (m e : Int), -2 ^ 44 ≤ m → m ≤ 2 ^ 44 →
    StoredAs m e (x.storeConvert m e).1 ∧
    (x.storeConvert m e).2 = { x with ov := x.ov || (storeOverflows m e && !x.z) }

/-! The arithmetic orders. -/

/-- CAD, CSB, CAT, CST: the accumulator receives x, -x, 2x, -2x with the exponent y, or a quarter of it with y + 1 where the fraction leaves [-1, 1); Z is on exactly for x = 0; OV is unchanged; their codes are 66, 64, 67 and 65 (R120 to R123). An immediate operand has the value of N, or of N/4096, and by default N is its left quarter, with the exponent 6, or 0 (R85; the default is the spec's decision D3: log 10). -/
def Obligations.ClearAddOrders : Prop :=
  (∀ (n : Addr) (s : State),
    (∀ p ∈ [(Operand.integer n, (2 ^ 44 : Int), (6 : Int)), (.fraction n, 2 ^ 32, 0)],
      xval (s.operandWord p.1) * 4 ^ (yval (s.operandWord p.1) + 64).toNat = n.toInt * p.2.1 * 4 ^ 64 ∧
      (s.params.immDefault = true →
        xval (s.operandWord p.1) = n.toInt * 2 ^ 32 ∧ yval (s.operandWord p.1) = p.2.2))) ∧
  ∀ p ∈ ([(1, Instr.cad), (-1, Instr.csb), (2, Instr.cat), (-2, Instr.cst)] : List (Int × (Operand → Instr))),
  ∀ (o : Operand) (s : State), s.canRead o → s.quiet →
    [codeOf (.cad o), codeOf (.csb o), codeOf (.cat o), codeOf (.cst o)] = [some 66, some 64, some 67, some 65] ∧
    ∃ t, exec (p.2 o) s = .next t ∧ ArithDone s t o ∧ t.divLast = false ∧
      (if -2 ^ 44 ≤ p.1 * xval (s.operandWord o) ∧ p.1 * xval (s.operandWord o) < 2 ^ 44 then
        HoldsValue s.acc (p.1 * xval (s.operandWord o) * 2 ^ 44) (yval (s.operandWord o)) t.acc
      else
        HoldsValue s.acc (p.1 * xval (s.operandWord o) * 2 ^ 42) (yval (s.operandWord o) + 1) t.acc)

/-- NOT, AND, LOR, DBA, LDQ work on the digits; Z is cleared and then set exactly where A and Q are all zero; OV is unchanged; their codes are 68 to 71 and 97 (R124 to R128). -/
def Obligations.LogicOrders : Prop :=
  ∀ (o : Operand) (s : State), s.canRead o → s.quiet →
    [codeOf (.not o), codeOf (.and o), codeOf (.lor o), codeOf (.dba o), codeOf (.ldq o)] =
      [some 68, some 69, some 70, some 71, some 97] ∧
    (∃ t, exec (.not o) s = .next t ∧ ArithDone s t o ∧ t.divLast = false ∧
      HoldsDigits s.acc (~~~frac (s.operandWord o)) 0 t.acc ∧ t.acc.eInt = yval (s.operandWord o)) ∧
    (∃ t, exec (.and o) s = .next t ∧ ArithDone s t o ∧ t.divLast = false ∧
      HoldsDigits s.acc (s.acc.a &&& frac (s.operandWord o)) s.acc.q t.acc ∧ t.acc.e = s.acc.e) ∧
    (∃ t, exec (.lor o) s = .next t ∧ ArithDone s t o ∧ t.divLast = false ∧
      HoldsDigits s.acc (s.acc.a ||| frac (s.operandWord o)) s.acc.q t.acc ∧ t.acc.e = s.acc.e) ∧
    (∃ t, exec (.dba o) s = .next t ∧ ArithDone s t o ∧ t.divLast = false ∧
      HoldsDigits s.acc (s.acc.a + s.acc.a) s.acc.q t.acc ∧ t.acc.e = s.acc.e) ∧
    (∃ t, exec (.ldq o) s = .next t ∧ ArithDone s t o ∧ t.divLast = false ∧
      HoldsDigits s.acc s.acc.a ((frac (s.operandWord o)).extractLsb' 0 44) t.acc ∧ t.acc.e = s.acc.e)

/-- ADD and SUB: by-passed for y = -64, and where the accumulator's exponent is 45 or more above y; a clear add or clear subtract with Z on, and where it is 45 or more below; else the sum of the aligned 89-digit fractions at the larger exponent, corrected by K; OV is never changed (R129, R131). -/
def Obligations.AddAndSubtract : Prop :=
  ∀ p ∈ ([(1, Instr.add), (-1, Instr.sub)] : List (Int × (Operand → Instr))),
  ∀ (o : Operand) (s : State), s.canRead o → s.quiet →
    ∃ t, exec (p.2 o) s = .next t ∧ ArithDone s t o ∧ t.divLast = false ∧ t.acc.ov = s.acc.ov ∧
      (let v := p.1 * xval (s.operandWord o) * 2 ^ 44
       let y := yval (s.operandWord o)
       let d := s.acc.eInt - y
       if y = -64 then t.acc = s.acc
       else if s.acc.z = true ∨ d ≤ -45 then CorrectedTo { s.acc with z := false } v y t.acc
       else if 45 ≤ d then t.acc = s.acc
       else if 0 ≤ d then CorrectedTo s.acc (s.acc.aq + v / 4 ^ d.toNat) s.acc.eInt t.acc
       else CorrectedTo s.acc (s.acc.aq / 4 ^ (-d).toNat + v) y t.acc)

/-- MPY: by-passed with Z on, or with y = -64, after the partial normalization; else the exact product a_r x at the exponent e + y, Z on below -128, OV on above 127, and then K (R130). -/
def Obligations.MultiplyOrder : Prop :=
  ∀ (o : Operand) (s : State), s.canRead o → s.quiet →
    ∃ t, exec (.mpy o) s = .next t ∧ ArithDone s t o ∧ t.divLast = false ∧
      (let n := s.acc.partialNormalize
       let e := n.eInt + yval (s.operandWord o)
       if n.z = true ∨ yval (s.operandWord o) = -64 then t.acc = { n with z := true }
       else
        CorrectedTo { n with z := decide (e < -128), ov := n.ov || decide (127 < e) }
          (n.round * xval (s.operandWord o)) e t.acc)

/-- DIV and NDV: x = 0 sets OV unless Z is on, and by-passes; Z on by-passes; else f/x, or f/(4x) where f is the larger in magnitude, rounded, at the exponent e - y, or e - y + 1; below -128 Z goes on and the order is by-passed, above 127 OV goes on; K corrects a quotient of +1; the remainder of a by-pass is floating zero (R112, R132, R133; D8, D9, D15). -/
def Obligations.DivideOrders : Prop :=
  ∀ p ∈ ([(1, Instr.div), (-1, Instr.ndv)] : List (Int × (Operand → Instr))),
  ∀ (o : Operand) (s : State), s.canRead o → s.quiet →
    ∃ t, exec (p.2 o) s = .next t ∧ ArithDone s t o ∧ t.divLast = true ∧
      (let n := s.acc.normalize
       let x := normalizeOperand (xval (s.operandWord o)) (yval (s.operandWord o))
       let g : Nat := if x.1.natAbs * 2 ^ 44 < n.aq.natAbs then 1 else 0
       let e := n.eInt - x.2 + g
       if xval (s.operandWord o) = 0 then
        t.acc = { n with ov := n.ov || !n.z } ∧ t.r = 0 ∧ t.es = -64
       else if n.z = true ∨ e < -128 then t.acc = { n with z := true } ∧ t.r = 0 ∧ t.es = -64
       else
        (t.r, t.es) = Config.divRemainder n.aq n.eInt (p.1 * x.1) x.2 ∧
        ∃ q, RoundedTo n.aq (p.1 * x.1 * 4 ^ g) q ∧
          CorrectedTo { n with ov := n.ov || decide (127 < e) } (q * 2 ^ 44) e t.acc)

/-- VID: the operand, with Q = 0, takes the accumulator's place; Z on before then sets OV and by-passes; x = 0 sets Z and by-passes; else the normalized operand is divided by the rounded accumulator as in DIV (R134; D9, D22). -/
def Obligations.InverseDivideOrder : Prop :=
  ∀ (o : Operand) (s : State), s.canRead o → s.quiet →
    ∃ t, exec (.vid o) s = .next t ∧ ArithDone s t o ∧ t.divLast = true ∧
      (let n := s.acc.normalize
       let x := normalizeOperand (xval (s.operandWord o)) (yval (s.operandWord o))
       let g : Nat := if n.round.natAbs < x.1.natAbs then 1 else 0
       let e := x.2 - n.eInt + g
       if n.z = true then
        t.acc.aq = xval (s.operandWord o) * 2 ^ 44 ∧ t.acc.eInt = yval (s.operandWord o) ∧
        t.acc.z = true ∧ t.acc.ov = true ∧ t.r = 0 ∧ t.es = -64
       else if x.1 = 0 ∨ e < -128 then
        t.acc.aq = x.1 * 2 ^ 44 ∧ t.acc.eInt = x.2 ∧ t.acc.z = true ∧ t.acc.ov = n.ov ∧
        t.r = 0 ∧ t.es = -64
       else
        (t.r, t.es) = Config.divRemainder (x.1 * 2 ^ 44) x.2 n.round n.eInt ∧
        ∃ q, RoundedTo (x.1 * 2 ^ 44) (n.round * 4 ^ g) q ∧
          CorrectedTo { n with ov := n.ov || decide (127 < e) } (q * 2 ^ 44) e t.acc)

/-- DAV: after the partial normalization, -|x| at y where Z is on or |a_r| is shifted out, |a_r| at e where |x| is shifted out, else the aligned sum of -|x| and |a_r|; always corrected by K from Z off (R135; D18). -/
def Obligations.DifferenceAbsoluteOrder : Prop :=
  ∀ (o : Operand) (s : State), s.canRead o → s.quiet →
    ∃ t, exec (.dav o) s = .next t ∧ ArithDone s t o ∧ t.divLast = false ∧
      (let n := s.acc.partialNormalize
       let u := -((xval (s.operandWord o)).natAbs : Int) * 2 ^ 44
       let v := (n.round.natAbs : Int) * 2 ^ 44
       let y := yval (s.operandWord o)
       let d := y - n.eInt
       if n.z = true ∨ 45 ≤ d then CorrectedTo { n with z := false } u y t.acc
       else if d ≤ -45 then CorrectedTo { n with z := false } v n.eInt t.acc
       else if 0 ≤ d then CorrectedTo { n with z := false } (u + v / 4 ^ d.toNat) y t.acc
       else CorrectedTo { n with z := false } (u / 4 ^ (-d).toNat + v) n.eInt t.acc)

/-! The store orders. -/

/-- STR and STU: floating point zero where Z is on (after normalization for STR), else the rounded number; STR leaves the accumulator normalized, STU unchanged but for Z; OV where the stored exponent is +64 or more (R141, R142, R106). -/
def Obligations.NormalStores : Prop :=
  ∀ (d : Dest) (s : State), Mem.wf s.core = true → s.canStore d → s.quiet →
    (∃ t w, exec (.str d) s = .next t ∧ StoreDone s t d w ∧
      (let n := s.acc.normalize
       if n.z = true then w = zeroWord ∧ t.acc = n
       else StoredAs n.round n.eInt w ∧ t.acc = { n with ov := n.ov || storeOverflows n.round n.eInt })) ∧
    (∃ t w, exec (.stu d) s = .next t ∧ StoreDone s t d w ∧
      (if s.acc.z = true then w = zeroWord ∧ t.acc = s.acc
       else
        StoredAs s.acc.round s.acc.eInt w ∧
        t.acc = { s.acc with z := decide (s.acc.aq = 0),
                             ov := s.acc.ov || storeOverflows s.acc.round s.acc.eInt }))

/-- STN: the normalized accumulator becomes -a_r with Q = 0, normalized where -a_r = -1/4, and that number is stored; K corrects +1 (R143; D17). -/
def Obligations.StoreNegativeOrder : Prop :=
  ∀ (d : Dest) (s : State), Mem.wf s.core = true → s.canStore d → s.quiet →
    ∃ t w, exec (.stn d) s = .next t ∧ StoreDone s t d w ∧
      (let n := s.acc.normalize
       let m := if n.z = false ∧ n.round = 2 ^ 42 then -2 ^ 44 else -n.round
       let e := if n.z = false ∧ n.round = 2 ^ 42 then n.eInt - 1 else n.eInt
       if n.z = true ∨ e < -128 then w = zeroWord ∧ CorrectedTo { n with z := true } (m * 2 ^ 44) e t.acc
       else
        StoredAs m e w ∧
        CorrectedTo { n with ov := n.ov || storeOverflows m e } (m * 2 ^ 44) e t.acc)

/-- STF and SEQ: with Z off the accumulator is shifted to the exponent 0, or to the exponent of the number in F1, losing digits at either end, OV on where the left end loses some; the rounded fraction is stored at that exponent, +1 as -1 with OV on; floating point zero with Z on, for a rounded fraction of 0, and for an exponent of -64 (R111, R144, R145; D19, D29). -/
def Obligations.FixedPointStores : Prop :=
  ∀ (d : Dest) (s : State), Mem.wf s.core = true → s.canStore d → s.quiet →
    ∀ p ∈ ([(0, Instr.stf), (yval (s.getF 1), Instr.seq)] : List (Int × (Dest → Instr))),
    ∃ t w, exec (p.2 d) s = .next t ∧ StoreDone s t d w ∧
      (let n := s.acc.eInt - p.1
       let v := if 0 < n then s.acc.aq * 4 ^ n.toNat else s.acc.aq / 4 ^ (-n).toNat
       if s.acc.z = true then w = zeroWord ∧ t.acc = s.acc
       else
        (t.acc.aq - v) % 2 ^ 89 = 0 ∧ t.acc.eInt = p.1 ∧ t.acc.z = decide (t.acc.aq = 0) ∧
        t.acc.ov = (s.acc.ov || decide (v < -2 ^ 88 ∨ 2 ^ 88 ≤ v) || decide (t.acc.round = 2 ^ 44)) ∧
        (if t.acc.round = 0 ∨ p.1 = -64 then w = zeroWord
         else (xval w - t.acc.round) % 2 ^ 45 = 0 ∧ yval w = p.1))

/-- SIF: with Z off the accumulator is shifted to the exponent 22, and A, the integer part modulo 2^45, is stored there without rounding; floating point zero where Z is on or A = 0; OV where the shift loses digits at the left (R147; D19). -/
def Obligations.IntegerStore : Prop :=
  ∀ (d : Dest) (s : State), Mem.wf s.core = true → s.canStore d → s.quiet →
    ∃ t w, exec (.sif d) s = .next t ∧ StoreDone s t d w ∧
      (let n := s.acc.eInt - 22
       let v := if 0 < n then s.acc.aq * 4 ^ n.toNat else s.acc.aq / 4 ^ (-n).toNat
       if s.acc.z = true then w = zeroWord ∧ t.acc = s.acc
       else
        (t.acc.aq - v) % 2 ^ 89 = 0 ∧ t.acc.eInt = 22 ∧ t.acc.z = decide (t.acc.aq = 0) ∧
        t.acc.ov = (s.acc.ov || decide (v < -2 ^ 88 ∨ 2 ^ 88 ≤ v)) ∧
        (if t.acc.aInt = 0 then w = zeroWord else xval w = t.acc.aInt ∧ yval w = 22))

/-- STL and STQ: the digits of A, or of Q after a sign digit 0, with the exponent modulo 128, whatever Z is; the accumulator is unchanged (R148, R149). -/
def Obligations.LogicalStores : Prop :=
  ∀ (d : Dest) (s : State), Mem.wf s.core = true → s.canStore d → s.quiet →
    (∃ t w, exec (.stl d) s = .next t ∧ StoreDone s t d w ∧ t.acc = s.acc ∧
      frac w = s.acc.a ∧ expf w = s.acc.e.extractLsb' 0 7) ∧
    (∃ t w, exec (.stq d) s = .next t ∧ StoreDone s t d w ∧ t.acc = s.acc ∧
      (xval w = s.acc.qInt) ∧ expf w = s.acc.e.extractLsb' 0 7)

/-- SRM after a divide: the remainder in R and ES, as floating point zero where its fraction is 0 or its exponent -64 or less, with OV on (Z permitting) where its exponent is +64 or more; A, Q, E and Z unchanged (R151). -/
def Obligations.RemainderStored : Prop :=
  ∀ (d : Dest) (s : State), Mem.wf s.core = true → s.canStore d → s.quiet → s.divLast = true →
    ∃ t w, exec (.srm d) s = .next t ∧ StoreDone s t d w ∧
      (if s.r = 0 ∨ s.es ≤ -64 then w = zeroWord ∧ t.acc = s.acc
       else
        frac w = s.r ∧ (yval w - s.es) % 128 = 0 ∧
        t.acc = { s.acc with ov := s.acc.ov || (decide (64 ≤ s.es) && !s.acc.z) })

/-- SRM after any other Delayed Control order still completes: what it stores and OV are free, everything else is as after a divide (the freedom is U6's: log 12). -/
def Obligations.RemainderFree : Prop :=
  ∀ (d : Dest) (s : State), Mem.wf s.core = true → s.canStore d → s.quiet → s.divLast = false →
    ∃ t w, exec (.srm d) s = .next t ∧
      t = { s with core := t.core, acc := { s.acc with ov := t.acc.ov }, fast := t.fast, cc := t.cc,
                   na := 0, nb := 0, free := t.free } ∧
      t.cc = s.cc.past (destGroups d) ∧ StoredAt s t d w ∧
      FastFrame s t (destRegisters d) (destCounts d) ∧ Counted s t (destRegisters d) (destCounts d)

/-- STC stores as STR, and then the accumulator holds the rounding error q - ε, at the exponent e - 22, Z on below -128, K applied; OV only as in STR (R150; D17). -/
def Obligations.StoreClearOrder : Prop :=
  ∀ (d : Dest) (s : State), Mem.wf s.core = true → s.canStore d → s.quiet →
    ∃ t w, exec (.stc d) s = .next t ∧ StoreDone s t d w ∧
      (let n := s.acc.normalize
       let e := n.eInt - 22
       let v := (n.qInt - (n.round - n.aInt) * 2 ^ 44) * 2 ^ 44
       if n.z = true then w = zeroWord ∧ CorrectedTo n v e t.acc
       else
        StoredAs n.round n.eInt w ∧
        CorrectedTo { n with z := decide (e < -128), ov := n.ov || storeOverflows n.round n.eInt } v e t.acc)

/-- XCH: the destination receives what STR would store, the accumulator what CAD would load from the destination's old contents, OV as STR leaves it; what Interplay does between the read and the write stands, but for the word stored (R57, R146; D20). -/
def Obligations.ExchangeOrder : Prop :=
  ∀ (d : Dest) (s : State), Mem.wf s.core = true → s.canStore d → s.quiet →
    ∃ t w, exec (.xch d) s = .next t ∧ ExchangeDone s t d w ∧
      HoldsValue t.acc (xval (s.destWord d) * 2 ^ 44) (yval (s.destWord d)) t.acc ∧
      (let n := s.acc.normalize
       if n.z = true then w = zeroWord ∧ t.acc.ov = n.ov
       else StoredAs n.round n.eInt w ∧ t.acc.ov = (n.ov || storeOverflows n.round n.eInt))

/-- ASC and SSC are ADD, or SUB, of the destination's old contents followed by STC to the same place: the sum's accumulator is what ADD, or SUB, of that word leaves, and word and accumulator are those of STC from it; what Interplay does between the read and the write stands, but for the word stored (R57, R153, R154; D20). -/
def Obligations.AddStoreClearOrders : Prop :=
  ∀ p ∈ ([(1, Instr.asc), (-1, Instr.ssc)] : List (Int × (Dest → Instr))),
  ∀ (d : Dest) (s : State), Mem.wf s.core = true → s.canStore d → s.quiet →
    ∃ t w, exec (p.2 d) s = .next t ∧ ExchangeDone s t d w ∧
      (let n := (s.acc.addSub p.1 (s.destWord d)).normalize
       let e := n.eInt - 22
       let v := (n.qInt - (n.round - n.aInt) * 2 ^ 44) * 2 ^ 44
       if n.z = true then w = zeroWord ∧ CorrectedTo n v e t.acc
       else
        StoredAs n.round n.eInt w ∧
        CorrectedTo { n with z := decide (e < -128), ov := n.ov || storeOverflows n.round n.eInt } v e t.acc)

/-! Exponent, shift and quarter-word orders. -/

/-- CAE, CSE, ADE, SBE: E receives y*, -y*, e + y*, e - y* modulo 256, y* being the address modulo 256 as a signed number; OV goes on above 127 with Z off, Z below -128 or where A and Q are all zero; A and Q are unchanged; four copies of the address go to F1; their codes are 79, 77, 75 and 73 (R160 to R164). -/
def Obligations.ExponentOrders : Prop :=
  ∀ (a : NormalAddr) (s : State), s.quiet →
    [codeOf (.cae (.addr a)), codeOf (.cse (.addr a)), codeOf (.ade (.addr a)), codeOf (.sbe (.addr a))] =
      [some 79, some 77, some 75, some 73] ∧
    ∀ p ∈ ([(Int.bmod (s.address a).toNat 256, Instr.cae), (-Int.bmod (s.address a).toNat 256, Instr.cse),
      (s.acc.eInt + Int.bmod (s.address a).toNat 256, Instr.ade),
      (s.acc.eInt - Int.bmod (s.address a).toNat 256, Instr.sbe)] : List (Int × (AddrForm → Instr))),
    ∃ t, exec (p.2 (.addr a)) s = .next t ∧ OnlyArithmetic s t ∧ Ended s t (normalGroups a) ∧
      t.getF 1 = rep4 (s.address a) ∧ FastFrame s t [1] (normalCounts a) ∧
      Counted s t [1] (normalCounts a) ∧ t.divLast = false ∧
      t.acc.a = s.acc.a ∧ t.acc.q = s.acc.q ∧ (t.acc.eInt - p.1) % 256 = 0 ∧
      t.acc.ov = (s.acc.ov || (decide (127 < p.1) && !s.acc.z)) ∧
      t.acc.z = (s.acc.z || decide (p.1 < -128) || decide (s.acc.aq = 0))

/-- ARS and LRS: A, or A and Q as one 89-digit pattern, is shifted right y base 4 places, or left -y, y being the address modulo 128 as a signed number; zeros enter; Z can only be set, for all digits zero; E and OV are unchanged (R165, R166). -/
def Obligations.ShiftOrders : Prop :=
  ∀ (a : NormalAddr) (s : State), s.quiet →
    (let y := Int.bmod (s.address a).toNat 128
     (∃ t, exec (.ars (.addr a)) s = .next t ∧ OnlyArithmetic s t ∧ Ended s t (normalGroups a) ∧
      t.getF 1 = rep4 (s.address a) ∧ FastFrame s t [1] (normalCounts a) ∧
      Counted s t [1] (normalCounts a) ∧ t.divLast = false ∧
      t.acc.a.toNat = (if 0 ≤ y then s.acc.a.toNat / 4 ^ y.toNat else s.acc.a.toNat * 4 ^ (-y).toNat % 2 ^ 45) ∧
      t.acc.q = s.acc.q ∧ t.acc.e = s.acc.e ∧ t.acc.ov = s.acc.ov ∧
      t.acc.z = (s.acc.z || decide (t.acc.aq = 0))) ∧
     (∃ t, exec (.lrs (.addr a)) s = .next t ∧ OnlyArithmetic s t ∧ Ended s t (normalGroups a) ∧
      t.getF 1 = rep4 (s.address a) ∧ FastFrame s t [1] (normalCounts a) ∧
      Counted s t [1] (normalCounts a) ∧ t.divLast = false ∧
      (let p := s.acc.a.toNat * 2 ^ 44 + s.acc.q.toNat
       t.acc.a.toNat * 2 ^ 44 + t.acc.q.toNat =
         if 0 ≤ y then p / 4 ^ y.toNat else p * 4 ^ (-y).toNat % 2 ^ 89) ∧
      t.acc.e = s.acc.e ∧ t.acc.ov = s.acc.ov ∧ t.acc.z = (s.acc.z || decide (t.acc.aq = 0))))

/-- SEX and SIA put a word in F0 and its quarter aligned with M_B in M_B. SEX: 39 digits of A and the exponent in 13 digits, the accumulator unchanged. SIA: with Z off the accumulator is shifted to the exponent 6 and A is the fraction of the word; floating point zero with Z on or for A = 0 (R90, R167, R168; D4, D19; that a number with the integer part 0 keeps its fraction is the pseudocode of R168 and not its corner case 1/2·4^0: the model's choice, log 31). -/
def Obligations.QuarterStores : Prop :=
  ∀ (m : BitVec 4) (c : BitVec 2) (s : State), s.quiet →
    (∃ t, exec (.sex m c) s = .next t ∧ OnlyArithmetic s t ∧ Ended s t 1 ∧ FastFrame s t [0] [m] ∧
      t.divLast = false ∧ t.acc = s.acc ∧ t.getM m = quarter (t.getF 0) (m.toNat % 4) ∧
      (t.getF 0).extractLsb' 13 39 = s.acc.a.extractLsb' 6 39 ∧
      ((t.getF 0).extractLsb' 0 13 : BitVec 13).toInt = s.acc.eInt) ∧
    (∃ t, exec (.sia m c) s = .next t ∧ OnlyArithmetic s t ∧ Ended s t 1 ∧ FastFrame s t [0] [m] ∧
      t.divLast = false ∧ t.getM m = quarter (t.getF 0) (m.toNat % 4) ∧
      (let n := s.acc.eInt - 6
       let v := if 0 < n then s.acc.aq * 4 ^ n.toNat else s.acc.aq / 4 ^ (-n).toNat
       if s.acc.z = true then t.getF 0 = zeroWord ∧ t.acc = s.acc
       else
        (t.acc.aq - v) % 2 ^ 89 = 0 ∧ t.acc.eInt = 6 ∧ t.acc.z = decide (t.acc.aq = 0) ∧
        t.acc.ov = (s.acc.ov || decide (v < -2 ^ 88 ∨ 2 ^ 88 ≤ v)) ∧
        (if t.acc.aInt = 0 then t.getF 0 = zeroWord
         else xval (t.getF 0) = t.acc.aInt ∧ yval (t.getF 0) = 6)))

/-! Interplay, address and special-register orders. -/

/-- Legal PID and POD record the message; IBT begins the transfer on its channel, from the address, or from the start of its block on the drum and the other devices with fixed blocks, to the end of the block; BBF and FBF set and clear the flipflop of the address's block and no other (R172 to R176; that an IBT on a channel whose transfer is still active puts the new one in its place is the model's choice, not R176's: log 18). -/
def Obligations.InterplayOrders : Prop :=
  ∀ (a : NormalAddr) (s : State), s.params.interplayPresent = true →
    (s.intMode = true ∨ s.interplayAlways = true ∨ s.engineering = true) →
    (∀ p ∈ ([(.input, Instr.pid), (.output, Instr.pod)] : List (Direction × (AddrForm → Instr))),
      ∃ t, exec (p.2 (.addr a)) s = .next t ∧
        t = { s with fast := t.fast, cc := t.cc, na := 0, nb := 0, prepared := t.prepared } ∧
        t.cc = s.cc.past (normalGroups a) ∧ FastFrame s t [] (normalCounts a) ∧
        Counted s t [] (normalCounts a) ∧ t.prepared.direction = p.1 ∧
        t.prepared.channel.toNat = (s.address a).toNat / 256 ∧
        t.prepared.detail.toNat = (s.address a).toNat % 256) ∧
    (∃ t x, exec (.ibt (.addr a)) s = .next t ∧
      t = { s with fast := t.fast, cc := t.cc, na := 0, nb := 0, channels := t.channels } ∧
      t.cc = s.cc.past (normalGroups a) ∧ FastFrame s t [] (normalCounts a) ∧
      Counted s t [] (normalCounts a) ∧ t.channel s.prepared.channel = some x ∧
      (∀ d, d ≠ s.prepared.channel → t.channel d = s.channel d) ∧
      x.direction = s.prepared.direction ∧ x.detail = s.prepared.detail ∧
      x.next.toNat = (if s.params.fixedBlock s.prepared.channel then (s.address a).toNat / 256 * 256 else (s.address a).toNat) ∧
      x.last.toNat = (s.address a).toNat / 256 * 256 + 255) ∧
    (∀ p ∈ ([(true, Instr.bbf), (false, Instr.fbf)] : List (Bool × (AddrForm → Instr))),
      ∃ t, exec (p.2 (.addr a)) s = .next t ∧
        t = { s with fast := t.fast, cc := t.cc, na := 0, nb := 0, busy := t.busy } ∧
        t.cc = s.cc.past (normalGroups a) ∧ FastFrame s t [] (normalCounts a) ∧
        Counted s t [] (normalCounts a) ∧
        ∀ k : BitVec 5, t.isBusy k = if k.toNat = (s.address a).toNat / 256 then p.1 else s.isBusy k)

/-- LIN puts four copies of the address in F1; ATN and SFN make the address, or its negative, the amount pending for the next address; ORB makes its last four digits those pending for the next B digits; JLH jumps to the first control group of the word it names (R177 to R181). The address is (M_B), before any counting, or N + (M_B), or N, plus the pending amount, modulo 8192 (R82, R83; D4, D14). -/
def Obligations.AddressOrders : Prop :=
  ∀ (a : NormalAddr) (s : State),
    (s.address a).toNat = ((match a with
      | .direct m => (s.getM m).toNat
      | .counted m => (s.getM m).toNat
      | .indexed m n => n.toNat + (s.getM m).toNat
      | .fixed n => n.toNat) + s.na.toNat) % 8192 ∧
    (∃ t, exec (.lin (.addr a)) s = .next t ∧ OnlyControl s t ∧ Ended s t (normalGroups a) ∧
      t.jumped = s.jumped ∧ (∀ k, quarter (t.getF 1) k = s.address a) ∧
      FastFrame s t [1] (normalCounts a) ∧ Counted s t [1] (normalCounts a)) ∧
    (∀ p ∈ ([(s.address a, 0, Instr.atn), (-s.address a, 0, Instr.sfn),
        (0, BitVec.ofNat 4 (s.address a).toNat, Instr.orb)] :
        List (BitVec 13 × BitVec 4 × (AddrForm → Instr))),
      ∃ t, exec (p.2.2 (.addr a)) s = .next t ∧ OnlyControl s t ∧ t.jumped = s.jumped ∧
        t.cc = s.cc.past (normalGroups a) ∧ t.na = p.1 ∧ t.nb = p.2.1 ∧
        FastFrame s t [] (normalCounts a) ∧ Counted s t [] (normalCounts a)) ∧
    (∃ t, exec (.jlh (.addr a)) s = .next t ∧ OnlyControl s t ∧ t.cc = ⟨s.address a, 0⟩ ∧ t.na = 0 ∧
      t.nb = 0 ∧ FastFrame s t [] (normalCounts a) ∧ Counted s t [] (normalCounts a))

/-- ASN and SSN of the paper tape take its next character, and make the pending amount plus, or minus, that character pending for the next address; SSR punches the right seven digits of the pending amount. Of an unassigned register, ASN and SSN read some value, and SSR changes nothing but cc and the pending amounts. With no character left on the tape ASN and SSN are refused (R182 to R185, D5; the value of an unassigned register is free: D24, log 13; the refusal is U9's: log 20). -/
def Obligations.SpecialRegisterOrders : Prop :=
  ∀ (r : BitVec 6) (s : State),
    (s.params.specialDecoded = false ∨ r = 0 →
      (∀ (c : Char7) (rest : List Char7), s.tapeIn = c :: rest →
        (∃ t, exec (.asn r) s = .next t ∧ t = { s with cc := s.cc.past 1, na := t.na, nb := 0, tapeIn := rest } ∧
          t.na.toNat = (s.na.toNat + c.toNat) % 8192) ∧
        (∃ t, exec (.ssn r) s = .next t ∧ t = { s with cc := s.cc.past 1, na := t.na, nb := 0, tapeIn := rest } ∧
          (t.na.toNat + c.toNat) % 8192 = s.na.toNat)) ∧
      (s.tapeIn = [] → exec (.asn r) s = .refused .tapeReaderEmpty ∧ exec (.ssn r) s = .refused .tapeReaderEmpty) ∧
      ∃ t c, exec (.ssr r) s = .next t ∧
        t = { s with cc := s.cc.past 1, na := 0, nb := 0, tapeOut := s.tapeOut ++ [c] } ∧
        c.toNat = s.na.toNat % 128) ∧
    (s.params.specialDecoded = true → r ≠ 0 →
      (∃ v : BitVec 13,
        exec (.asn r) s = .next { s with cc := s.cc.past 1, na := s.na + v, nb := 0, free := s.free + 1 } ∧
        exec (.ssn r) s = .next { s with cc := s.cc.past 1, na := s.na - v, nb := 0, free := s.free + 1 }) ∧
      exec (.ssr r) s = .next { s with cc := s.cc.past 1, na := 0, nb := 0 })

/-! Jumps. -/

/-- CJF and CJS count M_B; unless it becomes zero they jump to position C of the first, or the second, held word, without any refill; in the one-memory period both to the one held word (R191, R192, R54). -/
def Obligations.HeldJumps : Prop :=
  ∀ p ∈ ([(0, Instr.cjf), (1, Instr.cjs)] : List (Nat × (BitVec 4 → BitVec 2 → Instr))),
  ∀ (m : BitVec 4) (c : BitVec 2) (s : State),
    ∃ t, exec (p.2 m c) s = .next t ∧ OnlyControl s t ∧ t.jumped = s.jumped ∧ t.na = 0 ∧ t.nb = 0 ∧
      FastFrame s t [] [m] ∧ t.getM m = s.getM m + 1 ∧
      (if (s.getM m).toNat = 8191 then t.cc = s.cc.past 1
       else t.cc.group = c ∧
        t.cc.word.toNat = if s.params.twoMemories then (2 * s.ip.toNat + p.1) % 8192 else s.ip.toNat)

/-- CJU, CJZ count M_B and test the result; JPM, JNM, JZM, JUM test M_B as it is; the jump goes to word N plus the pending amount, position C (R198 to R203; D4). -/
def Obligations.ModifierJumps : Prop :=
  ∀ (b : BitVec 4) (c : BitVec 2) (n : Addr) (s : State),
    (∀ p ∈ ([(decide ((s.getM b).toNat ≠ 8191), Instr.cju), (decide ((s.getM b).toNat = 8191), Instr.cjz)] :
        List (Bool × (BitVec 4 → BitVec 2 → Addr → Instr))),
      ∃ t, exec (p.2 b c n) s = .next t ∧ OnlyControl s t ∧ t.na = 0 ∧ t.nb = 0 ∧ FastFrame s t [] [b] ∧
        t.getM b = s.getM b + 1 ∧ t.cc = if p.1 then ⟨n + s.na, c⟩ else s.cc.past 2) ∧
    (∀ p ∈ ([(decide ((s.getM b).toNat < 4096), Instr.jpm), (decide (4096 ≤ (s.getM b).toNat), Instr.jnm),
        (decide ((s.getM b).toNat = 0), Instr.jzm), (decide ((s.getM b).toNat ≠ 0), Instr.jum)] :
        List (Bool × (BitVec 4 → BitVec 2 → Addr → Instr))),
      ∃ t, exec (p.2 b c n) s = .next t ∧ OnlyControl s t ∧ t.na = 0 ∧ t.nb = 0 ∧ t.fast = s.fast ∧
        t.cc = if p.1 then ⟨n + s.na, c⟩ else s.cc.past 2)

/-- JSB leaves in M_B the address after that of the word holding its N, and jumps to word N plus the pending amount, position C (R205; D4). -/
def Obligations.SubroutineJump : Prop :=
  ∀ (b : BitVec 4) (c : BitVec 2) (n : Addr) (s : State),
    ∃ t, exec (.jsb b c n) s = .next t ∧ OnlyControl s t ∧ t.na = 0 ∧ t.nb = 0 ∧ FastFrame s t [] [b] ∧
      t.getM b = s.cc.succ.word + 1 ∧ t.cc = ⟨n + s.na, c⟩

/-- JDC jumps to word N plus the pending amount, position C, exactly when the condition its B digits name holds; B = 0 also leaves the interrupt mode, B = 10 and 11 also clear OV, after the test (R206; D4). -/
def Obligations.ConditionalJump : Prop :=
  ∀ (b : BitVec 4) (c : BitVec 2) (n : Addr) (s : State),
    ∃ t, exec (.jdc (readCondition b) c n) s = .next t ∧
      t = { s with cc := t.cc, na := 0, nb := 0, jumped := t.jumped,
                   intMode := if b.toNat = 0 then false else s.intMode,
                   acc := { s.acc with ov := if b.toNat = 10 ∨ b.toNat = 11 then false else s.acc.ov } } ∧
      (let neg := decide (s.acc.aInt < 0)
       let test : Bool := match b.toNat with
        | 0 => true
        | 1 => false
        | 2 => s.acc.z || !neg
        | 3 => !s.acc.z && neg
        | 4 => !s.acc.z
        | 5 => s.acc.z
        | 6 => !s.acc.z && !neg
        | 7 => s.acc.z || neg
        | 8 => s.acc.ov
        | 9 => !s.acc.ov
        | 10 => s.acc.ov
        | 11 => !s.acc.ov
        | 12 => decide (s.green = .center)
        | 13 => decide (s.green = .down)
        | 14 => !neg
        | _ => neg
       t.cc = if test then ⟨n + s.na, c⟩ else s.cc.past 2)

/-- HLT stops the machine with the black switch at center, and does nothing but advance cc with it down; held up, it completes, and whether it stops is free (R196, N29: log 16). -/
def Obligations.ConditionalStop : Prop :=
  ∀ (b : BitVec 4) (c : BitVec 2) (s : State),
    (s.black = .center → exec (.hlt b c) s = .next { s with cc := s.cc.past 1, na := 0, nb := 0, stopped := true }) ∧
    (s.black = .down → exec (.hlt b c) s = .next { s with cc := s.cc.past 1, na := 0, nb := 0 }) ∧
    (s.black = .up → ∃ p, exec (.hlt b c) s =
      .next { s with cc := s.cc.past 1, na := 0, nb := 0, stopped := p, free := s.free + 1 })

/-! Fast registers and modifiers. -/

/-- LDM copies into M_B the quarter of the core word that is aligned with M_B, whatever C is; SQW replaces quarter C of the core word by quarter C of F_B (R210, R211; D4, D27). -/
def Obligations.QuarterMoves : Prop :=
  ∀ (b : BitVec 4) (c : BitVec 2) (n : Addr) (s : State), s.violation (n + s.na) = false →
    (∃ t, exec (.ldm b c n) s = .next t ∧ OnlyControl s t ∧ t.jumped = s.jumped ∧ Ended s t 2 ∧
      FastFrame s t [] [b] ∧ t.getM b = quarter (s.coreWord (n + s.na)) (b.toNat % 4)) ∧
    (Mem.wf s.core = true → b.toNat ≠ 1 → b.toNat < 8 →
      ∃ t, exec (.sqw b c n) s = .next t ∧
        t = { s with core := t.core, cc := s.cc.past 2, na := 0, nb := 0 } ∧ CoreFrame s t (n + s.na) ∧
        ∀ k, k < 4 → quarter (t.coreWord (n + s.na)) k =
          if k = c.toNat then quarter (s.getF b.toNat) k else quarter (s.coreWord (n + s.na)) k)

/-- LFR copies the core word at N (0 when short) plus the pending amount into F_B, and SFR copies F_B into it; nothing else changes (R212 to R214; D4). -/
def Obligations.FastRegisterMoves : Prop :=
  ∀ (b : BitVec 4) (n : Option Addr) (c : Bool) (s : State), s.violation (n.getD 0 + s.na) = false →
    b.toNat < 8 →
    (2 ≤ b.toNat → ∃ t, exec (.lfr b n c) s = .next t ∧ OnlyControl s t ∧ t.jumped = s.jumped ∧
      Ended s t (if n.isSome then 2 else 1) ∧ FastFrame s t [b.toNat] [] ∧
      t.getF b.toNat = s.coreWord (n.getD 0 + s.na) ∧
      (4 ≤ b.toNat → ∀ i : BitVec 4, 4 + i.toNat / 4 = b.toNat →
        t.getM i = quarter (s.coreWord (n.getD 0 + s.na)) (i.toNat % 4))) ∧
    (Mem.wf s.core = true → b.toNat ≠ 1 → ∃ t, exec (.sfr b n c) s = .next t ∧
      t = { s with core := t.core, cc := s.cc.past (if n.isSome then 2 else 1), na := 0, nb := 0 } ∧
      t.coreWord (n.getD 0 + s.na) = s.getF b.toNat ∧ CoreFrame s t (n.getD 0 + s.na))

/-- The twelve modifier arithmetic orders: the result goes to M_B, or with C_2 = 1 to the amount pending for the next address, M_B then being unchanged (R215 to R227; D4). -/
def Obligations.ModifierArithmetic : Prop :=
  ∀ (b : BitVec 4) (n : Option Addr) (s : State),
    ∀ p ∈ modifierResults (n.getD 0 + s.na) (s.getM b),
      (∃ t, exec (p.2 b n false) s = .next t ∧ OnlyControl s t ∧ t.jumped = s.jumped ∧
        Ended s t (if n.isSome then 2 else 1) ∧ FastFrame s t [] [b] ∧ (t.getM b).toNat = p.1) ∧
      (∃ t, exec (p.2 b n true) s = .next t ∧ OnlyControl s t ∧ t.jumped = s.jumped ∧
        t.cc = s.cc.past (if n.isSome then 2 else 1) ∧ t.nb = 0 ∧ t.fast = s.fast ∧ t.na.toNat = p.1)

/-! Rules of the whole machine. -/

/-- Every step keeps core in canonical form and inside the memory attached, the pair number of twelve digits, at most one kind of pending amount, and each transfer inside its block. -/
def Obligations.StepKeepsInvariant : Prop :=
  ∀ s t : State, s.Inv → step s = .next t → t.Inv

/-- The state after reset meets the invariant; its values are the model's (log 2 to log 7). -/
def Obligations.ResetMeetsInvariant : Prop := State.reset.Inv

/-- A step keeps the link from f = 0 to Z: an accumulator whose digits are all zero with Z off can only be a starting state (R38). -/
def Obligations.StepKeepsZeroMarked : Prop :=
  ∀ s t : State, s.acc.zeroMarked → step s = .next t → t.acc.zeroMarked

/-- No order enters the interrupt mode, and only JDC with B = 0 leaves it; no order moves a switch, sets the implementation parameters, completes a transfer or records a cause of interrupt, but for what Interplay does inside it (R243, R30 to R33; log 19). -/
def Obligations.OnlyLeaveInterruptLeavesMode : Prop :=
  ∀ (i : Instr) (s t : State), exec i s = .next t →
    (t.intMode ≠ s.intMode → ∃ c n, i = .jdc .leaveInterrupt c n) ∧ (t.intMode = true → s.intMode = true) ∧
    t.params = s.params ∧ t.black = s.black ∧ t.green = s.green ∧ t.engineering = s.engineering ∧
    t.interplayAlways = s.interplayAlways ∧ t.cause = s.cause ∧ t.events = s.events ∧
    (s.inside = [] → t.blockDone = s.blockDone ∧ t.deviceOut = s.deviceOut)

/-- OV stays on until JDC with B = 10 or 11 clears it; SRM after an order that was no divide is apart, its OV being free (R19, R206; U6, log 12). -/
def Obligations.OverflowStaysOn : Prop :=
  ∀ (i : Instr) (s t : State), exec i s = .next t → s.acc.ov = true → t.acc.ov = false →
    (∃ c n, i = .jdc .ovOnClear c n ∨ i = .jdc .ovOffClear c n) ∨ ((∃ d, i = .srm d) ∧ s.divLast = false)

/-- Orders obeyed by Advanced Control alone leave the accumulator, R, ES and divLast as they are, but for the OV that JDC clears: whatever completes and changes any of them is one of the Delayed Control orders (R21). -/
def Obligations.OnlyDelayedControlChangesAccumulator : Prop :=
  ∀ (i : Instr) (s t : State), exec i s = .next t →
    (t.acc.a ≠ s.acc.a ∨ t.acc.q ≠ s.acc.q ∨ t.acc.e ≠ s.acc.e ∨ t.acc.z ≠ s.acc.z ∨ t.r ≠ s.r ∨ t.es ≠ s.es ∨
      t.divLast ≠ s.divLast) →
    (∃ f ∈ arithOrders, ∃ o, i = f o) ∨ (∃ f ∈ storeOrders, ∃ d, i = f d) ∨
    (∃ f ∈ ([.cae, .cse, .ade, .sbe, .ars, .lrs] : List (AddrForm → Instr)), ∃ a, i = f a) ∨
    ∃ m c, i = .sex m c ∨ i = .sia m c

/-- A modifier is a quarter of a fast register: writing it changes that quarter and no other digit of F0 to F9, and writing F4 to F7 writes its four modifiers (R12). A word is its quarters 0, 1, 2, 3 from the left (R7, R41). -/
def Obligations.ModifiersAreQuarters : Prop :=
  ∀ (s : State) (i : BitVec 4) (v : Group) (w : Word),
    s.getM i = quarter (s.getF (4 + i.toNat / 4)) (i.toNat % 4) ∧
    w.toNat = (quarter w 0).toNat * 2 ^ 39 + (quarter w 1).toNat * 2 ^ 26 + (quarter w 2).toNat * 2 ^ 13 +
      (quarter w 3).toNat ∧
    (s.setM i v).getM i = v ∧ (∀ j, j ≠ i → (s.setM i v).getM j = s.getM j) ∧
    (∀ k, k ≠ 4 + i.toNat / 4 → (s.setM i v).getF k = s.getF k) ∧
    (∀ k, k < 4 → k ≠ i.toNat % 4 →
      quarter ((s.setM i v).getF (4 + i.toNat / 4)) k = quarter (s.getF (4 + i.toNat / 4)) k) ∧
    ∀ k, 4 ≤ k → k < 8 → (s.setF k w).getM i = if 4 + i.toNat / 4 = k then quarter w (i.toNat % 4) else s.getM i
end

