-- ==== Sys2Proof/Laws/State.lean ====
section
/-! SUPPORT. The fields of the state after each single update: one lemma per field. -/

namespace Sys2Proof.Machine

variable (s : State)

/-! A core word: `State.setCore`. -/

@[simp] theorem State.setCore_core (a : Addr) (v : Word) : (s.setCore a v).core = Mem.write s.core (coreIndex s.params a) v := rfl
@[simp] theorem State.setCore_fast (a : Addr) (v : Word) : (s.setCore a v).fast = s.fast := rfl
@[simp] theorem State.setCore_cc (a : Addr) (v : Word) : (s.setCore a v).cc = s.cc := rfl
@[simp] theorem State.setCore_ip (a : Addr) (v : Word) : (s.setCore a v).ip = s.ip := rfl
@[simp] theorem State.setCore_acc (a : Addr) (v : Word) : (s.setCore a v).acc = s.acc := rfl
@[simp] theorem State.setCore_r (a : Addr) (v : Word) : (s.setCore a v).r = s.r := rfl
@[simp] theorem State.setCore_es (a : Addr) (v : Word) : (s.setCore a v).es = s.es := rfl
@[simp] theorem State.setCore_divLast (a : Addr) (v : Word) : (s.setCore a v).divLast = s.divLast := rfl
@[simp] theorem State.setCore_intMode (a : Addr) (v : Word) : (s.setCore a v).intMode = s.intMode := rfl
@[simp] theorem State.setCore_cause (a : Addr) (v : Word) : (s.setCore a v).cause = s.cause := rfl
@[simp] theorem State.setCore_na (a : Addr) (v : Word) : (s.setCore a v).na = s.na := rfl
@[simp] theorem State.setCore_nb (a : Addr) (v : Word) : (s.setCore a v).nb = s.nb := rfl
@[simp] theorem State.setCore_busy (a : Addr) (v : Word) : (s.setCore a v).busy = s.busy := rfl
@[simp] theorem State.setCore_prepared (a : Addr) (v : Word) : (s.setCore a v).prepared = s.prepared := rfl
@[simp] theorem State.setCore_channels (a : Addr) (v : Word) : (s.setCore a v).channels = s.channels := rfl
@[simp] theorem State.setCore_blockDone (a : Addr) (v : Word) : (s.setCore a v).blockDone = s.blockDone := rfl
@[simp] theorem State.setCore_deviceOut (a : Addr) (v : Word) : (s.setCore a v).deviceOut = s.deviceOut := rfl
@[simp] theorem State.setCore_tapeIn (a : Addr) (v : Word) : (s.setCore a v).tapeIn = s.tapeIn := rfl
@[simp] theorem State.setCore_tapeOut (a : Addr) (v : Word) : (s.setCore a v).tapeOut = s.tapeOut := rfl
@[simp] theorem State.setCore_black (a : Addr) (v : Word) : (s.setCore a v).black = s.black := rfl
@[simp] theorem State.setCore_green (a : Addr) (v : Word) : (s.setCore a v).green = s.green := rfl
@[simp] theorem State.setCore_engineering (a : Addr) (v : Word) : (s.setCore a v).engineering = s.engineering := rfl
@[simp] theorem State.setCore_interplayAlways (a : Addr) (v : Word) : (s.setCore a v).interplayAlways = s.interplayAlways := rfl
@[simp] theorem State.setCore_stopped (a : Addr) (v : Word) : (s.setCore a v).stopped = s.stopped := rfl
@[simp] theorem State.setCore_params (a : Addr) (v : Word) : (s.setCore a v).params = s.params := rfl
@[simp] theorem State.setCore_jumped (a : Addr) (v : Word) : (s.setCore a v).jumped = s.jumped := rfl
@[simp] theorem State.setCore_free (a : Addr) (v : Word) : (s.setCore a v).free = s.free := rfl
@[simp] theorem State.setCore_events (a : Addr) (v : Word) : (s.setCore a v).events = s.events := rfl
@[simp] theorem State.setCore_inside (a : Addr) (v : Word) : (s.setCore a v).inside = s.inside := rfl

/-! A fast register: `State.setF`. -/

@[simp] theorem State.setF_core (j : Nat) (v : Word) : (s.setF j v).core = s.core := rfl
@[simp] theorem State.setF_fast (j : Nat) (v : Word) : (s.setF j v).fast = s.fast.setIfInBounds j v := rfl
@[simp] theorem State.setF_cc (j : Nat) (v : Word) : (s.setF j v).cc = s.cc := rfl
@[simp] theorem State.setF_ip (j : Nat) (v : Word) : (s.setF j v).ip = s.ip := rfl
@[simp] theorem State.setF_acc (j : Nat) (v : Word) : (s.setF j v).acc = s.acc := rfl
@[simp] theorem State.setF_r (j : Nat) (v : Word) : (s.setF j v).r = s.r := rfl
@[simp] theorem State.setF_es (j : Nat) (v : Word) : (s.setF j v).es = s.es := rfl
@[simp] theorem State.setF_divLast (j : Nat) (v : Word) : (s.setF j v).divLast = s.divLast := rfl
@[simp] theorem State.setF_intMode (j : Nat) (v : Word) : (s.setF j v).intMode = s.intMode := rfl
@[simp] theorem State.setF_cause (j : Nat) (v : Word) : (s.setF j v).cause = s.cause := rfl
@[simp] theorem State.setF_na (j : Nat) (v : Word) : (s.setF j v).na = s.na := rfl
@[simp] theorem State.setF_nb (j : Nat) (v : Word) : (s.setF j v).nb = s.nb := rfl
@[simp] theorem State.setF_busy (j : Nat) (v : Word) : (s.setF j v).busy = s.busy := rfl
@[simp] theorem State.setF_prepared (j : Nat) (v : Word) : (s.setF j v).prepared = s.prepared := rfl
@[simp] theorem State.setF_channels (j : Nat) (v : Word) : (s.setF j v).channels = s.channels := rfl
@[simp] theorem State.setF_blockDone (j : Nat) (v : Word) : (s.setF j v).blockDone = s.blockDone := rfl
@[simp] theorem State.setF_deviceOut (j : Nat) (v : Word) : (s.setF j v).deviceOut = s.deviceOut := rfl
@[simp] theorem State.setF_tapeIn (j : Nat) (v : Word) : (s.setF j v).tapeIn = s.tapeIn := rfl
@[simp] theorem State.setF_tapeOut (j : Nat) (v : Word) : (s.setF j v).tapeOut = s.tapeOut := rfl
@[simp] theorem State.setF_black (j : Nat) (v : Word) : (s.setF j v).black = s.black := rfl
@[simp] theorem State.setF_green (j : Nat) (v : Word) : (s.setF j v).green = s.green := rfl
@[simp] theorem State.setF_engineering (j : Nat) (v : Word) : (s.setF j v).engineering = s.engineering := rfl
@[simp] theorem State.setF_interplayAlways (j : Nat) (v : Word) : (s.setF j v).interplayAlways = s.interplayAlways := rfl
@[simp] theorem State.setF_stopped (j : Nat) (v : Word) : (s.setF j v).stopped = s.stopped := rfl
@[simp] theorem State.setF_params (j : Nat) (v : Word) : (s.setF j v).params = s.params := rfl
@[simp] theorem State.setF_jumped (j : Nat) (v : Word) : (s.setF j v).jumped = s.jumped := rfl
@[simp] theorem State.setF_free (j : Nat) (v : Word) : (s.setF j v).free = s.free := rfl
@[simp] theorem State.setF_events (j : Nat) (v : Word) : (s.setF j v).events = s.events := rfl
@[simp] theorem State.setF_inside (j : Nat) (v : Word) : (s.setF j v).inside = s.inside := rfl

/-! A modifier: `State.setM`. -/

@[simp] theorem State.setM_core (i : BitVec 4) (v : Group) : (s.setM i v).core = s.core := rfl
@[simp] theorem State.setM_cc (i : BitVec 4) (v : Group) : (s.setM i v).cc = s.cc := rfl
@[simp] theorem State.setM_ip (i : BitVec 4) (v : Group) : (s.setM i v).ip = s.ip := rfl
@[simp] theorem State.setM_acc (i : BitVec 4) (v : Group) : (s.setM i v).acc = s.acc := rfl
@[simp] theorem State.setM_r (i : BitVec 4) (v : Group) : (s.setM i v).r = s.r := rfl
@[simp] theorem State.setM_es (i : BitVec 4) (v : Group) : (s.setM i v).es = s.es := rfl
@[simp] theorem State.setM_divLast (i : BitVec 4) (v : Group) : (s.setM i v).divLast = s.divLast := rfl
@[simp] theorem State.setM_intMode (i : BitVec 4) (v : Group) : (s.setM i v).intMode = s.intMode := rfl
@[simp] theorem State.setM_cause (i : BitVec 4) (v : Group) : (s.setM i v).cause = s.cause := rfl
@[simp] theorem State.setM_na (i : BitVec 4) (v : Group) : (s.setM i v).na = s.na := rfl
@[simp] theorem State.setM_nb (i : BitVec 4) (v : Group) : (s.setM i v).nb = s.nb := rfl
@[simp] theorem State.setM_busy (i : BitVec 4) (v : Group) : (s.setM i v).busy = s.busy := rfl
@[simp] theorem State.setM_prepared (i : BitVec 4) (v : Group) : (s.setM i v).prepared = s.prepared := rfl
@[simp] theorem State.setM_channels (i : BitVec 4) (v : Group) : (s.setM i v).channels = s.channels := rfl
@[simp] theorem State.setM_blockDone (i : BitVec 4) (v : Group) : (s.setM i v).blockDone = s.blockDone := rfl
@[simp] theorem State.setM_deviceOut (i : BitVec 4) (v : Group) : (s.setM i v).deviceOut = s.deviceOut := rfl
@[simp] theorem State.setM_tapeIn (i : BitVec 4) (v : Group) : (s.setM i v).tapeIn = s.tapeIn := rfl
@[simp] theorem State.setM_tapeOut (i : BitVec 4) (v : Group) : (s.setM i v).tapeOut = s.tapeOut := rfl
@[simp] theorem State.setM_black (i : BitVec 4) (v : Group) : (s.setM i v).black = s.black := rfl
@[simp] theorem State.setM_green (i : BitVec 4) (v : Group) : (s.setM i v).green = s.green := rfl
@[simp] theorem State.setM_engineering (i : BitVec 4) (v : Group) : (s.setM i v).engineering = s.engineering := rfl
@[simp] theorem State.setM_interplayAlways (i : BitVec 4) (v : Group) : (s.setM i v).interplayAlways = s.interplayAlways := rfl
@[simp] theorem State.setM_stopped (i : BitVec 4) (v : Group) : (s.setM i v).stopped = s.stopped := rfl
@[simp] theorem State.setM_params (i : BitVec 4) (v : Group) : (s.setM i v).params = s.params := rfl
@[simp] theorem State.setM_jumped (i : BitVec 4) (v : Group) : (s.setM i v).jumped = s.jumped := rfl
@[simp] theorem State.setM_free (i : BitVec 4) (v : Group) : (s.setM i v).free = s.free := rfl
@[simp] theorem State.setM_events (i : BitVec 4) (v : Group) : (s.setM i v).events = s.events := rfl
@[simp] theorem State.setM_inside (i : BitVec 4) (v : Group) : (s.setM i v).inside = s.inside := rfl

/-! Counting a modifier: `State.countM`. -/

@[simp] theorem State.countM_core (i : BitVec 4) : (s.countM i).core = s.core := rfl
@[simp] theorem State.countM_cc (i : BitVec 4) : (s.countM i).cc = s.cc := rfl
@[simp] theorem State.countM_ip (i : BitVec 4) : (s.countM i).ip = s.ip := rfl
@[simp] theorem State.countM_acc (i : BitVec 4) : (s.countM i).acc = s.acc := rfl
@[simp] theorem State.countM_r (i : BitVec 4) : (s.countM i).r = s.r := rfl
@[simp] theorem State.countM_es (i : BitVec 4) : (s.countM i).es = s.es := rfl
@[simp] theorem State.countM_divLast (i : BitVec 4) : (s.countM i).divLast = s.divLast := rfl
@[simp] theorem State.countM_intMode (i : BitVec 4) : (s.countM i).intMode = s.intMode := rfl
@[simp] theorem State.countM_cause (i : BitVec 4) : (s.countM i).cause = s.cause := rfl
@[simp] theorem State.countM_na (i : BitVec 4) : (s.countM i).na = s.na := rfl
@[simp] theorem State.countM_nb (i : BitVec 4) : (s.countM i).nb = s.nb := rfl
@[simp] theorem State.countM_busy (i : BitVec 4) : (s.countM i).busy = s.busy := rfl
@[simp] theorem State.countM_prepared (i : BitVec 4) : (s.countM i).prepared = s.prepared := rfl
@[simp] theorem State.countM_channels (i : BitVec 4) : (s.countM i).channels = s.channels := rfl
@[simp] theorem State.countM_blockDone (i : BitVec 4) : (s.countM i).blockDone = s.blockDone := rfl
@[simp] theorem State.countM_deviceOut (i : BitVec 4) : (s.countM i).deviceOut = s.deviceOut := rfl
@[simp] theorem State.countM_tapeIn (i : BitVec 4) : (s.countM i).tapeIn = s.tapeIn := rfl
@[simp] theorem State.countM_tapeOut (i : BitVec 4) : (s.countM i).tapeOut = s.tapeOut := rfl
@[simp] theorem State.countM_black (i : BitVec 4) : (s.countM i).black = s.black := rfl
@[simp] theorem State.countM_green (i : BitVec 4) : (s.countM i).green = s.green := rfl
@[simp] theorem State.countM_engineering (i : BitVec 4) : (s.countM i).engineering = s.engineering := rfl
@[simp] theorem State.countM_interplayAlways (i : BitVec 4) : (s.countM i).interplayAlways = s.interplayAlways := rfl
@[simp] theorem State.countM_stopped (i : BitVec 4) : (s.countM i).stopped = s.stopped := rfl
@[simp] theorem State.countM_params (i : BitVec 4) : (s.countM i).params = s.params := rfl
@[simp] theorem State.countM_jumped (i : BitVec 4) : (s.countM i).jumped = s.jumped := rfl
@[simp] theorem State.countM_free (i : BitVec 4) : (s.countM i).free = s.free := rfl
@[simp] theorem State.countM_events (i : BitVec 4) : (s.countM i).events = s.events := rfl
@[simp] theorem State.countM_inside (i : BitVec 4) : (s.countM i).inside = s.inside := rfl

/-! Consuming the pending amounts: `State.clearPending`. -/

@[simp] theorem State.clearPending_core : (s.clearPending).core = s.core := rfl
@[simp] theorem State.clearPending_fast : (s.clearPending).fast = s.fast := rfl
@[simp] theorem State.clearPending_cc : (s.clearPending).cc = s.cc := rfl
@[simp] theorem State.clearPending_ip : (s.clearPending).ip = s.ip := rfl
@[simp] theorem State.clearPending_acc : (s.clearPending).acc = s.acc := rfl
@[simp] theorem State.clearPending_r : (s.clearPending).r = s.r := rfl
@[simp] theorem State.clearPending_es : (s.clearPending).es = s.es := rfl
@[simp] theorem State.clearPending_divLast : (s.clearPending).divLast = s.divLast := rfl
@[simp] theorem State.clearPending_intMode : (s.clearPending).intMode = s.intMode := rfl
@[simp] theorem State.clearPending_cause : (s.clearPending).cause = s.cause := rfl
@[simp] theorem State.clearPending_na : (s.clearPending).na = 0 := rfl
@[simp] theorem State.clearPending_nb : (s.clearPending).nb = 0 := rfl
@[simp] theorem State.clearPending_busy : (s.clearPending).busy = s.busy := rfl
@[simp] theorem State.clearPending_prepared : (s.clearPending).prepared = s.prepared := rfl
@[simp] theorem State.clearPending_channels : (s.clearPending).channels = s.channels := rfl
@[simp] theorem State.clearPending_blockDone : (s.clearPending).blockDone = s.blockDone := rfl
@[simp] theorem State.clearPending_deviceOut : (s.clearPending).deviceOut = s.deviceOut := rfl
@[simp] theorem State.clearPending_tapeIn : (s.clearPending).tapeIn = s.tapeIn := rfl
@[simp] theorem State.clearPending_tapeOut : (s.clearPending).tapeOut = s.tapeOut := rfl
@[simp] theorem State.clearPending_black : (s.clearPending).black = s.black := rfl
@[simp] theorem State.clearPending_green : (s.clearPending).green = s.green := rfl
@[simp] theorem State.clearPending_engineering : (s.clearPending).engineering = s.engineering := rfl
@[simp] theorem State.clearPending_interplayAlways : (s.clearPending).interplayAlways = s.interplayAlways := rfl
@[simp] theorem State.clearPending_stopped : (s.clearPending).stopped = s.stopped := rfl
@[simp] theorem State.clearPending_params : (s.clearPending).params = s.params := rfl
@[simp] theorem State.clearPending_jumped : (s.clearPending).jumped = s.jumped := rfl
@[simp] theorem State.clearPending_free : (s.clearPending).free = s.free := rfl
@[simp] theorem State.clearPending_events : (s.clearPending).events = s.events := rfl
@[simp] theorem State.clearPending_inside : (s.clearPending).inside = s.inside := rfl

/-! A Delayed Control order: `State.afterDC`. -/

@[simp] theorem State.afterDC_core (x : Acc) : (s.afterDC x).core = s.core := rfl
@[simp] theorem State.afterDC_fast (x : Acc) : (s.afterDC x).fast = s.fast := rfl
@[simp] theorem State.afterDC_cc (x : Acc) : (s.afterDC x).cc = s.cc := rfl
@[simp] theorem State.afterDC_ip (x : Acc) : (s.afterDC x).ip = s.ip := rfl
@[simp] theorem State.afterDC_acc (x : Acc) : (s.afterDC x).acc = x := rfl
@[simp] theorem State.afterDC_r (x : Acc) : (s.afterDC x).r = s.r := rfl
@[simp] theorem State.afterDC_es (x : Acc) : (s.afterDC x).es = s.es := rfl
@[simp] theorem State.afterDC_divLast (x : Acc) : (s.afterDC x).divLast = false := rfl
@[simp] theorem State.afterDC_intMode (x : Acc) : (s.afterDC x).intMode = s.intMode := rfl
@[simp] theorem State.afterDC_cause (x : Acc) : (s.afterDC x).cause = s.cause := rfl
@[simp] theorem State.afterDC_na (x : Acc) : (s.afterDC x).na = s.na := rfl
@[simp] theorem State.afterDC_nb (x : Acc) : (s.afterDC x).nb = s.nb := rfl
@[simp] theorem State.afterDC_busy (x : Acc) : (s.afterDC x).busy = s.busy := rfl
@[simp] theorem State.afterDC_prepared (x : Acc) : (s.afterDC x).prepared = s.prepared := rfl
@[simp] theorem State.afterDC_channels (x : Acc) : (s.afterDC x).channels = s.channels := rfl
@[simp] theorem State.afterDC_blockDone (x : Acc) : (s.afterDC x).blockDone = s.blockDone := rfl
@[simp] theorem State.afterDC_deviceOut (x : Acc) : (s.afterDC x).deviceOut = s.deviceOut := rfl
@[simp] theorem State.afterDC_tapeIn (x : Acc) : (s.afterDC x).tapeIn = s.tapeIn := rfl
@[simp] theorem State.afterDC_tapeOut (x : Acc) : (s.afterDC x).tapeOut = s.tapeOut := rfl
@[simp] theorem State.afterDC_black (x : Acc) : (s.afterDC x).black = s.black := rfl
@[simp] theorem State.afterDC_green (x : Acc) : (s.afterDC x).green = s.green := rfl
@[simp] theorem State.afterDC_engineering (x : Acc) : (s.afterDC x).engineering = s.engineering := rfl
@[simp] theorem State.afterDC_interplayAlways (x : Acc) : (s.afterDC x).interplayAlways = s.interplayAlways := rfl
@[simp] theorem State.afterDC_stopped (x : Acc) : (s.afterDC x).stopped = s.stopped := rfl
@[simp] theorem State.afterDC_params (x : Acc) : (s.afterDC x).params = s.params := rfl
@[simp] theorem State.afterDC_jumped (x : Acc) : (s.afterDC x).jumped = s.jumped := rfl
@[simp] theorem State.afterDC_free (x : Acc) : (s.afterDC x).free = s.free := rfl
@[simp] theorem State.afterDC_events (x : Acc) : (s.afterDC x).events = s.events := rfl
@[simp] theorem State.afterDC_inside (x : Acc) : (s.afterDC x).inside = s.inside := rfl

/-! A divide: `State.afterDivide`. -/

@[simp] theorem State.afterDivide_core (x : Acc) (m : BitVec 45 × Int) : (s.afterDivide x m).core = s.core := rfl
@[simp] theorem State.afterDivide_fast (x : Acc) (m : BitVec 45 × Int) : (s.afterDivide x m).fast = s.fast := rfl
@[simp] theorem State.afterDivide_cc (x : Acc) (m : BitVec 45 × Int) : (s.afterDivide x m).cc = s.cc := rfl
@[simp] theorem State.afterDivide_ip (x : Acc) (m : BitVec 45 × Int) : (s.afterDivide x m).ip = s.ip := rfl
@[simp] theorem State.afterDivide_acc (x : Acc) (m : BitVec 45 × Int) : (s.afterDivide x m).acc = x := rfl
@[simp] theorem State.afterDivide_r (x : Acc) (m : BitVec 45 × Int) : (s.afterDivide x m).r = m.1 := rfl
@[simp] theorem State.afterDivide_es (x : Acc) (m : BitVec 45 × Int) : (s.afterDivide x m).es = m.2 := rfl
@[simp] theorem State.afterDivide_divLast (x : Acc) (m : BitVec 45 × Int) : (s.afterDivide x m).divLast = true := rfl
@[simp] theorem State.afterDivide_intMode (x : Acc) (m : BitVec 45 × Int) : (s.afterDivide x m).intMode = s.intMode := rfl
@[simp] theorem State.afterDivide_cause (x : Acc) (m : BitVec 45 × Int) : (s.afterDivide x m).cause = s.cause := rfl
@[simp] theorem State.afterDivide_na (x : Acc) (m : BitVec 45 × Int) : (s.afterDivide x m).na = s.na := rfl
@[simp] theorem State.afterDivide_nb (x : Acc) (m : BitVec 45 × Int) : (s.afterDivide x m).nb = s.nb := rfl
@[simp] theorem State.afterDivide_busy (x : Acc) (m : BitVec 45 × Int) : (s.afterDivide x m).busy = s.busy := rfl
@[simp] theorem State.afterDivide_prepared (x : Acc) (m : BitVec 45 × Int) : (s.afterDivide x m).prepared = s.prepared := rfl
@[simp] theorem State.afterDivide_channels (x : Acc) (m : BitVec 45 × Int) : (s.afterDivide x m).channels = s.channels := rfl
@[simp] theorem State.afterDivide_blockDone (x : Acc) (m : BitVec 45 × Int) : (s.afterDivide x m).blockDone = s.blockDone := rfl
@[simp] theorem State.afterDivide_deviceOut (x : Acc) (m : BitVec 45 × Int) : (s.afterDivide x m).deviceOut = s.deviceOut := rfl
@[simp] theorem State.afterDivide_tapeIn (x : Acc) (m : BitVec 45 × Int) : (s.afterDivide x m).tapeIn = s.tapeIn := rfl
@[simp] theorem State.afterDivide_tapeOut (x : Acc) (m : BitVec 45 × Int) : (s.afterDivide x m).tapeOut = s.tapeOut := rfl
@[simp] theorem State.afterDivide_black (x : Acc) (m : BitVec 45 × Int) : (s.afterDivide x m).black = s.black := rfl
@[simp] theorem State.afterDivide_green (x : Acc) (m : BitVec 45 × Int) : (s.afterDivide x m).green = s.green := rfl
@[simp] theorem State.afterDivide_engineering (x : Acc) (m : BitVec 45 × Int) : (s.afterDivide x m).engineering = s.engineering := rfl
@[simp] theorem State.afterDivide_interplayAlways (x : Acc) (m : BitVec 45 × Int) : (s.afterDivide x m).interplayAlways = s.interplayAlways := rfl
@[simp] theorem State.afterDivide_stopped (x : Acc) (m : BitVec 45 × Int) : (s.afterDivide x m).stopped = s.stopped := rfl
@[simp] theorem State.afterDivide_params (x : Acc) (m : BitVec 45 × Int) : (s.afterDivide x m).params = s.params := rfl
@[simp] theorem State.afterDivide_jumped (x : Acc) (m : BitVec 45 × Int) : (s.afterDivide x m).jumped = s.jumped := rfl
@[simp] theorem State.afterDivide_free (x : Acc) (m : BitVec 45 × Int) : (s.afterDivide x m).free = s.free := rfl
@[simp] theorem State.afterDivide_events (x : Acc) (m : BitVec 45 × Int) : (s.afterDivide x m).events = s.events := rfl
@[simp] theorem State.afterDivide_inside (x : Acc) (m : BitVec 45 × Int) : (s.afterDivide x m).inside = s.inside := rfl

/-! The advance of cc: `State.advance`. -/

@[simp] theorem State.advance_core (g : Nat) : (s.advance g).core = s.core := rfl
@[simp] theorem State.advance_fast (g : Nat) : (s.advance g).fast = s.fast := rfl
@[simp] theorem State.advance_cc (g : Nat) : (s.advance g).cc = s.cc.past g := rfl
@[simp] theorem State.advance_ip (g : Nat) : (s.advance g).ip = s.ip := rfl
@[simp] theorem State.advance_acc (g : Nat) : (s.advance g).acc = s.acc := rfl
@[simp] theorem State.advance_r (g : Nat) : (s.advance g).r = s.r := rfl
@[simp] theorem State.advance_es (g : Nat) : (s.advance g).es = s.es := rfl
@[simp] theorem State.advance_divLast (g : Nat) : (s.advance g).divLast = s.divLast := rfl
@[simp] theorem State.advance_intMode (g : Nat) : (s.advance g).intMode = s.intMode := rfl
@[simp] theorem State.advance_cause (g : Nat) : (s.advance g).cause = s.cause := rfl
@[simp] theorem State.advance_na (g : Nat) : (s.advance g).na = s.na := rfl
@[simp] theorem State.advance_nb (g : Nat) : (s.advance g).nb = s.nb := rfl
@[simp] theorem State.advance_busy (g : Nat) : (s.advance g).busy = s.busy := rfl
@[simp] theorem State.advance_prepared (g : Nat) : (s.advance g).prepared = s.prepared := rfl
@[simp] theorem State.advance_channels (g : Nat) : (s.advance g).channels = s.channels := rfl
@[simp] theorem State.advance_blockDone (g : Nat) : (s.advance g).blockDone = s.blockDone := rfl
@[simp] theorem State.advance_deviceOut (g : Nat) : (s.advance g).deviceOut = s.deviceOut := rfl
@[simp] theorem State.advance_tapeIn (g : Nat) : (s.advance g).tapeIn = s.tapeIn := rfl
@[simp] theorem State.advance_tapeOut (g : Nat) : (s.advance g).tapeOut = s.tapeOut := rfl
@[simp] theorem State.advance_black (g : Nat) : (s.advance g).black = s.black := rfl
@[simp] theorem State.advance_green (g : Nat) : (s.advance g).green = s.green := rfl
@[simp] theorem State.advance_engineering (g : Nat) : (s.advance g).engineering = s.engineering := rfl
@[simp] theorem State.advance_interplayAlways (g : Nat) : (s.advance g).interplayAlways = s.interplayAlways := rfl
@[simp] theorem State.advance_stopped (g : Nat) : (s.advance g).stopped = s.stopped := rfl
@[simp] theorem State.advance_params (g : Nat) : (s.advance g).params = s.params := rfl
@[simp] theorem State.advance_jumped (g : Nat) : (s.advance g).jumped = s.jumped := rfl
@[simp] theorem State.advance_free (g : Nat) : (s.advance g).free = s.free := rfl
@[simp] theorem State.advance_events (g : Nat) : (s.advance g).events = s.events := rfl
@[simp] theorem State.advance_inside (g : Nat) : (s.advance g).inside = s.inside := rfl

/-! A jump: `State.jumpTo`. -/

@[simp] theorem State.jumpTo_core (w : Addr) (c : BitVec 2) : (s.jumpTo w c).core = s.core := rfl
@[simp] theorem State.jumpTo_fast (w : Addr) (c : BitVec 2) : (s.jumpTo w c).fast = s.fast := rfl
@[simp] theorem State.jumpTo_cc (w : Addr) (c : BitVec 2) : (s.jumpTo w c).cc = ⟨w, c⟩ := rfl
@[simp] theorem State.jumpTo_ip (w : Addr) (c : BitVec 2) : (s.jumpTo w c).ip = s.ip := rfl
@[simp] theorem State.jumpTo_acc (w : Addr) (c : BitVec 2) : (s.jumpTo w c).acc = s.acc := rfl
@[simp] theorem State.jumpTo_r (w : Addr) (c : BitVec 2) : (s.jumpTo w c).r = s.r := rfl
@[simp] theorem State.jumpTo_es (w : Addr) (c : BitVec 2) : (s.jumpTo w c).es = s.es := rfl
@[simp] theorem State.jumpTo_divLast (w : Addr) (c : BitVec 2) : (s.jumpTo w c).divLast = s.divLast := rfl
@[simp] theorem State.jumpTo_intMode (w : Addr) (c : BitVec 2) : (s.jumpTo w c).intMode = s.intMode := rfl
@[simp] theorem State.jumpTo_cause (w : Addr) (c : BitVec 2) : (s.jumpTo w c).cause = s.cause := rfl
@[simp] theorem State.jumpTo_na (w : Addr) (c : BitVec 2) : (s.jumpTo w c).na = s.na := rfl
@[simp] theorem State.jumpTo_nb (w : Addr) (c : BitVec 2) : (s.jumpTo w c).nb = s.nb := rfl
@[simp] theorem State.jumpTo_busy (w : Addr) (c : BitVec 2) : (s.jumpTo w c).busy = s.busy := rfl
@[simp] theorem State.jumpTo_prepared (w : Addr) (c : BitVec 2) : (s.jumpTo w c).prepared = s.prepared := rfl
@[simp] theorem State.jumpTo_channels (w : Addr) (c : BitVec 2) : (s.jumpTo w c).channels = s.channels := rfl
@[simp] theorem State.jumpTo_blockDone (w : Addr) (c : BitVec 2) : (s.jumpTo w c).blockDone = s.blockDone := rfl
@[simp] theorem State.jumpTo_deviceOut (w : Addr) (c : BitVec 2) : (s.jumpTo w c).deviceOut = s.deviceOut := rfl
@[simp] theorem State.jumpTo_tapeIn (w : Addr) (c : BitVec 2) : (s.jumpTo w c).tapeIn = s.tapeIn := rfl
@[simp] theorem State.jumpTo_tapeOut (w : Addr) (c : BitVec 2) : (s.jumpTo w c).tapeOut = s.tapeOut := rfl
@[simp] theorem State.jumpTo_black (w : Addr) (c : BitVec 2) : (s.jumpTo w c).black = s.black := rfl
@[simp] theorem State.jumpTo_green (w : Addr) (c : BitVec 2) : (s.jumpTo w c).green = s.green := rfl
@[simp] theorem State.jumpTo_engineering (w : Addr) (c : BitVec 2) : (s.jumpTo w c).engineering = s.engineering := rfl
@[simp] theorem State.jumpTo_interplayAlways (w : Addr) (c : BitVec 2) : (s.jumpTo w c).interplayAlways = s.interplayAlways := rfl
@[simp] theorem State.jumpTo_stopped (w : Addr) (c : BitVec 2) : (s.jumpTo w c).stopped = s.stopped := rfl
@[simp] theorem State.jumpTo_params (w : Addr) (c : BitVec 2) : (s.jumpTo w c).params = s.params := rfl
@[simp] theorem State.jumpTo_jumped (w : Addr) (c : BitVec 2) : (s.jumpTo w c).jumped = true := rfl
@[simp] theorem State.jumpTo_free (w : Addr) (c : BitVec 2) : (s.jumpTo w c).free = s.free := rfl
@[simp] theorem State.jumpTo_events (w : Addr) (c : BitVec 2) : (s.jumpTo w c).events = s.events := rfl
@[simp] theorem State.jumpTo_inside (w : Addr) (c : BitVec 2) : (s.jumpTo w c).inside = s.inside := rfl

/-! A jump inside the held words: `State.jumpHeld`. -/

@[simp] theorem State.jumpHeld_core (w : Addr) (c : BitVec 2) : (s.jumpHeld w c).core = s.core := rfl
@[simp] theorem State.jumpHeld_fast (w : Addr) (c : BitVec 2) : (s.jumpHeld w c).fast = s.fast := rfl
@[simp] theorem State.jumpHeld_cc (w : Addr) (c : BitVec 2) : (s.jumpHeld w c).cc = ⟨w, c⟩ := rfl
@[simp] theorem State.jumpHeld_ip (w : Addr) (c : BitVec 2) : (s.jumpHeld w c).ip = s.ip := rfl
@[simp] theorem State.jumpHeld_acc (w : Addr) (c : BitVec 2) : (s.jumpHeld w c).acc = s.acc := rfl
@[simp] theorem State.jumpHeld_r (w : Addr) (c : BitVec 2) : (s.jumpHeld w c).r = s.r := rfl
@[simp] theorem State.jumpHeld_es (w : Addr) (c : BitVec 2) : (s.jumpHeld w c).es = s.es := rfl
@[simp] theorem State.jumpHeld_divLast (w : Addr) (c : BitVec 2) : (s.jumpHeld w c).divLast = s.divLast := rfl
@[simp] theorem State.jumpHeld_intMode (w : Addr) (c : BitVec 2) : (s.jumpHeld w c).intMode = s.intMode := rfl
@[simp] theorem State.jumpHeld_cause (w : Addr) (c : BitVec 2) : (s.jumpHeld w c).cause = s.cause := rfl
@[simp] theorem State.jumpHeld_na (w : Addr) (c : BitVec 2) : (s.jumpHeld w c).na = s.na := rfl
@[simp] theorem State.jumpHeld_nb (w : Addr) (c : BitVec 2) : (s.jumpHeld w c).nb = s.nb := rfl
@[simp] theorem State.jumpHeld_busy (w : Addr) (c : BitVec 2) : (s.jumpHeld w c).busy = s.busy := rfl
@[simp] theorem State.jumpHeld_prepared (w : Addr) (c : BitVec 2) : (s.jumpHeld w c).prepared = s.prepared := rfl
@[simp] theorem State.jumpHeld_channels (w : Addr) (c : BitVec 2) : (s.jumpHeld w c).channels = s.channels := rfl
@[simp] theorem State.jumpHeld_blockDone (w : Addr) (c : BitVec 2) : (s.jumpHeld w c).blockDone = s.blockDone := rfl
@[simp] theorem State.jumpHeld_deviceOut (w : Addr) (c : BitVec 2) : (s.jumpHeld w c).deviceOut = s.deviceOut := rfl
@[simp] theorem State.jumpHeld_tapeIn (w : Addr) (c : BitVec 2) : (s.jumpHeld w c).tapeIn = s.tapeIn := rfl
@[simp] theorem State.jumpHeld_tapeOut (w : Addr) (c : BitVec 2) : (s.jumpHeld w c).tapeOut = s.tapeOut := rfl
@[simp] theorem State.jumpHeld_black (w : Addr) (c : BitVec 2) : (s.jumpHeld w c).black = s.black := rfl
@[simp] theorem State.jumpHeld_green (w : Addr) (c : BitVec 2) : (s.jumpHeld w c).green = s.green := rfl
@[simp] theorem State.jumpHeld_engineering (w : Addr) (c : BitVec 2) : (s.jumpHeld w c).engineering = s.engineering := rfl
@[simp] theorem State.jumpHeld_interplayAlways (w : Addr) (c : BitVec 2) : (s.jumpHeld w c).interplayAlways = s.interplayAlways := rfl
@[simp] theorem State.jumpHeld_stopped (w : Addr) (c : BitVec 2) : (s.jumpHeld w c).stopped = s.stopped := rfl
@[simp] theorem State.jumpHeld_params (w : Addr) (c : BitVec 2) : (s.jumpHeld w c).params = s.params := rfl
@[simp] theorem State.jumpHeld_jumped (w : Addr) (c : BitVec 2) : (s.jumpHeld w c).jumped = s.jumped := rfl
@[simp] theorem State.jumpHeld_free (w : Addr) (c : BitVec 2) : (s.jumpHeld w c).free = s.free := rfl
@[simp] theorem State.jumpHeld_events (w : Addr) (c : BitVec 2) : (s.jumpHeld w c).events = s.events := rfl
@[simp] theorem State.jumpHeld_inside (w : Addr) (c : BitVec 2) : (s.jumpHeld w c).inside = s.inside := rfl

/-! Taking an interrupt: `State.enterInterrupt`. -/

@[simp] theorem State.enterInterrupt_core (c : Cause) : (s.enterInterrupt c).core = s.core := rfl
@[simp] theorem State.enterInterrupt_fast (c : Cause) : (s.enterInterrupt c).fast = s.fast := rfl
@[simp] theorem State.enterInterrupt_cc (c : Cause) : (s.enterInterrupt c).cc = s.cc := rfl
@[simp] theorem State.enterInterrupt_ip (c : Cause) : (s.enterInterrupt c).ip = s.ip := rfl
@[simp] theorem State.enterInterrupt_acc (c : Cause) : (s.enterInterrupt c).acc = s.acc := rfl
@[simp] theorem State.enterInterrupt_r (c : Cause) : (s.enterInterrupt c).r = s.r := rfl
@[simp] theorem State.enterInterrupt_es (c : Cause) : (s.enterInterrupt c).es = s.es := rfl
@[simp] theorem State.enterInterrupt_divLast (c : Cause) : (s.enterInterrupt c).divLast = s.divLast := rfl
@[simp] theorem State.enterInterrupt_intMode (c : Cause) : (s.enterInterrupt c).intMode = true := rfl
@[simp] theorem State.enterInterrupt_cause (c : Cause) : (s.enterInterrupt c).cause = some c := rfl
@[simp] theorem State.enterInterrupt_na (c : Cause) : (s.enterInterrupt c).na = s.na := rfl
@[simp] theorem State.enterInterrupt_nb (c : Cause) : (s.enterInterrupt c).nb = s.nb := rfl
@[simp] theorem State.enterInterrupt_busy (c : Cause) : (s.enterInterrupt c).busy = s.busy := rfl
@[simp] theorem State.enterInterrupt_prepared (c : Cause) : (s.enterInterrupt c).prepared = s.prepared := rfl
@[simp] theorem State.enterInterrupt_channels (c : Cause) : (s.enterInterrupt c).channels = s.channels := rfl
@[simp] theorem State.enterInterrupt_blockDone (c : Cause) : (s.enterInterrupt c).blockDone = s.blockDone := rfl
@[simp] theorem State.enterInterrupt_deviceOut (c : Cause) : (s.enterInterrupt c).deviceOut = s.deviceOut := rfl
@[simp] theorem State.enterInterrupt_tapeIn (c : Cause) : (s.enterInterrupt c).tapeIn = s.tapeIn := rfl
@[simp] theorem State.enterInterrupt_tapeOut (c : Cause) : (s.enterInterrupt c).tapeOut = s.tapeOut := rfl
@[simp] theorem State.enterInterrupt_black (c : Cause) : (s.enterInterrupt c).black = s.black := rfl
@[simp] theorem State.enterInterrupt_green (c : Cause) : (s.enterInterrupt c).green = s.green := rfl
@[simp] theorem State.enterInterrupt_engineering (c : Cause) : (s.enterInterrupt c).engineering = s.engineering := rfl
@[simp] theorem State.enterInterrupt_interplayAlways (c : Cause) : (s.enterInterrupt c).interplayAlways = s.interplayAlways := rfl
@[simp] theorem State.enterInterrupt_stopped (c : Cause) : (s.enterInterrupt c).stopped = s.stopped := rfl
@[simp] theorem State.enterInterrupt_params (c : Cause) : (s.enterInterrupt c).params = s.params := rfl
@[simp] theorem State.enterInterrupt_jumped (c : Cause) : (s.enterInterrupt c).jumped = s.jumped := rfl
@[simp] theorem State.enterInterrupt_free (c : Cause) : (s.enterInterrupt c).free = s.free := rfl
@[simp] theorem State.enterInterrupt_events (c : Cause) : (s.enterInterrupt c).events = s.events := rfl
@[simp] theorem State.enterInterrupt_inside (c : Cause) : (s.enterInterrupt c).inside = s.inside := rfl

/-! Leaving the interrupt mode: `State.leaveInterrupt`. -/

@[simp] theorem State.leaveInterrupt_core : (s.leaveInterrupt).core = s.core := rfl
@[simp] theorem State.leaveInterrupt_fast : (s.leaveInterrupt).fast = s.fast := rfl
@[simp] theorem State.leaveInterrupt_cc : (s.leaveInterrupt).cc = s.cc := rfl
@[simp] theorem State.leaveInterrupt_ip : (s.leaveInterrupt).ip = s.ip := rfl
@[simp] theorem State.leaveInterrupt_acc : (s.leaveInterrupt).acc = s.acc := rfl
@[simp] theorem State.leaveInterrupt_r : (s.leaveInterrupt).r = s.r := rfl
@[simp] theorem State.leaveInterrupt_es : (s.leaveInterrupt).es = s.es := rfl
@[simp] theorem State.leaveInterrupt_divLast : (s.leaveInterrupt).divLast = s.divLast := rfl
@[simp] theorem State.leaveInterrupt_intMode : (s.leaveInterrupt).intMode = false := rfl
@[simp] theorem State.leaveInterrupt_cause : (s.leaveInterrupt).cause = s.cause := rfl
@[simp] theorem State.leaveInterrupt_na : (s.leaveInterrupt).na = s.na := rfl
@[simp] theorem State.leaveInterrupt_nb : (s.leaveInterrupt).nb = s.nb := rfl
@[simp] theorem State.leaveInterrupt_busy : (s.leaveInterrupt).busy = s.busy := rfl
@[simp] theorem State.leaveInterrupt_prepared : (s.leaveInterrupt).prepared = s.prepared := rfl
@[simp] theorem State.leaveInterrupt_channels : (s.leaveInterrupt).channels = s.channels := rfl
@[simp] theorem State.leaveInterrupt_blockDone : (s.leaveInterrupt).blockDone = s.blockDone := rfl
@[simp] theorem State.leaveInterrupt_deviceOut : (s.leaveInterrupt).deviceOut = s.deviceOut := rfl
@[simp] theorem State.leaveInterrupt_tapeIn : (s.leaveInterrupt).tapeIn = s.tapeIn := rfl
@[simp] theorem State.leaveInterrupt_tapeOut : (s.leaveInterrupt).tapeOut = s.tapeOut := rfl
@[simp] theorem State.leaveInterrupt_black : (s.leaveInterrupt).black = s.black := rfl
@[simp] theorem State.leaveInterrupt_green : (s.leaveInterrupt).green = s.green := rfl
@[simp] theorem State.leaveInterrupt_engineering : (s.leaveInterrupt).engineering = s.engineering := rfl
@[simp] theorem State.leaveInterrupt_interplayAlways : (s.leaveInterrupt).interplayAlways = s.interplayAlways := rfl
@[simp] theorem State.leaveInterrupt_stopped : (s.leaveInterrupt).stopped = s.stopped := rfl
@[simp] theorem State.leaveInterrupt_params : (s.leaveInterrupt).params = s.params := rfl
@[simp] theorem State.leaveInterrupt_jumped : (s.leaveInterrupt).jumped = s.jumped := rfl
@[simp] theorem State.leaveInterrupt_free : (s.leaveInterrupt).free = s.free := rfl
@[simp] theorem State.leaveInterrupt_events : (s.leaveInterrupt).events = s.events := rfl
@[simp] theorem State.leaveInterrupt_inside : (s.leaveInterrupt).inside = s.inside := rfl

/-! A block flipflop: `State.setBusy`. -/

@[simp] theorem State.setBusy_core (k : BitVec 5) (v : Bool) : (s.setBusy k v).core = s.core := rfl
@[simp] theorem State.setBusy_fast (k : BitVec 5) (v : Bool) : (s.setBusy k v).fast = s.fast := rfl
@[simp] theorem State.setBusy_cc (k : BitVec 5) (v : Bool) : (s.setBusy k v).cc = s.cc := rfl
@[simp] theorem State.setBusy_ip (k : BitVec 5) (v : Bool) : (s.setBusy k v).ip = s.ip := rfl
@[simp] theorem State.setBusy_acc (k : BitVec 5) (v : Bool) : (s.setBusy k v).acc = s.acc := rfl
@[simp] theorem State.setBusy_r (k : BitVec 5) (v : Bool) : (s.setBusy k v).r = s.r := rfl
@[simp] theorem State.setBusy_es (k : BitVec 5) (v : Bool) : (s.setBusy k v).es = s.es := rfl
@[simp] theorem State.setBusy_divLast (k : BitVec 5) (v : Bool) : (s.setBusy k v).divLast = s.divLast := rfl
@[simp] theorem State.setBusy_intMode (k : BitVec 5) (v : Bool) : (s.setBusy k v).intMode = s.intMode := rfl
@[simp] theorem State.setBusy_cause (k : BitVec 5) (v : Bool) : (s.setBusy k v).cause = s.cause := rfl
@[simp] theorem State.setBusy_na (k : BitVec 5) (v : Bool) : (s.setBusy k v).na = s.na := rfl
@[simp] theorem State.setBusy_nb (k : BitVec 5) (v : Bool) : (s.setBusy k v).nb = s.nb := rfl
@[simp] theorem State.setBusy_busy (k : BitVec 5) (v : Bool) : (s.setBusy k v).busy = s.busy.setIfInBounds k.toNat v := rfl
@[simp] theorem State.setBusy_prepared (k : BitVec 5) (v : Bool) : (s.setBusy k v).prepared = s.prepared := rfl
@[simp] theorem State.setBusy_channels (k : BitVec 5) (v : Bool) : (s.setBusy k v).channels = s.channels := rfl
@[simp] theorem State.setBusy_blockDone (k : BitVec 5) (v : Bool) : (s.setBusy k v).blockDone = s.blockDone := rfl
@[simp] theorem State.setBusy_deviceOut (k : BitVec 5) (v : Bool) : (s.setBusy k v).deviceOut = s.deviceOut := rfl
@[simp] theorem State.setBusy_tapeIn (k : BitVec 5) (v : Bool) : (s.setBusy k v).tapeIn = s.tapeIn := rfl
@[simp] theorem State.setBusy_tapeOut (k : BitVec 5) (v : Bool) : (s.setBusy k v).tapeOut = s.tapeOut := rfl
@[simp] theorem State.setBusy_black (k : BitVec 5) (v : Bool) : (s.setBusy k v).black = s.black := rfl
@[simp] theorem State.setBusy_green (k : BitVec 5) (v : Bool) : (s.setBusy k v).green = s.green := rfl
@[simp] theorem State.setBusy_engineering (k : BitVec 5) (v : Bool) : (s.setBusy k v).engineering = s.engineering := rfl
@[simp] theorem State.setBusy_interplayAlways (k : BitVec 5) (v : Bool) : (s.setBusy k v).interplayAlways = s.interplayAlways := rfl
@[simp] theorem State.setBusy_stopped (k : BitVec 5) (v : Bool) : (s.setBusy k v).stopped = s.stopped := rfl
@[simp] theorem State.setBusy_params (k : BitVec 5) (v : Bool) : (s.setBusy k v).params = s.params := rfl
@[simp] theorem State.setBusy_jumped (k : BitVec 5) (v : Bool) : (s.setBusy k v).jumped = s.jumped := rfl
@[simp] theorem State.setBusy_free (k : BitVec 5) (v : Bool) : (s.setBusy k v).free = s.free := rfl
@[simp] theorem State.setBusy_events (k : BitVec 5) (v : Bool) : (s.setBusy k v).events = s.events := rfl
@[simp] theorem State.setBusy_inside (k : BitVec 5) (v : Bool) : (s.setBusy k v).inside = s.inside := rfl

/-! A channel: `State.setChannel`. -/

@[simp] theorem State.setChannel_core (k : BitVec 5) (t : Option Transfer) : (s.setChannel k t).core = s.core := rfl
@[simp] theorem State.setChannel_fast (k : BitVec 5) (t : Option Transfer) : (s.setChannel k t).fast = s.fast := rfl
@[simp] theorem State.setChannel_cc (k : BitVec 5) (t : Option Transfer) : (s.setChannel k t).cc = s.cc := rfl
@[simp] theorem State.setChannel_ip (k : BitVec 5) (t : Option Transfer) : (s.setChannel k t).ip = s.ip := rfl
@[simp] theorem State.setChannel_acc (k : BitVec 5) (t : Option Transfer) : (s.setChannel k t).acc = s.acc := rfl
@[simp] theorem State.setChannel_r (k : BitVec 5) (t : Option Transfer) : (s.setChannel k t).r = s.r := rfl
@[simp] theorem State.setChannel_es (k : BitVec 5) (t : Option Transfer) : (s.setChannel k t).es = s.es := rfl
@[simp] theorem State.setChannel_divLast (k : BitVec 5) (t : Option Transfer) : (s.setChannel k t).divLast = s.divLast := rfl
@[simp] theorem State.setChannel_intMode (k : BitVec 5) (t : Option Transfer) : (s.setChannel k t).intMode = s.intMode := rfl
@[simp] theorem State.setChannel_cause (k : BitVec 5) (t : Option Transfer) : (s.setChannel k t).cause = s.cause := rfl
@[simp] theorem State.setChannel_na (k : BitVec 5) (t : Option Transfer) : (s.setChannel k t).na = s.na := rfl
@[simp] theorem State.setChannel_nb (k : BitVec 5) (t : Option Transfer) : (s.setChannel k t).nb = s.nb := rfl
@[simp] theorem State.setChannel_busy (k : BitVec 5) (t : Option Transfer) : (s.setChannel k t).busy = s.busy := rfl
@[simp] theorem State.setChannel_prepared (k : BitVec 5) (t : Option Transfer) : (s.setChannel k t).prepared = s.prepared := rfl
@[simp] theorem State.setChannel_channels (k : BitVec 5) (t : Option Transfer) : (s.setChannel k t).channels = s.channels.setIfInBounds k.toNat t := rfl
@[simp] theorem State.setChannel_blockDone (k : BitVec 5) (t : Option Transfer) : (s.setChannel k t).blockDone = s.blockDone := rfl
@[simp] theorem State.setChannel_deviceOut (k : BitVec 5) (t : Option Transfer) : (s.setChannel k t).deviceOut = s.deviceOut := rfl
@[simp] theorem State.setChannel_tapeIn (k : BitVec 5) (t : Option Transfer) : (s.setChannel k t).tapeIn = s.tapeIn := rfl
@[simp] theorem State.setChannel_tapeOut (k : BitVec 5) (t : Option Transfer) : (s.setChannel k t).tapeOut = s.tapeOut := rfl
@[simp] theorem State.setChannel_black (k : BitVec 5) (t : Option Transfer) : (s.setChannel k t).black = s.black := rfl
@[simp] theorem State.setChannel_green (k : BitVec 5) (t : Option Transfer) : (s.setChannel k t).green = s.green := rfl
@[simp] theorem State.setChannel_engineering (k : BitVec 5) (t : Option Transfer) : (s.setChannel k t).engineering = s.engineering := rfl
@[simp] theorem State.setChannel_interplayAlways (k : BitVec 5) (t : Option Transfer) : (s.setChannel k t).interplayAlways = s.interplayAlways := rfl
@[simp] theorem State.setChannel_stopped (k : BitVec 5) (t : Option Transfer) : (s.setChannel k t).stopped = s.stopped := rfl
@[simp] theorem State.setChannel_params (k : BitVec 5) (t : Option Transfer) : (s.setChannel k t).params = s.params := rfl
@[simp] theorem State.setChannel_jumped (k : BitVec 5) (t : Option Transfer) : (s.setChannel k t).jumped = s.jumped := rfl
@[simp] theorem State.setChannel_free (k : BitVec 5) (t : Option Transfer) : (s.setChannel k t).free = s.free := rfl
@[simp] theorem State.setChannel_events (k : BitVec 5) (t : Option Transfer) : (s.setChannel k t).events = s.events := rfl
@[simp] theorem State.setChannel_inside (k : BitVec 5) (t : Option Transfer) : (s.setChannel k t).inside = s.inside := rfl

/-! Clearing OV: `State.clearOV`. -/

@[simp] theorem State.clearOV_core : (s.clearOV).core = s.core := rfl
@[simp] theorem State.clearOV_fast : (s.clearOV).fast = s.fast := rfl
@[simp] theorem State.clearOV_cc : (s.clearOV).cc = s.cc := rfl
@[simp] theorem State.clearOV_ip : (s.clearOV).ip = s.ip := rfl
@[simp] theorem State.clearOV_r : (s.clearOV).r = s.r := rfl
@[simp] theorem State.clearOV_es : (s.clearOV).es = s.es := rfl
@[simp] theorem State.clearOV_divLast : (s.clearOV).divLast = s.divLast := rfl
@[simp] theorem State.clearOV_intMode : (s.clearOV).intMode = s.intMode := rfl
@[simp] theorem State.clearOV_cause : (s.clearOV).cause = s.cause := rfl
@[simp] theorem State.clearOV_na : (s.clearOV).na = s.na := rfl
@[simp] theorem State.clearOV_nb : (s.clearOV).nb = s.nb := rfl
@[simp] theorem State.clearOV_busy : (s.clearOV).busy = s.busy := rfl
@[simp] theorem State.clearOV_prepared : (s.clearOV).prepared = s.prepared := rfl
@[simp] theorem State.clearOV_channels : (s.clearOV).channels = s.channels := rfl
@[simp] theorem State.clearOV_blockDone : (s.clearOV).blockDone = s.blockDone := rfl
@[simp] theorem State.clearOV_deviceOut : (s.clearOV).deviceOut = s.deviceOut := rfl
@[simp] theorem State.clearOV_tapeIn : (s.clearOV).tapeIn = s.tapeIn := rfl
@[simp] theorem State.clearOV_tapeOut : (s.clearOV).tapeOut = s.tapeOut := rfl
@[simp] theorem State.clearOV_black : (s.clearOV).black = s.black := rfl
@[simp] theorem State.clearOV_green : (s.clearOV).green = s.green := rfl
@[simp] theorem State.clearOV_engineering : (s.clearOV).engineering = s.engineering := rfl
@[simp] theorem State.clearOV_interplayAlways : (s.clearOV).interplayAlways = s.interplayAlways := rfl
@[simp] theorem State.clearOV_stopped : (s.clearOV).stopped = s.stopped := rfl
@[simp] theorem State.clearOV_params : (s.clearOV).params = s.params := rfl
@[simp] theorem State.clearOV_jumped : (s.clearOV).jumped = s.jumped := rfl
@[simp] theorem State.clearOV_free : (s.clearOV).free = s.free := rfl
@[simp] theorem State.clearOV_events : (s.clearOV).events = s.events := rfl
@[simp] theorem State.clearOV_inside : (s.clearOV).inside = s.inside := rfl

/-! The end of a jump: `State.landed`. -/

@[simp] theorem State.landed_core : (s.landed).core = s.core := rfl
@[simp] theorem State.landed_fast : (s.landed).fast = s.fast := rfl
@[simp] theorem State.landed_cc : (s.landed).cc = s.cc := rfl
@[simp] theorem State.landed_ip : (s.landed).ip = s.ip := rfl
@[simp] theorem State.landed_acc : (s.landed).acc = s.acc := rfl
@[simp] theorem State.landed_r : (s.landed).r = s.r := rfl
@[simp] theorem State.landed_es : (s.landed).es = s.es := rfl
@[simp] theorem State.landed_divLast : (s.landed).divLast = s.divLast := rfl
@[simp] theorem State.landed_intMode : (s.landed).intMode = s.intMode := rfl
@[simp] theorem State.landed_cause : (s.landed).cause = s.cause := rfl
@[simp] theorem State.landed_na : (s.landed).na = s.na := rfl
@[simp] theorem State.landed_nb : (s.landed).nb = s.nb := rfl
@[simp] theorem State.landed_busy : (s.landed).busy = s.busy := rfl
@[simp] theorem State.landed_prepared : (s.landed).prepared = s.prepared := rfl
@[simp] theorem State.landed_channels : (s.landed).channels = s.channels := rfl
@[simp] theorem State.landed_blockDone : (s.landed).blockDone = s.blockDone := rfl
@[simp] theorem State.landed_deviceOut : (s.landed).deviceOut = s.deviceOut := rfl
@[simp] theorem State.landed_tapeIn : (s.landed).tapeIn = s.tapeIn := rfl
@[simp] theorem State.landed_tapeOut : (s.landed).tapeOut = s.tapeOut := rfl
@[simp] theorem State.landed_black : (s.landed).black = s.black := rfl
@[simp] theorem State.landed_green : (s.landed).green = s.green := rfl
@[simp] theorem State.landed_engineering : (s.landed).engineering = s.engineering := rfl
@[simp] theorem State.landed_interplayAlways : (s.landed).interplayAlways = s.interplayAlways := rfl
@[simp] theorem State.landed_stopped : (s.landed).stopped = s.stopped := rfl
@[simp] theorem State.landed_params : (s.landed).params = s.params := rfl
@[simp] theorem State.landed_jumped : (s.landed).jumped = false := rfl
@[simp] theorem State.landed_free : (s.landed).free = s.free := rfl
@[simp] theorem State.landed_events : (s.landed).events = s.events := rfl
@[simp] theorem State.landed_inside : (s.landed).inside = s.inside := rfl

/-! Drawing a free value: `State.drawn`. -/

@[simp] theorem State.drawn_core : (s.drawn).core = s.core := rfl
@[simp] theorem State.drawn_fast : (s.drawn).fast = s.fast := rfl
@[simp] theorem State.drawn_cc : (s.drawn).cc = s.cc := rfl
@[simp] theorem State.drawn_ip : (s.drawn).ip = s.ip := rfl
@[simp] theorem State.drawn_acc : (s.drawn).acc = s.acc := rfl
@[simp] theorem State.drawn_r : (s.drawn).r = s.r := rfl
@[simp] theorem State.drawn_es : (s.drawn).es = s.es := rfl
@[simp] theorem State.drawn_divLast : (s.drawn).divLast = s.divLast := rfl
@[simp] theorem State.drawn_intMode : (s.drawn).intMode = s.intMode := rfl
@[simp] theorem State.drawn_cause : (s.drawn).cause = s.cause := rfl
@[simp] theorem State.drawn_na : (s.drawn).na = s.na := rfl
@[simp] theorem State.drawn_nb : (s.drawn).nb = s.nb := rfl
@[simp] theorem State.drawn_busy : (s.drawn).busy = s.busy := rfl
@[simp] theorem State.drawn_prepared : (s.drawn).prepared = s.prepared := rfl
@[simp] theorem State.drawn_channels : (s.drawn).channels = s.channels := rfl
@[simp] theorem State.drawn_blockDone : (s.drawn).blockDone = s.blockDone := rfl
@[simp] theorem State.drawn_deviceOut : (s.drawn).deviceOut = s.deviceOut := rfl
@[simp] theorem State.drawn_tapeIn : (s.drawn).tapeIn = s.tapeIn := rfl
@[simp] theorem State.drawn_tapeOut : (s.drawn).tapeOut = s.tapeOut := rfl
@[simp] theorem State.drawn_black : (s.drawn).black = s.black := rfl
@[simp] theorem State.drawn_green : (s.drawn).green = s.green := rfl
@[simp] theorem State.drawn_engineering : (s.drawn).engineering = s.engineering := rfl
@[simp] theorem State.drawn_interplayAlways : (s.drawn).interplayAlways = s.interplayAlways := rfl
@[simp] theorem State.drawn_stopped : (s.drawn).stopped = s.stopped := rfl
@[simp] theorem State.drawn_params : (s.drawn).params = s.params := rfl
@[simp] theorem State.drawn_jumped : (s.drawn).jumped = s.jumped := rfl
@[simp] theorem State.drawn_free : (s.drawn).free = s.free + 1 := rfl
@[simp] theorem State.drawn_events : (s.drawn).events = s.events := rfl
@[simp] theorem State.drawn_inside : (s.drawn).inside = s.inside := rfl

/-! Placing a control group: `State.placeGroup`. -/

@[simp] theorem State.placeGroup_fast (c : Counter) (g : Group) : (s.placeGroup c g).fast = s.fast := rfl
@[simp] theorem State.placeGroup_cc (c : Counter) (g : Group) : (s.placeGroup c g).cc = s.cc := rfl
@[simp] theorem State.placeGroup_ip (c : Counter) (g : Group) : (s.placeGroup c g).ip = s.ip := rfl
@[simp] theorem State.placeGroup_acc (c : Counter) (g : Group) : (s.placeGroup c g).acc = s.acc := rfl
@[simp] theorem State.placeGroup_r (c : Counter) (g : Group) : (s.placeGroup c g).r = s.r := rfl
@[simp] theorem State.placeGroup_es (c : Counter) (g : Group) : (s.placeGroup c g).es = s.es := rfl
@[simp] theorem State.placeGroup_divLast (c : Counter) (g : Group) : (s.placeGroup c g).divLast = s.divLast := rfl
@[simp] theorem State.placeGroup_intMode (c : Counter) (g : Group) : (s.placeGroup c g).intMode = s.intMode := rfl
@[simp] theorem State.placeGroup_cause (c : Counter) (g : Group) : (s.placeGroup c g).cause = s.cause := rfl
@[simp] theorem State.placeGroup_na (c : Counter) (g : Group) : (s.placeGroup c g).na = s.na := rfl
@[simp] theorem State.placeGroup_nb (c : Counter) (g : Group) : (s.placeGroup c g).nb = s.nb := rfl
@[simp] theorem State.placeGroup_busy (c : Counter) (g : Group) : (s.placeGroup c g).busy = s.busy := rfl
@[simp] theorem State.placeGroup_prepared (c : Counter) (g : Group) : (s.placeGroup c g).prepared = s.prepared := rfl
@[simp] theorem State.placeGroup_channels (c : Counter) (g : Group) : (s.placeGroup c g).channels = s.channels := rfl
@[simp] theorem State.placeGroup_blockDone (c : Counter) (g : Group) : (s.placeGroup c g).blockDone = s.blockDone := rfl
@[simp] theorem State.placeGroup_deviceOut (c : Counter) (g : Group) : (s.placeGroup c g).deviceOut = s.deviceOut := rfl
@[simp] theorem State.placeGroup_tapeIn (c : Counter) (g : Group) : (s.placeGroup c g).tapeIn = s.tapeIn := rfl
@[simp] theorem State.placeGroup_tapeOut (c : Counter) (g : Group) : (s.placeGroup c g).tapeOut = s.tapeOut := rfl
@[simp] theorem State.placeGroup_black (c : Counter) (g : Group) : (s.placeGroup c g).black = s.black := rfl
@[simp] theorem State.placeGroup_green (c : Counter) (g : Group) : (s.placeGroup c g).green = s.green := rfl
@[simp] theorem State.placeGroup_engineering (c : Counter) (g : Group) : (s.placeGroup c g).engineering = s.engineering := rfl
@[simp] theorem State.placeGroup_interplayAlways (c : Counter) (g : Group) : (s.placeGroup c g).interplayAlways = s.interplayAlways := rfl
@[simp] theorem State.placeGroup_stopped (c : Counter) (g : Group) : (s.placeGroup c g).stopped = s.stopped := rfl
@[simp] theorem State.placeGroup_params (c : Counter) (g : Group) : (s.placeGroup c g).params = s.params := rfl
@[simp] theorem State.placeGroup_jumped (c : Counter) (g : Group) : (s.placeGroup c g).jumped = s.jumped := rfl
@[simp] theorem State.placeGroup_free (c : Counter) (g : Group) : (s.placeGroup c g).free = s.free := rfl
@[simp] theorem State.placeGroup_events (c : Counter) (g : Group) : (s.placeGroup c g).events = s.events := rfl
@[simp] theorem State.placeGroup_inside (c : Counter) (g : Group) : (s.placeGroup c g).inside = s.inside := rfl

/-! Moving the black switch: `State.moveBlack`. -/

@[simp] theorem State.moveBlack_core (p : BlackSwitch) : (s.moveBlack p).core = s.core := rfl
@[simp] theorem State.moveBlack_fast (p : BlackSwitch) : (s.moveBlack p).fast = s.fast := rfl
@[simp] theorem State.moveBlack_cc (p : BlackSwitch) : (s.moveBlack p).cc = s.cc := rfl
@[simp] theorem State.moveBlack_ip (p : BlackSwitch) : (s.moveBlack p).ip = s.ip := rfl
@[simp] theorem State.moveBlack_acc (p : BlackSwitch) : (s.moveBlack p).acc = s.acc := rfl
@[simp] theorem State.moveBlack_r (p : BlackSwitch) : (s.moveBlack p).r = s.r := rfl
@[simp] theorem State.moveBlack_es (p : BlackSwitch) : (s.moveBlack p).es = s.es := rfl
@[simp] theorem State.moveBlack_divLast (p : BlackSwitch) : (s.moveBlack p).divLast = s.divLast := rfl
@[simp] theorem State.moveBlack_intMode (p : BlackSwitch) : (s.moveBlack p).intMode = s.intMode := rfl
@[simp] theorem State.moveBlack_cause (p : BlackSwitch) : (s.moveBlack p).cause = s.cause := rfl
@[simp] theorem State.moveBlack_na (p : BlackSwitch) : (s.moveBlack p).na = s.na := rfl
@[simp] theorem State.moveBlack_nb (p : BlackSwitch) : (s.moveBlack p).nb = s.nb := rfl
@[simp] theorem State.moveBlack_busy (p : BlackSwitch) : (s.moveBlack p).busy = s.busy := rfl
@[simp] theorem State.moveBlack_prepared (p : BlackSwitch) : (s.moveBlack p).prepared = s.prepared := rfl
@[simp] theorem State.moveBlack_channels (p : BlackSwitch) : (s.moveBlack p).channels = s.channels := rfl
@[simp] theorem State.moveBlack_blockDone (p : BlackSwitch) : (s.moveBlack p).blockDone = s.blockDone := rfl
@[simp] theorem State.moveBlack_deviceOut (p : BlackSwitch) : (s.moveBlack p).deviceOut = s.deviceOut := rfl
@[simp] theorem State.moveBlack_tapeIn (p : BlackSwitch) : (s.moveBlack p).tapeIn = s.tapeIn := rfl
@[simp] theorem State.moveBlack_tapeOut (p : BlackSwitch) : (s.moveBlack p).tapeOut = s.tapeOut := rfl
@[simp] theorem State.moveBlack_black (p : BlackSwitch) : (s.moveBlack p).black = p := rfl
@[simp] theorem State.moveBlack_green (p : BlackSwitch) : (s.moveBlack p).green = s.green := rfl
@[simp] theorem State.moveBlack_engineering (p : BlackSwitch) : (s.moveBlack p).engineering = s.engineering := rfl
@[simp] theorem State.moveBlack_interplayAlways (p : BlackSwitch) : (s.moveBlack p).interplayAlways = s.interplayAlways := rfl
@[simp] theorem State.moveBlack_params (p : BlackSwitch) : (s.moveBlack p).params = s.params := rfl
@[simp] theorem State.moveBlack_jumped (p : BlackSwitch) : (s.moveBlack p).jumped = s.jumped := rfl
@[simp] theorem State.moveBlack_free (p : BlackSwitch) : (s.moveBlack p).free = s.free := rfl
@[simp] theorem State.moveBlack_events (p : BlackSwitch) : (s.moveBlack p).events = s.events := rfl
@[simp] theorem State.moveBlack_inside (p : BlackSwitch) : (s.moveBlack p).inside = s.inside := rfl

/-! Counting with C = 1: `State.countFor`. -/

@[simp] theorem State.countFor_core (a : NormalAddr) : (s.countFor a).core = s.core := by cases a <;> rfl
@[simp] theorem State.countFor_cc (a : NormalAddr) : (s.countFor a).cc = s.cc := by cases a <;> rfl
@[simp] theorem State.countFor_ip (a : NormalAddr) : (s.countFor a).ip = s.ip := by cases a <;> rfl
@[simp] theorem State.countFor_acc (a : NormalAddr) : (s.countFor a).acc = s.acc := by cases a <;> rfl
@[simp] theorem State.countFor_r (a : NormalAddr) : (s.countFor a).r = s.r := by cases a <;> rfl
@[simp] theorem State.countFor_es (a : NormalAddr) : (s.countFor a).es = s.es := by cases a <;> rfl
@[simp] theorem State.countFor_divLast (a : NormalAddr) : (s.countFor a).divLast = s.divLast := by cases a <;> rfl
@[simp] theorem State.countFor_intMode (a : NormalAddr) : (s.countFor a).intMode = s.intMode := by cases a <;> rfl
@[simp] theorem State.countFor_cause (a : NormalAddr) : (s.countFor a).cause = s.cause := by cases a <;> rfl
@[simp] theorem State.countFor_na (a : NormalAddr) : (s.countFor a).na = s.na := by cases a <;> rfl
@[simp] theorem State.countFor_nb (a : NormalAddr) : (s.countFor a).nb = s.nb := by cases a <;> rfl
@[simp] theorem State.countFor_busy (a : NormalAddr) : (s.countFor a).busy = s.busy := by cases a <;> rfl
@[simp] theorem State.countFor_prepared (a : NormalAddr) : (s.countFor a).prepared = s.prepared := by cases a <;> rfl
@[simp] theorem State.countFor_channels (a : NormalAddr) : (s.countFor a).channels = s.channels := by cases a <;> rfl
@[simp] theorem State.countFor_blockDone (a : NormalAddr) : (s.countFor a).blockDone = s.blockDone := by cases a <;> rfl
@[simp] theorem State.countFor_deviceOut (a : NormalAddr) : (s.countFor a).deviceOut = s.deviceOut := by cases a <;> rfl
@[simp] theorem State.countFor_tapeIn (a : NormalAddr) : (s.countFor a).tapeIn = s.tapeIn := by cases a <;> rfl
@[simp] theorem State.countFor_tapeOut (a : NormalAddr) : (s.countFor a).tapeOut = s.tapeOut := by cases a <;> rfl
@[simp] theorem State.countFor_black (a : NormalAddr) : (s.countFor a).black = s.black := by cases a <;> rfl
@[simp] theorem State.countFor_green (a : NormalAddr) : (s.countFor a).green = s.green := by cases a <;> rfl
@[simp] theorem State.countFor_engineering (a : NormalAddr) : (s.countFor a).engineering = s.engineering := by cases a <;> rfl
@[simp] theorem State.countFor_interplayAlways (a : NormalAddr) : (s.countFor a).interplayAlways = s.interplayAlways := by cases a <;> rfl
@[simp] theorem State.countFor_stopped (a : NormalAddr) : (s.countFor a).stopped = s.stopped := by cases a <;> rfl
@[simp] theorem State.countFor_params (a : NormalAddr) : (s.countFor a).params = s.params := by cases a <;> rfl
@[simp] theorem State.countFor_jumped (a : NormalAddr) : (s.countFor a).jumped = s.jumped := by cases a <;> rfl
@[simp] theorem State.countFor_free (a : NormalAddr) : (s.countFor a).free = s.free := by cases a <;> rfl
@[simp] theorem State.countFor_events (a : NormalAddr) : (s.countFor a).events = s.events := by cases a <;> rfl
@[simp] theorem State.countFor_inside (a : NormalAddr) : (s.countFor a).inside = s.inside := by cases a <;> rfl

/-! Address preparation: `State.prepare`. -/

@[simp] theorem State.prepare_core (a : NormalAddr) : (s.prepare a).core = s.core := by cases a <;> rfl
@[simp] theorem State.prepare_fast (a : NormalAddr) : (s.prepare a).fast = (s.countFor a).fast := by cases a <;> rfl
@[simp] theorem State.prepare_cc (a : NormalAddr) : (s.prepare a).cc = s.cc := by cases a <;> rfl
@[simp] theorem State.prepare_ip (a : NormalAddr) : (s.prepare a).ip = s.ip := by cases a <;> rfl
@[simp] theorem State.prepare_acc (a : NormalAddr) : (s.prepare a).acc = s.acc := by cases a <;> rfl
@[simp] theorem State.prepare_r (a : NormalAddr) : (s.prepare a).r = s.r := by cases a <;> rfl
@[simp] theorem State.prepare_es (a : NormalAddr) : (s.prepare a).es = s.es := by cases a <;> rfl
@[simp] theorem State.prepare_divLast (a : NormalAddr) : (s.prepare a).divLast = s.divLast := by cases a <;> rfl
@[simp] theorem State.prepare_intMode (a : NormalAddr) : (s.prepare a).intMode = s.intMode := by cases a <;> rfl
@[simp] theorem State.prepare_cause (a : NormalAddr) : (s.prepare a).cause = s.cause := by cases a <;> rfl
@[simp] theorem State.prepare_na (a : NormalAddr) : (s.prepare a).na = 0 := by cases a <;> rfl
@[simp] theorem State.prepare_nb (a : NormalAddr) : (s.prepare a).nb = 0 := by cases a <;> rfl
@[simp] theorem State.prepare_busy (a : NormalAddr) : (s.prepare a).busy = s.busy := by cases a <;> rfl
@[simp] theorem State.prepare_prepared (a : NormalAddr) : (s.prepare a).prepared = s.prepared := by cases a <;> rfl
@[simp] theorem State.prepare_channels (a : NormalAddr) : (s.prepare a).channels = s.channels := by cases a <;> rfl
@[simp] theorem State.prepare_blockDone (a : NormalAddr) : (s.prepare a).blockDone = s.blockDone := by cases a <;> rfl
@[simp] theorem State.prepare_deviceOut (a : NormalAddr) : (s.prepare a).deviceOut = s.deviceOut := by cases a <;> rfl
@[simp] theorem State.prepare_tapeIn (a : NormalAddr) : (s.prepare a).tapeIn = s.tapeIn := by cases a <;> rfl
@[simp] theorem State.prepare_tapeOut (a : NormalAddr) : (s.prepare a).tapeOut = s.tapeOut := by cases a <;> rfl
@[simp] theorem State.prepare_black (a : NormalAddr) : (s.prepare a).black = s.black := by cases a <;> rfl
@[simp] theorem State.prepare_green (a : NormalAddr) : (s.prepare a).green = s.green := by cases a <;> rfl
@[simp] theorem State.prepare_engineering (a : NormalAddr) : (s.prepare a).engineering = s.engineering := by cases a <;> rfl
@[simp] theorem State.prepare_interplayAlways (a : NormalAddr) : (s.prepare a).interplayAlways = s.interplayAlways := by cases a <;> rfl
@[simp] theorem State.prepare_stopped (a : NormalAddr) : (s.prepare a).stopped = s.stopped := by cases a <;> rfl
@[simp] theorem State.prepare_params (a : NormalAddr) : (s.prepare a).params = s.params := by cases a <;> rfl
@[simp] theorem State.prepare_jumped (a : NormalAddr) : (s.prepare a).jumped = s.jumped := by cases a <;> rfl
@[simp] theorem State.prepare_free (a : NormalAddr) : (s.prepare a).free = s.free := by cases a <;> rfl
@[simp] theorem State.prepare_events (a : NormalAddr) : (s.prepare a).events = s.events := by cases a <;> rfl
@[simp] theorem State.prepare_inside (a : NormalAddr) : (s.prepare a).inside = s.inside := by cases a <;> rfl

/-! A store into a fast register: `State.storeFast`. -/

@[simp] theorem State.storeFast_core (b : BitVec 4) (w : Word) : (s.storeFast b w).core = s.core := by unfold State.storeFast; split <;> rfl
@[simp] theorem State.storeFast_cc (b : BitVec 4) (w : Word) : (s.storeFast b w).cc = s.cc := by unfold State.storeFast; split <;> rfl
@[simp] theorem State.storeFast_ip (b : BitVec 4) (w : Word) : (s.storeFast b w).ip = s.ip := by unfold State.storeFast; split <;> rfl
@[simp] theorem State.storeFast_acc (b : BitVec 4) (w : Word) : (s.storeFast b w).acc = s.acc := by unfold State.storeFast; split <;> rfl
@[simp] theorem State.storeFast_r (b : BitVec 4) (w : Word) : (s.storeFast b w).r = s.r := by unfold State.storeFast; split <;> rfl
@[simp] theorem State.storeFast_es (b : BitVec 4) (w : Word) : (s.storeFast b w).es = s.es := by unfold State.storeFast; split <;> rfl
@[simp] theorem State.storeFast_divLast (b : BitVec 4) (w : Word) : (s.storeFast b w).divLast = s.divLast := by unfold State.storeFast; split <;> rfl
@[simp] theorem State.storeFast_intMode (b : BitVec 4) (w : Word) : (s.storeFast b w).intMode = s.intMode := by unfold State.storeFast; split <;> rfl
@[simp] theorem State.storeFast_cause (b : BitVec 4) (w : Word) : (s.storeFast b w).cause = s.cause := by unfold State.storeFast; split <;> rfl
@[simp] theorem State.storeFast_na (b : BitVec 4) (w : Word) : (s.storeFast b w).na = s.na := by unfold State.storeFast; split <;> rfl
@[simp] theorem State.storeFast_nb (b : BitVec 4) (w : Word) : (s.storeFast b w).nb = s.nb := by unfold State.storeFast; split <;> rfl
@[simp] theorem State.storeFast_busy (b : BitVec 4) (w : Word) : (s.storeFast b w).busy = s.busy := by unfold State.storeFast; split <;> rfl
@[simp] theorem State.storeFast_prepared (b : BitVec 4) (w : Word) : (s.storeFast b w).prepared = s.prepared := by unfold State.storeFast; split <;> rfl
@[simp] theorem State.storeFast_channels (b : BitVec 4) (w : Word) : (s.storeFast b w).channels = s.channels := by unfold State.storeFast; split <;> rfl
@[simp] theorem State.storeFast_blockDone (b : BitVec 4) (w : Word) : (s.storeFast b w).blockDone = s.blockDone := by unfold State.storeFast; split <;> rfl
@[simp] theorem State.storeFast_deviceOut (b : BitVec 4) (w : Word) : (s.storeFast b w).deviceOut = s.deviceOut := by unfold State.storeFast; split <;> rfl
@[simp] theorem State.storeFast_tapeIn (b : BitVec 4) (w : Word) : (s.storeFast b w).tapeIn = s.tapeIn := by unfold State.storeFast; split <;> rfl
@[simp] theorem State.storeFast_tapeOut (b : BitVec 4) (w : Word) : (s.storeFast b w).tapeOut = s.tapeOut := by unfold State.storeFast; split <;> rfl
@[simp] theorem State.storeFast_black (b : BitVec 4) (w : Word) : (s.storeFast b w).black = s.black := by unfold State.storeFast; split <;> rfl
@[simp] theorem State.storeFast_green (b : BitVec 4) (w : Word) : (s.storeFast b w).green = s.green := by unfold State.storeFast; split <;> rfl
@[simp] theorem State.storeFast_engineering (b : BitVec 4) (w : Word) : (s.storeFast b w).engineering = s.engineering := by unfold State.storeFast; split <;> rfl
@[simp] theorem State.storeFast_interplayAlways (b : BitVec 4) (w : Word) : (s.storeFast b w).interplayAlways = s.interplayAlways := by unfold State.storeFast; split <;> rfl
@[simp] theorem State.storeFast_stopped (b : BitVec 4) (w : Word) : (s.storeFast b w).stopped = s.stopped := by unfold State.storeFast; split <;> rfl
@[simp] theorem State.storeFast_params (b : BitVec 4) (w : Word) : (s.storeFast b w).params = s.params := by unfold State.storeFast; split <;> rfl
@[simp] theorem State.storeFast_jumped (b : BitVec 4) (w : Word) : (s.storeFast b w).jumped = s.jumped := by unfold State.storeFast; split <;> rfl
@[simp] theorem State.storeFast_free (b : BitVec 4) (w : Word) : (s.storeFast b w).free = s.free := by unfold State.storeFast; split <;> rfl
@[simp] theorem State.storeFast_events (b : BitVec 4) (w : Word) : (s.storeFast b w).events = s.events := by unfold State.storeFast; split <;> rfl
@[simp] theorem State.storeFast_inside (b : BitVec 4) (w : Word) : (s.storeFast b w).inside = s.inside := by unfold State.storeFast; split <;> rfl

/-! A special register: `State.writeSpecial`. -/

@[simp] theorem State.writeSpecial_core (k : BitVec 6) (v : BitVec 13) : (s.writeSpecial k v).core = s.core := by unfold State.writeSpecial; split <;> rfl
@[simp] theorem State.writeSpecial_fast (k : BitVec 6) (v : BitVec 13) : (s.writeSpecial k v).fast = s.fast := by unfold State.writeSpecial; split <;> rfl
@[simp] theorem State.writeSpecial_cc (k : BitVec 6) (v : BitVec 13) : (s.writeSpecial k v).cc = s.cc := by unfold State.writeSpecial; split <;> rfl
@[simp] theorem State.writeSpecial_ip (k : BitVec 6) (v : BitVec 13) : (s.writeSpecial k v).ip = s.ip := by unfold State.writeSpecial; split <;> rfl
@[simp] theorem State.writeSpecial_acc (k : BitVec 6) (v : BitVec 13) : (s.writeSpecial k v).acc = s.acc := by unfold State.writeSpecial; split <;> rfl
@[simp] theorem State.writeSpecial_r (k : BitVec 6) (v : BitVec 13) : (s.writeSpecial k v).r = s.r := by unfold State.writeSpecial; split <;> rfl
@[simp] theorem State.writeSpecial_es (k : BitVec 6) (v : BitVec 13) : (s.writeSpecial k v).es = s.es := by unfold State.writeSpecial; split <;> rfl
@[simp] theorem State.writeSpecial_divLast (k : BitVec 6) (v : BitVec 13) : (s.writeSpecial k v).divLast = s.divLast := by unfold State.writeSpecial; split <;> rfl
@[simp] theorem State.writeSpecial_intMode (k : BitVec 6) (v : BitVec 13) : (s.writeSpecial k v).intMode = s.intMode := by unfold State.writeSpecial; split <;> rfl
@[simp] theorem State.writeSpecial_cause (k : BitVec 6) (v : BitVec 13) : (s.writeSpecial k v).cause = s.cause := by unfold State.writeSpecial; split <;> rfl
@[simp] theorem State.writeSpecial_na (k : BitVec 6) (v : BitVec 13) : (s.writeSpecial k v).na = s.na := by unfold State.writeSpecial; split <;> rfl
@[simp] theorem State.writeSpecial_nb (k : BitVec 6) (v : BitVec 13) : (s.writeSpecial k v).nb = s.nb := by unfold State.writeSpecial; split <;> rfl
@[simp] theorem State.writeSpecial_busy (k : BitVec 6) (v : BitVec 13) : (s.writeSpecial k v).busy = s.busy := by unfold State.writeSpecial; split <;> rfl
@[simp] theorem State.writeSpecial_prepared (k : BitVec 6) (v : BitVec 13) : (s.writeSpecial k v).prepared = s.prepared := by unfold State.writeSpecial; split <;> rfl
@[simp] theorem State.writeSpecial_channels (k : BitVec 6) (v : BitVec 13) : (s.writeSpecial k v).channels = s.channels := by unfold State.writeSpecial; split <;> rfl
@[simp] theorem State.writeSpecial_blockDone (k : BitVec 6) (v : BitVec 13) : (s.writeSpecial k v).blockDone = s.blockDone := by unfold State.writeSpecial; split <;> rfl
@[simp] theorem State.writeSpecial_deviceOut (k : BitVec 6) (v : BitVec 13) : (s.writeSpecial k v).deviceOut = s.deviceOut := by unfold State.writeSpecial; split <;> rfl
@[simp] theorem State.writeSpecial_tapeIn (k : BitVec 6) (v : BitVec 13) : (s.writeSpecial k v).tapeIn = s.tapeIn := by unfold State.writeSpecial; split <;> rfl
@[simp] theorem State.writeSpecial_black (k : BitVec 6) (v : BitVec 13) : (s.writeSpecial k v).black = s.black := by unfold State.writeSpecial; split <;> rfl
@[simp] theorem State.writeSpecial_green (k : BitVec 6) (v : BitVec 13) : (s.writeSpecial k v).green = s.green := by unfold State.writeSpecial; split <;> rfl
@[simp] theorem State.writeSpecial_engineering (k : BitVec 6) (v : BitVec 13) : (s.writeSpecial k v).engineering = s.engineering := by unfold State.writeSpecial; split <;> rfl
@[simp] theorem State.writeSpecial_interplayAlways (k : BitVec 6) (v : BitVec 13) : (s.writeSpecial k v).interplayAlways = s.interplayAlways := by unfold State.writeSpecial; split <;> rfl
@[simp] theorem State.writeSpecial_stopped (k : BitVec 6) (v : BitVec 13) : (s.writeSpecial k v).stopped = s.stopped := by unfold State.writeSpecial; split <;> rfl
@[simp] theorem State.writeSpecial_params (k : BitVec 6) (v : BitVec 13) : (s.writeSpecial k v).params = s.params := by unfold State.writeSpecial; split <;> rfl
@[simp] theorem State.writeSpecial_jumped (k : BitVec 6) (v : BitVec 13) : (s.writeSpecial k v).jumped = s.jumped := by unfold State.writeSpecial; split <;> rfl
@[simp] theorem State.writeSpecial_free (k : BitVec 6) (v : BitVec 13) : (s.writeSpecial k v).free = s.free := by unfold State.writeSpecial; split <;> rfl
@[simp] theorem State.writeSpecial_events (k : BitVec 6) (v : BitVec 13) : (s.writeSpecial k v).events = s.events := by unfold State.writeSpecial; split <;> rfl
@[simp] theorem State.writeSpecial_inside (k : BitVec 6) (v : BitVec 13) : (s.writeSpecial k v).inside = s.inside := by unfold State.writeSpecial; split <;> rfl

/-! The side effect of JDC: `State.conditionEffect`. -/

@[simp] theorem State.conditionEffect_core (c : Condition) : (s.conditionEffect c).core = s.core := by cases c <;> rfl
@[simp] theorem State.conditionEffect_fast (c : Condition) : (s.conditionEffect c).fast = s.fast := by cases c <;> rfl
@[simp] theorem State.conditionEffect_cc (c : Condition) : (s.conditionEffect c).cc = s.cc := by cases c <;> rfl
@[simp] theorem State.conditionEffect_ip (c : Condition) : (s.conditionEffect c).ip = s.ip := by cases c <;> rfl
@[simp] theorem State.conditionEffect_r (c : Condition) : (s.conditionEffect c).r = s.r := by cases c <;> rfl
@[simp] theorem State.conditionEffect_es (c : Condition) : (s.conditionEffect c).es = s.es := by cases c <;> rfl
@[simp] theorem State.conditionEffect_divLast (c : Condition) : (s.conditionEffect c).divLast = s.divLast := by cases c <;> rfl
@[simp] theorem State.conditionEffect_cause (c : Condition) : (s.conditionEffect c).cause = s.cause := by cases c <;> rfl
@[simp] theorem State.conditionEffect_na (c : Condition) : (s.conditionEffect c).na = s.na := by cases c <;> rfl
@[simp] theorem State.conditionEffect_nb (c : Condition) : (s.conditionEffect c).nb = s.nb := by cases c <;> rfl
@[simp] theorem State.conditionEffect_busy (c : Condition) : (s.conditionEffect c).busy = s.busy := by cases c <;> rfl
@[simp] theorem State.conditionEffect_prepared (c : Condition) : (s.conditionEffect c).prepared = s.prepared := by cases c <;> rfl
@[simp] theorem State.conditionEffect_channels (c : Condition) : (s.conditionEffect c).channels = s.channels := by cases c <;> rfl
@[simp] theorem State.conditionEffect_blockDone (c : Condition) : (s.conditionEffect c).blockDone = s.blockDone := by cases c <;> rfl
@[simp] theorem State.conditionEffect_deviceOut (c : Condition) : (s.conditionEffect c).deviceOut = s.deviceOut := by cases c <;> rfl
@[simp] theorem State.conditionEffect_tapeIn (c : Condition) : (s.conditionEffect c).tapeIn = s.tapeIn := by cases c <;> rfl
@[simp] theorem State.conditionEffect_tapeOut (c : Condition) : (s.conditionEffect c).tapeOut = s.tapeOut := by cases c <;> rfl
@[simp] theorem State.conditionEffect_black (c : Condition) : (s.conditionEffect c).black = s.black := by cases c <;> rfl
@[simp] theorem State.conditionEffect_green (c : Condition) : (s.conditionEffect c).green = s.green := by cases c <;> rfl
@[simp] theorem State.conditionEffect_engineering (c : Condition) : (s.conditionEffect c).engineering = s.engineering := by cases c <;> rfl
@[simp] theorem State.conditionEffect_interplayAlways (c : Condition) : (s.conditionEffect c).interplayAlways = s.interplayAlways := by cases c <;> rfl
@[simp] theorem State.conditionEffect_stopped (c : Condition) : (s.conditionEffect c).stopped = s.stopped := by cases c <;> rfl
@[simp] theorem State.conditionEffect_params (c : Condition) : (s.conditionEffect c).params = s.params := by cases c <;> rfl
@[simp] theorem State.conditionEffect_jumped (c : Condition) : (s.conditionEffect c).jumped = s.jumped := by cases c <;> rfl
@[simp] theorem State.conditionEffect_free (c : Condition) : (s.conditionEffect c).free = s.free := by cases c <;> rfl
@[simp] theorem State.conditionEffect_events (c : Condition) : (s.conditionEffect c).events = s.events := by cases c <;> rfl
@[simp] theorem State.conditionEffect_inside (c : Condition) : (s.conditionEffect c).inside = s.inside := by cases c <;> rfl

/-! Two words held as a pair: `State.holdPair`. -/

@[simp] theorem State.holdPair_core (w : Addr) (v8 v9 : Word) : (s.holdPair w v8 v9).core = s.core := rfl
@[simp] theorem State.holdPair_cc (w : Addr) (v8 v9 : Word) : (s.holdPair w v8 v9).cc = s.cc := rfl
@[simp] theorem State.holdPair_ip (w : Addr) (v8 v9 : Word) : (s.holdPair w v8 v9).ip = s.pairOf w := rfl
@[simp] theorem State.holdPair_acc (w : Addr) (v8 v9 : Word) : (s.holdPair w v8 v9).acc = s.acc := rfl
@[simp] theorem State.holdPair_r (w : Addr) (v8 v9 : Word) : (s.holdPair w v8 v9).r = s.r := rfl
@[simp] theorem State.holdPair_es (w : Addr) (v8 v9 : Word) : (s.holdPair w v8 v9).es = s.es := rfl
@[simp] theorem State.holdPair_divLast (w : Addr) (v8 v9 : Word) : (s.holdPair w v8 v9).divLast = s.divLast := rfl
@[simp] theorem State.holdPair_intMode (w : Addr) (v8 v9 : Word) : (s.holdPair w v8 v9).intMode = s.intMode := rfl
@[simp] theorem State.holdPair_cause (w : Addr) (v8 v9 : Word) : (s.holdPair w v8 v9).cause = s.cause := rfl
@[simp] theorem State.holdPair_na (w : Addr) (v8 v9 : Word) : (s.holdPair w v8 v9).na = s.na := rfl
@[simp] theorem State.holdPair_nb (w : Addr) (v8 v9 : Word) : (s.holdPair w v8 v9).nb = s.nb := rfl
@[simp] theorem State.holdPair_busy (w : Addr) (v8 v9 : Word) : (s.holdPair w v8 v9).busy = s.busy := rfl
@[simp] theorem State.holdPair_prepared (w : Addr) (v8 v9 : Word) : (s.holdPair w v8 v9).prepared = s.prepared := rfl
@[simp] theorem State.holdPair_channels (w : Addr) (v8 v9 : Word) : (s.holdPair w v8 v9).channels = s.channels := rfl
@[simp] theorem State.holdPair_blockDone (w : Addr) (v8 v9 : Word) : (s.holdPair w v8 v9).blockDone = s.blockDone := rfl
@[simp] theorem State.holdPair_deviceOut (w : Addr) (v8 v9 : Word) : (s.holdPair w v8 v9).deviceOut = s.deviceOut := rfl
@[simp] theorem State.holdPair_tapeIn (w : Addr) (v8 v9 : Word) : (s.holdPair w v8 v9).tapeIn = s.tapeIn := rfl
@[simp] theorem State.holdPair_tapeOut (w : Addr) (v8 v9 : Word) : (s.holdPair w v8 v9).tapeOut = s.tapeOut := rfl
@[simp] theorem State.holdPair_black (w : Addr) (v8 v9 : Word) : (s.holdPair w v8 v9).black = s.black := rfl
@[simp] theorem State.holdPair_green (w : Addr) (v8 v9 : Word) : (s.holdPair w v8 v9).green = s.green := rfl
@[simp] theorem State.holdPair_engineering (w : Addr) (v8 v9 : Word) : (s.holdPair w v8 v9).engineering = s.engineering := rfl
@[simp] theorem State.holdPair_interplayAlways (w : Addr) (v8 v9 : Word) : (s.holdPair w v8 v9).interplayAlways = s.interplayAlways := rfl
@[simp] theorem State.holdPair_stopped (w : Addr) (v8 v9 : Word) : (s.holdPair w v8 v9).stopped = s.stopped := rfl
@[simp] theorem State.holdPair_params (w : Addr) (v8 v9 : Word) : (s.holdPair w v8 v9).params = s.params := rfl
@[simp] theorem State.holdPair_jumped (w : Addr) (v8 v9 : Word) : (s.holdPair w v8 v9).jumped = s.jumped := rfl
@[simp] theorem State.holdPair_free (w : Addr) (v8 v9 : Word) : (s.holdPair w v8 v9).free = s.free := rfl
@[simp] theorem State.holdPair_events (w : Addr) (v8 v9 : Word) : (s.holdPair w v8 v9).events = s.events := rfl
@[simp] theorem State.holdPair_inside (w : Addr) (v8 v9 : Word) : (s.holdPair w v8 v9).inside = s.inside := rfl

/-! A refill: `State.loadPair`. -/

@[simp] theorem State.loadPair_core (w : Addr) : (s.loadPair w).core = s.core := by unfold State.loadPair; split <;> rfl
@[simp] theorem State.loadPair_cc (w : Addr) : (s.loadPair w).cc = s.cc := by unfold State.loadPair; split <;> rfl
@[simp] theorem State.loadPair_acc (w : Addr) : (s.loadPair w).acc = s.acc := by unfold State.loadPair; split <;> rfl
@[simp] theorem State.loadPair_r (w : Addr) : (s.loadPair w).r = s.r := by unfold State.loadPair; split <;> rfl
@[simp] theorem State.loadPair_es (w : Addr) : (s.loadPair w).es = s.es := by unfold State.loadPair; split <;> rfl
@[simp] theorem State.loadPair_divLast (w : Addr) : (s.loadPair w).divLast = s.divLast := by unfold State.loadPair; split <;> rfl
@[simp] theorem State.loadPair_intMode (w : Addr) : (s.loadPair w).intMode = s.intMode := by unfold State.loadPair; split <;> rfl
@[simp] theorem State.loadPair_cause (w : Addr) : (s.loadPair w).cause = s.cause := by unfold State.loadPair; split <;> rfl
@[simp] theorem State.loadPair_na (w : Addr) : (s.loadPair w).na = s.na := by unfold State.loadPair; split <;> rfl
@[simp] theorem State.loadPair_nb (w : Addr) : (s.loadPair w).nb = s.nb := by unfold State.loadPair; split <;> rfl
@[simp] theorem State.loadPair_busy (w : Addr) : (s.loadPair w).busy = s.busy := by unfold State.loadPair; split <;> rfl
@[simp] theorem State.loadPair_prepared (w : Addr) : (s.loadPair w).prepared = s.prepared := by unfold State.loadPair; split <;> rfl
@[simp] theorem State.loadPair_channels (w : Addr) : (s.loadPair w).channels = s.channels := by unfold State.loadPair; split <;> rfl
@[simp] theorem State.loadPair_blockDone (w : Addr) : (s.loadPair w).blockDone = s.blockDone := by unfold State.loadPair; split <;> rfl
@[simp] theorem State.loadPair_deviceOut (w : Addr) : (s.loadPair w).deviceOut = s.deviceOut := by unfold State.loadPair; split <;> rfl
@[simp] theorem State.loadPair_tapeIn (w : Addr) : (s.loadPair w).tapeIn = s.tapeIn := by unfold State.loadPair; split <;> rfl
@[simp] theorem State.loadPair_tapeOut (w : Addr) : (s.loadPair w).tapeOut = s.tapeOut := by unfold State.loadPair; split <;> rfl
@[simp] theorem State.loadPair_black (w : Addr) : (s.loadPair w).black = s.black := by unfold State.loadPair; split <;> rfl
@[simp] theorem State.loadPair_green (w : Addr) : (s.loadPair w).green = s.green := by unfold State.loadPair; split <;> rfl
@[simp] theorem State.loadPair_engineering (w : Addr) : (s.loadPair w).engineering = s.engineering := by unfold State.loadPair; split <;> rfl
@[simp] theorem State.loadPair_interplayAlways (w : Addr) : (s.loadPair w).interplayAlways = s.interplayAlways := by unfold State.loadPair; split <;> rfl
@[simp] theorem State.loadPair_stopped (w : Addr) : (s.loadPair w).stopped = s.stopped := by unfold State.loadPair; split <;> rfl
@[simp] theorem State.loadPair_params (w : Addr) : (s.loadPair w).params = s.params := by unfold State.loadPair; split <;> rfl
@[simp] theorem State.loadPair_jumped (w : Addr) : (s.loadPair w).jumped = s.jumped := by unfold State.loadPair; split <;> rfl
@[simp] theorem State.loadPair_free (w : Addr) : (s.loadPair w).free = s.free := by unfold State.loadPair; split <;> rfl
@[simp] theorem State.loadPair_events (w : Addr) : (s.loadPair w).events = s.events := by unfold State.loadPair; split <;> rfl
@[simp] theorem State.loadPair_inside (w : Addr) : (s.loadPair w).inside = s.inside := by unfold State.loadPair; split <;> rfl

end Sys2Proof.Machine
end

