-- ==== Sys2Proof/Laws/Registers.lean ====
section
/-! SUPPORT. Quarters, fast registers and modifiers: reading after writing (00_scope R7, 10_state R11 and R12). -/

namespace Sys2Proof.Machine

/-! Quarters of a word. -/

theorem quarter_eq_getLsbD (w : Word) (k i : Nat) (h : i < 13) :
    (quarter w k).getLsbD i = w.getLsbD (39 - 13 * (k % 4) + i) := by
  simp [quarter, h]

theorem ofQuarters_getLsbD (a b c d : Group) (i : Nat) :
    (ofQuarters a b c d).getLsbD i =
      if i < 13 then d.getLsbD i else if i < 26 then c.getLsbD (i - 13)
      else if i < 39 then b.getLsbD (i - 26) else a.getLsbD (i - 39) := by
  unfold ofQuarters
  rw [BitVec.getLsbD_append, BitVec.getLsbD_append, BitVec.getLsbD_append]
  by_cases h1 : i < 13
  · simp [h1]
  · by_cases h2 : i < 26
    · have h3 : i - 13 < 13 := by omega
      simp [h1, h2, h3]
    · by_cases h4 : i < 39
      · have h3 : ¬ i - 13 < 13 := by omega
        have h5 : i - 13 - 13 < 13 := by omega
        have h6 : i - 13 - 13 = i - 26 := by omega
        simp [h1, h2, h3, h4, h6, show i - 26 < 13 by omega]
      · have h3 : ¬ i - 13 < 13 := by omega
        have h6 : i - 13 - 13 = i - 26 := by omega
        have h7 : i - 26 - 13 = i - 39 := by omega
        simp [h1, h2, h3, h4, h6, h7, show ¬ i - 26 < 13 by omega]

@[simp] theorem quarter_ofQuarters_zero (a b c d : Group) : quarter (ofQuarters a b c d) 0 = a := by
  refine BitVec.eq_of_getLsbD_eq fun i h => ?_
  rw [quarter_eq_getLsbD _ _ _ h, ofQuarters_getLsbD]
  simp [show ¬ 39 + i < 13 by omega, show ¬ 39 + i < 26 by omega]

@[simp] theorem quarter_ofQuarters_one (a b c d : Group) : quarter (ofQuarters a b c d) 1 = b := by
  refine BitVec.eq_of_getLsbD_eq fun i h => ?_
  rw [quarter_eq_getLsbD _ _ _ h, ofQuarters_getLsbD]
  simp [show ¬ 26 + i < 13 by omega, show 26 + i < 39 by omega]

@[simp] theorem quarter_ofQuarters_two (a b c d : Group) : quarter (ofQuarters a b c d) 2 = c := by
  refine BitVec.eq_of_getLsbD_eq fun i h => ?_
  rw [quarter_eq_getLsbD _ _ _ h, ofQuarters_getLsbD]
  simp [show 13 + i < 26 by omega]

@[simp] theorem quarter_ofQuarters_three (a b c d : Group) : quarter (ofQuarters a b c d) 3 = d := by
  refine BitVec.eq_of_getLsbD_eq fun i h => ?_
  rw [quarter_eq_getLsbD _ _ _ h, ofQuarters_getLsbD]
  simp [h]

/-- Quarter numbers count modulo 4. -/
theorem quarter_mod (w : Word) (k : Nat) : quarter w (k % 4) = quarter w k := by simp [quarter]

/-- A quarter after replacing a quarter (R7). -/
theorem quarter_setQuarter (w : Word) (j k : Nat) (v : Group) :
    quarter (setQuarter w k v) j = if j % 4 = k % 4 then v else quarter w j := by
  have hk : k % 4 = 0 ∨ k % 4 = 1 ∨ k % 4 = 2 ∨ k % 4 = 3 := by omega
  have hj : j % 4 = 0 ∨ j % 4 = 1 ∨ j % 4 = 2 ∨ j % 4 = 3 := by omega
  rw [← quarter_mod _ j, ← quarter_mod w j]
  unfold setQuarter
  rcases hk with h | h | h | h <;> rcases hj with g | g | g | g <;> rw [h, g] <;> simp

@[simp] theorem quarter_setQuarter_same (w : Word) (k : Nat) (v : Group) :
    quarter (setQuarter w k v) k = v := by simp [quarter_setQuarter]

/-- Four equal quarters (R6). -/
theorem quarter_rep4 (v : Group) (k : Nat) : quarter (rep4 v) k = v := by
  have hk : k % 4 = 0 ∨ k % 4 = 1 ∨ k % 4 = 2 ∨ k % 4 = 3 := by omega
  rw [← quarter_mod]
  unfold rep4
  rcases hk with h | h | h | h <;> rw [h] <;> simp

/-! Fast registers. -/

theorem State.getF_eq (s : State) (j : Nat) (h : j < 10) : s.getF j = s.fast[j] := by
  simp [State.getF, Vector.getD, h]

/-- F[j] after F[k] <- v, for registers that exist (R8). -/
theorem State.getF_setF (s : State) (j k : Nat) (v : Word) :
    (s.setF k v).getF j = if j = k ∧ j < 10 then v else s.getF j := by
  by_cases h : j < 10
  · rw [State.getF_eq _ _ h, State.getF_eq _ _ h]
    simp only [State.setF_fast, Vector.getElem_setIfInBounds]
    by_cases hk : k = j
    · simp [hk, h]
    · simp [hk, Ne.symm hk]
  · simp [State.getF, Vector.getD, h]

@[simp] theorem State.getF_setF_same (s : State) (k : Nat) (v : Word) (h : k < 10) :
    (s.setF k v).getF k = v := by simp [State.getF_setF, h]

theorem State.getF_setF_ne (s : State) {j k : Nat} (v : Word) (h : j ≠ k) :
    (s.setF k v).getF j = s.getF j := by simp [State.getF_setF, h]

/-- A register reads the same wherever the fast registers are the same. -/
theorem State.getF_congr {s t : State} (h : t.fast = s.fast) (j : Nat) : t.getF j = s.getF j := by
  simp [State.getF, h]

theorem State.getM_congr {s t : State} (h : t.fast = s.fast) (i : BitVec 4) : t.getM i = s.getM i := by
  simp [State.getM, State.getF_congr h]

/-! Modifiers. -/

/-- The fast register of a modifier exists and is one of F4 to F7 (R12). -/
theorem modifier_register (i : BitVec 4) : 4 ≤ 4 + i.toNat / 4 ∧ 4 + i.toNat / 4 < 8 := by
  have := i.isLt
  omega

/-- Two modifiers in one register and one quarter are the same (R12). -/
theorem modifier_eq {i j : BitVec 4} (h1 : 4 + i.toNat / 4 = 4 + j.toNat / 4)
    (h2 : i.toNat % 4 = j.toNat % 4) : i = j := by
  apply BitVec.eq_of_toNat_eq
  omega

/-- M[i] after M[j] <- v (R12). -/
theorem State.getM_setM (s : State) (i j : BitVec 4) (v : Group) :
    (s.setM j v).getM i = if i = j then v else s.getM i := by
  have hj := modifier_register j
  unfold State.getM State.setM
  rw [State.getF_setF]
  by_cases hr : 4 + i.toNat / 4 = 4 + j.toNat / 4
  · rw [if_pos ⟨hr, by omega⟩, quarter_setQuarter]
    by_cases hq : i.toNat % 4 = j.toNat % 4
    · simp [modifier_eq hr hq]
    · have : i ≠ j := fun h => hq (by rw [h])
      rw [if_neg (by simpa [Nat.mod_mod] using hq), if_neg this, hr]
  · have : i ≠ j := fun h => hr (by rw [h])
    rw [if_neg (fun h => hr h.1), if_neg this]

@[simp] theorem State.getM_setM_same (s : State) (i : BitVec 4) (v : Group) :
    (s.setM i v).getM i = v := by simp [State.getM_setM]

/-- A fast register after M[i] <- v: only the register that holds M[i] changes (R12). -/
theorem State.getF_setM (s : State) (i : BitVec 4) (v : Group) (j : Nat) (h : j ≠ 4 + i.toNat / 4) :
    (s.setM i v).getF j = s.getF j := State.getF_setF_ne s _ h

/-- Outside F4 to F7 no modifier shows. -/
theorem State.getF_setM_low (s : State) (i : BitVec 4) (v : Group) (j : Nat) (h : j < 4 ∨ 8 ≤ j) :
    (s.setM i v).getF j = s.getF j :=
  State.getF_setM s i v j (by have := modifier_register i; omega)

/-- A modifier after F[k] <- v, its own register apart (R12). -/
theorem State.getM_setF (s : State) (i : BitVec 4) (k : Nat) (v : Word) (h : 4 + i.toNat / 4 ≠ k) :
    (s.setF k v).getM i = s.getM i := by
  simp [State.getM, State.getF_setF, h]

/-- A modifier is not in F0 to F3, F8 or F9. -/
theorem State.getM_setF_low (s : State) (i : BitVec 4) (k : Nat) (v : Word) (h : k < 4 ∨ 8 ≤ k) :
    (s.setF k v).getM i = s.getM i :=
  State.getM_setF s i k v (by have := modifier_register i; omega)

/-- Counting (R197). -/
theorem State.getM_countM (s : State) (i j : BitVec 4) :
    (s.countM j).getM i = if i = j then s.getM j + 1 else s.getM i := State.getM_setM s i j _

end Sys2Proof.Machine
end

