-- ==== Sys2Proof/Laws/Memory.lean ====
section
/-! SUPPORT. Core memory: reading after writing, and the canonical form kept by every write (10_state R10, 20_memory R44 and R45). -/

namespace Sys2Proof.Machine

/-! Reading after writing. -/

/-- Below every listed address the memory reads as unlisted. -/
theorem Mem.read_below {m : List (Nat × Word)} {lo a : Nat} (h : Mem.risingAbove lo m = true)
    (ha : a < lo) : Mem.read m a = unlistedWord := by
  induction m generalizing lo with
  | nil => rfl
  | cons p t ih =>
    obtain ⟨b, w⟩ := p
    simp only [Mem.risingAbove, Bool.and_eq_true, decide_eq_true_eq] at h
    simp only [Mem.read, if_neg (show a ≠ b by omega)]
    exact ih h.2 (by omega)

theorem Mem.risingAbove_mono {m : List (Nat × Word)} {lo lo' : Nat} (h : Mem.risingAbove lo m = true)
    (hl : lo' ≤ lo) : Mem.risingAbove lo' m = true := by
  cases m with
  | nil => rfl
  | cons p t =>
    obtain ⟨b, w⟩ := p
    simp only [Mem.risingAbove, Bool.and_eq_true, decide_eq_true_eq] at h ⊢
    exact ⟨by omega, h.2⟩

/-- A word reads as it was last written, and every other word as before, in a rising memory. -/
theorem Mem.read_write {m : List (Nat × Word)} {lo : Nat} (h : Mem.risingAbove lo m = true)
    (a : Nat) (v : Word) (b : Nat) :
    Mem.read (Mem.write m a v) b = if b = a then v else Mem.read m b := by
  induction m generalizing lo with
  | nil =>
    simp only [Mem.write]
    split
    · rename_i hv
      simp [Mem.read, hv]
    · simp [Mem.read]
  | cons p t ih =>
    obtain ⟨c, w⟩ := p
    simp only [Mem.risingAbove, Bool.and_eq_true, decide_eq_true_eq] at h
    simp only [Mem.write]
    by_cases hac : a < c
    · rw [if_pos hac]
      split
      · rename_i hv
        by_cases hb : b = a
        · subst hb
          rw [if_pos rfl, hv]
          simp only [Mem.read, if_neg (show b ≠ c by omega)]
          exact Mem.read_below h.2 (by omega)
        · rw [if_neg hb]
      · simp only [Mem.read]
    · rw [if_neg hac]
      by_cases hae : a = c
      · subst hae
        rw [if_pos rfl]
        split
        · rename_i hv
          by_cases hb : b = a
          · subst hb
            rw [if_pos rfl, hv]
            exact Mem.read_below h.2 (by omega)
          · simp only [if_neg hb, Mem.read]
        · by_cases hb : b = a <;> simp [Mem.read, hb]
      · rw [if_neg hae]
        simp only [Mem.read]
        by_cases hb : b = c
        · subst hb
          rw [if_pos rfl, if_neg (fun h => hae h.symm), if_pos rfl]
        · rw [if_neg hb, if_neg hb]
          exact ih h.2

/-! The canonical form. -/

theorem Mem.risingAbove_write {m : List (Nat × Word)} {lo a : Nat} (h : Mem.risingAbove lo m = true)
    (ha : lo ≤ a) (v : Word) : Mem.risingAbove lo (Mem.write m a v) = true := by
  induction m generalizing lo with
  | nil =>
    simp only [Mem.write]
    split <;> simp [Mem.risingAbove, ha]
  | cons p t ih =>
    obtain ⟨c, w⟩ := p
    simp only [Mem.risingAbove, Bool.and_eq_true, decide_eq_true_eq] at h
    simp only [Mem.write]
    by_cases hac : a < c
    · rw [if_pos hac]
      split
      · simp [Mem.risingAbove, h]
      · simp only [Mem.risingAbove, Bool.and_eq_true, decide_eq_true_eq]
        exact ⟨ha, by omega, h.2⟩
    · rw [if_neg hac]
      by_cases hae : a = c
      · subst hae
        rw [if_pos rfl]
        split
        · exact Mem.risingAbove_mono h.2 (by omega)
        · simp [Mem.risingAbove, h]
      · rw [if_neg hae]
        simp only [Mem.risingAbove, Bool.and_eq_true, decide_eq_true_eq]
        exact ⟨h.1, ih h.2 (by omega)⟩

/-- What a write lists: the new word, or what was listed before. -/
theorem Mem.mem_write {m : List (Nat × Word)} {a : Nat} {v : Word} {p : Nat × Word}
    (h : p ∈ Mem.write m a v) : (p = (a, v) ∧ v ≠ unlistedWord) ∨ p ∈ m := by
  induction m with
  | nil =>
    simp only [Mem.write] at h
    split at h
    · cases h
    · rename_i hv
      simp only [List.mem_singleton] at h
      exact .inl ⟨h, hv⟩
  | cons q t ih =>
    obtain ⟨c, w⟩ := q
    simp only [Mem.write] at h
    split at h
    · split at h
      · exact .inr h
      · rename_i hv
        rcases List.mem_cons.mp h with h | h
        · exact .inl ⟨h, hv⟩
        · exact .inr h
    · split at h
      · split at h
        · exact .inr (List.mem_cons_of_mem _ h)
        · rename_i hv
          rcases List.mem_cons.mp h with h | h
          · exact .inl ⟨h, hv⟩
          · exact .inr (List.mem_cons_of_mem _ h)
      · rcases List.mem_cons.mp h with h | h
        · exact .inr (h ▸ List.mem_cons_self ..)
        · rcases ih h with h | h
          · exact .inl h
          · exact .inr (List.mem_cons_of_mem _ h)

/-- A write inside core keeps the canonical form. -/
theorem Mem.wf_write {m : List (Nat × Word)} {a : Nat} (h : Mem.wf m = true) (ha : a < 8192)
    (v : Word) : Mem.wf (Mem.write m a v) = true := by
  simp only [Mem.wf, Bool.and_eq_true, List.all_eq_true, decide_eq_true_eq] at h ⊢
  refine ⟨Mem.risingAbove_write h.1 (Nat.zero_le _) v, fun p hp => ?_⟩
  rcases Mem.mem_write hp with ⟨rfl, hv⟩ | hp
  · exact ⟨ha, hv⟩
  · exact h.2 p hp

theorem Mem.wf_rising {m : List (Nat × Word)} (h : Mem.wf m = true) : Mem.risingAbove 0 m = true := by
  simp only [Mem.wf, Bool.and_eq_true] at h
  exact h.1

/-! Core words by address. -/

/-- The core words attached are at most 8192, and at least one (R4). -/
theorem Params.coreWords_bounds (p : Params) : 0 < p.coreWords ∧ p.coreWords ≤ 8192 := by
  unfold Params.coreWords
  split <;> omega

/-- The index of an address lies in core (R44). -/
theorem coreIndex_lt (p : Params) (a : Addr) : coreIndex p a < p.coreWords :=
  Nat.mod_lt _ (Params.coreWords_bounds p).1

/-- A core word after a store (R44, R45). -/
theorem State.coreWord_setCore {s : State} (h : Mem.wf s.core = true) (a b : Addr) (v : Word) :
    (s.setCore a v).coreWord b = if coreIndex s.params b = coreIndex s.params a then v else s.coreWord b := by
  simp only [State.coreWord, State.setCore_core, State.setCore_params]
  exact Mem.read_write (Mem.wf_rising h) _ v _

/-- A store keeps the canonical form of core. -/
theorem State.wf_setCore {s : State} (h : Mem.wf s.core = true) (a : Addr) (v : Word) :
    Mem.wf (s.setCore a v).core = true :=
  Mem.wf_write h (Nat.lt_of_lt_of_le (coreIndex_lt s.params a) (Params.coreWords_bounds s.params).2) v

/-- A store stays inside the core attached. -/
theorem State.coreInside_setCore {s : State} (h : s.coreInside) (a : Addr) (v : Word) :
    (s.setCore a v).coreInside := by
  intro p hp
  rcases Mem.mem_write hp with ⟨rfl, _⟩ | hp
  · exact coreIndex_lt s.params a
  · exact h p hp

/-- A core word reads the same wherever core and the parameters are the same. -/
theorem State.coreWord_congr {s t : State} (h1 : t.core = s.core) (h2 : t.params = s.params) (a : Addr) :
    t.coreWord a = s.coreWord a := by
  simp [State.coreWord, h1, h2]

theorem State.violation_congr {s t : State} (h1 : t.busy = s.busy) (h2 : t.intMode = s.intMode)
    (h3 : t.engineering = s.engineering) (a : Addr) : t.violation a = s.violation a := by
  simp [State.violation, State.isBusy, h1, h2, h3]

end Sys2Proof.Machine
end

