-- ==== Sys2Proof/Laws/Accumulator.lean ====
section
/-! SUPPORT. The accumulator as integers: writing A, Q and E, the indicators, and what K leaves (41_fp_common R100, R105, R107, R108). -/

namespace Sys2Proof.Machine

/-! The fields after each update of the accumulator. -/

@[simp] theorem Acc.setAQ_e (x : Acc) (v : Int) : (x.setAQ v).e = x.e := rfl
@[simp] theorem Acc.setAQ_z (x : Acc) (v : Int) : (x.setAQ v).z = x.z := rfl
@[simp] theorem Acc.setAQ_ov (x : Acc) (v : Int) : (x.setAQ v).ov = x.ov := rfl
@[simp] theorem Acc.setE_a (x : Acc) (v : Int) : (x.setE v).a = x.a := rfl
@[simp] theorem Acc.setE_q (x : Acc) (v : Int) : (x.setE v).q = x.q := rfl
@[simp] theorem Acc.setE_z (x : Acc) (v : Int) : (x.setE v).z = x.z := rfl
@[simp] theorem Acc.setE_ov (x : Acc) (v : Int) : (x.setE v).ov = x.ov := rfl
@[simp] theorem Acc.setE_aq (x : Acc) (v : Int) : (x.setE v).aq = x.aq := rfl
@[simp] theorem Acc.setAQ_eInt (x : Acc) (v : Int) : (x.setAQ v).eInt = x.eInt := rfl
@[simp] theorem Acc.orZ_a (x : Acc) (p : Bool) : (x.orZ p).a = x.a := rfl
@[simp] theorem Acc.orZ_q (x : Acc) (p : Bool) : (x.orZ p).q = x.q := rfl
@[simp] theorem Acc.orZ_e (x : Acc) (p : Bool) : (x.orZ p).e = x.e := rfl
@[simp] theorem Acc.orZ_z (x : Acc) (p : Bool) : (x.orZ p).z = (x.z || p) := rfl
@[simp] theorem Acc.orZ_ov (x : Acc) (p : Bool) : (x.orZ p).ov = x.ov := rfl
@[simp] theorem Acc.orZ_aq (x : Acc) (p : Bool) : (x.orZ p).aq = x.aq := rfl
@[simp] theorem Acc.orZ_eInt (x : Acc) (p : Bool) : (x.orZ p).eInt = x.eInt := rfl
@[simp] theorem Acc.clearZ_a (x : Acc) : x.clearZ.a = x.a := rfl
@[simp] theorem Acc.clearZ_q (x : Acc) : x.clearZ.q = x.q := rfl
@[simp] theorem Acc.clearZ_e (x : Acc) : x.clearZ.e = x.e := rfl
@[simp] theorem Acc.clearZ_z (x : Acc) : x.clearZ.z = false := rfl
@[simp] theorem Acc.clearZ_ov (x : Acc) : x.clearZ.ov = x.ov := rfl
@[simp] theorem Acc.clearZ_aq (x : Acc) : x.clearZ.aq = x.aq := rfl
@[simp] theorem Acc.clearZ_eInt (x : Acc) : x.clearZ.eInt = x.eInt := rfl
@[simp] theorem Acc.setOV_a (x : Acc) : x.setOV.a = x.a := by unfold Acc.setOV; split <;> rfl
@[simp] theorem Acc.setOV_q (x : Acc) : x.setOV.q = x.q := by unfold Acc.setOV; split <;> rfl
@[simp] theorem Acc.setOV_e (x : Acc) : x.setOV.e = x.e := by unfold Acc.setOV; split <;> rfl
@[simp] theorem Acc.setOV_z (x : Acc) : x.setOV.z = x.z := by unfold Acc.setOV; split <;> rfl
@[simp] theorem Acc.setOV_aq (x : Acc) : x.setOV.aq = x.aq := by simp [Acc.aq, Acc.aInt, Acc.qInt]
@[simp] theorem Acc.setOV_eInt (x : Acc) : x.setOV.eInt = x.eInt := by simp [Acc.eInt]
@[simp] theorem Acc.setOV_ov (x : Acc) : x.setOV.ov = (x.ov || !x.z) := by
  unfold Acc.setOV
  split <;> simp_all
@[simp] theorem Acc.setOVIf_a (x : Acc) (p : Bool) : (x.setOVIf p).a = x.a := by unfold Acc.setOVIf; split <;> simp
@[simp] theorem Acc.setOVIf_q (x : Acc) (p : Bool) : (x.setOVIf p).q = x.q := by unfold Acc.setOVIf; split <;> simp
@[simp] theorem Acc.setOVIf_e (x : Acc) (p : Bool) : (x.setOVIf p).e = x.e := by unfold Acc.setOVIf; split <;> simp
@[simp] theorem Acc.setOVIf_z (x : Acc) (p : Bool) : (x.setOVIf p).z = x.z := by unfold Acc.setOVIf; split <;> simp
@[simp] theorem Acc.setOVIf_aq (x : Acc) (p : Bool) : (x.setOVIf p).aq = x.aq := by unfold Acc.setOVIf; split <;> simp
@[simp] theorem Acc.setOVIf_eInt (x : Acc) (p : Bool) : (x.setOVIf p).eInt = x.eInt := by unfold Acc.setOVIf; split <;> simp
@[simp] theorem Acc.setOVIf_ov (x : Acc) (p : Bool) : (x.setOVIf p).ov = (x.ov || (p && !x.z)) := by
  unfold Acc.setOVIf
  cases p <;> simp

/-! A, Q and E as integers (R15 to R17, R100). -/

theorem Acc.aInt_bounds (x : Acc) : -2 ^ 44 ≤ x.aInt ∧ x.aInt < 2 ^ 44 := by
  have h1 := x.a.le_toInt
  have h2 := x.a.toInt_lt
  unfold Acc.aInt
  omega

theorem Acc.qInt_bounds (x : Acc) : 0 ≤ x.qInt ∧ x.qInt < 2 ^ 44 := by
  have := x.q.isLt
  unfold Acc.qInt
  omega

theorem Acc.aq_bounds (x : Acc) : -2 ^ 88 ≤ x.aq ∧ x.aq < 2 ^ 88 := by
  have h1 := x.aInt_bounds
  have h2 := x.qInt_bounds
  unfold Acc.aq
  omega

theorem Acc.eInt_bounds (x : Acc) : -128 ≤ x.eInt ∧ x.eInt ≤ 127 := by
  have h1 := x.e.le_toInt
  have h2 := x.e.toInt_lt
  unfold Acc.eInt
  omega

/-- The first 45 digits of AQ are A (R100). -/
theorem Acc.top45_aq (x : Acc) : top45 x.aq = x.aInt := by
  have h := x.qInt_bounds
  unfold top45 Acc.aq
  omega

/-- The other 44 digits of AQ are Q (R100). -/
theorem Acc.aq_mod (x : Acc) : x.aq % 2 ^ 44 = x.qInt := by
  have h := x.qInt_bounds
  unfold Acc.aq
  omega

/-- AQ <- v holds v modulo 2^89 (R100). -/
theorem Acc.setAQ_aq_mod (x : Acc) (v : Int) : ((x.setAQ v).aq - v) % 2 ^ 89 = 0 := by
  simp only [Acc.setAQ, Acc.aq, Acc.aInt, Acc.qInt, BitVec.toInt_ofInt, BitVec.toNat_ofInt]
  have h2 := Int.emod_two_eq (v / 2 ^ 44)
  simp only [Int.bmod_def]
  omega

/-- AQ <- v holds v where it fits (R100). -/
theorem Acc.setAQ_aq (x : Acc) {v : Int} (h1 : -2 ^ 88 ≤ v) (h2 : v < 2 ^ 88) :
    (x.setAQ v).aq = v := by
  have h := x.setAQ_aq_mod v
  have hb := (x.setAQ v).aq_bounds
  omega

/-- E <- v holds v modulo 256 (R17). -/
theorem Acc.setE_eInt_mod (x : Acc) (v : Int) : ((x.setE v).eInt - v) % 256 = 0 := by
  simp only [Acc.setE, Acc.eInt, BitVec.toInt_ofInt, Int.bmod_def]
  omega

/-- E <- v holds v where it fits (R17). -/
theorem Acc.setE_eInt (x : Acc) {v : Int} (h1 : -128 ≤ v) (h2 : v ≤ 127) : (x.setE v).eInt = v := by
  have h := x.setE_eInt_mod v
  have hb := (x.setE v).eInt_bounds
  omega

/-- A and Q are given by AQ. -/
theorem Acc.digits_of_aq {x y : Acc} (h : x.aq = y.aq) : x.a = y.a ∧ x.q = y.q := by
  have hq : x.qInt = y.qInt := by rw [← x.aq_mod, ← y.aq_mod, h]
  have ha : x.aInt = y.aInt := by rw [← x.top45_aq, ← y.top45_aq, h]
  exact ⟨BitVec.eq_of_toInt_eq ha, BitVec.eq_of_toNat_eq (by simpa [Acc.qInt] using hq)⟩

/-- Writing back what AQ holds changes nothing. -/
theorem Acc.setAQ_self (x : Acc) : x.setAQ x.aq = x := by
  have h := x.setAQ_aq x.aq_bounds.1 x.aq_bounds.2
  obtain ⟨ha, hq⟩ := Acc.digits_of_aq h
  calc x.setAQ x.aq = { x with a := (x.setAQ x.aq).a, q := (x.setAQ x.aq).q } := rfl
    _ = x := by rw [ha, hq]

/-- Writing back what E holds changes nothing. -/
theorem Acc.setE_self (x : Acc) : x.setE x.eInt = x := by
  simp [Acc.setE, Acc.eInt, BitVec.ofInt_toInt]

/-- AQ = 0 exactly where all digits of A and Q are 0. -/
theorem Acc.aq_eq_zero (x : Acc) : x.aq = 0 ↔ x.a = 0 ∧ x.q = 0 := by
  have h1 := x.qInt_bounds
  constructor
  · intro h
    have ha : x.aInt = 0 := by unfold Acc.aq at h; omega
    have hq : x.qInt = 0 := by unfold Acc.aq at h; omega
    refine ⟨BitVec.eq_of_toInt_eq (by simpa [Acc.aInt] using ha), BitVec.eq_of_toNat_eq ?_⟩
    unfold Acc.qInt at hq
    simpa using hq
  · rintro ⟨ha, hq⟩
    simp [Acc.aq, Acc.aInt, Acc.qInt, ha, hq]

/-! What K leaves (R105). -/

theorem wrap89_mod (v : Int) : (wrap89 v - v) % 2 ^ 89 = 0 := by
  unfold wrap89
  rw [Int.bmod_def]
  omega

theorem wrap89_bounds (v : Int) : -2 ^ 88 ≤ wrap89 v ∧ wrap89 v < 2 ^ 88 := by
  unfold wrap89
  rw [Int.bmod_def]
  omega

theorem inRange_iff (v : Int) : inRange v = true ↔ -2 ^ 88 ≤ v ∧ v < 2 ^ 88 := by
  simp [inRange]

/-- K with Z on, or with a result of 0. -/
theorem Acc.k_zero (x : Acc) (fw ew : Int) (h : x.z = true ∨ fw = 0) :
    x.k fw ew = ((x.orZ true).setAQ (wrap89 fw)).setE ew := by
  have hz : (x.z || decide (fw = 0)) = true := by simpa using h
  simp only [Acc.k, Acc.orZ_z, hz, if_pos]
  simp [Acc.orZ, hz]

/-- K with Z off and a result in range: nothing is corrected. -/
theorem Acc.k_inRange (x : Acc) (fw ew : Int) (h0 : x.z = false) (hf : fw ≠ 0)
    (h1 : -2 ^ 88 ≤ fw) (h2 : fw < 2 ^ 88) : x.k fw ew = (x.setAQ fw).setE ew := by
  have hx : x.orZ (decide (fw = 0)) = x := by simp [Acc.orZ, hf]
  simp only [Acc.k, hx, h0, (inRange_iff fw).mpr ⟨h1, h2⟩]
  simp

/-- K with Z off and a result out of range: one right shift. -/
theorem Acc.k_outOfRange (x : Acc) (fw ew : Int) (h0 : x.z = false)
    (h : ¬(-2 ^ 88 ≤ fw ∧ fw < 2 ^ 88)) :
    x.k fw ew = ((x.setOVIf (decide (127 < ew + 1))).setAQ (fw / 4)).setE (ew + 1) := by
  have hf : fw ≠ 0 := fun h' => h (by omega)
  have hx : x.orZ (decide (fw = 0)) = x := by simp [Acc.orZ, hf]
  have hr : inRange fw = false := by
    cases hr : inRange fw
    · rfl
    · exact absurd ((inRange_iff fw).mp hr) h
  simp only [Acc.k, hx, h0, hr]
  simp

/-- K on the accumulator as it stands can only set Z. -/
theorem Acc.kHere_eq (x : Acc) : x.kHere = x.orZ (decide (x.aq = 0)) := by
  unfold Acc.kHere
  by_cases h : x.z = true ∨ x.aq = 0
  · rw [Acc.k_zero x _ _ h]
    have hw : wrap89 x.aq = x.aq := by
      have h1 := wrap89_mod x.aq
      have h2 := wrap89_bounds x.aq
      have h3 := x.aq_bounds
      omega
    have hz : (x.z || decide (x.aq = 0)) = true := by simpa using h
    have e1 := (x.orZ true).setAQ_self
    rw [Acc.orZ_aq] at e1
    have e2 := (x.orZ true).setE_self
    rw [Acc.orZ_eInt] at e2
    rw [hw, e1, e2]
    simp only [Acc.orZ, hz, Bool.or_true]
  · have h' : x.z = false ∧ x.aq ≠ 0 := by
      refine ⟨?_, fun h0 => h (.inr h0)⟩
      cases hz : x.z
      · rfl
      · exact absurd (.inl hz) h
    rw [Acc.k_inRange x _ _ h'.1 h'.2 x.aq_bounds.1 x.aq_bounds.2, Acc.setAQ_self, Acc.setE_self]
    simp [Acc.orZ, h'.2]

end Sys2Proof.Machine
end

