-- ==== Sys2Proof/Laws/Encoding.lean ====
section
/-! SUPPORT. The fields of a control group, and the shape of what the encoder writes for each operand form (30_encoding R60 to R71). -/

namespace Sys2Proof

@[simp] theorem groupF_mkGroup (f : BitVec 7) (b : BitVec 4) (c : BitVec 2) : groupF (mkGroup f b c) = f := by
  ext i hi
  simp only [groupF, mkGroup, BitVec.getElem_extractLsb', BitVec.getLsbD_append]
  have h1 : ¬ 6 + i < 2 := by omega
  have h2 : ¬ 6 + i - 2 < 4 := by omega
  have h3 : 6 + i - 2 - 4 = i := by omega
  simp only [h1, h2, h3]
  simp [BitVec.getLsbD_eq_getElem hi]

@[simp] theorem groupB_mkGroup (f : BitVec 7) (b : BitVec 4) (c : BitVec 2) : groupB (mkGroup f b c) = b := by
  ext i hi
  simp only [groupB, mkGroup, BitVec.getElem_extractLsb', BitVec.getLsbD_append]
  have h1 : ¬ 2 + i < 2 := by omega
  have h2 : 2 + i - 2 = i := by omega
  simp only [h1, h2, hi]
  simp [BitVec.getLsbD_eq_getElem hi]

@[simp] theorem groupC_mkGroup (f : BitVec 7) (b : BitVec 4) (c : BitVec 2) : groupC (mkGroup f b c) = c := by
  ext i hi
  simp only [groupC, mkGroup, BitVec.getElem_extractLsb', BitVec.getLsbD_append, Nat.zero_add, hi]
  simp [BitVec.getLsbD_eq_getElem hi]

/-- A control group is its three fields (R60). -/
theorem mkGroup_fields (g : Group) : mkGroup (groupF g) (groupB g) (groupC g) = g := by
  apply BitVec.eq_of_getLsbD_eq
  intro i hi
  simp only [groupF, groupB, groupC, mkGroup, BitVec.getLsbD_append, BitVec.getLsbD_extractLsb']
  by_cases h1 : i < 2
  · simp [h1]
  · by_cases h2 : i - 2 < 4
    · simp [h1, h2, show 2 + (i - 2) = i by omega]
    · simp [h1, h2, show i - 2 - 4 < 7 by omega, show 6 + (i - 2 - 4) = i by omega]

/-- The groups `gs` are one first control group, assigned to the class `k`, and a second group exactly where that class is long (R62). -/
def HasShape (k : OrderClass) (gs : List Group) : Prop :=
  ∃ g rest, gs = g :: rest ∧ orderClass (groupF g) = some k ∧
    rest.length = if k.isLong (groupB g) (groupC g) then 1 else 0

theorem hasShape_short {f : BitVec 7} {k : OrderClass} (hk : orderClass f = some k) (b : BitVec 4)
    (c : BitVec 2) (h : k.isLong b c = false) : HasShape k [mkGroup f b c] :=
  ⟨_, [], rfl, by simpa using hk, by simp [h]⟩

theorem hasShape_long {f : BitVec 7} {k : OrderClass} (hk : orderClass f = some k) (b : BitVec 4)
    (c : BitVec 2) (n : Addr) (h : k.isLong b c = true) : HasShape k [mkGroup f b c, n] :=
  ⟨_, [n], rfl, by simpa using hk, by simp [h]⟩

/-- The first group of a normal address says whether N follows, in each of the three normal classes (R63 to R65). -/
theorem encodeNormal_shape {f : BitVec 7} {k : OrderClass} (hk : orderClass f = some k)
    (h : k = .normalArith ∨ k = .normalStore ∨ k = .normalAddr) (a : NormalAddr) :
    HasShape k (encodeNormal f a) := by
  cases a with
  | direct m => exact hasShape_short hk m 0 (by rcases h with rfl | rfl | rfl <;> rfl)
  | counted m => exact hasShape_short hk m 1 (by rcases h with rfl | rfl | rfl <;> rfl)
  | indexed m n => exact hasShape_long hk m 2 n (by rcases h with rfl | rfl | rfl <;> rfl)
  | fixed n => exact hasShape_long hk 8 3 n (by rcases h with rfl | rfl | rfl <;> rfl)

theorem encodeOperand_shape {f : BitVec 7} (hk : orderClass f = some .normalArith) {o : Operand}
    (ho : o.wellFormed = true) : HasShape .normalArith (encodeOperand f o) := by
  cases o with
  | core a => exact encodeNormal_shape hk (.inl rfl) a
  | fast r => exact hasShape_short hk _ 3 (by revert r; decide)
  | integer n => exact hasShape_long hk 9 3 n rfl
  | fraction n => exact hasShape_long hk 10 3 n rfl
  | zero b => exact hasShape_short hk b 3 (by revert b; decide)

theorem encodeDest_shape {f : BitVec 7} (hk : orderClass f = some .normalStore) {d : Dest}
    (hd : d.wellFormed = true) : HasShape .normalStore (encodeDest f d) := by
  cases d with
  | core a => exact encodeNormal_shape hk (.inr (.inl rfl)) a
  | fast b => exact hasShape_short hk b 3 (by revert b; decide)

theorem encodeAddrForm_shape {f : BitVec 7} (hk : orderClass f = some .normalAddr) {a : AddrForm}
    (ha : a.wellFormed = true) : HasShape .normalAddr (encodeAddrForm f a) := by
  cases a with
  | addr a => exact encodeNormal_shape hk (.inr (.inr rfl)) a
  | noAddress b => exact hasShape_short hk b 3 (by revert b; decide)

/-- N is present iff C_1 = 1 (R69, R70). -/
theorem encodeC1_shape {f : BitVec 7} {k : OrderClass} (hk : orderClass f = some k)
    (h : k = .c1Long ∨ k = .modArith) (b : BitVec 4) (n : Option Addr) (c2 : Bool) :
    HasShape k (encodeC1 f b n c2) := by
  cases n with
  | none => exact hasShape_short hk b _ (by cases c2 <;> rcases h with rfl | rfl <;> rfl)
  | some n => exact hasShape_long hk b _ n (by cases c2 <;> rcases h with rfl | rfl <;> rfl)

/-- The conditions and the B digits name each other (R206). -/
theorem readCondition_conditionB (t : Condition) : readCondition (conditionB t) = t := by
  cases t <;> rfl

theorem conditionB_readCondition (b : BitVec 4) : conditionB (readCondition b) = b := by
  revert b; decide

end Sys2Proof
end

