-- ==== Sys2Proof/Laws/Float.lean ====
section
/-! SUPPORT. Bounds of operands, what the two normalization loops do, and the aligned right shift (41_fp_common R101 to R103, R110, R114). -/

namespace Sys2Proof.Machine

/-- The fraction of a word lies in [-1, 1), in units of 2^-44 (R7). -/
theorem xval_bounds (w : Word) : -2 ^ 44 ≤ xval w ∧ xval w < 2 ^ 44 := by
  have h1 := (frac w).le_toInt
  have h2 := (frac w).toInt_lt
  unfold xval
  omega

/-- The exponent of a word has 7 digits (R7). -/
theorem yval_bounds (w : Word) : -64 ≤ yval w ∧ yval w ≤ 63 := by
  have h1 := (expf w).le_toInt
  have h2 := (expf w).toInt_lt
  unfold yval
  omega

/-- The fraction field of a word made of a fraction and an exponent (R7). -/
theorem mkword_frac (m y : Int) : frac (mkword m y) = BitVec.ofInt 45 m := by
  apply BitVec.eq_of_getLsbD_eq
  intro i hi
  simp only [frac, mkword, BitVec.getLsbD_extractLsb', BitVec.getLsbD_append]
  simp [hi]

/-- The exponent field of such a word (R7). -/
theorem mkword_expf (m y : Int) : expf (mkword m y) = BitVec.ofInt 7 y := by
  apply BitVec.eq_of_getLsbD_eq
  intro i hi
  simp only [expf, mkword, BitVec.getLsbD_extractLsb', BitVec.getLsbD_append]
  simp [hi]

/-- Its fraction as an integer, where it fits (R7). -/
theorem mkword_xval (m y : Int) (h1 : -2 ^ 44 ≤ m) (h2 : m < 2 ^ 44) : xval (mkword m y) = m := by
  unfold xval
  rw [mkword_frac, BitVec.toInt_ofInt, Int.bmod_def]
  omega

/-- Its exponent, modulo 128 (R7). -/
theorem mkword_yval (m y : Int) : (yval (mkword m y) - y) % 128 = 0 := by
  unfold yval
  rw [mkword_expf, BitVec.toInt_ofInt, Int.bmod_def]
  omega

@[simp] theorem isNorm_eq_true (n : Int) : isNorm n = true ↔ 2 ^ 42 ≤ n ∨ n < -2 ^ 42 := by
  simp [isNorm]

@[simp] theorem isNorm_eq_false (n : Int) : isNorm n = false ↔ -2 ^ 42 ≤ n ∧ n < 2 ^ 42 := by
  simp only [isNorm, Bool.or_eq_false_iff, decide_eq_false_iff_not]
  omega

/-- Why the loop of R102 is over. -/
theorem NormWork.done_eq_true (part : Bool) (w : NormWork) :
    w.done part = true ↔ w.z = true ∨ (part = true ∧ w.v % 2 ^ 44 = 0) ∨ isNorm (top45 w.v) = true := by
  simp only [NormWork.done, Bool.or_eq_true, Bool.and_eq_true, decide_eq_true_eq, or_assoc]

/-- The digits stay inside AQ, and Z is on wherever the exponent has passed -128. -/
def NormWork.fits (w : NormWork) : Prop :=
  -2 ^ 88 ≤ w.v ∧ w.v < 2 ^ 88 ∧ (w.e < -128 → w.z = true)

/-- No shift changes nothing of work that fits. -/
theorem NormWork.shift_zero {w : NormWork} (h : w.fits) : w.shift 0 = w := by
  obtain ⟨v, e, z⟩ := w
  have h3 : e < -128 → z = true := h.2.2
  simp only [NormWork.shift, pow_zero, mul_one, Nat.cast_zero, sub_zero, NormWork.mk.injEq, true_and]
  by_cases he : e < -128
  · simp [h3 he]
  · simp [he]

/-- Shifts add up. -/
theorem NormWork.shift_shift (w : NormWork) (p q : Nat) : (w.shift p).shift q = w.shift (p + q) := by
  simp only [NormWork.shift, NormWork.mk.injEq]
  refine ⟨by rw [pow_add, mul_assoc], by push_cast; omega, ?_⟩
  push_cast
  by_cases h : w.e - (p : Int) < -128
  · have h' : w.e - ((p : Int) + q) < -128 := by omega
    simp [h, h']
  · have h' : w.e - (p : Int) - q = w.e - ((p : Int) + q) := by omega
    simp [h, h']

/-- What the loop of R102 makes of its work, with enough rounds left: some places of left shift, no digit lost, a reason to stop, and none before: at no smaller number of places is a normalized, and at no smaller even one is the work done; an odd number leaves a normalized. -/
theorem normLoop_spec (part : Bool) (fuel : Nat) (w : NormWork) (h : w.fits)
    (hf : w.e + 128 < 2 * (fuel : Int)) :
    ∃ k : Nat, (normLoop part fuel w).v = w.v * 4 ^ k ∧ (normLoop part fuel w).e = w.e - k ∧
      (normLoop part fuel w).z = (w.z || decide (w.e - k < -128)) ∧ (normLoop part fuel w).fits ∧
      (normLoop part fuel w).done part = true ∧ (w.done part = true → k = 0) ∧
      (k % 2 = 1 → isNorm (top45 (normLoop part fuel w).v) = true) ∧
      ∀ j < k, isNorm (top45 (w.v * 4 ^ j)) = false ∧ (j % 2 = 0 → (w.shift j).done part = false) := by
  induction fuel generalizing w with
  | zero =>
    obtain ⟨h1, h2, h3⟩ := h
    have hz := h3 (by omega)
    exact ⟨0, by simp [normLoop], by simp [normLoop], by simp [normLoop, hz], ⟨h1, h2, h3⟩,
      (NormWork.done_eq_true part w).mpr (.inl hz), fun _ => rfl, fun h => by omega, fun j hj => absurd hj (Nat.not_lt_zero j)⟩
  | succ fuel ih =>
    obtain ⟨h1, h2, h3⟩ := h
    unfold normLoop
    by_cases hd : w.done part = true
    · simp only [hd, if_true]
      refine ⟨0, by simp, by simp, ?_, ⟨h1, h2, h3⟩, trivial, fun _ => rfl,
        fun h => by omega, fun j hj => absurd hj (Nat.not_lt_zero j)⟩
      by_cases he : w.e < -128
      · simp [h3 he]
      · simp only [Nat.cast_zero, sub_zero, he, decide_false, Bool.or_false]
    · have first : isNorm (top45 (w.v * 4 ^ 0)) = false ∧ (0 % 2 = 0 → (w.shift 0).done part = false) := by
        rw [NormWork.shift_zero ⟨h1, h2, h3⟩, pow_zero, mul_one]
        refine ⟨?_, fun _ => Bool.eq_false_iff.mpr hd⟩
        rw [NormWork.done_eq_true, not_or, not_or] at hd
        exact Bool.eq_false_iff.mpr hd.2.2
      have hd' := hd
      rw [NormWork.done_eq_true, not_or, not_or] at hd'
      obtain ⟨hz, -, hn⟩ := hd'
      have hz' : w.z = false := by simpa using hz
      have hn' : isNorm (top45 w.v) = false := Bool.eq_false_iff.mpr hn
      rw [isNorm_eq_false, top45] at hn'
      have he : -128 ≤ w.e := by
        by_contra hc
        exact hz (h3 (by omega))
      simp only [hd, Bool.false_eq_true, if_false, false_implies, true_and]
      by_cases h4 : isNorm (top45 (w.v * 4)) = true
      · simp only [h4, if_true]
        refine ⟨1, rfl, rfl, rfl, ⟨?_, ?_, ?_⟩, ?_, fun _ => ?_,
          fun j hj => by rw [Nat.lt_one_iff.mp hj]; exact first⟩
        · simp only [NormWork.shift]; omega
        · simp only [NormWork.shift]; omega
        · intro hlt
          simp only [NormWork.shift] at hlt ⊢
          simp only [hz', Bool.false_or, decide_eq_true_eq]
          exact hlt
        · rw [NormWork.done_eq_true]
          exact .inr (.inr (by simpa [NormWork.shift] using h4))
        · simpa [NormWork.shift] using h4
      · have h4' : isNorm (top45 (w.v * 4)) = false := Bool.eq_false_iff.mpr h4
        simp only [h4', Bool.false_eq_true, if_false]
        have h5 := h4'
        rw [isNorm_eq_false, top45] at h5
        obtain ⟨k, k1, k2, k3, k4, k5, -, k6, k7⟩ := ih (w.shift 2)
          ⟨by simp only [NormWork.shift]; omega, by simp only [NormWork.shift]; omega, by
            intro hlt
            simp only [NormWork.shift] at hlt ⊢
            simpa [hz'] using hlt⟩
          (by simp only [NormWork.shift]; push_cast; omega)
        refine ⟨k + 2, ?_, ?_, ?_, k4, k5, fun h => k6 (by omega), fun j hj => ?_⟩
        · rw [k1]; simp only [NormWork.shift]; ring
        · rw [k2]; simp only [NormWork.shift]; push_cast; omega
        · rw [k3]
          simp only [NormWork.shift, hz', Bool.false_or]
          push_cast
          by_cases ha : w.e - 2 < -128
          · have : w.e - ((k : Int) + 2) < -128 := by omega
            simp [ha, this]
          · have e1 : w.e - 2 - (k : Int) = w.e - ((k : Int) + 2) := by omega
            simp [ha, e1]
        · match j, hj with
          | 0, _ => exact first
          | 1, _ => exact ⟨by rw [pow_one]; exact h4', fun h => by omega⟩
          | j + 2, hj =>
            have h6 := k7 j (by omega)
            rw [NormWork.shift_shift, Nat.add_comm 2 j] at h6
            have e : (w.shift 2).v * 4 ^ j = w.v * 4 ^ (j + 2) := by simp only [NormWork.shift]; ring
            rw [e] at h6
            exact ⟨h6.1, fun h => h6.2 (by omega)⟩

/-- What the loop of R114 makes of an operand that is not 0, with enough rounds left. -/
theorem normOperandLoop_spec (fuel : Nat) (xi y : Int) (h1 : -2 ^ 44 ≤ xi) (h2 : xi < 2 ^ 44)
    (h3 : 2 ^ 42 < xi.natAbs * 4 ^ fuel) :
    ∃ k : Nat, k ≤ fuel ∧ normOperandLoop fuel xi y = (xi * 4 ^ k, y - k) ∧
      (2 ^ 42 ≤ xi * 4 ^ k ∨ xi * 4 ^ k < -2 ^ 42) ∧ -2 ^ 44 ≤ xi * 4 ^ k ∧ xi * 4 ^ k < 2 ^ 44 := by
  induction fuel generalizing xi y with
  | zero => exact ⟨0, by omega, by simp [normOperandLoop], by simp only [pow_zero]; omega, by omega, by omega⟩
  | succ fuel ih =>
    unfold normOperandLoop
    by_cases hn : isNorm xi = true
    · rw [if_pos hn]
      rw [isNorm_eq_true] at hn
      exact ⟨0, by omega, by simp, by simpa using hn, by omega, by omega⟩
    · rw [if_neg hn]
      have hn' : isNorm xi = false := Bool.eq_false_iff.mpr hn
      rw [isNorm_eq_false] at hn'
      obtain ⟨k, k0, k1, k2, k3⟩ := ih (xi * 4) (y - 1) (by omega) (by omega) (by
        have e : xi.natAbs * 4 ^ (fuel + 1) = (xi * 4).natAbs * 4 ^ fuel := by
          rw [Int.natAbs_mul, show Int.natAbs 4 = 4 from rfl]; ring
        rw [← e]
        exact h3)
      have e : xi * 4 * 4 ^ k = xi * 4 ^ (k + 1) := by ring
      rw [e] at k1 k2 k3
      exact ⟨k + 1, by omega, by rw [k1]; congr 1; push_cast; omega, k2, k3⟩

/-- A right shift that keeps the sign stays inside the range it started in (R110). -/
theorem ediv_four_pow_bounds (v b : Int) (k : Nat) (h0 : 0 ≤ b) (h1 : -b ≤ v) (h2 : v ≤ b) :
    -b ≤ v / 4 ^ k ∧ v / 4 ^ k ≤ b := by
  have hp : (0 : Int) < 4 ^ k := by positivity
  have h1' : (1 : Int) ≤ 4 ^ k := by omega
  constructor
  · apply Int.le_ediv_of_mul_le hp
    nlinarith
  · apply Int.ediv_le_of_le_mul hp
    nlinarith

end Sys2Proof.Machine
end

