-- ==== Sys2Proof/Laws/Interplay.lean ====
section
/-! SUPPORT. Interplay's references, between orders and inside them: what they change, what they depend on, what they keep (20_memory R50, 60_exceptions R247). -/

namespace Sys2Proof.Machine

/-- What Interplay may change: core, the channels, the completion indicator, what devices receive, and the places passed inside orders (R247, R280). -/
def SameButInterplay (s t : State) : Prop :=
  t = { s with core := t.core, channels := t.channels, blockDone := t.blockDone, deviceOut := t.deviceOut,
               inside := t.inside }

theorem SameButInterplay.refl (s : State) : SameButInterplay s s := rfl

theorem SameButInterplay.trans {s t u : State} (h1 : SameButInterplay s t) (h2 : SameButInterplay t u) :
    SameButInterplay s u := by
  unfold SameButInterplay at *
  rw [h2, h1]

/-- Everything one word of a channel can do: nothing, or, with Interplay there and a transfer in progress, the word moved, the transfer moved on or over, and with its end the indicator (R247, D31). -/
theorem State.transferWord_cases (s : State) (c : BitVec 5) (w : Word) (stop : Bool) :
    s.transferWord c w stop = s ∨
    ∃ x, s.params.interplayPresent = true ∧ s.channel c = some x ∧
      s.transferWord c w stop =
        { (s.moveWord c w x).setChannel c (x.afterWord s.params c stop) with
          blockDone := s.blockDone || (x.afterWord s.params c stop).isNone } := by
  unfold State.transferWord
  split
  · rename_i hp
    cases hc : s.channel c with
    | none => exact .inl rfl
    | some x =>
      refine .inr ⟨x, hp, rfl, ?_⟩
      have hb : (s.moveWord c w x).blockDone = s.blockDone := by
        unfold State.moveWord
        split <;> rfl
      simp only
      generalize (x.afterWord s.params c stop) = n
      cases n with
      | none => simp
      | some y => simp [← hb, State.setChannel]
  · exact .inl rfl

theorem State.transferWord_frame (s : State) (c : BitVec 5) (w : Word) (stop : Bool) :
    SameButInterplay s (s.transferWord c w stop) := by
  rcases s.transferWord_cases c w stop with h | ⟨x, _, _, h⟩
  · rw [h]
    exact .refl s
  · rw [h]
    unfold State.moveWord
    split <;> rfl

theorem State.transferWords_frame (s : State) (cs : List ChannelWord) :
    SameButInterplay s (s.transferWords cs) := by
  induction cs generalizing s with
  | nil => exact .refl s
  | cons c cs ih => exact (s.transferWord_frame c.channel c.word c.stop).trans (ih _)

/-- A place inside an order changes no more than Interplay may. -/
theorem State.interlude_frame (s : State) : SameButInterplay s s.interlude := by
  unfold State.interlude
  split
  · exact .refl s
  · exact SameButInterplay.trans (t := { s with inside := _ }) rfl (State.transferWords_frame _ _)

@[simp] theorem State.interlude_fast (s : State) : s.interlude.fast = s.fast := by rw [s.interlude_frame]
@[simp] theorem State.interlude_cc (s : State) : s.interlude.cc = s.cc := by rw [s.interlude_frame]
@[simp] theorem State.interlude_ip (s : State) : s.interlude.ip = s.ip := by rw [s.interlude_frame]
@[simp] theorem State.interlude_acc (s : State) : s.interlude.acc = s.acc := by rw [s.interlude_frame]
@[simp] theorem State.interlude_r (s : State) : s.interlude.r = s.r := by rw [s.interlude_frame]
@[simp] theorem State.interlude_es (s : State) : s.interlude.es = s.es := by rw [s.interlude_frame]
@[simp] theorem State.interlude_divLast (s : State) : s.interlude.divLast = s.divLast := by rw [s.interlude_frame]
@[simp] theorem State.interlude_intMode (s : State) : s.interlude.intMode = s.intMode := by rw [s.interlude_frame]
@[simp] theorem State.interlude_cause (s : State) : s.interlude.cause = s.cause := by rw [s.interlude_frame]
@[simp] theorem State.interlude_na (s : State) : s.interlude.na = s.na := by rw [s.interlude_frame]
@[simp] theorem State.interlude_nb (s : State) : s.interlude.nb = s.nb := by rw [s.interlude_frame]
@[simp] theorem State.interlude_busy (s : State) : s.interlude.busy = s.busy := by rw [s.interlude_frame]
@[simp] theorem State.interlude_prepared (s : State) : s.interlude.prepared = s.prepared := by rw [s.interlude_frame]
@[simp] theorem State.interlude_tapeIn (s : State) : s.interlude.tapeIn = s.tapeIn := by rw [s.interlude_frame]
@[simp] theorem State.interlude_tapeOut (s : State) : s.interlude.tapeOut = s.tapeOut := by rw [s.interlude_frame]
@[simp] theorem State.interlude_black (s : State) : s.interlude.black = s.black := by rw [s.interlude_frame]
@[simp] theorem State.interlude_green (s : State) : s.interlude.green = s.green := by rw [s.interlude_frame]
@[simp] theorem State.interlude_engineering (s : State) : s.interlude.engineering = s.engineering := by rw [s.interlude_frame]
@[simp] theorem State.interlude_interplayAlways (s : State) : s.interlude.interplayAlways = s.interplayAlways := by rw [s.interlude_frame]
@[simp] theorem State.interlude_stopped (s : State) : s.interlude.stopped = s.stopped := by rw [s.interlude_frame]
@[simp] theorem State.interlude_params (s : State) : s.interlude.params = s.params := by rw [s.interlude_frame]
@[simp] theorem State.interlude_jumped (s : State) : s.interlude.jumped = s.jumped := by rw [s.interlude_frame]
@[simp] theorem State.interlude_free (s : State) : s.interlude.free = s.free := by rw [s.interlude_frame]
@[simp] theorem State.interlude_events (s : State) : s.interlude.events = s.events := by rw [s.interlude_frame]

/-- With no place listed nothing happens. -/
theorem State.interlude_nil {s : State} (h : s.inside = []) : s.interlude = s := by
  unfold State.interlude
  rw [h]

/-- At a place without references only the place is passed. -/
theorem State.interlude_undisturbed {s : State} (h : s.undisturbed) :
    s.interlude = { s with inside := s.inside.tail } := by
  unfold State.interlude
  unfold State.undisturbed at h
  cases hi : s.inside with
  | nil =>
    simp only [List.tail_nil]
    rw [← hi]
  | cons cs rest =>
    rw [hi] at h
    simp only [List.headD_cons] at h
    simp only [List.tail_cons, h, State.transferWords]

/-! What Interplay depends on. -/

/-- The state `t` with what Interplay may change taken from `s`. -/
def State.interplayOf (s t : State) : State :=
  { t with core := s.core, channels := s.channels, blockDone := s.blockDone, deviceOut := s.deviceOut,
           inside := s.inside }

theorem State.transferWord_interplayOf (s t : State) (h : t.params = s.params) (c : BitVec 5) (w : Word)
    (stop : Bool) :
    (s.interplayOf t).transferWord c w stop = (s.transferWord c w stop).interplayOf t := by
  unfold State.transferWord
  have hp : (s.interplayOf t).params = s.params := h
  have hc : (s.interplayOf t).channel c = s.channel c := rfl
  rw [hp, hc]
  split
  · cases s.channel c with
    | none => rfl
    | some x =>
      have hm : (s.interplayOf t).moveWord c w x = (s.moveWord c w x).interplayOf t := by
        unfold State.moveWord State.setCore State.coreWord
        split <;> simp [State.interplayOf, h]
      simp only [hm]
      split <;> rfl
  · rfl

theorem State.transferWords_interplayOf (s t : State) (h : t.params = s.params) (cs : List ChannelWord) :
    (s.interplayOf t).transferWords cs = (s.transferWords cs).interplayOf t := by
  induction cs generalizing s with
  | nil => rfl
  | cons c cs ih =>
    simp only [State.transferWords]
    rw [State.transferWord_interplayOf s t h]
    exact ih _ (by rw [s.transferWord_frame c.channel c.word c.stop]; exact h)

/-- A place inside an order depends on nothing but the parameters and what Interplay may change. -/
theorem State.interlude_interplayOf (s t : State) (h : t.params = s.params) :
    (s.interplayOf t).interlude = s.interlude.interplayOf t := by
  have hi : (s.interplayOf t).inside = s.inside := rfl
  unfold State.interlude
  rw [hi]
  cases hs : s.inside with
  | nil => rfl
  | cons cs rest => exact State.transferWords_interplayOf { s with inside := rest } t h cs

/-! What Interplay keeps. -/

/-- Whatever holds of core and survives every store holds after Interplay's references. -/
theorem State.interlude_core {P : List (Nat × Word) → Prop} (s : State) (h : P s.core)
    (hk : ∀ (m : List (Nat × Word)) (a : Addr) (v : Word), P m → P (Mem.write m (coreIndex s.params a) v)) :
    P s.interlude.core := by
  have one : ∀ (u : State) (c : BitVec 5) (w : Word) (stop : Bool), u.params = s.params → P u.core →
      P (u.transferWord c w stop).core := by
    intro u c w stop hu hc
    rcases u.transferWord_cases c w stop with e | ⟨x, _, _, e⟩
    · rw [e]
      exact hc
    · rw [e]
      unfold State.moveWord
      split
      · have := hk u.core x.next w hc
        rw [← hu] at this
        exact this
      · exact hc
  have many : ∀ (cs : List ChannelWord) (u : State), u.params = s.params → P u.core →
      P (u.transferWords cs).core := by
    intro cs
    induction cs with
    | nil => exact fun _ _ hc => hc
    | cons c cs ih =>
      intro u hu hc
      exact ih _ (by rw [u.transferWord_frame c.channel c.word c.stop]; exact hu) (one u _ _ _ hu hc)
  unfold State.interlude
  split
  · exact h
  · exact many _ _ rfl h

/-- Core stays in canonical form. -/
theorem State.wf_interlude {s : State} (h : Mem.wf s.core = true) : Mem.wf s.interlude.core = true :=
  s.interlude_core (P := fun m => Mem.wf m = true) h fun _ a v hm =>
    Mem.wf_write hm (Nat.lt_of_lt_of_le (coreIndex_lt s.params a) (Params.coreWords_bounds s.params).2) v

/-- Core stays inside the memory attached. -/
theorem State.coreInside_interlude {s : State} (h : s.coreInside) : s.interlude.coreInside := by
  have := s.interlude_core (P := fun m => ∀ p ∈ m, p.1 < s.params.coreWords) h fun m a v hm p hp => by
    rcases Mem.mem_write hp with ⟨rfl, _⟩ | hp
    · exact coreIndex_lt s.params a
    · exact hm p hp
  intro p hp
  simpa using this p hp

/-- The address an order constructs is not touched by Interplay (R82). -/
@[simp] theorem State.interlude_address (s : State) (a : NormalAddr) : s.interlude.address a = s.address a := by
  cases a <;> simp [State.address, State.getM, State.getF]

end Sys2Proof.Machine
end

