-- ==== Sys2Proof/Laws/Operations.lean ====
section
/-! SUPPORT. For each shared operation, once, everything it can have done when it answers a next state. -/

namespace Sys2Proof.Machine

/-! Interrupts: no next state. -/

theorem raiseInterrupt_ne_next (c : Cause) (s t : State) : raiseInterrupt c s ≠ .next t := by
  simp [raiseInterrupt]

theorem illegalOrder_ne_next (s t : State) : illegalOrder s ≠ .next t := by
  unfold illegalOrder
  split <;> simp [raiseInterrupt]

theorem nonexistentOrder_ne_next (f : BitVec 7) (s t : State) : nonexistentOrder f s ≠ .next t := by
  unfold nonexistentOrder
  split <;> simp [raiseInterrupt]

/-- A request goes unanswered only where no interrupt can occur (R238, R240). -/
theorem requestInterrupt_next {c : Cause} {s t : State} (h : requestInterrupt c s = .next t) :
    s.interruptible = false ∧ t = s := by
  unfold requestInterrupt at h
  split at h
  · exact absurd h (raiseInterrupt_ne_next _ _ _)
  · rename_i hi
    simp only [Host.Outcome.next.injEq] at h
    exact ⟨by simpa using hi, h.symm⟩

/-! References. -/

/-- A read that is answered was no violation (R44). -/
theorem memRead_next {s t : State} {a : Addr} {k : Word → Out} (h : memRead s a k = .next t) :
    s.violation a = false ∧ k (s.coreWord a) = .next t := by
  unfold memRead at h
  split at h
  · exact absurd h (raiseInterrupt_ne_next _ _ _)
  · rename_i hv
    exact ⟨by simpa using hv, h⟩

/-- A write that is answered was no violation (R45). -/
theorem memWrite_next {s t : State} {a : Addr} {v : Word} {k : State → Out}
    (h : memWrite s a v k = .next t) : s.violation a = false ∧ k (s.setCore a v) = .next t := by
  unfold memWrite at h
  split at h
  · exact absurd h (raiseInterrupt_ne_next _ _ _)
  · rename_i hv
    exact ⟨by simpa using hv, h⟩

theorem memRead_free {s : State} {a : Addr} (h : s.violation a = false) (k : Word → Out) :
    memRead s a k = k (s.coreWord a) := by simp [memRead, h]

theorem memWrite_free {s : State} {a : Addr} (h : s.violation a = false) (v : Word)
    (k : State → Out) : memWrite s a v k = k (s.setCore a v) := by simp [memWrite, h]

/-! The end of an order. -/

theorem complete_next {g : Nat} {s t : State} (h : complete g s = .next t) : t = s.advance g := by
  simp only [complete, Host.Outcome.next.injEq] at h
  exact h.symm

/-- A Delayed Control order that is answered has advanced cc (R14, R234). -/
theorem completeDC_next {g : Nat} {o : Bool} {s t : State} (h : completeDC g o s = .next t) :
    t = s.advance g := by
  unfold completeDC at h
  split at h
  · exact (requestInterrupt_next h).2
  · simp only [Host.Outcome.next.injEq] at h
    exact h.symm

/-- Where OV raises no interrupt, a Delayed Control order completes (R234). -/
theorem completeDC_quiet {g : Nat} {s s1 : State} (h : s.quiet) (h1 : s1.params = s.params)
    (h2 : s1.intMode = s.intMode) (h3 : s1.engineering = s.engineering) :
    completeDC g s.acc.ov s1 = .next (s1.advance g) := by
  unfold completeDC
  rcases h with h | h | h
  · simp [h1, h]
  · split
    · unfold requestInterrupt
      have : (s1.advance g).interruptible = false := by
        simpa [State.interruptible, h2, h3] using h
      simp [this]
    · rfl
  · simp [h]

/-! Operands and destinations. -/

/-- The operand of an order that is answered was readable; it is in F1 (R84). -/
theorem withOperand_next {s t : State} {o : Operand} {k : Word → State → Out}
    (h : withOperand s o k = .next t) :
    ∃ s0, (s0 = s.clearPending ∨ ∃ a, o = .core a ∧ s0 = s.prepare a) ∧
      k (s.operandWord o) (s0.setF 1 (s.operandWord o)) = .next t := by
  cases o with
  | core a =>
    simp only [withOperand] at h
    have h' := (memRead_next h).2
    have hw : (s.prepare a).coreWord (s.address a) = s.coreWord (s.address a) :=
      State.coreWord_congr (by simp) (by simp) _
    rw [hw] at h'
    exact ⟨s.prepare a, .inr ⟨a, rfl, rfl⟩, h'⟩
  | fast r => exact ⟨_, .inl rfl, h⟩
  | integer n => exact ⟨_, .inl rfl, h⟩
  | fraction n => exact ⟨_, .inl rfl, h⟩
  | zero b => exact ⟨_, .inl rfl, h⟩

/-- The state in which an arithmetic order acts: pending amounts consumed, a modifier counted, the operand in F1. -/
def State.withF1 (s : State) (o : Operand) : State :=
  match o with
  | .core a => (s.prepare a).setF 1 (s.operandWord o)
  | _ => s.clearPending.setF 1 (s.operandWord o)

/-- Where the operand can be read, the order acts on it (R84). -/
theorem withOperand_free {s : State} {o : Operand} (h : s.canRead o) (k : Word → State → Out) :
    withOperand s o k = k (s.operandWord o) (s.withF1 o) := by
  cases o with
  | core a =>
    have hv : (s.prepare a).violation (s.address a) = false := by
      rw [State.violation_congr (s := s) (by simp) (by simp) (by simp)]
      exact h a rfl
    have hw : (s.prepare a).coreWord (s.address a) = s.coreWord (s.address a) :=
      State.coreWord_congr (by simp) (by simp) _
    simp only [withOperand, memRead_free hv, hw]
    rfl
  | fast r => rfl
  | integer n => rfl
  | fraction n => rfl
  | zero b => rfl

/-- An answered address order had a constructed address (R171). -/
theorem withAddress_next {f : AddrForm} {s t : State} {k : Nat → Addr → State → Out}
    (h : withAddress f s k = .next t) :
    ∃ a, f = .addr a ∧ k (normalGroups a) (s.address a) (s.prepare a) = .next t := by
  cases f with
  | addr a => exact ⟨a, rfl, h⟩
  | noAddress b => exact absurd h (illegalOrder_ne_next _ _)

/-- An answered Interplay order was legal (R170). -/
theorem interplayOrder_next {f : AddrForm} {act : Addr → State → State} {s t : State}
    (h : interplayOrder f act s = .next t) : s.interplayLegal = true ∧ addressAC f act s = .next t := by
  unfold interplayOrder at h
  split at h
  · rename_i hl
    exact ⟨hl, h⟩
  · exact absurd h (illegalOrder_ne_next _ _)

theorem addressAC_next {f : AddrForm} {act : Addr → State → State} {s t : State}
    (h : addressAC f act s = .next t) :
    ∃ a, f = .addr a ∧ t = (act (s.address a) (s.prepare a)).advance (normalGroups a) := by
  obtain ⟨a, hf, h⟩ := withAddress_next h
  exact ⟨a, hf, complete_next h⟩

theorem addressDC_next {f : AddrForm} {act : Addr → Acc → Acc} {s t : State}
    (h : addressDC f act s = .next t) :
    ∃ a, f = .addr a ∧
      t = (((s.prepare a).setF 1 (rep4 (s.address a))).afterDC (act (s.address a) s.acc)).advance
        (normalGroups a) := by
  obtain ⟨a, hf, h⟩ := withAddress_next h
  refine ⟨a, hf, ?_⟩
  simpa using completeDC_next h

/-- A special register read that is answered: a tape character, or a free value (R182). -/
theorem readSpecial_next {r : BitVec 6} {s t : State} {k : BitVec 13 → State → Out}
    (h : readSpecial r s k = .next t) :
    (∃ c rest, s.isTape r = true ∧ s.tapeIn = c :: rest ∧
      k (c.zeroExtend 13) { s with tapeIn := rest } = .next t) ∨
    (s.isTape r = false ∧ k (Config.freeSpecial s.free) { s with free := s.free + 1 } = .next t) := by
  unfold readSpecial at h
  split at h
  · rename_i hr
    split at h
    · cases h
    · rename_i c rest hc
      exact .inl ⟨c, rest, hr, hc, h⟩
  · rename_i hr
    exact .inr ⟨by simpa using hr, h⟩

/-! Jumps. -/

/-- A long jump always answers (R190). -/
theorem jumpIf_next {p : Bool} {c : BitVec 2} {n : Addr} {s s1 t : State}
    (h : jumpIf p c n s s1 = .next t) :
    (p = true ∧ t = s1.jumpTo (s.plainAddress n) c) ∨ (p = false ∧ t = s1.advance 2) := by
  unfold jumpIf at h
  split at h
  · rename_i hp
    simp only [Host.Outcome.next.injEq] at h
    exact .inl ⟨hp, h.symm⟩
  · rename_i hp
    exact .inr ⟨by simpa using hp, complete_next h⟩

/-- CJF and CJS always answer (R191, R192). -/
theorem countHeld_next {b : Bool} {m : BitVec 4} {c : BitVec 2} {s t : State}
    (h : countHeld b m c s = .next t) :
    t = (s.clearPending.countM m).jumpHeld ((s.clearPending.countM m).heldAddr b) c ∨
    t = (s.clearPending.countM m).advance 1 := by
  unfold countHeld at h
  simp only at h
  split at h
  · simp only [Host.Outcome.next.injEq] at h
    exact .inl h.symm
  · exact .inr (complete_next h)

/-! Fetching. -/

/-- Everything fetching can do to the state, one action after another: a jump lands, a free value is drawn, a place for Interplay is passed, a pair or a word is read into the held words (R50, R52, R53, R55, R59). -/
inductive Fetched (s : State) : State → Prop where
  | refl : Fetched s s
  | landed {t : State} (h : Fetched s t) : Fetched s t.landed
  | drawn {t : State} (h : Fetched s t) : Fetched s t.drawn
  | interlude {t : State} (h : Fetched s t) : Fetched s t.interlude
  | holdPair {t : State} (h : Fetched s t) (hp : t.params.twoMemories = true) (w : Addr) (v8 v9 : Word) :
      Fetched s (t.holdPair w v8 v9)
  | loadWord {t : State} (h : Fetched s t) (hp : t.params.twoMemories = false) (w : Addr) :
      Fetched s (t.loadPair w)

/-- A refill that is answered leaves the pair held, with the core words as the references found them (R52, R59). -/
theorem refill_next {s t : State} {w : Addr} {k : State → Out} (h : refill s w k = .next t) :
    (s.params.twoMemories = true ∧
      k (s.interlude.holdPair w (s.coreWord (2 * s.pairOf w)) (s.interlude.coreWord (2 * s.pairOf w + 1))) = .next t) ∨
    (s.params.twoMemories = false ∧ k (s.loadPair w) = .next t) := by
  unfold refill at h
  split at h
  · rename_i hp
    exact .inl ⟨hp, (memRead_next (memRead_next h).2).2⟩
  · rename_i hp
    exact .inr ⟨by simpa using hp, (memRead_next h).2⟩

theorem Fetched.refill {s s0 t : State} (h0 : Fetched s s0) {w : Addr} {k : State → Out}
    (h : Machine.refill s0 w k = .next t) : ∃ s1, Fetched s s1 ∧ k s1 = .next t := by
  rcases refill_next h with ⟨hp, h⟩ | ⟨hp, h⟩
  · exact ⟨_, h0.interlude.holdPair (by simpa using hp) _ _ _, h⟩
  · exact ⟨_, h0.loadWord hp w, h⟩

theorem Fetched.ensureHeld {s s0 t : State} (h0 : Fetched s s0) {w : Addr} {k : State → Out}
    (h : Machine.ensureHeld s0 w k = .next t) : ∃ s1, Fetched s s1 ∧ k s1 = .next t := by
  unfold Machine.ensureHeld at h
  split at h
  · split at h
    · split at h
      · exact h0.landed.drawn.refill h
      · exact ⟨_, h0.landed.drawn, h⟩
    · exact ⟨_, h0.landed, h⟩
  · exact h0.landed.refill h

/-- A fetched instruction word is the held copy or the core word (R55). -/
theorem Fetched.fetchWord {s s0 t : State} (h0 : Fetched s s0) {w : Addr} {k : Word → State → Out}
    (h : Machine.fetchWord s0 w k = .next t) :
    ∃ s1 v, Fetched s s1 ∧ (v = s1.coreWord w ∨ v = s1.getF (s1.heldIndex w)) ∧ k v s1 = .next t := by
  obtain ⟨s1, h1, h⟩ := h0.ensureHeld h
  split at h
  · exact ⟨s1, _, h1, .inl rfl, h⟩
  · split at h
    · exact ⟨s1.drawn, _, h1.drawn, .inl rfl, h⟩
    · exact ⟨s1.drawn, _, h1.drawn, .inr rfl, h⟩

theorem Fetched.fetchSecond {s s0 t : State} (h0 : Fetched s s0) {c : Counter} {v : Word}
    {k : Group → State → Out} (h : Machine.fetchSecond s0 c v k = .next t) :
    ∃ s1 g, Fetched s s1 ∧ k g s1 = .next t := by
  unfold Machine.fetchSecond at h
  split at h
  · obtain ⟨s1, v1, h1, _, h⟩ := h0.interlude.fetchWord h
    exact ⟨s1, _, h1, h⟩
  · exact ⟨s0, _, h0, h⟩

theorem withDecoded_next {gs : List Group} {f : BitVec 7} {s t : State} {k : Instr → State → Out}
    (h : withDecoded gs f s k = .next t) : ∃ i rest, decode gs = .ok (i, rest) ∧ k i s = .next t := by
  unfold withDecoded at h
  split at h
  · rename_i i rest hd
    exact ⟨i, rest, hd, h⟩
  · exact absurd h (nonexistentOrder_ne_next _ _ _)

/-- A step that obeys an order: the fetch does only what fetching can do, and the order decoded is then obeyed (R80). -/
theorem fetchOrder_next {s t : State} {k : Instr → State → Out} (h : fetchOrder s k = .next t) :
    ∃ i s1, Fetched s s1 ∧ k i s1 = .next t := by
  obtain ⟨s1, v, hs1, _, h⟩ := Fetched.refl.fetchWord h
  simp only at h
  split at h
  · exact absurd h (nonexistentOrder_ne_next _ _ _)
  · split at h
    · obtain ⟨s2, n, hs2, h⟩ := hs1.fetchSecond h
      obtain ⟨i, _, _, h⟩ := withDecoded_next h
      exact ⟨i, _, hs2.interlude, h⟩
    · obtain ⟨i, _, _, h⟩ := withDecoded_next h
      exact ⟨i, _, hs1.interlude, h⟩

/-- What fetching leaves unchanged: everything but the held words, `ip`, the jump marker and the free counter, and what Interplay may change (R50). -/
theorem Fetched.frame {s t : State} (h : Fetched s t) :
    t = { s with core := t.core, fast := t.fast, ip := t.ip, channels := t.channels, blockDone := t.blockDone,
                 deviceOut := t.deviceOut, jumped := t.jumped, free := t.free, inside := t.inside } := by
  induction h with
  | refl => rfl
  | landed _ ih => unfold State.landed; rw [ih]
  | drawn _ ih => unfold State.drawn; rw [ih]
  | interlude _ ih => rw [State.interlude_frame]; rw [ih]
  | holdPair _ _ w v8 v9 ih => unfold State.holdPair; rw [ih]; rfl
  | loadWord _ hp w ih => unfold State.loadPair; rw [hp, ih]; rfl

end Sys2Proof.Machine
end

