-- ==== Sys2Proof/Laws/Orders.lean ====
section
/-! SUPPORT. For each shape of order, once: when it completes, and all it leaves behind. -/

namespace Sys2Proof.Machine

/-! Preparation and its frame. -/

theorem normalCounts_cases (a : NormalAddr) :
    (∃ m, a = .counted m ∧ normalCounts a = [m]) ∨ ((∀ s : State, s.countFor a = s) ∧ normalCounts a = []) := by
  cases a with
  | counted m => exact .inl ⟨m, rfl, rfl⟩
  | direct m => exact .inr ⟨fun _ => rfl, rfl⟩
  | indexed m n => exact .inr ⟨fun _ => rfl, rfl⟩
  | fixed n => exact .inr ⟨fun _ => rfl, rfl⟩

/-- Preparation changes no fast register but a counted modifier (R83). -/
theorem State.prepare_frame (s : State) (a : NormalAddr) :
    FastFrame s (s.prepare a) [] (normalCounts a) ∧ Counted s (s.prepare a) [] (normalCounts a) := by
  have hf : (s.prepare a).fast = (s.countFor a).fast := State.prepare_fast s a
  rcases normalCounts_cases a with ⟨m, rfl, hc⟩ | ⟨hs, hc⟩
  · have hf : (s.prepare (.counted m)).fast = (s.countM m).fast := rfl
    rw [hc]
    refine ⟨⟨fun j hj _ => ?_, fun i hi _ => ?_⟩, fun i hi _ => ?_⟩
    · rw [State.getF_congr hf]
      exact State.getF_setM_low s m _ j (by omega)
    · rw [State.getM_congr hf, State.getM_countM, if_neg (by simpa using hi)]
    · rw [State.getM_congr hf, State.getM_countM, if_pos (by simpa using hi)]
      simp only [List.mem_singleton] at hi
      rw [hi]
  · rw [hs] at hf
    rw [hc]
    exact ⟨⟨fun j _ _ => State.getF_congr hf j, fun i _ _ => State.getM_congr hf i⟩,
      fun i hi => by cases hi⟩

/-- A frame grows with the registers it leaves out. -/
theorem FastFrame.setF {s t : State} {fs : List Nat} {ms : List (BitVec 4)} (h : FastFrame s t fs ms)
    (k : Nat) (v : Word) : FastFrame s (t.setF k v) (k :: fs) ms := by
  refine ⟨fun j hj hk => ?_, fun i hi hk => ?_⟩
  · simp only [List.mem_cons, not_or] at hk
    rw [State.getF_setF_ne t v hk.1]
    exact h.1 j hj hk.2
  · simp only [List.mem_cons, not_or] at hk
    rw [State.getM_setF t i k v hk.1]
    exact h.2 i hi hk.2

theorem Counted.setF {s t : State} {fs : List Nat} {ms : List (BitVec 4)} (h : Counted s t fs ms)
    (k : Nat) (v : Word) : Counted s (t.setF k v) (k :: fs) ms := by
  intro i hi hk
  simp only [List.mem_cons, not_or] at hk
  rw [State.getM_setF t i k v hk.1]
  exact h i hi hk.2

theorem FastFrame.congr {s t u : State} {fs : List Nat} {ms : List (BitVec 4)} (h : FastFrame s t fs ms)
    (hf : u.fast = t.fast) : FastFrame s u fs ms :=
  ⟨fun j hj hk => by rw [State.getF_congr hf]; exact h.1 j hj hk,
   fun i hi hk => by rw [State.getM_congr hf]; exact h.2 i hi hk⟩

theorem Counted.congr {s t u : State} {fs : List Nat} {ms : List (BitVec 4)} (h : Counted s t fs ms)
    (hf : u.fast = t.fast) : Counted s u fs ms :=
  fun i hi hk => by rw [State.getM_congr hf]; exact h i hi hk

theorem FastFrame.refl (s : State) : FastFrame s s [] [] := ⟨fun _ _ _ => rfl, fun _ _ _ => rfl⟩

theorem Counted.none (s t : State) (fs : List Nat) : Counted s t fs [] := fun i hi => by cases hi

/-! Arithmetic orders. -/

/-- Where its operand can be read and OV raises no interrupt, an arithmetic order completes, and leaves the operand in F1 and the accumulator its action makes (R84, file 42). -/
theorem arithOrder_done {s : State} {o : Operand} {act : Word → Acc → Acc} (hr : s.canRead o)
    (hq : s.quiet) : ∃ t, arithOrder o act s = .next t ∧ ArithDone s t o ∧
      t.acc = act (s.operandWord o) s.acc ∧ t.divLast = false := by
  unfold arithOrder
  rw [withOperand_free hr]
  cases o with
  | core a =>
    obtain ⟨h1, h2⟩ := s.prepare_frame a
    rw [completeDC_quiet hq (by simp [State.withF1]) (by simp [State.withF1]) (by simp [State.withF1])]
    refine ⟨_, rfl, ⟨?_, fun b => State.coreWord_congr (by simp [State.withF1]) (by simp [State.withF1]) b,
      ⟨by simp [State.withF1], by simp [State.withF1], by simp [State.withF1]⟩, ?_, ?_, ?_⟩, ?_, by simp⟩
    · cases a <;> rfl
    · exact State.getF_setF_same _ 1 _ (by omega)
    · exact (h1.setF 1 _).congr rfl
    · exact (h2.setF 1 _).congr rfl
    · simp [State.withF1]
  | _ =>
    rw [completeDC_quiet hq (by simp [State.withF1]) (by simp [State.withF1]) (by simp [State.withF1])]
    exact ⟨_, rfl, ⟨rfl, fun b => rfl, ⟨rfl, rfl, rfl⟩, State.getF_setF_same _ 1 _ (by omega),
      ((FastFrame.refl s).setF 1 _).congr rfl, Counted.none _ _ _⟩, rfl, rfl⟩

/-- The same for a divide, which also leaves a remainder (R115). -/
theorem divideOrder_done {s : State} {o : Operand} {act : Word → Acc → Acc × (BitVec 45 × Int)}
    (hr : s.canRead o) (hq : s.quiet) : ∃ t, divideOrder o act s = .next t ∧ ArithDone s t o ∧
      t.acc = (act (s.operandWord o) s.acc).1 ∧ t.r = (act (s.operandWord o) s.acc).2.1 ∧
      t.es = (act (s.operandWord o) s.acc).2.2 ∧ t.divLast = true := by
  unfold divideOrder
  rw [withOperand_free hr]
  cases o with
  | core a =>
    obtain ⟨h1, h2⟩ := s.prepare_frame a
    rw [completeDC_quiet hq (by simp [State.withF1]) (by simp [State.withF1]) (by simp [State.withF1])]
    refine ⟨_, rfl, ⟨?_, fun b => State.coreWord_congr (by simp [State.withF1]) (by simp [State.withF1]) b,
      ⟨by simp [State.withF1], by simp [State.withF1], by simp [State.withF1]⟩, ?_, ?_, ?_⟩,
      ?_, ?_, ?_, by simp⟩
    · cases a <;> rfl
    · exact State.getF_setF_same _ 1 _ (by omega)
    · exact (h1.setF 1 _).congr rfl
    · exact (h2.setF 1 _).congr rfl
    · simp [State.withF1]
    · simp [State.withF1]
    · simp [State.withF1]
  | _ =>
    rw [completeDC_quiet hq (by simp [State.withF1]) (by simp [State.withF1]) (by simp [State.withF1])]
    exact ⟨_, rfl, ⟨rfl, fun b => rfl, ⟨rfl, rfl, rfl⟩, State.getF_setF_same _ 1 _ (by omega),
      ((FastFrame.refl s).setF 1 _).congr rfl, Counted.none _ _ _⟩, rfl, rfl, rfl, rfl⟩

/-! Store orders. -/

/-- A legal register destination is F0 or F2 to F7 (R74). -/
theorem destIllegal_false {b : BitVec 4} (h : destIllegal b = false) :
    b.toNat ≠ 1 ∧ b.toNat < 8 := by
  simp only [destIllegal, Bool.or_eq_false_iff, beq_eq_false_iff_ne, decide_eq_false_iff_not] at h
  refine ⟨fun h1 => h.1 (BitVec.eq_of_toNat_eq h1), by omega⟩

/-- The frame of a store into F0 and F_B (R87). -/
theorem State.storeFast_frame {s t : State} {ms : List (BitVec 4)} {fs : List Nat}
    (h1 : FastFrame s t fs ms) (h2 : Counted s t fs ms) {b : BitVec 4} (hb : destIllegal b = false)
    (w : Word) :
    (t.storeFast b w).getF 0 = w ∧ (t.storeFast b w).getF b.toNat = w ∧
    FastFrame s (t.storeFast b w) (0 :: b.toNat :: fs) ms ∧
    Counted s (t.storeFast b w) (0 :: b.toNat :: fs) ms := by
  have hb' := destIllegal_false hb
  unfold State.storeFast
  split
  · rename_i h0
    subst h0
    refine ⟨State.getF_setF_same _ 0 _ (by omega), State.getF_setF_same _ 0 _ (by omega), ?_, ?_⟩
    · refine ⟨fun j hj hk => ?_, fun i hi hk => ?_⟩
      · simp only [List.mem_cons, not_or] at hk
        exact (h1.setF 0 w).1 j hj (by simp only [List.mem_cons, not_or]; exact ⟨hk.1, hk.2.2⟩)
      · simp only [List.mem_cons, not_or] at hk
        exact (h1.setF 0 w).2 i hi (by simp only [List.mem_cons, not_or]; exact ⟨hk.1, hk.2.2⟩)
    · intro i hi hk
      simp only [List.mem_cons, not_or] at hk
      exact h2.setF 0 w i hi (by simp only [List.mem_cons, not_or]; exact ⟨hk.1, hk.2.2⟩)
  · rename_i h0
    have hb0 : b.toNat ≠ 0 := fun h => h0 (BitVec.eq_of_toNat_eq h)
    refine ⟨?_, State.getF_setF_same _ _ _ (by omega), ?_, ?_⟩
    · rw [State.getF_setF_ne _ _ (Ne.symm hb0), State.getF_setF_same _ _ _ (by omega)]
    · have h := (h1.setF 0 w).setF b.toNat w
      refine ⟨fun j hj hk => h.1 j hj ?_, fun i hi hk => h.2 i hi ?_⟩
      · simp only [List.mem_cons, not_or] at hk ⊢
        exact ⟨hk.2.1, hk.1, hk.2.2⟩
      · simp only [List.mem_cons, not_or] at hk ⊢
        exact ⟨hk.2.1, hk.1, hk.2.2⟩
    · intro i hi hk
      refine (h2.setF 0 w).setF b.toNat w i hi ?_
      simp only [List.mem_cons, not_or] at hk ⊢
      exact ⟨hk.2.1, hk.1, hk.2.2⟩

/-- What the action of a store order may change before its result goes out: the accumulator and its marks, and the free counter. -/
def StoreAct (s t : State) (f : Nat) : Prop :=
  t = { s with acc := t.acc, divLast := false, free := f }

/-- Where its destination is legal and not refused and OV raises no interrupt, a store order completes, and its word is in F0 and at the destination (R87, R140). -/
theorem storeOrder_done {s : State} {d : Dest} {act : State → Word × State}
    (hact : ∀ s1, StoreAct s1 (act s1).2 (act s1).2.free) (hwf : Mem.wf s.core = true)
    (hd : s.canStore d) (hq : s.quiet) :
    ∃ s1 t, storeOrder d act s = .next t ∧
      (s1.acc = s.acc ∧ s1.r = s.r ∧ s1.es = s.es ∧ s1.divLast = s.divLast ∧ s1.free = s.free ∧
        s1.getF 1 = s.getF 1) ∧
      t.acc = (act s1).2.acc ∧ t.free = (act s1).2.free ∧
      StoredAt s t d (act s1).1 ∧ t.divLast = false ∧
      t = { s with core := t.core, acc := t.acc, divLast := t.divLast, fast := t.fast, cc := t.cc,
                   na := t.na, nb := t.nb, free := t.free } ∧
      Ended s t (destGroups d) ∧
      FastFrame s t (destRegisters d) (destCounts d) ∧ Counted s t (destRegisters d) (destCounts d) := by
  cases d with
  | core a =>
    obtain ⟨h1, h2⟩ := s.prepare_frame a
    generalize hp : s.prepare a = s1 at h1 h2
    have hpr : s1 = { s with fast := s1.fast, na := 0, nb := 0 } := by subst hp; cases a <;> rfl
    have ha := hact s1
    generalize hA : act s1 = p at ha
    obtain ⟨w, s2⟩ := p
    simp only at ha
    have e1 : s1.acc = s.acc ∧ s1.r = s.r ∧ s1.es = s.es ∧ s1.divLast = s.divLast ∧ s1.free = s.free ∧ s1.core = s.core
        ∧ s1.params = s.params ∧ s1.busy = s.busy ∧ s1.intMode = s.intMode ∧ s1.engineering = s.engineering
        ∧ s1.cc = s.cc ∧ s1.na = 0 ∧ s1.nb = 0 := by
      rw [hpr]; simp
    have e2 : s2.core = s1.core ∧ s2.params = s1.params ∧ s2.busy = s1.busy ∧ s2.intMode = s1.intMode
        ∧ s2.engineering = s1.engineering ∧ s2.fast = s1.fast ∧ s2.cc = s1.cc ∧ s2.na = s1.na ∧ s2.nb = s1.nb
        ∧ s2.divLast = false := by
      rw [ha]; simp
    have hv : (s2.setF 0 w).violation (s.address a) = false := by
      rw [State.violation_congr (s := s) (by simp [e1, e2]) (by simp [e1, e2]) (by simp [e1, e2])]
      exact hd
    have hwf2 : Mem.wf (s2.setF 0 w).core = true := by simp [e1, e2, hwf]
    have hcw := State.coreWord_setCore hwf2 (s.address a)
    have hfr : FastFrame s ((s2.setF 0 w).setCore (s.address a) w) [0] (normalCounts a) :=
      ((h1.congr e2.2.2.2.2.2.1).setF 0 w).congr rfl
    have hct : Counted s ((s2.setF 0 w).setCore (s.address a) w) [0] (normalCounts a) :=
      ((h2.congr e2.2.2.2.2.2.1).setF 0 w).congr rfl
    refine ⟨s1, ((s2.setF 0 w).setCore (s.address a) w).advance (normalGroups a), ?_,
      ⟨e1.1, e1.2.1, e1.2.2.1, e1.2.2.2.1, e1.2.2.2.2.1, h1.1 1 (by omega) (by simp)⟩, ?_, ?_, ?_, ?_, ?_, ?_, ?_, ?_⟩
    · show memWrite _ _ _ _ = _
      rw [hp, hA]
      simp only
      rw [memWrite_free hv]
      exact completeDC_quiet hq (by simp [e1, e2]) (by simp [e1, e2]) (by simp [e1, e2])
    · simp [hA]
    · simp [hA]
    · rw [hA]
      refine ⟨?_, ?_, ?_⟩
      · exact State.getF_setF_same s2 0 w (by omega)
      · have := hcw (s.address a) w
        rw [if_pos rfl] at this
        exact this
      · intro b hb
        have h3 := hcw b w
        have : (s2.setF 0 w).params = s.params := by simp [e1, e2]
        rw [this, if_neg hb] at h3
        calc _ = ((s2.setF 0 w).setCore (s.address a) w).coreWord b := rfl
          _ = (s2.setF 0 w).coreWord b := h3
          _ = s.coreWord b := State.coreWord_congr (by simp [e1, e2]) (by simp [e1, e2]) b
    · simp [e2]
    · rw [ha, hpr]; rfl
    · exact ⟨by simp [e1, e2, destGroups], by simp [e1, e2], by simp [e1, e2]⟩
    · exact hfr.congr rfl
    · exact hct.congr rfl
  | fast b =>
    have hb : destIllegal b = false := hd
    have ha := hact s.clearPending
    generalize hA : act s.clearPending = p at ha
    obtain ⟨w, s2⟩ := p
    simp only at ha
    have e2 : s2.fast = s.fast := by rw [ha]; rfl
    obtain ⟨g0, gb, hf, hc⟩ := State.storeFast_frame (((FastFrame.refl s).congr e2)) (Counted.none s s2 []) hb w
    refine ⟨s.clearPending, (s2.storeFast b w).advance 1, ?_, ⟨rfl, rfl, rfl, rfl, rfl, rfl⟩, ?_, ?_, ?_, ?_, ?_, ?_, ?_, ?_⟩
    · unfold storeOrder
      simp only [hb, hA]
      exact completeDC_quiet hq (by rw [State.storeFast_params, ha]; rfl)
        (by rw [State.storeFast_intMode, ha]; rfl) (by rw [State.storeFast_engineering, ha]; rfl)
    · simp [hA]
    · simp [hA]
    · rw [hA]
      refine ⟨?_, ?_, ?_⟩
      · exact g0
      · exact gb
      · intro c
        exact State.coreWord_congr (by rw [State.advance_core, State.storeFast_core, ha]; rfl)
          (by rw [State.advance_params, State.storeFast_params, ha]; rfl) c
    · rw [State.advance_divLast, State.storeFast_divLast, ha]
    · have h3 : (s2.storeFast b w) = { s2 with fast := (s2.storeFast b w).fast } := by
        unfold State.storeFast; split <;> rfl
      rw [h3, ha]; rfl
    · refine ⟨?_, ?_, ?_⟩
      · rw [State.advance_cc, State.storeFast_cc, ha]; rfl
      · rw [State.advance_na, State.storeFast_na, ha]; rfl
      · rw [State.advance_nb, State.storeFast_nb, ha]; rfl
    · exact hf.congr rfl
    · exact hc.congr rfl

/-- A store order whose action uses the accumulator only (R140). -/
theorem storeAcc_done {s : State} {d : Dest} {act : Acc → Word × Acc} (hwf : Mem.wf s.core = true)
    (hd : s.canStore d) (hq : s.quiet) :
    ∃ t, storeAcc d act s = .next t ∧ StoreDone s t d (act s.acc).1 ∧ t.acc = (act s.acc).2 := by
  obtain ⟨s1, t, ht, h1, ha, hf, hs, hdl, heq, he, hfr, hct⟩ :=
    storeOrder_done (act := fun s1 => ((act s1.acc).1, s1.afterDC (act s1.acc).2)) (fun _ => rfl) hwf hd hq
  simp only [State.afterDC_acc, State.afterDC_free, h1] at ha hf hs
  refine ⟨t, ht, ⟨?_, he, hs, hdl, hfr, hct⟩, ha⟩
  unfold OnlyStore
  rw [heq]
  simp [hf]

/-- XCH, ASC and SSC (R88, R140), with what Interplay does between the read and the write (R57, D20, log 19). -/
theorem exchangeOrder_done {s : State} {d : Dest} {act : Word → Acc → Word × Acc}
    (hwf : Mem.wf s.core = true) (hd : s.canStore d) (hq : s.quiet) :
    ∃ t, exchangeOrder d act s = .next t ∧ ExchangeDone s t d (act (s.destWord d) s.acc).1 ∧
      t.acc = (act (s.destWord d) s.acc).2 := by
  cases d with
  | core a =>
    obtain ⟨h1, h2⟩ := s.prepare_frame a
    have hv0 : (s.prepare a).violation (s.address a) = false := by
      rw [State.violation_congr (s := s) (by simp) (by simp) (by simp)]
      exact hd
    have hw0 : (s.prepare a).coreWord (s.address a) = s.coreWord (s.address a) :=
      State.coreWord_congr (by simp) (by simp) _
    generalize hA : act (s.coreWord (s.address a)) s.acc = p
    obtain ⟨w, x⟩ := p
    have hI : ((s.prepare a).setF 1 (s.coreWord (s.address a))).interlude =
        s.interlude.interplayOf ((s.prepare a).setF 1 (s.coreWord (s.address a))) := by
      rw [← State.interlude_interplayOf s _ (by simp)]
      congr 1
      cases a <;> rfl
    generalize hS : ((((s.prepare a).setF 1 (s.coreWord (s.address a))).interlude.afterDC x).setF 0 w) = s2
    have e : s2.core = s.interlude.core ∧ s2.params = s.params ∧ s2.busy = s.busy ∧ s2.intMode = s.intMode ∧
        s2.engineering = s.engineering ∧ s2.cc = s.cc ∧ s2.na = 0 ∧ s2.nb = 0 ∧ s2.acc = x ∧
        s2.divLast = false := by
      subst hS
      refine ⟨?_, by simp, by simp, by simp, by simp, by simp, by simp, by simp, by simp, by simp⟩
      rw [hI]; rfl
    have hv : s2.violation (s.address a) = false := by
      rw [State.violation_congr (s := s) (by simp [e]) (by simp [e]) (by simp [e])]
      exact hd
    have hcw := State.coreWord_setCore (s := s2) (by simp [e, State.wf_interlude hwf]) (s.address a)
    have hfr : FastFrame s s2 [0, 1] (normalCounts a) := by
      subst hS
      exact ((((h1.setF 1 _).congr (State.interlude_fast _)).congr rfl).setF 0 w)
    have hct : Counted s s2 [0, 1] (normalCounts a) := by
      subst hS
      exact ((((h2.setF 1 _).congr (State.interlude_fast _)).congr rfl).setF 0 w)
    have hF1 : s2.getF 1 = s.coreWord (s.address a) := by
      subst hS
      rw [State.getF_setF_ne _ _ (by omega)]
      calc _ = ((s.prepare a).setF 1 (s.coreWord (s.address a))).getF 1 :=
            State.getF_congr (State.interlude_fast _) 1
        _ = _ := State.getF_setF_same (s.prepare a) 1 _ (by omega)
    have hF0 : s2.getF 0 = w := by
      subst hS
      exact State.getF_setF_same _ 0 w (by simp)
    have heq : s2 = { s.interlude with acc := x, divLast := false, fast := s2.fast, na := 0, nb := 0 } := by
      subst hS
      rw [hI]
      conv_rhs => rw [s.interlude_frame]
      cases a <;> rfl
    have swap : ∀ k : Nat, k ∉ (1 :: destRegisters (.core a)) → k ∉ ([0, 1] : List Nat) := by
      intro k hk
      simp only [destRegisters, List.mem_cons, List.not_mem_nil, or_false, not_or] at hk ⊢
      exact ⟨hk.2, hk.1⟩
    refine ⟨(s2.setCore (s.address a) w).advance (normalGroups a), ?_,
      ⟨?_, ⟨?_, ?_, ?_⟩, ⟨?_, ?_, ?_⟩, ?_, ?_, ?_, ?_⟩, ?_⟩
    · unfold exchangeOrder
      simp only [memRead_free hv0, hw0, State.interlude_acc, State.setF_acc, State.prepare_acc, hA, hS]
      rw [memWrite_free hv]
      exact completeDC_quiet hq (by simp [e]) (by simp [e]) (by simp [e])
    · unfold OnlyStore
      rw [heq]; rfl
    · simp [e, destGroups]
    · simp [e]
    · simp [e]
    · simp only [State.destWord, hA]
      exact hF0
    · have := hcw (s.address a) w
      rw [if_pos rfl] at this
      simp only [State.destWord, hA, State.beforeWrite, State.interlude_address]
      exact this
    · intro b hb
      simp only [State.beforeWrite, State.interlude_params, State.interlude_address] at hb ⊢
      have h3 := hcw b w
      rw [e.2.1, if_neg hb] at h3
      calc _ = (s2.setCore (s.address a) w).coreWord b := rfl
        _ = s2.coreWord b := h3
        _ = s.interlude.coreWord b := State.coreWord_congr (by simp [e]) (by simp [e]) b
    · simp [e]
    · exact hF1
    · exact ⟨fun j hj hk => hfr.1 j hj (swap j hk), fun i hi hk => hfr.2 i hi (swap _ hk)⟩
    · exact fun i hi hk => hct i hi (swap _ hk)
    · simp [e, State.destWord, hA]
  | fast b =>
    have hb : destIllegal b = false := hd
    have hb' := destIllegal_false hb
    generalize hA : act (s.getF b.toNat) s.acc = p
    obtain ⟨w, x⟩ := p
    generalize hS : ((s.clearPending.setF 1 (s.getF b.toNat)).afterDC x) = s2
    have hfr0 : FastFrame s s2 [1] [] := by
      subst hS
      exact ((((FastFrame.refl s).congr (u := s.clearPending) rfl).setF 1 _).congr rfl)
    obtain ⟨g0, gb, hf, hc⟩ := State.storeFast_frame hfr0 (Counted.none s s2 [1]) hb w
    have heq : s2.storeFast b w =
        { s with acc := x, divLast := false, fast := (s2.storeFast b w).fast, na := 0, nb := 0 } := by
      subst hS
      unfold State.storeFast
      split <;> rfl
    have swap : ∀ k : Nat, k ∉ (1 :: destRegisters (.fast b)) → k ∉ (0 :: b.toNat :: [1] : List Nat) := by
      intro k hk
      simp only [destRegisters, List.mem_cons, List.not_mem_nil, or_false, not_or] at hk ⊢
      exact ⟨hk.2.1, hk.2.2, hk.1⟩
    refine ⟨(s2.storeFast b w).advance 1, ?_,
      ⟨?_, ⟨?_, ?_, ?_⟩, ⟨?_, ?_, ?_⟩, ?_, ?_, ?_, ?_⟩, ?_⟩
    · unfold exchangeOrder
      simp only [hb, State.setF_acc, State.clearPending_acc, hA, hS]
      exact completeDC_quiet hq (by rw [heq]) (by rw [heq]) (by rw [heq])
    · unfold OnlyStore
      rw [heq]; rfl
    · rw [State.advance_cc, heq]; rfl
    · rw [State.advance_na, heq]
    · rw [State.advance_nb, heq]
    · simp only [State.destWord, hA]
      exact g0
    · simp only [State.destWord, hA]
      exact gb
    · intro c
      exact State.coreWord_congr (by rw [State.advance_core, heq]; rfl) (by rw [State.advance_params, heq]; rfl) c
    · rw [State.advance_divLast, heq]
    · calc _ = (s2.storeFast b w).getF 1 := rfl
        _ = s2.getF 1 := by
          unfold State.storeFast
          split
          · exact State.getF_setF_ne _ _ (by omega)
          · rw [State.getF_setF_ne _ _ (Ne.symm hb'.1), State.getF_setF_ne _ _ (by omega)]
        _ = s.getF b.toNat := by subst hS; exact State.getF_setF_same s.clearPending 1 _ (by omega)
    · exact ⟨fun j hj hk => hf.1 j hj (swap j hk), fun i hi hk => hf.2 i hi (swap _ hk)⟩
    · exact fun i hi hk => hc i hi (swap _ hk)
    · rw [State.advance_acc, heq]
      simp [State.destWord, hA]

/-! Orders whose address is their operand. -/

/-- An exponent or shift order on a constructed address (R160). -/
theorem addressDC_done {s : State} {a : NormalAddr} {act : Addr → Acc → Acc} (hq : s.quiet) :
    ∃ t, addressDC (.addr a) act s = .next t ∧ OnlyArithmetic s t ∧ SameCore s t ∧
      Ended s t (normalGroups a) ∧ t.getF 1 = rep4 (s.address a) ∧
      FastFrame s t [1] (normalCounts a) ∧ Counted s t [1] (normalCounts a) ∧
      t.acc = act (s.address a) s.acc ∧ t.divLast = false := by
  obtain ⟨h1, h2⟩ := s.prepare_frame a
  unfold addressDC withAddress
  simp only [State.prepare_acc]
  rw [completeDC_quiet hq (by simp) (by simp) (by simp)]
  refine ⟨_, rfl, ?_, fun b => State.coreWord_congr (by simp) (by simp) b,
    ⟨by simp, by simp, by simp⟩, State.getF_setF_same _ 1 _ (by omega), (h1.setF 1 _).congr rfl,
    (h2.setF 1 _).congr rfl, by simp, by simp⟩
  unfold OnlyArithmetic
  cases a <;> rfl

/-- An Advanced Control order on a constructed address: it acts on the prepared state, and cc advances (R171). -/
theorem addressAC_done (s : State) (a : NormalAddr) (act : Addr → State → State) :
    addressAC (.addr a) act s = .next ((act (s.address a) (s.prepare a)).advance (normalGroups a)) := rfl

/-- A legal Interplay order (R170). -/
theorem interplayOrder_done {s : State} (h : s.interplayLegal = true) (a : NormalAddr)
    (act : Addr → State → State) :
    interplayOrder (.addr a) act s =
      .next ((act (s.address a) (s.prepare a)).advance (normalGroups a)) := by
  unfold interplayOrder
  rw [if_pos h, addressAC_done]

/-! Quarter-word stores and modifier arithmetic. -/

/-- SIA and SEX (R90): the word in F0, its aligned quarter in M_B. -/
theorem quarterStore_done {s : State} {m : BitVec 4} {act : Acc → Word × Acc} (hq : s.quiet) :
    ∃ t, quarterStore m act s = .next t ∧ OnlyArithmetic s t ∧ SameCore s t ∧ Ended s t 1 ∧
      t.getF 0 = (act s.acc).1 ∧ t.getM m = quarter (act s.acc).1 (m.toNat % 4) ∧
      FastFrame s t [0] [m] ∧ t.acc = (act s.acc).2 ∧ t.divLast = false := by
  unfold quarterStore
  simp only
  rw [completeDC_quiet hq (by simp) (by simp) (by simp)]
  refine ⟨_, rfl, rfl, fun b => rfl, ⟨rfl, rfl, rfl⟩, ?_, State.getM_setM_same _ m _, ⟨?_, ?_⟩, rfl, rfl⟩
  · calc _ = ((s.clearPending.afterDC (act s.acc).2).setF 0 (act s.acc).1).getF 0 :=
          State.getF_setM_low _ m _ 0 (by omega)
      _ = _ := State.getF_setF_same _ 0 _ (by omega)
  · intro j hj hk
    simp only [List.mem_singleton] at hk
    calc _ = ((s.clearPending.afterDC (act s.acc).2).setF 0 (act s.acc).1).getF j :=
          State.getF_setM_low _ m _ j (by omega)
      _ = _ := State.getF_setF_ne _ _ hk
  · intro i hi hk
    simp only [List.mem_singleton] at hi
    calc _ = ((s.clearPending.afterDC (act s.acc).2).setF 0 (act s.acc).1).getM i := by
          show (State.setM _ m _).getM i = _
          rw [State.getM_setM, if_neg hi]
      _ = _ := State.getM_setF_low _ i 0 _ (by omega)

/-- A modifier arithmetic order always completes (R215). -/
theorem modArith_done (op : Group → Group → Group) (m : BitVec 4) (n : Option Addr) (b : Bool) (s : State) :
    modArith op m n b s = .next
      ((if b then { s.clearPending with na := op (s.c1Address n) (s.getM m) }
        else s.clearPending.setM m (op (s.c1Address n) (s.getM m))).advance (c1Groups n)) := rfl

end Sys2Proof.Machine
end

