-- ==== Sys2Proof/Laws/PerInstr.lean ====
section
/-! SUPPORT. Per instruction: a well-formed order is encoded as one first control group of its own class, followed by N exactly where that class, its B and its C make it long (30_encoding R60 to R71). -/

namespace Sys2Proof.Laws.Shape

/-- The encoding of a well-formed order is a control group of an assigned code, and a second one exactly where the order is long (R62). -/
def Statement (i : Instr) : Prop := WellFormed i = true → ∃ k, HasShape k (encode i)

theorem csb (o : Operand) : Statement (.csb o) := fun h => ⟨_, encodeOperand_shape rfl h⟩
theorem cst (o : Operand) : Statement (.cst o) := fun h => ⟨_, encodeOperand_shape rfl h⟩
theorem cad (o : Operand) : Statement (.cad o) := fun h => ⟨_, encodeOperand_shape rfl h⟩
theorem cat (o : Operand) : Statement (.cat o) := fun h => ⟨_, encodeOperand_shape rfl h⟩
theorem not (o : Operand) : Statement (.not o) := fun h => ⟨_, encodeOperand_shape rfl h⟩
theorem and (o : Operand) : Statement (.and o) := fun h => ⟨_, encodeOperand_shape rfl h⟩
theorem lor (o : Operand) : Statement (.lor o) := fun h => ⟨_, encodeOperand_shape rfl h⟩
theorem dba (o : Operand) : Statement (.dba o) := fun h => ⟨_, encodeOperand_shape rfl h⟩
theorem sub (o : Operand) : Statement (.sub o) := fun h => ⟨_, encodeOperand_shape rfl h⟩
theorem add (o : Operand) : Statement (.add o) := fun h => ⟨_, encodeOperand_shape rfl h⟩
theorem mpy (o : Operand) : Statement (.mpy o) := fun h => ⟨_, encodeOperand_shape rfl h⟩
theorem div (o : Operand) : Statement (.div o) := fun h => ⟨_, encodeOperand_shape rfl h⟩
theorem ndv (o : Operand) : Statement (.ndv o) := fun h => ⟨_, encodeOperand_shape rfl h⟩
theorem vid (o : Operand) : Statement (.vid o) := fun h => ⟨_, encodeOperand_shape rfl h⟩
theorem ldq (o : Operand) : Statement (.ldq o) := fun h => ⟨_, encodeOperand_shape rfl h⟩
theorem dav (o : Operand) : Statement (.dav o) := fun h => ⟨_, encodeOperand_shape rfl h⟩
theorem ssc (d : Dest) : Statement (.ssc d) := fun h => ⟨_, encodeDest_shape rfl h⟩
theorem asc (d : Dest) : Statement (.asc d) := fun h => ⟨_, encodeDest_shape rfl h⟩
theorem str (d : Dest) : Statement (.str d) := fun h => ⟨_, encodeDest_shape rfl h⟩
theorem xch (d : Dest) : Statement (.xch d) := fun h => ⟨_, encodeDest_shape rfl h⟩
theorem stc (d : Dest) : Statement (.stc d) := fun h => ⟨_, encodeDest_shape rfl h⟩
theorem stn (d : Dest) : Statement (.stn d) := fun h => ⟨_, encodeDest_shape rfl h⟩
theorem stf (d : Dest) : Statement (.stf d) := fun h => ⟨_, encodeDest_shape rfl h⟩
theorem sif (d : Dest) : Statement (.sif d) := fun h => ⟨_, encodeDest_shape rfl h⟩
theorem seq (d : Dest) : Statement (.seq d) := fun h => ⟨_, encodeDest_shape rfl h⟩
theorem stu (d : Dest) : Statement (.stu d) := fun h => ⟨_, encodeDest_shape rfl h⟩
theorem stl (d : Dest) : Statement (.stl d) := fun h => ⟨_, encodeDest_shape rfl h⟩
theorem stq (d : Dest) : Statement (.stq d) := fun h => ⟨_, encodeDest_shape rfl h⟩
theorem srm (d : Dest) : Statement (.srm d) := fun h => ⟨_, encodeDest_shape rfl h⟩
theorem atn (a : AddrForm) : Statement (.atn a) := fun h => ⟨_, encodeAddrForm_shape rfl h⟩
theorem ibt (a : AddrForm) : Statement (.ibt a) := fun h => ⟨_, encodeAddrForm_shape rfl h⟩
theorem pid (a : AddrForm) : Statement (.pid a) := fun h => ⟨_, encodeAddrForm_shape rfl h⟩
theorem sfn (a : AddrForm) : Statement (.sfn a) := fun h => ⟨_, encodeAddrForm_shape rfl h⟩
theorem fbf (a : AddrForm) : Statement (.fbf a) := fun h => ⟨_, encodeAddrForm_shape rfl h⟩
theorem bbf (a : AddrForm) : Statement (.bbf a) := fun h => ⟨_, encodeAddrForm_shape rfl h⟩
theorem jlh (a : AddrForm) : Statement (.jlh a) := fun h => ⟨_, encodeAddrForm_shape rfl h⟩
theorem lin (a : AddrForm) : Statement (.lin a) := fun h => ⟨_, encodeAddrForm_shape rfl h⟩
theorem orb (a : AddrForm) : Statement (.orb a) := fun h => ⟨_, encodeAddrForm_shape rfl h⟩
theorem pod (a : AddrForm) : Statement (.pod a) := fun h => ⟨_, encodeAddrForm_shape rfl h⟩
theorem sbe (a : AddrForm) : Statement (.sbe a) := fun h => ⟨_, encodeAddrForm_shape rfl h⟩
theorem ade (a : AddrForm) : Statement (.ade a) := fun h => ⟨_, encodeAddrForm_shape rfl h⟩
theorem cse (a : AddrForm) : Statement (.cse a) := fun h => ⟨_, encodeAddrForm_shape rfl h⟩
theorem cae (a : AddrForm) : Statement (.cae a) := fun h => ⟨_, encodeAddrForm_shape rfl h⟩
theorem lrs (a : AddrForm) : Statement (.lrs a) := fun h => ⟨_, encodeAddrForm_shape rfl h⟩
theorem ars (a : AddrForm) : Statement (.ars a) := fun h => ⟨_, encodeAddrForm_shape rfl h⟩
theorem cjs (m : BitVec 4) (c : BitVec 2) : Statement (.cjs m c) := fun _ => ⟨_, hasShape_short rfl _ _ rfl⟩
theorem cjf (m : BitVec 4) (c : BitVec 2) : Statement (.cjf m c) := fun _ => ⟨_, hasShape_short rfl _ _ rfl⟩
theorem sia (m : BitVec 4) (c : BitVec 2) : Statement (.sia m c) := fun _ => ⟨_, hasShape_short rfl _ _ rfl⟩
theorem sex (m : BitVec 4) (c : BitVec 2) : Statement (.sex m c) := fun _ => ⟨_, hasShape_short rfl _ _ rfl⟩
theorem asn (r : BitVec 6) : Statement (.asn r) := fun _ => ⟨_, hasShape_short rfl _ _ rfl⟩
theorem ssn (r : BitVec 6) : Statement (.ssn r) := fun _ => ⟨_, hasShape_short rfl _ _ rfl⟩
theorem ssr (r : BitVec 6) : Statement (.ssr r) := fun _ => ⟨_, hasShape_short rfl _ _ rfl⟩
theorem sqw (b : BitVec 4) (c : BitVec 2) (n : Addr) : Statement (.sqw b c n) := fun _ => ⟨_, hasShape_long rfl _ _ _ rfl⟩
theorem jnm (b : BitVec 4) (c : BitVec 2) (n : Addr) : Statement (.jnm b c n) := fun _ => ⟨_, hasShape_long rfl _ _ _ rfl⟩
theorem jzm (b : BitVec 4) (c : BitVec 2) (n : Addr) : Statement (.jzm b c n) := fun _ => ⟨_, hasShape_long rfl _ _ _ rfl⟩
theorem cjz (b : BitVec 4) (c : BitVec 2) (n : Addr) : Statement (.cjz b c n) := fun _ => ⟨_, hasShape_long rfl _ _ _ rfl⟩
theorem jdc (t : Condition) (c : BitVec 2) (n : Addr) : Statement (.jdc t c n) := fun _ => ⟨_, hasShape_long rfl _ _ _ rfl⟩
theorem ldm (b : BitVec 4) (c : BitVec 2) (n : Addr) : Statement (.ldm b c n) := fun _ => ⟨_, hasShape_long rfl _ _ _ rfl⟩
theorem jpm (b : BitVec 4) (c : BitVec 2) (n : Addr) : Statement (.jpm b c n) := fun _ => ⟨_, hasShape_long rfl _ _ _ rfl⟩
theorem jum (b : BitVec 4) (c : BitVec 2) (n : Addr) : Statement (.jum b c n) := fun _ => ⟨_, hasShape_long rfl _ _ _ rfl⟩
theorem jsb (b : BitVec 4) (c : BitVec 2) (n : Addr) : Statement (.jsb b c n) := fun _ => ⟨_, hasShape_long rfl _ _ _ rfl⟩
theorem cju (b : BitVec 4) (c : BitVec 2) (n : Addr) : Statement (.cju b c n) := fun _ => ⟨_, hasShape_long rfl _ _ _ rfl⟩
theorem sfr (b : BitVec 4) (n : Option Addr) (c2 : Bool) : Statement (.sfr b n c2) := fun _ => ⟨_, encodeC1_shape rfl (.inl rfl) _ _ _⟩
theorem lfr (b : BitVec 4) (n : Option Addr) (c2 : Bool) : Statement (.lfr b n c2) := fun _ => ⟨_, encodeC1_shape rfl (.inl rfl) _ _ _⟩
theorem cnm (m : BitVec 4) (n : Option Addr) (toNext : Bool) : Statement (.cnm m n toNext) := fun _ => ⟨_, encodeC1_shape rfl (.inr rfl) _ _ _⟩
theorem csm (m : BitVec 4) (n : Option Addr) (toNext : Bool) : Statement (.csm m n toNext) := fun _ => ⟨_, encodeC1_shape rfl (.inr rfl) _ _ _⟩
theorem crm (m : BitVec 4) (n : Option Addr) (toNext : Bool) : Statement (.crm m n toNext) := fun _ => ⟨_, encodeC1_shape rfl (.inr rfl) _ _ _⟩
theorem cam (m : BitVec 4) (n : Option Addr) (toNext : Bool) : Statement (.cam m n toNext) := fun _ => ⟨_, encodeC1_shape rfl (.inr rfl) _ _ _⟩
theorem nom (m : BitVec 4) (n : Option Addr) (toNext : Bool) : Statement (.nom m n toNext) := fun _ => ⟨_, encodeC1_shape rfl (.inr rfl) _ _ _⟩
theorem nam (m : BitVec 4) (n : Option Addr) (toNext : Bool) : Statement (.nam m n toNext) := fun _ => ⟨_, encodeC1_shape rfl (.inr rfl) _ _ _⟩
theorem orm (m : BitVec 4) (n : Option Addr) (toNext : Bool) : Statement (.orm m n toNext) := fun _ => ⟨_, encodeC1_shape rfl (.inr rfl) _ _ _⟩
theorem anm (m : BitVec 4) (n : Option Addr) (toNext : Bool) : Statement (.anm m n toNext) := fun _ => ⟨_, encodeC1_shape rfl (.inr rfl) _ _ _⟩
theorem eqm (m : BitVec 4) (n : Option Addr) (toNext : Bool) : Statement (.eqm m n toNext) := fun _ => ⟨_, encodeC1_shape rfl (.inr rfl) _ _ _⟩
theorem sbm (m : BitVec 4) (n : Option Addr) (toNext : Bool) : Statement (.sbm m n toNext) := fun _ => ⟨_, encodeC1_shape rfl (.inr rfl) _ _ _⟩
theorem eom (m : BitVec 4) (n : Option Addr) (toNext : Bool) : Statement (.eom m n toNext) := fun _ => ⟨_, encodeC1_shape rfl (.inr rfl) _ _ _⟩
theorem adm (m : BitVec 4) (n : Option Addr) (toNext : Bool) : Statement (.adm m n toNext) := fun _ => ⟨_, encodeC1_shape rfl (.inr rfl) _ _ _⟩
theorem hlt (b : BitVec 4) (c : BitVec 2) : Statement (.hlt b c) := fun _ => ⟨_, hasShape_short rfl _ _ rfl⟩

end Sys2Proof.Laws.Shape
end

