-- ==== Sys2Proof/Tests/Slice0.lean ====
section
/-! SUPPORT. Tests on fixed values: words decoded by hand from the spec's tables (30_encoding), one step of each order with the values of 95_test_vectors section 2, ill-formed terms, and for each statement a state and operands that meet all its hypotheses. -/

namespace Sys2Proof.Tests

open Sys2Proof.Machine

/-! Ill-formed terms (R63 to R65). -/

theorem test_zero_operand_needs_b_from_11 : WellFormed (.cad (.zero 10)) = false := by decide

theorem test_register_destination_is_never_8 : WellFormed (.str (.fast 8)) = false := by decide

theorem test_missing_address_is_never_b_8 : WellFormed (.cae (.noAddress 8)) = false := by decide

/-! Decoding: control groups written out as 64 F + 4 B + C from the tables of 30_encoding, one order of each code; the words of 95_test_vectors 2.1 are among them. -/

/-- What some control groups decode to. -/
def reads (gs : List Group) : Option (Instr × List Group) := (decode gs).toOption

/-- Each list of groups decodes to the order beside it, with nothing left over. -/
def allRead (l : List (List Group × Instr)) : Bool := l.all fun p => reads p.1 == some (p.2, [])

theorem test_decode_arithmetic_forms : allRead [
    ([0x109D], .cad (.core (.counted 7))),
    ([0x10A3, 200], .cad (.core (.fixed 200))),
    ([0x109E, 600], .cad (.core (.indexed 7 600))),
    ([0x109C], .cad (.core (.direct 7))),
    ([0x1087], .cad (.fast 1)),
    ([0x10A7, 8191], .cad (.integer 8191)),
    ([0x10AB, 3], .cad (.fraction 3)),
    ([0x10BF], .cad (.zero 15)),
    ([0x10AF], .cad (.zero 11))] = true := by decide

theorem test_decode_arithmetic_orders : allRead [
    ([0x101D], .csb (.core (.counted 7))),
    ([0x1063, 200], .cst (.core (.fixed 200))),
    ([0x10DE, 600], .cat (.core (.indexed 7 600))),
    ([0x111C], .not (.core (.direct 7))),
    ([0x1147], .and (.fast 1)),
    ([0x11A7, 8191], .lor (.integer 8191)),
    ([0x11EB, 3], .dba (.fraction 3)),
    ([0x123F], .sub (.zero 15)),
    ([0x12AF], .add (.zero 11)),
    ([0x141D], .mpy (.core (.counted 7))),
    ([0x1463, 200], .div (.core (.fixed 200))),
    ([0x149E, 600], .ndv (.core (.indexed 7 600))),
    ([0x14DC], .vid (.core (.direct 7))),
    ([0x1847], .ldq (.fast 1)),
    ([0x18A7, 8191], .dav (.integer 8191))] = true := by decide

theorem test_decode_store_orders : allRead [
    ([0x1323, 201], .ssc (.core (.fixed 201))),
    ([0x139B], .asc (.fast 6)),
    ([0x1503], .str (.fast 0)),
    ([0x1547], .xch (.fast 1)),
    ([0x15A7], .stc (.fast 9)),
    ([0x15D5], .stn (.core (.counted 5))),
    ([0x163E, 8191], .stf (.core (.indexed 15 8191))),
    ([0x1648], .sif (.core (.direct 2))),
    ([0x16A3, 201], .seq (.core (.fixed 201))),
    ([0x171B], .stu (.fast 6)),
    ([0x1743], .stl (.fast 0)),
    ([0x1787], .stq (.fast 1)),
    ([0x18E7], .srm (.fast 9))] = true := by decide

theorem test_decode_address_orders : allRead [
    ([0x0463, 22], .atn (.addr (.fixed 22))),
    ([0x0483], .ibt (.noAddress 0)),
    ([0x04C8], .pid (.addr (.direct 2))),
    ([0x0855], .sfn (.addr (.counted 5))),
    ([0x0892, 600], .fbf (.addr (.indexed 4 600))),
    ([0x08E3, 22], .bbf (.addr (.fixed 22))),
    ([0x0B03], .jlh (.noAddress 0)),
    ([0x0C08], .lin (.addr (.direct 2))),
    ([0x0C55], .orb (.addr (.counted 5))),
    ([0x0C92, 600], .pod (.addr (.indexed 4 600))),
    ([0x1263, 22], .sbe (.addr (.fixed 22))),
    ([0x12C3], .ade (.noAddress 0)),
    ([0x1348], .cse (.addr (.direct 2))),
    ([0x13D5], .cae (.addr (.counted 5))),
    ([0x1952, 600], .lrs (.addr (.indexed 4 600))),
    ([0x19E3, 22], .ars (.addr (.fixed 22)))] = true := by decide

theorem test_decode_short_orders : allRead [
    ([0x17CC], .sex 3 0),
    ([0x16C2], .sia 0 2),
    ([0x0BCD], .cjf 3 1),
    ([0x0B4C], .cjs 3 0),
    ([0x0680], .asn 0),
    ([0x0EBF], .ssn 63),
    ([0x0ED6], .ssr 22),
    ([0x0CC0], .hlt 0 0),
    ([0x0CFF], .hlt 15 3)] = true := by decide

theorem test_decode_quarter_and_jump_orders : allRead [
    ([0x0647, 100], .sqw 1 3 100),
    ([0x0710, 300], .jnm 4 0 300),
    ([0x075D, 8191], .jzm 7 1 8191),
    ([0x07EA, 0], .cjz 10 2 0),
    ([0x0BB7, 100], .jdc .greenDown 3 100),
    ([0x0E40, 300], .ldm 0 0 300),
    ([0x0F0D, 8191], .jpm 3 1 8191),
    ([0x0F5A, 0], .jum 6 2 0),
    ([0x0FA7, 100], .jsb 9 3 100),
    ([0x0FF0, 300], .cju 12 0 300),
    ([0x0BAA, 0x0040], .jdc .ovOnClear 2 64)] = true := by decide

theorem test_decode_modifier_orders : allRead [
    ([0x0E12, 64], .lfr 4 (some 64) false),
    ([0x0E10], .lfr 4 none false),
    ([0x0607, 0], .sfr 1 (some 0) true),
    ([0x0508], .cnm 2 none false),
    ([0x055D], .csm 7 none true),
    ([0x05B2, 17], .crm 12 (some 17) false),
    ([0x05C7, 18], .cam 1 (some 18) true),
    ([0x0918], .nom 6 none false),
    ([0x096D], .nam 11 none true),
    ([0x0982, 21], .orm 0 (some 21) false),
    ([0x09D7, 22], .anm 5 (some 22) true),
    ([0x0D28], .eqm 10 none false),
    ([0x0D7D], .sbm 15 none true),
    ([0x0D92, 25], .eom 4 (some 25) false),
    ([0x0DE7, 26], .adm 9 (some 26) true)] = true := by decide

/-- Unassigned codes at the edges of the table (R73), and a long order without its N. -/
theorem test_decode_nonexistent :
    [0x0000, 0x0400, 0x06C0, 0x0780, 0x0800, 0x0A00, 0x0AC0, 0x1800, 0x1900, 0x1980, 0x1A00, 0x1FC0].all
      (fun g => (reads [BitVec.ofNat 13 g]).isNone) = true ∧ reads [0x10A3] = none := by decide

/-- With the group of 95_test_vectors 2.1 in the place of the first word, the table's numbering reads the same order. -/
theorem test_table_word : decodeTableWord 26 (0x10A3 + 0x00C8 * 8192) = some (.cad (.core (.fixed 200))) := by decide

/-! One step of each order. -/

/-- The accumulator with these digits, exponent and indicators. -/
def acc (a : BitVec 45) (q : BitVec 44) (e : BitVec 8) (z ov : Bool) : Acc := ⟨a, q, e, z, ov⟩

/-- The machine after reset with an accumulator, and one word at 200. -/
def start (x : Acc) (w : Word) : State := { State.reset with acc := x, core := Mem.write [] 200 w }

/-- The next state. -/
def after : Out → Option State
  | .next t => some t
  | _ => none

/-- Whether a state is reached and passes a test. -/
def ends (o : Out) (p : State → Bool) : Bool := (after o).any p

/-- The cause of a program interrupt. -/
def interrupted : Out → Option Cause
  | .fault (.programInterrupt c _) => some c
  | _ => none

/-- The accumulator an arithmetic order leaves with the operand word `w`. -/
def arith (i : Operand → Instr) (w : Word) (x : Acc) : Option Acc :=
  (after (exec (i (.core (.fixed 200))) (start x w))).map (·.acc)

/-- What a store order puts at 200, and the accumulator it leaves. -/
def stores (i : Dest → Instr) (x : Acc) (w : Word) : Option (Word × Acc) :=
  (after (exec (i (.core (.fixed 200))) (start x w))).map fun t => (t.coreWord 200, t.acc)

/-- The accumulator an exponent or shift order leaves. -/
def shifts (i : AddrForm → Instr) (n : Addr) (x : Acc) : Option Acc :=
  (after (exec (i (.addr (.fixed n))) (start x 0))).map (·.acc)

/-- V-C1 -/
theorem test_cad_half : arith .cad 0x4000000000000 (acc 0xC0000000000 0x0 1 false false) = some (acc 0x80000000000 0x0 0 false false) := by decide

/-- V-C5 -/
theorem test_cad_zero : arith .cad 0x40 (acc 0xC0000000000 0x0 1 false false) = some (acc 0x0 0x0 (-64) true false) := by decide

/-- V-C2 -/
theorem test_csb_minus_one_becomes_quarter : arith .csb 0x8000000000003 (acc 0xC0000000000 0x0 1 false false) = some (acc 0x40000000000 0x0 4 false false) := by decide

/-- V-C3 -/
theorem test_cat_three_quarters : arith .cat 0x6000000000000 (acc 0xC0000000000 0x0 1 false false) = some (acc 0x60000000000 0x0 1 false false) := by decide

/-- V-C4 -/
theorem test_cst_half : arith .cst 0x4000000000000 (acc 0xC0000000000 0x0 1 false false) = some (acc 0x100000000000 0x0 0 false false) := by decide

/-- V-C6 -/
theorem test_not_zero : arith .not 0x40 (acc 0xC0000000000 0x0 1 false false) = some (acc 0x1FFFFFFFFFFF 0x0 (-64) false false) := by decide

/-- V-C7 (with W made from its xbits) -/
theorem test_and : arith .and 0x07F8000000000 (acc 0xF0F00000000 0x5 0 false false) = some (acc 0xF00000000 0x5 0 false false) := by decide

/-- V-C8 (likewise) -/
theorem test_lor : arith .lor 0x07F8000000000 (acc 0xF0F00000000 0x0 0 false false) = some (acc 0xFFF00000000 0x0 0 false false) := by decide

/-- V-C9 -/
theorem test_dba : arith .dba 0x40 (acc 0xC0000000000 0x0 0 false false) = some (acc 0x180000000000 0x0 0 false false) := by decide

/-- V-C10 -/
theorem test_ldq : arith .ldq 0x4000000000000 (acc 0x80000000000 0x7 9 false false) = some (acc 0x80000000000 0x80000000000 9 false false) := by decide

/-- V-A2 -/
theorem test_add_fraction_overflow : arith .add 0x4000000000000 (acc 0x80000000000 0x0 0 false false) = some (acc 0x40000000000 0x0 1 false false) := by decide

/-- V-A5 -/
theorem test_add_into_q : arith .add 0x00000000000EA (acc 0x80000000000 0x0 0 false false) = some (acc 0x80000000000 0x1 0 false false) := by decide

/-- V-A6 -/
theorem test_sub_borrows_through_q : arith .sub 0x00000000000EA (acc 0x80000000000 0x0 0 false false) = some (acc 0x7FFFFFFFFFF 0xFFFFFFFFFFF 0 false false) := by decide

/-- V-A9 -/
theorem test_sub_with_z_on_is_csb : arith .sub 0x6000000000001 (acc 0x0 0x0 (-64) true false) = some (acc 0x140000000000 0x0 1 false false) := by decide

/-- V-M2 -/
theorem test_mpy_minus_one_squared : arith .mpy 0x8000000000000 (acc 0x100000000000 0x0 0 false false) = some (acc 0x40000000000 0x0 1 false false) := by decide +kernel

/-- V-M3 -/
theorem test_mpy_exponent_overflow : arith .mpy 0x400000000003F (acc 0x80000000000 0x0 100 false false) = some (acc 0x40000000000 0x0 (-93) false true) := by decide +kernel

/-- V-D1 -/
theorem test_div_one_by_three : arith .div 0x6000000000001 (acc 0x40000000000 0x0 1 false false) = some (acc 0x55555555555 0x0 0 false false) := by decide

/-- V-D7 -/
theorem test_div_exponent_overflow : arith .div 0x2000000000000 (acc 0x80000000000 0x0 127 false false) = some (acc 0x80000000000 0x0 (-128) false true) := by decide

/-- V-D4 -/
theorem test_ndv_one_by_one : arith .ndv 0x2000000000001 (acc 0x40000000000 0x0 1 false false) = some (acc 0x100000000000 0x0 0 false false) := by decide

/-- V-D5, for NDV -/
theorem test_ndv_by_zero : arith .ndv 0x40 (acc 0x40000000000 0x0 1 false false) = some (acc 0x40000000000 0x0 1 false true) := by decide

/-- V-D9 -/
theorem test_vid_three_by_two : arith .vid 0x6000000000001 (acc 0x80000000000 0x0 1 false false) = some (acc 0x60000000000 0x0 1 false false) := by decide

/-- V-D11, with the interchange of D22 -/
theorem test_vid_zero_accumulator : arith .vid 0x6000000000001 (acc 0x0 0x0 0 true false) = some (acc 0xC0000000000 0x0 1 true true) := by decide

/-- V-D12 -/
theorem test_dav : arith .dav 0x2000000000001 (acc 0x140000000000 0x0 1 false false) = some (acc 0x80000000000 0x0 1 false false) := by decide

/-- V-S1 -/
theorem test_str_normalizes : stores .str (acc 0x5 0x0 22 false false) 0 = some (0x2800000000002, (acc 0x50000000000 0x0 2 false false)) := by decide

/-- V-S22 -/
theorem test_str_exponent_64 : stores .str (acc 0x80000000000 0x0 64 false false) 0 = some (0x4000000000040, (acc 0x80000000000 0x0 64 false true)) := by decide

/-- V-S2 -/
theorem test_stu_does_not_normalize : stores .stu (acc 0x5 0x0 22 false false) 0 = some (0x0000000000296, (acc 0x5 0x0 22 false false)) := by decide

/-- V-S4 -/
theorem test_stn_of_one : stores .stn (acc 0x40000000000 0x0 1 false false) 0 = some (0x8000000000000, (acc 0x100000000000 0x0 0 false false)) := by decide

/-- V-S5 -/
theorem test_stn_of_minus_sixteen : stores .stn (acc 0x100000000000 0x0 2 false false) 0 = some (0x2000000000003, (acc 0x40000000000 0x0 3 false false)) := by decide

/-- V-S9 -/
theorem test_stf_no_overflow : stores .stf (acc 0xC0000000000 0x0 (-1) false false) 0 = some (0x1800000000000, (acc 0x30000000000 0x0 0 false false)) := by decide +kernel

/-- V-S7 -/
theorem test_stf_of_one : stores .stf (acc 0x40000000000 0x0 1 false false) 0 = some (0x8000000000000, (acc 0x100000000000 0x0 0 false true)) := by decide +kernel

/-- V-S14: the exponent of the number in F1 is 3 -/
theorem test_seq : ends (exec (.seq (.fast 2)) ((start (acc 0x0A0000000000 0 1 false false) 0).setF 1 3))
    (fun t => t.getF 2 == 0x0500000000003 && t.acc == acc 0x00A000000000 0 3 false false) = true := by decide +kernel

/-- V-S18 -/
theorem test_xch : ends (exec (.xch (.core (.fixed 200))) (start (acc 0x0C0000000000 0 1 false false) 0x4000000000000))
    (fun t => t.coreWord 200 == 0x6000000000001 && t.getF 0 == 0x6000000000001 && t.getF 1 == 0x4000000000000 &&
      t.acc == acc 0x080000000000 0 0 false false) = true := by decide

/-- V-S11 -/
theorem test_sif_of_three : stores .sif (acc 0xC0000000000 0x0 1 false false) 0 = some (0x0000000000196, (acc 0x3 0x0 22 false false)) := by decide

/-- V-S13 -/
theorem test_sif_overflow : stores .sif (acc 0x40000000000 0x0 23 false false) 0 = some (0x8000000000016, (acc 0x100000000000 0x0 22 false true)) := by decide

/-- V-S15 -/
theorem test_stl : stores .stl (acc 0x123456789ABC 0x0 (-100) false false) 0 = some (0x91A2B3C4D5E1C, (acc 0x123456789ABC 0x0 (-100) false false)) := by decide

/-- V-S16 -/
theorem test_stq : stores .stq (acc 0x0 0x23456789ABC (-100) false false) 0 = some (0x11A2B3C4D5E1C, (acc 0x0 0x23456789ABC (-100) false false)) := by decide

/-- V-S17 -/
theorem test_stc_keeps_the_rounding_error : stores .stc (acc 0xAAAAAAAAAAA 0xC0000000000 3 false false) 0 = some (0x5555555555583, (acc 0x1C0000000000 0x0 (-19) false false)) := by decide +kernel

/-- V-S19 -/
theorem test_asc : stores .asc (acc 0x40000000000 0x0 1 false false) 0x2000000000001 = some (0x4000000000001, (acc 0x0 0x0 (-21) true false)) := by decide +kernel

/-- V-S20 -/
theorem test_ssc : stores .ssc (acc 0xC0000000000 0x0 1 false false) 0x2000000000001 = some (0x4000000000001, (acc 0x0 0x0 (-21) true false)) := by decide +kernel

/-- SRM after a divide: R115, R151; and V-D6, the remainder of a by-pass -/
theorem test_srm : ends (exec (.srm (.fast 2)) { start (acc 1 2 3 false false) 0 with divLast := true, r := 5, es := 64 })
    (fun t => t.getF 2 == 0x00000000002C0 && t.acc == acc 1 2 3 false true) = true ∧
    ends (exec (.srm (.fast 2)) { start (acc 1 2 3 false false) 0 with divLast := true, r := 0, es := -64 })
    (fun t => t.getF 2 == 0x40 && t.acc == acc 1 2 3 false false) = true := by decide

/-- V-E2 -/
theorem test_cae_right_eight_digits : shifts .cae 255 (acc 0x80000000000 0x0 0 false false) = some (acc 0x80000000000 0x0 (-1) false false) := by decide

/-- V-E3 -/
theorem test_cse : shifts .cse 5 (acc 0x80000000000 0x0 0 false false) = some (acc 0x80000000000 0x0 (-5) false false) := by decide

/-- V-E4 -/
theorem test_ade : shifts .ade 8190 (acc 0x80000000000 0x0 3 false false) = some (acc 0x80000000000 0x0 1 false false) := by decide

/-- V-E6 -/
theorem test_sbe_overflow : shifts .sbe 128 (acc 0x80000000000 0x0 0 false false) = some (acc 0x80000000000 0x0 (-128) false true) := by decide

/-- V-E7 -/
theorem test_sbe_underflow : shifts .sbe 1 (acc 0x80000000000 0x0 (-128) false false) = some (acc 0x80000000000 0x0 127 true false) := by decide

/-- V-E8 -/
theorem test_ars_without_sign : shifts .ars 1 (acc 0x100000000000 0x0 0 false false) = some (acc 0x40000000000 0x0 0 false false) := by decide

/-- V-E9 -/
theorem test_ars_left : shifts .ars 126 (acc 0x5 0x0 0 false false) = some (acc 0x50 0x0 0 false false) := by decide

/-- V-E10 -/
theorem test_lrs_into_q : shifts .lrs 1 (acc 0x5 0x0 0 false false) = some (acc 0x1 0x40000000000 0 false false) := by decide

/-- V-E11 -/
theorem test_sex : ends (exec (.sex 3 0) (start (acc 0x080000000000 0 (-3) false false) 0))
    (fun t => t.getF 0 == 0x4000000001FFD && t.getM 3 == 8189) = true := by decide

/-- V-E13 and V-E14 -/
theorem test_sia : ends (exec (.sia 0 0) (start (acc 0x140000000000 0 1 false false) 0))
    (fun t => t.getF 0 == 0xFFE8000000006 && t.getM 0 == 8189 && t.acc == acc 0x1FFD00000000 0 6 false false) = true ∧
    ends (exec (.sia 0 0) (start (acc 0x040000000000 0 7 false false) 0))
    (fun t => t.getM 0 == 4096 && t.acc == acc 0x100000000000 0 6 false true) = true := by decide

/-- X9 (2.5, M1), and the pseudocode of R168 on 1/2·4^0, whose corner case says otherwise (log 31). -/
theorem test_sia_keeps_fraction : ends (exec (.sia 1 0) (start (acc 0x0A0000000000 0 1 false false) 0))
    (fun t => t.getF 0 == 0x0014000000006 && t.getM 1 == 0x1000 && t.acc == acc 0x000280000000 0 6 false false) = true ∧
    ends (exec (.sia 0 0) (start (acc 0x080000000000 0 0 false false) 0))
    (fun t => t.getF 0 == 0x0004000000006 && t.getM 0 == 0 && t.acc == acc 0x000080000000 0 6 false false) = true := by decide

/-! Operand preparation (95_test_vectors 2.2). -/

/-- V-O2: the count wraps, and the operand was at the address before the count -/
theorem test_counted_operand : ends (exec (.cad (.core (.counted 7))) ((State.reset.setCore 8191 0x2000000000001).setM 7 8191))
    (fun t => t.getM 7 == 0 && t.getF 1 == 0x2000000000001 && t.cc == ⟨0, 1⟩) = true := by decide

/-- V-O4: the sum wraps -/
theorem test_indexed_operand : ends (exec (.cad (.core (.indexed 4 600))) ((State.reset.setCore 408 0x2000000000001).setM 4 8000))
    (fun t => t.getF 1 == 0x2000000000001 && t.cc == ⟨0, 2⟩) = true := by decide

/-- V-O5: the pending amount is taken from the address and used up -/
theorem test_pending_amount : ends (exec (.cad (.core (.fixed 100))) { State.reset.setCore 95 0x2000000000001 with na := -5 })
    (fun t => t.getF 1 == 0x2000000000001 && t.na == 0) = true := by decide

/-- V-O8, V-O8b -/
theorem test_immediate_operands :
    ends (exec (.cad (.integer 8191)) State.reset) (fun t => t.getF 1 == 0xFFF8000000006 && t.acc == acc 0x1FFF00000000 0 6 false false) = true ∧
    ends (exec (.cad (.fraction 3)) State.reset) (fun t => t.getF 1 == 0x0018000000000 && t.acc == acc 0x000300000000 0 0 false false) = true := by
  decide

/-- V-O11, X4: a store into F6 -/
theorem test_register_store : ends (exec (.str (.fast 6)) (start (acc 0x0C0000000000 0 1 false false) 0))
    (fun t => t.getF 0 == 0x6000000000001 && t.getF 6 == 0x6000000000001 && t.getM 8 == 0x0C00 && t.getM 11 == 1) = true := by decide

/-! Interplay, address and special-register orders (95_test_vectors 2.9). -/

/-- V-I1, V-I4, V-I5 -/
theorem test_interrupts :
    interrupted (exec (.pid (.addr (.fixed 5))) State.reset) = some .illegalOrder ∧
    interrupted (exec (.cad (.core (.fixed 800))) (State.reset.setBusy 3 true)) = some .busyBlock ∧
    interrupted (exec (.str (.core (.fixed 800))) (State.reset.setBusy 3 true)) = some .busyBlock ∧
    interrupted (exec (.str (.fast 1)) State.reset) = some .illegalOrder := by decide

/-- PID and POD with channel 3, detail 5 (R172, R175) -/
theorem test_pid_pod :
    ends (exec (.pid (.addr (.fixed 773))) { State.reset with intMode := true }) (fun t => t.prepared == ⟨.input, 3, 5⟩) = true ∧
    ends (exec (.pod (.addr (.fixed 773))) { State.reset with intMode := true }) (fun t => t.prepared == ⟨.output, 3, 5⟩) = true := by decide

/-- V-I2, V-I3 -/
theorem test_bbf_fbf :
    ends (exec (.bbf (.addr (.fixed 768))) { State.reset with intMode := true }) (fun t => t.isBusy 3 && !t.isBusy 2) = true ∧
    ends (exec (.fbf (.addr (.fixed 1023))) { State.reset.setBusy 3 true with intMode := true }) (fun t => !t.isBusy 3) = true := by decide

/-- The drum takes its whole block, another device the rest of its block (R176) -/
theorem test_ibt :
    ends (exec (.ibt (.addr (.fixed 775))) { State.reset with intMode := true })
      (fun t => t.channel 0 == some ⟨.input, 0, 768, 1023⟩) = true ∧
    ends (exec (.ibt (.addr (.fixed 775))) { State.reset with intMode := true, prepared := ⟨.output, 4, 9⟩ })
      (fun t => t.channel 4 == some ⟨.output, 9, 775, 1023⟩) = true := by decide

/-- V-I7 to V-I11 -/
theorem test_address_orders :
    ends (exec (.lin (.addr (.fixed 3))) State.reset) (fun t => t.getF 1 == 0x001800C006003) = true ∧
    ends (exec (.atn (.addr (.direct 2))) (State.reset.setM 2 10)) (fun t => t.na == 10) = true ∧
    ends (exec (.sfn (.addr (.direct 3))) (State.reset.setM 3 5)) (fun t => t.na == 8187) = true ∧
    ends (exec (.orb (.addr (.direct 2))) (State.reset.setM 2 0x1FF3)) (fun t => t.nb == 3) = true ∧
    ends (exec (.jlh (.addr (.direct 0))) { State.reset.setM 0 500 with na := 8000 }) (fun t => t.cc == ⟨308, 0⟩) = true := by
  decide

/-- V-I12 to V-I14 -/
theorem test_special_registers :
    ends (exec (.asn 0) { State.reset with tapeIn := [0x41, 1] }) (fun t => t.na == 65 && t.tapeIn == [1]) = true ∧
    ends (exec (.ssn 0) { State.reset with tapeIn := [0x41] }) (fun t => t.na == 8127) = true ∧
    ends (exec (.ssr 0) { State.reset with na := 194 }) (fun t => t.tapeOut == [66] && t.na == 0) = true := by decide

/-! Jumps (95_test_vectors 2.10). -/

/-- V-J1 to V-J3 -/
theorem test_held_jumps :
    ends (exec (.cjf 3 1) { State.reset.setM 3 8190 with cc := ⟨66, 1⟩, ip := 33 }) (fun t => t.getM 3 == 8191 && t.cc == ⟨66, 1⟩) = true ∧
    ends (exec (.cjf 3 1) { State.reset.setM 3 8191 with cc := ⟨66, 1⟩, ip := 33 }) (fun t => t.getM 3 == 0 && t.cc == ⟨66, 2⟩) = true ∧
    ends (exec (.cjs 3 0) { State.reset.setM 3 5 with cc := ⟨66, 1⟩, ip := 33 }) (fun t => t.getM 3 == 6 && t.cc == ⟨67, 0⟩) = true := by
  decide

/-- V-J4 to V-J6 -/
theorem test_counting_jumps :
    ends (exec (.cju 2 0 100) { State.reset.setM 2 8189 with cc := ⟨10, 0⟩ }) (fun t => t.getM 2 == 8190 && t.cc == ⟨100, 0⟩) = true ∧
    ends (exec (.cju 2 0 100) { State.reset.setM 2 8191 with cc := ⟨10, 0⟩ }) (fun t => t.getM 2 == 0 && t.cc == ⟨10, 2⟩) = true ∧
    ends (exec (.cjz 2 3 100) { State.reset.setM 2 8191 with cc := ⟨10, 3⟩ }) (fun t => t.getM 2 == 0 && t.cc == ⟨100, 3⟩) = true := by
  decide

/-- V-J7 to V-J9 -/
theorem test_modifier_jumps :
    ends (exec (.jpm 5 2 300) (State.reset.setM 5 4095)) (fun t => t.cc == ⟨300, 2⟩) = true ∧
    ends (exec (.jpm 5 2 300) (State.reset.setM 5 4096)) (fun t => t.cc == ⟨0, 2⟩) = true ∧
    ends (exec (.jnm 5 2 300) (State.reset.setM 5 4096)) (fun t => t.cc == ⟨300, 2⟩) = true ∧
    ends (exec (.jzm 5 0 300) State.reset) (fun t => t.cc == ⟨300, 0⟩) = true ∧
    ends (exec (.jum 5 0 300) State.reset) (fun t => t.cc == ⟨0, 2⟩) = true := by decide

/-- V-J10, V-J11 -/
theorem test_jsb :
    ends (exec (.jsb 15 0 500) { State.reset with cc := ⟨40, 3⟩ }) (fun t => t.getM 15 == 42 && t.cc == ⟨500, 0⟩) = true ∧
    ends (exec (.jsb 15 0 500) { State.reset with cc := ⟨8191, 3⟩ }) (fun t => t.getM 15 == 1) = true := by decide

/-- V-J12 to V-J15 -/
theorem test_jdc :
    [(2, true), (3, false), (15, true)].all (fun p => ends
      (exec (.jdc (readCondition p.1) 0 200) (start (acc 0x100000000000 0 0 true false) 0))
      (fun t => (t.cc == ⟨200, 0⟩) == p.2)) = true ∧
    ends (exec (.jdc .ovOnClear 2 64) (start (acc 0 0 0 true true) 0)) (fun t => t.cc == ⟨64, 2⟩ && !t.acc.ov) = true ∧
    ends (exec (.jdc .ovOffClear 0 64) (start (acc 0 0 0 true true) 0)) (fun t => t.cc == ⟨0, 2⟩ && !t.acc.ov) = true ∧
    ends (exec (.jdc .leaveInterrupt 0 200) { State.reset with intMode := true }) (fun t => t.cc == ⟨200, 0⟩ && !t.intMode) = true := by
  decide

/-- V-J17 -/
theorem test_hlt :
    ends (exec (.hlt 0 0) State.reset) (fun t => t.stopped && t.cc == ⟨0, 1⟩) = true ∧
    ends (exec (.hlt 0 0) { State.reset with black := .down }) (fun t => !t.stopped) = true := by decide

/-! Fast-register and modifier orders (95_test_vectors 2.11). -/

/-- V-F1, V-F2 -/
theorem test_ldm_sqw :
    ends (exec (.ldm 9 0 300) (State.reset.setCore 300 0x0008008006004)) (fun t => t.getM 9 == 2) = true ∧
    ends (exec (.sqw 4 3 300) ((State.reset.setCore 300 0x0008008006004).setM 3 0x1ABC)) (fun t => t.coreWord 300 == 0x0008008007ABC) = true := by
  decide

/-- V-F3, V-F4 -/
theorem test_lfr_sfr :
    ends (exec (.lfr 4 (some 64) false) (State.reset.setCore 64 0x0008008006004))
      (fun t => [t.getM 0, t.getM 1, t.getM 2, t.getM 3] == [1, 2, 3, 4]) = true ∧
    ends (exec (.sfr 0 (some 65) false) (State.reset.setF 0 0x6000000000001)) (fun t => t.coreWord 65 == 0x6000000000001) = true := by
  decide

/-- V-F6: the twelve with M0 = 0x00FF and the address 0x0F0F -/
theorem test_modifier_arithmetic :
    ([(.cam, 0x0F0F), (.csm, 0x10F1), (.adm, 0x100E), (.sbm, 0x11F0), (.cnm, 0x10F0), (.crm, 0x183F), (.anm, 0x000F),
      (.orm, 0x0FFF), (.eom, 0x0FF0), (.eqm, 0x100F), (.nam, 0x00F0), (.nom, 0x10FF)] :
      List ((BitVec 4 → Option Addr → Bool → Instr) × BitVec 13)).all (fun p =>
      ends (exec (p.1 0 (some 0x0F0F) false) (State.reset.setM 0 0x00FF)) (fun t => t.getM 0 == p.2)) = true := by decide

/-- V-F7, V-F11: the next address, and the pending amount as the address of a short order -/
theorem test_modifier_pending :
    ends (exec (.adm 5 (some 100) true) (State.reset.setM 5 50)) (fun t => t.getM 5 == 50 && t.na == 150) = true ∧
    ends (exec (.cam 0 none false) { State.reset with na := 65 }) (fun t => t.getM 0 == 65 && t.na == 0) = true := by decide

/-! A step. -/

/-- X2 and V-O6 in one step: ORB's digits change the B of the order fetched, here LDM 4 into LDM 7 -/
theorem test_step_with_pending_b :
    ends (step { (State.reset.placeOrder [0x0E50, 50]).setCore 50 0x0008008006004 with
        nb := 3, fast := ((State.reset.placeOrder [0x0E50, 50]).loadPair 0).fast })
      (fun t => t.getM 7 == 4 && t.getM 4 == 0 && t.nb == 0 && t.cc == ⟨0, 2⟩) = true := by decide

/-- A long order that begins in the last quarter of a pair takes its N from the next pair (R41, R52) -/
theorem test_step_across_pairs :
    ends (step (State.withFetchWord { State.reset with cc := ⟨1, 3⟩ } 26 (0x13E3 + 22 * 8192)))
      (fun t => t.acc.e == 22 && t.cc == ⟨2, 1⟩ && t.ip == 1) = true := by decide

/-- A non-existent order, with and without an interrupt to take (V-X1, V-X2) -/
theorem test_step_nonexistent :
    interrupted (step (State.withFetchWord State.reset 13 0x1FC0)) = some .illegalOrder ∧
    (step (State.withFetchWord { State.reset with intMode := true } 13 0x1FC0) matches .fault (.nonexistentUninterruptible 127)) = true := by
  decide
/-! For each statement with hypotheses: a state and operands that meet all of them, at the edges of its clauses. -/

/-- Core address 200 as operand and as destination. -/
def a200 : NormalAddr := .fixed 200

/-- What every statement about an arithmetic order asks of the state. -/
def Meets (x : Acc) (w : Word) : Prop := (start x w).canRead (.core a200) ∧ (start x w).quiet

theorem start_free (x : Acc) (w : Word) : (start x w).violation ((start x w).address a200) = false := by
  have h : State.reset.violation (State.reset.address a200) = false := by decide
  exact h

theorem meets (x : Acc) (w : Word) : Meets x w := ⟨fun a h => by cases h; exact start_free x w, .inl rfl⟩

/-- What every statement about a store order asks of the state, at a core and at a register destination. -/
def MeetsStore (x : Acc) (w : Word) : Prop :=
  Mem.wf (start x w).core = true ∧ (start x w).canStore (.core a200) ∧ (start x w).canStore (.fast 0) ∧
  (start x w).canStore (.fast 7) ∧ (start x w).quiet

theorem meetsStore (x : Acc) (w : Word) : MeetsStore x w := by
  refine ⟨?_, start_free x w, rfl, rfl, .inl rfl⟩
  exact State.wf_setCore (s := State.reset) rfl 200 w

/-- The exponent of the accumulator less that of the word at 200. -/
def gap (x : Acc) (w : Word) : Int := (start x w).acc.eInt - yval ((start x w).operandWord (.core a200))

theorem test_witness_DecodeOfEncode :
    WellFormed (.cad (.zero 11)) = true ∧ WellFormed (.cad (.zero 15)) = true ∧ WellFormed (.str (.fast 7)) = true ∧
    WellFormed (.str (.fast 9)) = true ∧ WellFormed (.cae (.noAddress 15)) = true := by decide

theorem test_witness_EncodeOfDecode : reads [0x10A3, 200, 0x0CC0] = some (.cad (.core (.fixed 200)), [0x0CC0]) := by decide

/-- HLT in the last place of the first pair, with the pair held; and the state that holds no pair of cc. -/
def atHlt : State := State.withFetchWord { State.reset with cc := ⟨1, 3⟩ } 13 0x0CC0

/-- A long order, CAE 8,3,22: in one word, across the two words of a pair, and across two pairs. -/
def caeAt (w : Addr) (g : BitVec 2) : State :=
  State.withFetchWord { State.reset with cc := ⟨w, g⟩ } 26 (0x13E3 + 22 * 8192)

def atCae : State := caeAt 1 3

/-- A word that channel 4 moves into core word 5. -/
def withMove (s : State) : State :=
  { s.setChannel 4 (some ⟨.input, 0, 5, 255⟩) with inside := [[⟨4, 7, false⟩]] }

theorem held_plain {s : State} (h : s.holds s.cc.word = true)
    (h1 : s.getF (s.heldIndex s.cc.word) = s.coreWord s.cc.word) (h2 : s.jumped = false) : s.plainFetch s.cc.word := by
  rw [State.plainFetch, if_pos h]
  exact ⟨h1, fun hj => by rw [h2] at hj; cases hj⟩

theorem test_witness_StepObeysDecodedOrder :
    (atHlt.events = [] ∧ atHlt.stopped = false ∧ atHlt.plainFetch atHlt.cc.word ∧ atHlt.holds atHlt.cc.word = true ∧
      reads [orB (atHlt.groupAt atHlt.cc) atHlt.nb] = some (.hlt 0 0, [])) ∧
    ((withMove (caeAt 0 2)).plainFetch 0 ∧ (caeAt 0 2).cc.group ≠ 3 ∧
      reads [orB ((caeAt 0 2).groupAt ⟨0, 2⟩) 0, (caeAt 0 2).groupAt ⟨0, 3⟩] = some (.cae (.addr (.fixed 22)), [])) ∧
    (atCae.events = [] ∧ atCae.stopped = false ∧ atCae.plainFetch atCae.cc.word ∧ atCae.cc.group = 3 ∧
      reads [orB (atCae.groupAt atCae.cc) atCae.nb, (atCae.afterHolding atCae.cc.word).interlude.groupAt atCae.cc.succ] =
        some (.cae (.addr (.fixed 22)), []) ∧
      (atCae.afterHolding atCae.cc.word).interlude.plainFetch atCae.cc.succ.word ∧
      (atCae.afterHolding atCae.cc.word).interlude.holds atCae.cc.succ.word = false) := by
  refine ⟨⟨rfl, rfl, held_plain (by decide) (by decide) rfl, by decide, by decide⟩,
    ⟨held_plain (s := withMove (caeAt 0 2)) (by decide) (by decide) rfl, by decide, by decide⟩,
    rfl, rfl, held_plain (by decide) (by decide) rfl, by decide, by decide, ?_, by decide⟩
  rw [State.plainFetch, if_neg (by decide)]
  exact ⟨by decide, fun _ => rfl⟩

theorem test_witness_StepRefusesNonexistentOrder (m : Bool) :
    let s := State.withFetchWord { State.reset with intMode := m } 13 0x0400
    s.events = [] ∧ s.stopped = false ∧ s.plainFetch s.cc.word ∧ orderClass (groupF (s.groupAt s.cc)) = none ∧
      s.intMode = m := by
  refine ⟨rfl, rfl, ?_, by cases m <;> decide, by cases m <;> decide⟩
  rw [State.plainFetch, if_pos (by cases m <;> decide)]
  exact ⟨by cases m <;> decide, fun h => by cases h⟩

theorem test_witness_HeldCopyOrCoreWord (j : Bool) :
    (let s := { atHlt.setF 9 0x0CC7 with jumped := j }
     s.events = [] ∧ s.stopped = false ∧ s.jumped = j ∧ s.holds s.cc.word = true ∧
     s.getF (s.heldIndex s.cc.word) ≠ s.coreWord s.cc.word ∧ s.undisturbed ∧ s.violation s.cc.word = false ∧
     (s.setBusy 0 true).violation s.cc.word = true ∧
     s.readsIn (s.getF (s.heldIndex s.cc.word)) (.hlt 1 3) ∧ s.readsIn (s.coreWord s.cc.word) (.hlt 0 0)) ∧
    (let s := { (caeAt 0 2).setF 8 (0x13E3 * 8192 + 23) with jumped := j }
     s.holds s.cc.word = true ∧ s.getF (s.heldIndex s.cc.word) ≠ s.coreWord s.cc.word ∧
     s.readsIn (s.getF (s.heldIndex s.cc.word)) (.cae (.addr (.fixed 23))) ∧
     s.readsIn (s.coreWord s.cc.word) (.cae (.addr (.fixed 22)))) := by
  cases j <;>
    exact ⟨⟨rfl, rfl, rfl, by decide, by decide, rfl, by decide, by decide, .inl rfl, .inl rfl⟩,
      by decide, by decide, .inr ⟨by decide, rfl⟩, .inr ⟨by decide, rfl⟩⟩

/-- CAE 8,3,22 across the two words of a pair, whose held second word says 23. -/
theorem test_witness_HeldCopyOrCoreWord_across :
    let s := (caeAt 0 3).setF 9 (23 * 2 ^ 39)
    let ord : Word → Word → Instr := fun _ v' => .cae (.addr (.fixed (quarter v' 0)))
    s.events = [] ∧ s.stopped = false ∧ s.holds s.cc.word = true ∧ s.jumped = false ∧ s.cc.group = 3 ∧
    s.holds s.cc.succ.word = true ∧
    ∀ v ∈ [s.getF (s.heldIndex s.cc.word), s.coreWord s.cc.word],
      ∀ v' ∈ [s.getF (s.heldIndex s.cc.succ.word), s.interlude.coreWord s.cc.succ.word],
      decode [orB (quarter v 3) s.nb, quarter v' 0] = .ok (ord v v', []) := by
  refine ⟨rfl, rfl, by decide, rfl, rfl, by decide, ?_⟩
  intro v hv v' hv'
  simp only [List.mem_cons, List.not_mem_nil, or_false] at hv hv'
  rcases hv with rfl | rfl <;> rcases hv' with rfl | rfl <;> rfl

/-- A transfer on channel 4 at the last word but one of its block, or at the last. -/
def moving (d : Direction) (next : Addr) : State :=
  { State.reset.setChannel 4 (some ⟨d, 9, next, 1023⟩) with events := [.transfer 4 7 false] }

theorem test_witness_TransferMovesOneWord :
    ([(.input, 1022), (.input, 1023), (.output, 1022), (.output, 1023)] : List (Direction × Addr)).all (fun p =>
      Mem.wf (moving p.1 p.2).core && (moving p.1 p.2).events == [.transfer 4 7 false] &&
      (moving p.1 p.2).params.interplayPresent && (moving p.1 p.2).channel 4 == some ⟨p.1, 9, p.2, 1023⟩ &&
      (moving p.1 p.2).params.fixedBlock 4 == false) = true ∧
    (withMove State.reset).inside = [⟨4, 7, false⟩] :: [] := by decide

/-- A stop indication ends a transfer, but not on a device with fixed blocks (R247). -/
theorem test_stop_indication (fixed : Bool) :
    ends (step { moving .input 1022 with
        params := { Params.finalMachine with fixedBlocks := Vector.replicate 32 fixed }, events := [.transfer 4 7 true] })
      (fun t => t.coreWord 1022 == 7 && t.blockDone == !fixed && (t.channel 4).isNone == !fixed) = true := by
  cases fixed <;> decide

/-- XCH with a word that channel 4 moves between the read and the write: one to the same place is lost, one to another stands (R57, D20). -/
theorem test_xch_is_not_atomic :
    ([200, 201] : List Addr).all (fun n =>
      ends (exec (.xch (.core (.fixed 200)))
          { (start (acc 0x0C0000000000 0 1 false false) 0x4000000000000).setChannel 4 (some ⟨.input, 0, n, 255⟩) with
            inside := [[⟨4, 7, false⟩]] })
        (fun t => t.coreWord 200 == 0x6000000000001 && t.getF 1 == 0x4000000000000 &&
          t.coreWord 201 == (if n = 201 then 7 else 0) && t.channel 4 == some ⟨.input, 0, n + 1, 255⟩ &&
          t.inside == [])) = true := by decide

theorem test_witness_OutsideInterrupts (m : Bool) :
    ({ State.reset with events := [.clock], intMode := m } : State).events = [.clock] ∧
    ({ State.reset with events := [.malfunction], engineering := m } : State).events = [.malfunction] ∧
    ({ State.reset with events := [.blockDone], blockDone := m } : State).events = [.blockDone] := ⟨rfl, rfl, rfl⟩

/-- Malfunction and BlockDone with and without Interplay, and with the indicator on and off (R231, R233, D31). -/
theorem test_interplay_interrupts :
    ([(true, true), (true, false), (false, true)] : List (Bool × Bool)).all (fun p =>
      let s := { State.reset with params := { Params.finalMachine with interplayPresent := p.1 }, blockDone := p.2 }
      interrupted (step { s with events := [.malfunction] }) == (if p.1 then some .malfunction else none) &&
      interrupted (step { s with events := [.blockDone] }) == (if p.1 && p.2 then some .blockDone else none)) = true := by
  decide

theorem test_witness_StopAndRelease :
    ({ State.reset with stopped := true } : State).stopped = true ∧ State.reset.events = [] ∧
    ({ State.reset with stopped := true, events := [.black .up, .black .center] } : State).events =
      .black .up :: .black .center :: [] := ⟨rfl, rfl, rfl⟩

/-- The same for each of the host's other events, and for a release that is none. -/
theorem test_witness_StopAndRelease_host :
    (∀ e ∈ [Event.green .center, .engineering true, .interplayLegal true, .tape 5, .black .down],
      ({ State.reset with events := [e] } : State).events = e :: []) ∧
    ends (step { State.reset with stopped := true, events := [.black .down] }) State.stopped = true :=
  ⟨fun _ _ => rfl, by decide⟩

/-- Word 5000 is word 904 with one memory, and not with two. -/
theorem test_witness_CoreReadAndWrite :
    coreIndex State.reset.params 5000 ≠ coreIndex State.reset.params 904 ∧
    coreIndex { Params.finalMachine with twoMemories := false } 5000 =
      coreIndex { Params.finalMachine with twoMemories := false } 904 ∧
    Mem.wf State.reset.core = true ∧ State.reset.violation 8191 = false ∧
    (State.reset.setBusy 31 true).violation 7936 = true ∧ (State.reset.setBusy 31 true).violation 7935 = false := by decide

theorem test_witness_BusyOperandRefused :
    (fun o => Instr.dav o) ∈ arithOrders ∧
    (State.reset.setBusy 3 true).violation ((State.reset.setBusy 3 true).address (.fixed 1023)) = true ∧
    (State.reset.setBusy 3 true).violation (768 + (State.reset.setBusy 3 true).na) = true ∧
    ({ State.reset.setBusy 31 true with na := 8191 } : State).violation ((none : Option Addr).getD 0 + 8191) = true ∧
    2 ≤ (2 : BitVec 4).toNat ∧ (7 : BitVec 4).toNat < 8 := by
  refine ⟨?_, by decide, by decide, by decide, by decide, by decide⟩
  simp [arithOrders]

/-- A jump to word 768 of the busy block 3; and a long order in words 767 and 768. -/
theorem test_witness_BusyOperandRefused_fetch :
    (let s := { State.reset.setBusy 3 true with cc := ⟨768, 0⟩, jumped := true }
     s.events = [] ∧ s.stopped = false ∧ s.holds s.cc.word = false ∧ s.violation s.cc.word = true) ∧
    (let s := (caeAt 767 3).setBusy 3 true
     s.events = [] ∧ s.stopped = false ∧ s.plainFetch s.cc.word ∧ s.cc.group = 3 ∧
     orderClass (groupF (s.groupAt s.cc)) = some .normalAddr ∧
     OrderClass.normalAddr.isLong (groupB (orB (s.groupAt s.cc) s.nb)) (groupC (s.groupAt s.cc)) = true ∧
     (s.afterHolding s.cc.word).holds s.cc.succ.word = false ∧ s.violation s.cc.succ.word = true) :=
  ⟨⟨rfl, rfl, by decide, by decide⟩, rfl, rfl, held_plain (s := (caeAt 767 3).setBusy 3 true) (by decide) (by decide) rfl,
    rfl, by decide, by decide, by decide, by decide⟩

theorem test_witness_BusyStoreRefused :
    (fun d => Instr.ssc d) ∈ storeOrders ∧
    (State.reset.setBusy 3 true).violation ((State.reset.setBusy 3 true).address (.fixed 768)) = true ∧
    sourceIllegal 0 = false ∧ sourceIllegal 7 = false ∧
    (State.reset.setBusy 3 true).violation (768 + (State.reset.setBusy 3 true).na) = true ∧
    ({ State.reset.setBusy 0 true with na := 8191 } : State).violation ((none : Option Addr).getD 1 + 8191) = true := by
  refine ⟨?_, by decide, by decide, by decide, by decide, by decide⟩
  simp [storeOrders]

theorem test_witness_IllegalFormsStop :
    IllegalForm (.str (.fast 1)) ∧ IllegalForm (.str (.fast 9)) ∧ IllegalForm (.ssc (.fast 15)) ∧
    IllegalForm (.cae (.noAddress 0)) ∧ IllegalForm (.pid (.noAddress 9)) ∧ IllegalForm (.sqw 1 0 0) ∧
    IllegalForm (.sqw 8 0 0) ∧ IllegalForm (.sfr 1 none false) ∧ IllegalForm (.sfr 8 none false) ∧
    IllegalForm (.lfr 0 none false) ∧ IllegalForm (.lfr 1 none false) ∧ IllegalForm (.lfr 8 none false) :=
  ⟨.store (by simp [storeOrders]) (by decide), .store (by simp [storeOrders]) (by decide),
    .store (by simp [storeOrders]) (by decide), .address 0 (by simp [freeAddressOrders]),
    .address 9 (by simp [guardedOrders]), .sqw 0 0 (by decide), .sqw 0 0 (by decide), .sfr none false (by decide),
    .sfr none false (by decide), .lfr none false (by decide), .lfr none false (by decide), .lfr none false (by decide)⟩

theorem test_witness_InterplayLegality :
    State.reset.params.interplayPresent = true ∧ State.reset.intMode = false ∧ State.reset.interplayAlways = false ∧
    State.reset.engineering = false ∧ ({ State.reset with intMode := true } : State).intMode = true ∧
    ({ State.reset with interplayAlways := true } : State).interplayAlways = true ∧
    ({ State.reset with engineering := true } : State).engineering = true := by decide

/-- The final machine with OV_INTERRUPTS on. -/
def ovMachine (ov m : Bool) : State :=
  { start (acc 0x080000000000 0 127 false ov) 0x2000000000000 with params := { Params.finalMachine with ovInterrupts := true }, intMode := m }

/-- DIV by 1/4 overflows the exponent: with OV off before and on after, and with OV on before; in and out of the interrupt mode. -/
theorem test_witness_OverflowInterrupts :
    [(false, false), (true, false), (false, true)].all (fun p =>
      (ovMachine p.1 p.2).params.ovInterrupts &&
      ends (exec (.div (.core a200)) { ovMachine p.1 p.2 with params := { (ovMachine p.1 p.2).params with ovInterrupts := false } })
        (fun t => t.acc.ov)) = true := by decide

theorem test_witness_CorrectOverflowDetectZero :
    ([0, 1, -1, 2 ^ 88 - 1, 2 ^ 88, -2 ^ 88, -2 ^ 88 - 1, -2 ^ 90, 2 ^ 90 - 1] : List Int).all
      (fun v => decide (-2 ^ 90 ≤ v) && decide (v < 2 ^ 90)) = true := by decide

theorem test_witness_NormalizationShifts :
    (acc 0x03FFFFFFFFFF 1 0 false false).aInt = 2 ^ 42 - 1 ∧ (acc 0x040000000000 1 0 false false).aInt = 2 ^ 42 ∧
    (acc 0x1C0000000000 1 0 false false).aInt = -2 ^ 42 ∧ (acc 0x1BFFFFFFFFFF 1 0 false false).aInt = -2 ^ 42 - 1 := by decide

/-- a = 1 and q = 2^42: q is 0 after one place with a = 5 not normalized, and the loop goes on to the second place, where it stops at q = 0 (R103). -/
theorem test_partial_norm_tests_q_at_even :
    (acc 1 0x40000000000 3 false false).partialNormalize = acc 20 0 1 false false := by decide

theorem test_witness_RoundOff :
    (acc 1 0x7FFFFFFFFFF 0 false false).qInt = 2 ^ 43 - 1 ∧ (acc 1 0x80000000000 0 false false).qInt = 2 ^ 43 ∧
    (acc 1 0x80000000001 0 false false).qInt = 2 ^ 43 + 1 := by decide

theorem test_witness_OperandNormalized :
    ([0, 1, -1, 2 ^ 42 - 1, 2 ^ 42, -2 ^ 42, -2 ^ 44, 2 ^ 44 - 1] : List Int).all
      (fun x => decide (-2 ^ 44 ≤ x) && decide (x < 2 ^ 44)) = true := by decide

theorem test_witness_StoreConversion :
    ([2 ^ 44, -2 ^ 44, -2 ^ 42, 0, 2 ^ 44 - 1] : List Int).all (fun m => decide (-2 ^ 44 ≤ m) && decide (m ≤ 2 ^ 44)) = true := by
  decide

/-- Fractions -1 and 3/4, and 1/2 less one unit: doubled or negated they leave the range, or do not. -/
theorem test_witness_ClearAddOrders :
    State.reset.params.immDefault = true ∧
    Meets (acc 0 0 0 false false) 0x8000000000000 ∧ Meets (acc 0 0 0 true true) 0x6000000000000 ∧
    Meets (acc 0 0 0 false false) 0x3FFFFFFFFFF80 ∧
    xval 0x8000000000000 = -2 ^ 44 ∧ 2 * xval 0x6000000000000 ≥ 2 ^ 44 ∧ 2 * xval 0x3FFFFFFFFFF80 = 2 ^ 44 - 2 :=
  ⟨rfl, meets _ _, meets _ _, meets _ _, by decide, by decide, by decide⟩

theorem test_witness_LogicOrders : Meets (acc 1 2 3 false false) 0x4000000000000 := meets _ _

/-- Every clause of ADD and SUB: y = -64, Z on, and the gaps -45, -44, -1, 0, 44, 45. -/
theorem test_witness_AddAndSubtract :
    (∀ x w, Meets x w) ∧ yval 0x40 = -64 ∧ (acc 0 0 0 true false).z = true ∧
    gap (acc 1 0 (-45) false false) 0x4000000000000 = -45 ∧ gap (acc 1 0 (-44) false false) 0x4000000000000 = -44 ∧
    gap (acc 1 0 (-1) false false) 0x4000000000000 = -1 ∧ gap (acc 1 0 0 false false) 0x4000000000000 = 0 ∧
    gap (acc 1 0 44 false false) 0x4000000000000 = 44 ∧ gap (acc 1 0 45 false false) 0x4000000000000 = 45 :=
  ⟨meets, by decide, rfl, by decide, by decide, by decide, by decide, by decide, by decide⟩

/-- MPY: Z on, y = -64, and a product that goes on (V-M1, V-M3, V-M4). -/
theorem test_witness_MultiplyOrder :
    (∀ x w, Meets x w) ∧ (acc 1 0 0 true false).partialNormalize.z = true ∧ yval 0x40 = -64 ∧
    (acc 0x080000000000 0 100 false false).partialNormalize.eInt + yval 0x400000000003F = 163 ∧
    (acc 0x080000000000 0 (-100) false false).partialNormalize.eInt + yval 0x4000000000044 = -160 :=
  ⟨meets, by decide, by decide, by decide, by decide⟩

/-- DIV and NDV: x = 0 with Z off and on, Z on, a proper, an equal and an improper quotient, and exponents beyond both ends. -/
theorem test_witness_DivideOrders :
    (∀ x w, Meets x w) ∧ xval 0x40 = 0 ∧ (acc 0 0 0 true false).normalize.z = true ∧
    (acc 0x040000000000 0 1 false false).normalize.aq.natAbs < (xval 0x6000000000001).natAbs * 2 ^ 44 ∧
    (acc 0x040000000000 0 1 false false).normalize.aq.natAbs = (xval 0x2000000000001).natAbs * 2 ^ 44 ∧
    (acc 0x080000000000 0 127 false false).normalize.aq.natAbs > (xval 0x2000000000000).natAbs * 2 ^ 44 ∧
    (acc 0x040000000000 0 (-128) false false).normalize.eInt - yval 0x2000000000001 = -129 :=
  ⟨meets, by decide, by decide, by decide, by decide, by decide, by decide⟩

theorem test_witness_InverseDivideOrder :
    (∀ x w, Meets x w) ∧ (acc 0 0 0 true false).normalize.z = true ∧ xval 0x40 = 0 ∧
    (acc 0x080000000000 0 1 false false).normalize.round.natAbs < (xval 0x6000000000001).natAbs ∧
    (acc 0x0C0000000000 0 1 false false).normalize.round.natAbs = (xval 0x6000000000001).natAbs :=
  ⟨meets, by decide, by decide, by decide, by decide⟩

theorem test_witness_DifferenceAbsoluteOrder :
    (∀ x w, Meets x w) ∧ (acc 0 0 0 true false).partialNormalize.z = true ∧
    gap (acc 1 0 (-45) false false) 0x4000000000000 = -45 ∧ gap (acc 1 0 45 false false) 0x4000000000000 = 45 ∧
    gap (acc 1 0 0 false false) 0x4000000000000 = 0 ∧ gap (acc 1 0 1 false false) 0x4000000000000 = 1 :=
  ⟨meets, by decide, by decide, by decide, by decide, by decide⟩

/-- STR and STU: Z on, Z off, and the exponents 63, 64 and -64 of V-S22 and V-S23. -/
theorem test_witness_NormalStores :
    (∀ x w, MeetsStore x w) ∧ (acc 0 0 0 true false).normalize.z = true ∧
    ([63, 64, -64, -63] : List (BitVec 8)).all (fun e => (acc 0x080000000000 0 e false false).normalize.z == false) = true :=
  ⟨meetsStore, by decide, by decide⟩

theorem test_witness_StoreNegativeOrder :
    (∀ x w, MeetsStore x w) ∧ (acc 0 0 0 true false).normalize.z = true ∧
    (acc 0x040000000000 0 1 false false).normalize.round = 2 ^ 42 ∧
    (acc 0x040000000000 0 (-128) false false).normalize.round = 2 ^ 42 ∧
    (acc 0x100000000000 0 2 false false).normalize.round = -2 ^ 44 :=
  ⟨meetsStore, by decide, by decide, by decide, by decide⟩

/-- STF and SEQ: Z on; shifts of one place to the left, none, and one to the right; the exponent -64 for SEQ. -/
theorem test_witness_FixedPointStores :
    (∀ x w, MeetsStore x w) ∧ (acc 0 0 0 true false).z = true ∧
    ([1, 0, -1] : List (BitVec 8)).all (fun e => decide ((acc 0x0C0000000000 0 e false false).eInt - 0 = e.toInt)) = true ∧
    yval (((start (acc 1 0 0 false false) 0).setF 1 0x40).getF 1) = -64 :=
  ⟨meetsStore, rfl, by decide, by decide⟩

theorem test_witness_IntegerStore :
    (∀ x w, MeetsStore x w) ∧ (acc 0 0 0 true false).z = true ∧
    ([23, 22, 21] : List (BitVec 8)).all (fun e => decide ((acc 0x0C0000000000 0 e false false).eInt - 22 = e.toInt - 22)) = true :=
  ⟨meetsStore, rfl, by decide⟩

theorem test_witness_LogicalStores : MeetsStore (acc 0x123456789ABC 7 (-100) true false) 0 := meetsStore _ _

/-- The state after a divide, or after another order. -/
def afterDivide (b : Bool) (r : BitVec 45) (es : Int) : State := { start (acc 1 2 3 false false) 0 with divLast := b, r := r, es := es }

theorem test_witness_RemainderStored (r : BitVec 45) (es : Int) :
    Mem.wf (afterDivide true r es).core = true ∧ (afterDivide true r es).canStore (.core a200) ∧
    (afterDivide true r es).quiet ∧ (afterDivide true r es).divLast = true := ⟨rfl, start_free (acc 1 2 3 false false) 0, .inl rfl, rfl⟩

theorem test_witness_RemainderFree :
    Mem.wf (afterDivide false 0 0).core = true ∧ (afterDivide false 0 0).canStore (.fast 2) ∧
    (afterDivide false 0 0).quiet ∧ (afterDivide false 0 0).divLast = false := ⟨rfl, rfl, .inl rfl, rfl⟩

theorem test_witness_StoreClearOrder :
    (∀ x w, MeetsStore x w) ∧ (acc 0 0 0 true false).normalize.z = true ∧
    (acc 0x040000000000 0 (-107) false false).normalize.eInt - 22 = -129 ∧
    (acc 0x040000000000 0 (-106) false false).normalize.eInt - 22 = -128 := ⟨meetsStore, by decide, by decide, by decide⟩

theorem test_witness_ExchangeOrder :
    MeetsStore (acc 0x0C0000000000 0 1 false false) 0x4000000000000 ∧ MeetsStore (acc 0 0 0 true false) 0x40 ∧
    (acc 0 0 0 true false).normalize.z = true := ⟨meetsStore _ _, meetsStore _ _, by decide⟩

theorem test_witness_AddStoreClearOrders :
    MeetsStore (acc 0x040000000000 0 1 false false) 0x2000000000001 ∧
    ((start (acc 0x040000000000 0 1 false false) 0x2000000000001).acc.addSub 1
      ((start (acc 0x040000000000 0 1 false false) 0x2000000000001).destWord (.core a200))).normalize.z = false ∧
    ((start (acc 0x040000000000 0 1 false false) 0x2000000000001).acc.addSub (-1)
      ((start (acc 0x040000000000 0 1 false false) 0x2000000000001).destWord (.core a200))).normalize.z = true :=
  ⟨meetsStore _ _, by decide, by decide⟩

/-- The right 8 digits of the addresses 127, 128 and 255 as signed numbers. -/
theorem test_witness_ExponentOrders :
    State.reset.quiet ∧ Int.bmod (State.reset.address (.fixed 127)).toNat 256 = 127 ∧
    Int.bmod (State.reset.address (.fixed 128)).toNat 256 = -128 ∧ Int.bmod (State.reset.address (.fixed 255)).toNat 256 = -1 :=
  ⟨.inl rfl, by decide, by decide, by decide⟩

/-- The right 7 digits of the addresses 0, 63, 64 and 127 as signed numbers. -/
theorem test_witness_ShiftOrders :
    State.reset.quiet ∧ Int.bmod (State.reset.address (.fixed 0)).toNat 128 = 0 ∧
    Int.bmod (State.reset.address (.fixed 63)).toNat 128 = 63 ∧ Int.bmod (State.reset.address (.fixed 64)).toNat 128 = -64 ∧
    Int.bmod (State.reset.address (.fixed 127)).toNat 128 = -1 := ⟨.inl rfl, by decide, by decide, by decide, by decide⟩

theorem test_witness_QuarterStores :
    (start (acc 0x0C0000000000 0 1 false false) 0).quiet ∧ (start (acc 0x0C0000000000 0 7 false false) 0).quiet ∧
    (start (acc 0 0 0 true false) 0).quiet := ⟨.inl rfl, .inl rfl, .inl rfl⟩

theorem test_witness_InterplayOrders :
    State.reset.params.interplayPresent = true ∧ ({ State.reset with intMode := true } : State).intMode = true ∧
    State.reset.params.fixedBlock State.reset.prepared.channel = true ∧
    State.reset.params.fixedBlock ({ State.reset with prepared := ⟨.output, 4, 9⟩ } : State).prepared.channel = false ∧
    ({ Params.finalMachine with fixedBlocks := Vector.replicate 32 true } : Params).fixedBlock 4 = true := by decide

theorem test_witness_SpecialRegisterOrders :
    State.reset.params.specialDecoded = true ∧ (1 : BitVec 6) ≠ 0 ∧ (63 : BitVec 6) ≠ 0 ∧ State.reset.tapeIn = [] ∧
    ({ State.reset with tapeIn := [0x7F] } : State).tapeIn = 0x7F :: [] ∧
    ({ State.reset with params := { Params.finalMachine with specialDecoded := false } } : State).params.specialDecoded = false := by
  decide

theorem test_witness_ConditionalStop :
    State.reset.black = .center ∧ ({ State.reset with black := .down } : State).black = .down ∧
    ({ State.reset with black := .up } : State).black = .up := ⟨rfl, rfl, rfl⟩

theorem test_witness_QuarterMoves :
    State.reset.violation (8191 + State.reset.na) = false ∧ Mem.wf State.reset.core = true ∧
    (0 : BitVec 4).toNat ≠ 1 ∧ (7 : BitVec 4).toNat < 8 := by decide

theorem test_witness_FastRegisterMoves :
    State.reset.violation ((none : Option Addr).getD 0 + State.reset.na) = false ∧
    State.reset.violation ((some 8191 : Option Addr).getD 0 + State.reset.na) = false ∧ Mem.wf State.reset.core = true ∧
    2 ≤ (2 : BitVec 4).toNat ∧ 4 ≤ (7 : BitVec 4).toNat ∧ (7 : BitVec 4).toNat < 8 ∧ 4 + (15 : BitVec 4).toNat / 4 = 7 := by decide

theorem test_witness_StepKeepsInvariant : atHlt.Inv ∧ (after (step atHlt)).isSome = true := by
  refine ⟨⟨by decide, ?_, fun _ => by decide, .inl (by decide), ?_⟩, by decide⟩
  · unfold State.coreInside
    decide
  · have h : ∀ c : BitVec 5, atHlt.channel c = none := by decide
    intro c t hc
    rw [h c] at hc
    cases hc

theorem test_witness_StepKeepsZeroMarked :
    Acc.zeroMarked (acc 0 0 0 true false) ∧ Acc.zeroMarked (acc 1 0 0 false false) ∧
    (after (step { atHlt with acc := acc 0 0 0 true false })).isSome = true ∧
    (after (step { atCae with acc := acc 1 0 0 false false })).isSome = true :=
  ⟨fun _ => rfl, fun h => absurd h (by decide), by decide, by decide⟩

theorem test_witness_OnlyLeaveInterruptLeavesMode :
    ends (exec (.jdc .leaveInterrupt 0 0) { State.reset with intMode := true }) (fun t => t.intMode != true) = true ∧
    ends (exec (.hlt 0 0) { State.reset with intMode := true }) (fun t => t.intMode) = true ∧
    State.reset.inside = [] := by decide

theorem test_witness_OverflowStaysOn :
    (start (acc 0 0 0 false true) 0).acc.ov = true ∧
    ends (exec (.jdc .ovOffClear 0 0) (start (acc 0 0 0 false true) 0)) (fun t => !t.acc.ov) = true := by decide

theorem test_witness_OnlyDelayedControlChangesAccumulator :
    ends (exec (.dba (.zero 15)) (start (acc 1 0 0 false false) 0)) (fun t => t.acc.a != 1) = true ∧
    ends (exec (.sia 0 0) (start (acc 1 0 0 false false) 0)) (fun t => t.acc.e != 0) = true := by decide

theorem test_witness_ModifiersAreQuarters : (3 : BitVec 4) ≠ 4 ∧ 0 ≠ 4 + (3 : BitVec 4).toNat / 4 ∧ 4 + (15 : BitVec 4).toNat / 4 = 7 := by
  decide

end Sys2Proof.Tests
end

/-! The quarters of a word as its digits, and the modifiers as the quarters of F4 to F7 (00_scope R7, 10_state R12). -/

namespace Sys2Proof.Machine

/-- A quarter is 13 digits of the word, the place of the last of them being `39 - 13 * (k % 4)` (R7). -/
theorem quarter_toNat (w : Word) (k : Nat) :
    (quarter w k).toNat = w.toNat / 2 ^ (39 - 13 * (k % 4)) % 2 ^ 13 := by
  simp [quarter, BitVec.extractLsb'_toNat, Nat.shiftRight_eq_div_pow]

/-- The quarters 0, 1, 2, 3 of a word are its digits to the base 2^13, the first the highest (R7, R41). -/
theorem word_toNat_eq_quarters (w : Word) :
    w.toNat = (quarter w 0).toNat * 2 ^ 39 + (quarter w 1).toNat * 2 ^ 26 +
      (quarter w 2).toNat * 2 ^ 13 + (quarter w 3).toNat := by
  have hw : w.toNat < 2 ^ 52 := w.isLt
  simp only [quarter_toNat, Nat.reduceMod, Nat.reduceMul, Nat.reduceSub]
  omega

/-- The register that holds M[i], after M[i] <- v: the one quarter is replaced (R12). -/
theorem State.getF_setM_register (s : State) (i : BitVec 4) (v : Group) :
    (s.setM i v).getF (4 + i.toNat / 4) =
      setQuarter (s.getF (4 + i.toNat / 4)) (i.toNat % 4) v :=
  State.getF_setF_same s _ _ (by have := modifier_register i; omega)

/-- The other quarters of the register that holds M[i] stay, after M[i] <- v (R12). -/
theorem State.quarter_getF_setM_ne (s : State) (i : BitVec 4) (v : Group) {k : Nat}
    (hk : k < 4) (hne : k ≠ i.toNat % 4) :
    quarter ((s.setM i v).getF (4 + i.toNat / 4)) k = quarter (s.getF (4 + i.toNat / 4)) k := by
  rw [State.getF_setM_register, quarter_setQuarter, if_neg (by omega)]

/-- Writing a fast register that exists writes the four modifiers it holds and no other (R12). -/
theorem State.getM_setF_eq (s : State) (i : BitVec 4) {k : Nat} (w : Word) (hk : k < 10) :
    (s.setF k w).getM i = if 4 + i.toNat / 4 = k then quarter w (i.toNat % 4) else s.getM i := by
  split
  case isTrue h => rw [State.getM, h, State.getF_setF_same s k w hk]
  case isFalse h => exact State.getM_setF s i k w h

/-- Settles O60: reading M[i] is by definition reading its quarter; the rest is reading after writing, M[i] in F[4 + i div 4] being one of F4 to F7. -/
theorem modifiersAreQuarters : Obligations.ModifiersAreQuarters := by
  intro s i v w
  have other_modifiers : ∀ j, j ≠ i → (s.setM i v).getM j = s.getM j := by
    intro j hj
    rw [State.getM_setM, if_neg hj]
  exact ⟨rfl, word_toNat_eq_quarters w, State.getM_setM_same s i v, other_modifiers,
    State.getF_setM s i v, fun _ => State.quarter_getF_setM_ne s i v,
    fun _ _ hk => State.getM_setF_eq s i w (Nat.lt_trans hk (by decide))⟩

end Sys2Proof.Machine


/-! The blocks of core and the references that are violations (20_memory R46, R47). -/

namespace Sys2Proof.Machine

/-- Reading `addr[12:8]` is dividing by 256: an address has 13 digits, so none is lost above (R47). -/
@[simp] theorem blockOf_toNat (a : Addr) : (blockOf a).toNat = a.toNat / 256 := by
  have quotient_lt : a.toNat / 256 < 32 := by have := a.isLt; omega
  rw [blockOf, BitVec.extractLsb'_toNat, Nat.shiftRight_eq_div_pow]
  exact Nat.mod_eq_of_lt quotient_lt

/-- Block k is the 256 addresses from 256k on (R47). -/
theorem blockOf_eq_iff (a : Addr) (k : BitVec 5) :
    blockOf a = k ↔ 256 * k.toNat ≤ a.toNat ∧ a.toNat ≤ 256 * k.toNat + 255 := by
  rw [← BitVec.toNat_inj, blockOf_toNat]
  omega

/-- A violation needs the block busy and both ways out closed: interrupt mode off, engineering switch off (R46). -/
theorem State.violation_iff (s : State) (a : Addr) :
    s.violation a = true ↔
      s.isBusy (blockOf a) = true ∧ s.intMode = false ∧ s.engineering = false := by
  simp only [State.violation, Bool.and_eq_true, Bool.not_eq_true', and_assoc]

/-- Settles O12: a block is a quotient by 256, and the three conditions of a violation are its definition read as propositions. -/
theorem blocksAndViolations : Obligations.BlocksAndViolations :=
  fun s a k => ⟨blockOf_eq_iff a k, s.violation_iff a⟩

end Sys2Proof.Machine


/-! The round-off to 45 digits (41_fp_common R104). -/

namespace Sys2Proof.Machine

/-- The three cases of R104. -/
theorem Acc.round_cases (x : Acc) :
    (x.qInt < 2 ^ 43 ∧ x.round = x.aInt) ∨
    (x.qInt = 2 ^ 43 ∧ x.round = x.aInt + x.aInt % 2) ∨
    (2 ^ 43 < x.qInt ∧ x.round = x.aInt + 1) := by
  unfold Acc.round
  split
  case isTrue below => exact .inl ⟨below, rfl⟩
  case isFalse =>
    split
    case isTrue half => exact .inr (.inl ⟨half, rfl⟩)
    case isFalse => exact .inr (.inr ⟨by omega, rfl⟩)

/-- Rounding takes a fraction to one of its two neighbours (R104). -/
theorem Acc.round_eq_or (x : Acc) : x.round = x.aInt ∨ x.round = x.aInt + 1 := by
  obtain ⟨-, down⟩ | ⟨-, even⟩ | ⟨-, up⟩ := x.round_cases
  · exact .inl down
  · rw [even]
    omega
  · exact .inr up

/-- a_r lies in [-1, 1]: +1 can come out (R104). -/
theorem Acc.round_bounds (x : Acc) : -2 ^ 44 ≤ x.round ∧ x.round ≤ 2 ^ 44 := by
  have ha := x.aInt_bounds
  have neighbour := x.round_eq_or
  omega

/-- At q = 1/2 the last digit of a_r is 0: a_44 is added where it is 1 (R104). -/
theorem Acc.round_even_of_half (x : Acc) (half : x.qInt = 2 ^ 43) : x.round % 2 = 0 := by
  obtain ⟨below, -⟩ | ⟨-, even⟩ | ⟨above, -⟩ := x.round_cases
  · omega
  · rw [even]
    omega
  · omega

/-- What rounding adds to f, in terms of the digits dropped: -q, or 1 - q (R104). -/
theorem Acc.round_sub_aq (x : Acc) :
    x.round * 2 ^ 44 - x.aq = (x.round - x.aInt) * 2 ^ 44 - x.qInt := by
  unfold Acc.aq
  ring

/-- Rounding moves f by at most half a unit of the last digit kept (R104). -/
theorem Acc.round_error_bounds (x : Acc) :
    -2 ^ 43 ≤ x.round * 2 ^ 44 - x.aq ∧ x.round * 2 ^ 44 - x.aq ≤ 2 ^ 43 := by
  have hq := x.qInt_bounds
  rw [x.round_sub_aq]
  obtain ⟨below, down⟩ | ⟨half, even⟩ | ⟨above, up⟩ := x.round_cases
  · rw [down]
    omega
  · rw [even]
    omega
  · rw [up]
    omega

/-- Settles O20: the error bound, the tie and the neighbours are one lemma each over the three cases of R104. -/
theorem roundOff : Obligations.RoundOff := by
  intro x
  obtain ⟨lower_error, upper_error⟩ := x.round_error_bounds
  exact ⟨lower_error, upper_error, x.round_even_of_half, x.round_eq_or, x.round_bounds⟩

end Sys2Proof.Machine


/-! The normalization of a memory operand (41_fp_common R114). -/

namespace Sys2Proof.Machine

/-- A fraction other than 0 is at least 4^-22 in size, so 23 places of left shift would take it out of [-1, 1) (R114). -/
theorem shift_places_le {xi : Int} {k : Nat} (h0 : xi ≠ 0) (hk : k ≤ 23)
    (lower : -2 ^ 44 ≤ xi * 4 ^ k) (upper : xi * 4 ^ k < 2 ^ 44) : k ≤ 22 := by
  by_contra hlt
  obtain rfl : k = 23 := by omega
  omega

/-- Settles O21: R114 leaves a zero fraction as it is; otherwise its loop shifts to a normalized fraction inside [-1, 1), which bounds the number of places. -/
theorem operandNormalized : Obligations.OperandNormalized := by
  intro xi y h1 h2
  refine ⟨fun h0 => if_pos h0, fun h0 => ?_⟩
  have rounds_enough : 2 ^ 42 < xi.natAbs * 4 ^ 23 := by omega
  obtain ⟨k, places, shifted, normalized, lower, upper⟩ :=
    normOperandLoop_spec 23 xi y h1 h2 rounds_enough
  have result : normalizeOperand xi y = (xi * 4 ^ k, y - k) := (if_neg h0).trans shifted
  exact ⟨k, shift_places_le h0 places lower upper, result, normalized, lower, upper⟩

end Sys2Proof.Machine


/-! The common tail of the floating point stores (41_fp_common R106). -/

namespace Sys2Proof.Machine

/-- SetOV where a condition holds, as the record it leaves: OV alone can change, and only with Z off (R107). -/
theorem Acc.setOVIf_eq (x : Acc) (p : Bool) :
    x.setOVIf p = { x with ov := x.ov || (p && !x.z) } :=
  calc x.setOVIf p
    _ = ⟨(x.setOVIf p).a, (x.setOVIf p).q, (x.setOVIf p).e, (x.setOVIf p).z, (x.setOVIf p).ov⟩ := rfl
    _ = { x with ov := x.ov || (p && !x.z) } := by
      rw [x.setOVIf_a, x.setOVIf_q, x.setOVIf_e, x.setOVIf_z, x.setOVIf_ov]

/-- The replaced fraction, one case each (R106). -/
theorem storeAdjust_fst (m e : Int) :
    (storeAdjust m e).1 = if m = 2 ^ 44 then 2 ^ 42 else if m = -2 ^ 42 then -2 ^ 44 else m := by
  unfold storeAdjust
  split_ifs <;> rfl

/-- The exponent that goes with it (R106). -/
theorem storeAdjust_snd (m e : Int) :
    (storeAdjust m e).2 = if m = 2 ^ 44 then e + 1 else if m = -2 ^ 42 then e - 1 else e := by
  unfold storeAdjust
  split_ifs <;> rfl

/-- The fraction after +1 and -1/4 are replaced is one a word can hold (R106). -/
theorem storeAdjust_bounds {m : Int} (e : Int) (h1 : -2 ^ 44 ≤ m) (h2 : m ≤ 2 ^ 44) :
    -2 ^ 44 ≤ (storeAdjust m e).1 ∧ (storeAdjust m e).1 < 2 ^ 44 := by
  rw [storeAdjust_fst]
  split_ifs <;> omega

/-- Replacing +1 and -1/4 neither makes a zero fraction nor loses one (R106). -/
theorem storeAdjust_fst_eq_zero (m e : Int) : (storeAdjust m e).1 = 0 ↔ m = 0 := by
  rw [storeAdjust_fst]
  split_ifs <;> omega

/-- What memory holds, by the fraction and exponent after the replacement (R106). -/
theorem storedAs_iff (m e : Int) (w : Word) :
    StoredAs m e w ↔
      ((storeAdjust m e).1 = 0 ∨ (storeAdjust m e).2 ≤ -64 → w = zeroWord) ∧
      ((storeAdjust m e).1 ≠ 0 → -64 < (storeAdjust m e).2 →
        xval w = (storeAdjust m e).1 ∧ (yval w - (storeAdjust m e).2) % 128 = 0) := by
  rw [storeAdjust_fst, storeAdjust_snd]
  rfl

/-- The overflow of a store, by the same two (R106). -/
theorem storeOverflows_eq (m e : Int) :
    storeOverflows m e = (decide ((storeAdjust m e).1 ≠ 0) && decide (64 ≤ (storeAdjust m e).2)) := by
  simp only [storeOverflows, ne_eq, storeAdjust_fst_eq_zero, storeAdjust_snd]

/-- A fraction of 0, or an exponent of -64 or less, is stored as floating point zero (R106). -/
theorem Acc.storeConvert_zero (x : Acc) {m e : Int}
    (h : (storeAdjust m e).1 = 0 ∨ (storeAdjust m e).2 ≤ -64) :
    x.storeConvert m e = (zeroWord, x) := if_pos h

/-- Any other number is stored as it is, and SetOV is called from +64 on (R106). -/
theorem Acc.storeConvert_number (x : Acc) {m e : Int}
    (h : ¬((storeAdjust m e).1 = 0 ∨ (storeAdjust m e).2 ≤ -64)) :
    x.storeConvert m e =
      (mkword (storeAdjust m e).1 (storeAdjust m e).2, x.setOVIf (decide (64 ≤ (storeAdjust m e).2))) :=
  if_neg h

/-- The word a store leaves is the rounded number as memory holds it (R106). -/
theorem Acc.storeConvert_storedAs (x : Acc) {m e : Int} (h1 : -2 ^ 44 ≤ m) (h2 : m ≤ 2 ^ 44) :
    StoredAs m e (x.storeConvert m e).1 := by
  rw [storedAs_iff]
  by_cases h : (storeAdjust m e).1 = 0 ∨ (storeAdjust m e).2 ≤ -64
  · rw [x.storeConvert_zero h]
    exact ⟨fun _ => rfl, fun nonzero large => by omega⟩
  · rw [x.storeConvert_number h]
    obtain ⟨lower, upper⟩ := storeAdjust_bounds e h1 h2
    exact ⟨fun zero => absurd zero h, fun _ _ => ⟨mkword_xval _ _ lower upper, mkword_yval _ _⟩⟩

/-- A store changes nothing of the accumulator but OV, and OV only by overflow with Z off (R106, R107). -/
theorem Acc.storeConvert_acc (x : Acc) (m e : Int) :
    (x.storeConvert m e).2 = { x with ov := x.ov || (storeOverflows m e && !x.z) } := by
  rw [storeOverflows_eq]
  by_cases h : (storeAdjust m e).1 = 0 ∨ (storeAdjust m e).2 ≤ -64
  · have no_overflow :
        (decide ((storeAdjust m e).1 ≠ 0) && decide (64 ≤ (storeAdjust m e).2)) = false := by
      rw [Bool.and_eq_false_iff, decide_eq_false_iff_not, decide_eq_false_iff_not]
      omega
    rw [x.storeConvert_zero h, no_overflow, Bool.false_and, Bool.or_false]
  · have nonzero : (storeAdjust m e).1 ≠ 0 := fun zero => h (.inl zero)
    rw [x.storeConvert_number h, x.setOVIf_eq, decide_eq_true nonzero, Bool.true_and]

/-- Settles O22: both stores, of zero and of a number, leave the word and the accumulator R106 asks for. -/
theorem storeConversion : Obligations.StoreConversion :=
  fun x m e h1 h2 => ⟨x.storeConvert_storedAs h1 h2, x.storeConvert_acc m e⟩

end Sys2Proof.Machine


/-! The digitwise orders NOT, AND, LOR, DBA and LDQ (42_fp_arithmetic R124 to R128). -/

namespace Sys2Proof.Machine

/-! Their codes (R60, R72). -/

/-- Every form of a normal address has the code of its order in the first group (R63). -/
theorem encodeNormal_code (f : BitVec 7) (a : NormalAddr) :
    ((encodeNormal f a).head?.map fun g => (groupF g).toNat) = some f.toNat := by
  cases a <;> simp [encodeNormal]

/-- So has every form of an operand (R63). -/
theorem encodeOperand_code (f : BitVec 7) (o : Operand) :
    ((encodeOperand f o).head?.map fun g => (groupF g).toNat) = some f.toNat := by
  cases o with
  | core a => exact encodeNormal_code f a
  | _ => simp [encodeOperand]

/-- The code of a full-word arithmetic order is the one its encoding is built with (R63, R72). -/
theorem codeOf_eq_of_encode {i : Instr} {f : BitVec 7} {o : Operand} (h : encode i = encodeOperand f o) :
    codeOf i = some f.toNat := by
  rw [codeOf, h, encodeOperand_code]

/-! The digits they work on. -/

/-- One place of binary left shift is 2a mod 2 (R127). -/
theorem shiftLeft_one_eq_add (a : BitVec 45) : a <<< 1 = a + a := by
  bv_omega

/-- The non-sign digits of x are the digits of the word above its exponent and below the sign (R7, R128). -/
theorem frac_extractLsb'_nonSign (w : Word) : (frac w).extractLsb' 0 44 = w.extractLsb' 7 44 := by
  apply BitVec.eq_of_getLsbD_eq
  intro i hi
  simp [frac, hi, Nat.lt_succ_of_lt hi]

/-! What K does to them, and the orders. -/

/-- After Z was cleared, K leaves the digits and OV alone and sets Z exactly where every digit is 0 (R105, R124 to R128). -/
theorem Acc.kHere_holdsDigits {x y : Acc} (cleared : y.z = false) (hov : y.ov = x.ov) :
    HoldsDigits x y.a y.q y.kHere := by
  rw [y.kHere_eq]
  refine ⟨rfl, rfl, ?_, hov⟩
  rw [Acc.orZ_z, cleared, Bool.false_or, decide_eq_decide, y.aq_eq_zero]

/-- K on the accumulator as it stands does not touch E (R105). -/
theorem Acc.kHere_e (x : Acc) : x.kHere.e = x.e := by
  rw [x.kHere_eq, Acc.orZ_e]

/-- An arithmetic order that clears Z, writes digits and ends with K: it completes with these digits and this E (R124 to R128). -/
theorem arithOrder_digits_done {s : State} {o : Operand} (act : Word → Acc → Acc)
    (cleared : ∀ w x, (act w x).z = false) (hov : ∀ w x, (act w x).ov = x.ov)
    (hr : s.canRead o) (hq : s.quiet) :
    ∃ t, arithOrder o (fun w x => (act w x).kHere) s = .next t ∧ ArithDone s t o ∧ t.divLast = false ∧
      HoldsDigits s.acc (act (s.operandWord o) s.acc).a (act (s.operandWord o) s.acc).q t.acc ∧
      t.acc.e = (act (s.operandWord o) s.acc).e := by
  obtain ⟨t, answered, done, hacc, hdiv⟩ :=
    arithOrder_done (act := fun w x => (act w x).kHere) hr hq
  refine ⟨t, answered, done, hdiv, ?_, ?_⟩
  · rw [hacc]
    exact Acc.kHere_holdsDigits (cleared _ _) (hov _ _)
  · rw [hacc, Acc.kHere_e]

section
variable {o : Operand} {s : State}

/-- NOT: the complement of x, Q cleared, the exponent y (R124). -/
theorem execNot_done (hr : s.canRead o) (hq : s.quiet) :
    ∃ t, exec (.not o) s = .next t ∧ ArithDone s t o ∧ t.divLast = false ∧
      HoldsDigits s.acc (~~~frac (s.operandWord o)) 0 t.acc ∧ t.acc.eInt = yval (s.operandWord o) := by
  obtain ⟨t, answered, done, hdiv, digits, he⟩ := arithOrder_digits_done
    (fun w x => { x.clearZ with a := ~~~frac w, q := 0 }.setE (yval w))
    (fun _ _ => rfl) (fun _ _ => rfl) hr hq
  obtain ⟨lower, upper⟩ := yval_bounds (s.operandWord o)
  have exponent_fits := Acc.setE_eInt { s.acc.clearZ with a := ~~~frac (s.operandWord o), q := 0 }
    (v := yval (s.operandWord o)) (by omega) (by omega)
  exact ⟨t, answered, done, hdiv, digits, (congrArg BitVec.toInt he).trans exponent_fits⟩

/-- AND: the digitwise product of a and x (R125). -/
theorem execAnd_done (hr : s.canRead o) (hq : s.quiet) :
    ∃ t, exec (.and o) s = .next t ∧ ArithDone s t o ∧ t.divLast = false ∧
      HoldsDigits s.acc (s.acc.a &&& frac (s.operandWord o)) s.acc.q t.acc ∧ t.acc.e = s.acc.e :=
  arithOrder_digits_done (fun w x => { x.clearZ with a := x.a &&& frac w })
    (fun _ _ => rfl) (fun _ _ => rfl) hr hq

/-- LOR: ones where a and x are not both zero (R126). -/
theorem execLor_done (hr : s.canRead o) (hq : s.quiet) :
    ∃ t, exec (.lor o) s = .next t ∧ ArithDone s t o ∧ t.divLast = false ∧
      HoldsDigits s.acc (s.acc.a ||| frac (s.operandWord o)) s.acc.q t.acc ∧ t.acc.e = s.acc.e :=
  arithOrder_digits_done (fun w x => { x.clearZ with a := x.a ||| frac w })
    (fun _ _ => rfl) (fun _ _ => rfl) hr hq

/-- DBA: 2a mod 2 (R127). -/
theorem execDba_done (hr : s.canRead o) (hq : s.quiet) :
    ∃ t, exec (.dba o) s = .next t ∧ ArithDone s t o ∧ t.divLast = false ∧
      HoldsDigits s.acc (s.acc.a + s.acc.a) s.acc.q t.acc ∧ t.acc.e = s.acc.e := by
  rw [← shiftLeft_one_eq_add]
  exact arithOrder_digits_done (fun _ x => { x.clearZ with a := x.a <<< 1 })
    (fun _ _ => rfl) (fun _ _ => rfl) hr hq

/-- LDQ: the non-sign digits of x in Q (R128). -/
theorem execLdq_done (hr : s.canRead o) (hq : s.quiet) :
    ∃ t, exec (.ldq o) s = .next t ∧ ArithDone s t o ∧ t.divLast = false ∧
      HoldsDigits s.acc s.acc.a ((frac (s.operandWord o)).extractLsb' 0 44) t.acc ∧ t.acc.e = s.acc.e := by
  rw [frac_extractLsb'_nonSign]
  exact arithOrder_digits_done (fun w x => { x.clearZ with q := w.extractLsb' 7 44 })
    (fun _ _ => rfl) (fun _ _ => rfl) hr hq

end

/-- The codes of the five orders (R72). -/
theorem logicOrders_codes (o : Operand) :
    [codeOf (.not o), codeOf (.and o), codeOf (.lor o), codeOf (.dba o), codeOf (.ldq o)] =
      [some 68, some 69, some 70, some 71, some 97] := by
  rw [codeOf_eq_of_encode (i := .not o) rfl, codeOf_eq_of_encode (i := .and o) rfl,
    codeOf_eq_of_encode (i := .lor o) rfl, codeOf_eq_of_encode (i := .dba o) rfl,
    codeOf_eq_of_encode (i := .ldq o) rfl]
  rfl

/-- Settles O24: the codes by the encoder, and each order by what K leaves of the digits it writes. -/
theorem logicOrders : Obligations.LogicOrders :=
  fun o _ hr hq => ⟨logicOrders_codes o, execNot_done hr hq, execAnd_done hr hq, execLor_done hr hq,
    execDba_done hr hq, execLdq_done hr hq⟩

end Sys2Proof.Machine


/-! The exponent orders CAE, CSE, ADE and SBE (44_exponent_shift_quarter R160 to R164). -/

namespace Sys2Proof.Machine

/-- Every form of an order whose address is its operand has its code in the first group (R65, R72). -/
theorem codeOf_eq_of_encodeAddrForm {i : Instr} {f : BitVec 7} {a : NormalAddr}
    (h : encode i = encodeAddrForm f (.addr a)) : codeOf i = some f.toNat := by
  rw [codeOf, h]
  exact encodeNormal_code f a

/-- The codes of the four orders (R72). -/
theorem exponentOrders_codes (a : NormalAddr) :
    [codeOf (.cae (.addr a)), codeOf (.cse (.addr a)), codeOf (.ade (.addr a)), codeOf (.sbe (.addr a))] =
      [some 79, some 77, some 75, some 73] := by
  rw [codeOf_eq_of_encodeAddrForm (i := .cae (.addr a)) rfl,
    codeOf_eq_of_encodeAddrForm (i := .cse (.addr a)) rfl,
    codeOf_eq_of_encodeAddrForm (i := .ade (.addr a)) rfl,
    codeOf_eq_of_encodeAddrForm (i := .sbe (.addr a)) rfl]
  rfl

/-- The right 8 digits of the address as a signed number are its balanced remainder modulo 256 (R89). -/
theorem ystar_eq_bmod (addr : Addr) : ystar addr = Int.bmod addr.toNat 256 := by
  rw [ystar, BitVec.toInt_eq_toNat_bmod, BitVec.extractLsb'_toNat, Nat.shiftRight_zero,
    Int.natCast_mod]
  exact Int.emod_bmod _ 256

/-! What monitoring a calculated exponent leaves (R108). -/

@[simp] theorem Acc.monitorE_a (x : Acc) (ew : Int) : (x.monitorE ew).a = x.a := by
  simp [Acc.monitorE]

@[simp] theorem Acc.monitorE_q (x : Acc) (ew : Int) : (x.monitorE ew).q = x.q := by
  simp [Acc.monitorE]

@[simp] theorem Acc.monitorE_aq (x : Acc) (ew : Int) : (x.monitorE ew).aq = x.aq := by
  simp [Acc.monitorE]

@[simp] theorem Acc.monitorE_z (x : Acc) (ew : Int) :
    (x.monitorE ew).z = (x.z || decide (ew < -128)) := by
  simp [Acc.monitorE]

@[simp] theorem Acc.monitorE_ov (x : Acc) (ew : Int) :
    (x.monitorE ew).ov = (x.ov || (decide (127 < ew) && !x.z)) := by
  simp [Acc.monitorE]

/-! Setting the exponent (R161 to R164). -/

/-- The accumulator `y` is `x` with the exponent `ew` modulo 256, OV and Z as the range and K ask (R161 to R164). -/
def HoldsExponent (x : Acc) (ew : Int) (y : Acc) : Prop :=
  y.a = x.a ∧ y.q = x.q ∧ (y.eInt - ew) % 256 = 0 ∧
    y.ov = (x.ov || (decide (127 < ew) && !x.z)) ∧
    y.z = (x.z || decide (ew < -128) || decide (x.aq = 0))

/-- K adds only the zero test: A, Q and OV are those of the monitored accumulator, E the one written (R105, R108). -/
theorem setExponent_eq (x : Acc) (ew : Int) :
    setExponent x ew = ((x.monitorE ew).setE ew).orZ (decide (x.aq = 0)) := by
  rw [setExponent, Acc.kHere_eq, Acc.setE_aq, Acc.monitorE_aq]

theorem setExponent_holdsExponent (x : Acc) (ew : Int) :
    HoldsExponent x ew (setExponent x ew) := by
  rw [setExponent_eq]
  have written : (((x.monitorE ew).setE ew).eInt - ew) % 256 = 0 := Acc.setE_eInt_mod _ ew
  exact ⟨x.monitorE_a ew, x.monitorE_q ew, written, x.monitorE_ov ew, by simp⟩

/-- An order that sets an exponent calculated from y* and the accumulator completes with that exponent (R160). -/
theorem exec_setExponent_done {i : Instr} {s : State} {a : NormalAddr} {y : Int}
    {calculated : Int → Acc → Int}
    (meaning : exec i s =
      addressDC (.addr a) (fun addr x => setExponent x (calculated (ystar addr) x)) s)
    (hy : ystar (s.address a) = y) (hq : s.quiet) :
    ∃ t, exec i s = .next t ∧ OnlyArithmetic s t ∧ Ended s t (normalGroups a) ∧
      t.getF 1 = rep4 (s.address a) ∧ FastFrame s t [1] (normalCounts a) ∧
      Counted s t [1] (normalCounts a) ∧ t.divLast = false ∧
      HoldsExponent s.acc (calculated y s.acc) t.acc := by
  obtain ⟨t, answered, only, -, ended, copies, frame, counted, hacc, hdiv⟩ :=
    addressDC_done (a := a) (act := fun addr x => setExponent x (calculated (ystar addr) x)) hq
  refine ⟨t, meaning.trans answered, only, ended, copies, frame, counted, hdiv, ?_⟩
  rw [hacc, hy]
  exact setExponent_holdsExponent _ _

/-- Settles O40: the codes by the encoder; each order is one exponent calculated from y* and set. -/
theorem exponentOrders : Obligations.ExponentOrders := by
  intro a s hq
  refine ⟨exponentOrders_codes a, ?_⟩
  -- y* as a number of its own: the cases must not unfold the remainder.
  have hy := ystar_eq_bmod (s.address a)
  generalize Int.bmod (s.address a).toNat 256 = y at hy ⊢
  refine List.forall_mem_cons.mpr ⟨?cae, List.forall_mem_cons.mpr ⟨?cse,
    List.forall_mem_cons.mpr ⟨?ade, List.forall_mem_singleton.mpr ?sbe⟩⟩⟩
  case cae => exact exec_setExponent_done (calculated := fun y _ => y) rfl hy hq
  case cse => exact exec_setExponent_done (calculated := fun y _ => -y) rfl hy hq
  case ade => exact exec_setExponent_done (calculated := fun y x => x.eInt + y) rfl hy hq
  case sbe => exact exec_setExponent_done (calculated := fun y x => x.eInt - y) rfl hy hq

end Sys2Proof.Machine


/-! The decoder and the encoder are inverse to each other (30_encoding R60 to R73). -/

namespace Sys2Proof

/-! One order at the head of a list of groups. -/

/-- A short order decodes from its one group, whatever follows it. -/
theorem decode_short {f : BitVec 7} {b : BitVec 4} {c : BitVec 2} {k : OrderClass} {i : Instr}
    (hk : orderClass f = some k) (short : k.isLong b c = false) (hr : readOrder f b c 0 = some i)
    (rest : List Group) : decode (mkGroup f b c :: rest) = .ok (i, rest) := by
  simp only [decode, groupF_mkGroup, groupB_mkGroup, groupC_mkGroup, hk, short, hr, Bool.false_eq_true, if_false]

/-- A long order decodes from its two groups, whatever follows them. -/
theorem decode_long {f : BitVec 7} {b : BitVec 4} {c : BitVec 2} {n : Addr} {k : OrderClass} {i : Instr}
    (hk : orderClass f = some k) (long : k.isLong b c = true) (hr : readOrder f b c n = some i)
    (rest : List Group) : decode (mkGroup f b c :: n :: rest) = .ok (i, rest) := by
  simp only [decode, groupF_mkGroup, groupB_mkGroup, groupC_mkGroup, hk, long, hr, if_true]

/-! Decoding what was encoded, for each operand form. -/

section
variable {f : BitVec 7} (rest : List Group)

/-- A full-word arithmetic order (R63). -/
theorem decode_encodeOperand {mk : Operand → Instr} (hk : orderClass f = some .normalArith)
    (hr : ∀ b c n, readOrder f b c n = some (mk (readOperand b c n))) {o : Operand}
    (ho : o.wellFormed = true) : decode (encodeOperand f o ++ rest) = .ok (mk o, rest) := by
  cases o with
  | core a =>
    cases a with
    | direct m => exact decode_short hk rfl (hr ..) rest
    | counted m => exact decode_short hk rfl (hr ..) rest
    | indexed m n => exact decode_long hk rfl (hr ..) rest
    | fixed n => exact decode_long hk rfl (hr ..) rest
  | integer n => exact decode_long hk rfl (hr ..) rest
  | fraction n => exact decode_long hk rfl (hr ..) rest
  | fast r =>
    have reads : readOperand (r.zeroExtend 4) 3 0 = .fast r := by revert r; decide
    exact decode_short hk (by revert r; decide) (reads ▸ hr ..) rest
  | zero b =>
    have reads : readOperand b 3 0 = .zero b := by revert b; decide
    exact decode_short hk (by revert b; decide) (reads ▸ hr ..) rest

/-- A full-word store order (R64). -/
theorem decode_encodeDest {mk : Dest → Instr} (hk : orderClass f = some .normalStore)
    (hr : ∀ b c n, readOrder f b c n = some (mk (readDest b c n))) {d : Dest}
    (hd : d.wellFormed = true) : decode (encodeDest f d ++ rest) = .ok (mk d, rest) := by
  cases d with
  | core a =>
    cases a with
    | direct m => exact decode_short hk rfl (hr ..) rest
    | counted m => exact decode_short hk rfl (hr ..) rest
    | indexed m n => exact decode_long hk rfl (hr ..) rest
    | fixed n => exact decode_long hk rfl (hr ..) rest
  | fast b =>
    have reads : readDest b 3 0 = .fast b := by revert b; decide
    exact decode_short hk (by revert b; decide) (reads ▸ hr ..) rest

/-- An order whose address is its operand (R65). -/
theorem decode_encodeAddrForm {mk : AddrForm → Instr} (hk : orderClass f = some .normalAddr)
    (hr : ∀ b c n, readOrder f b c n = some (mk (readAddrForm b c n))) {a : AddrForm}
    (ha : a.wellFormed = true) : decode (encodeAddrForm f a ++ rest) = .ok (mk a, rest) := by
  cases a with
  | addr a =>
    cases a with
    | direct m => exact decode_short hk rfl (hr ..) rest
    | counted m => exact decode_short hk rfl (hr ..) rest
    | indexed m n => exact decode_long hk rfl (hr ..) rest
    | fixed n => exact decode_long hk rfl (hr ..) rest
  | noAddress b =>
    have reads : readAddrForm b 3 0 = .noAddress b := by revert b; decide
    exact decode_short hk (by revert b; decide) (reads ▸ hr ..) rest

/-- An order whose N is present iff C_1 = 1 (R69, R70). -/
theorem decode_encodeC1 {mk : BitVec 4 → Option Addr → Bool → Instr} {k : OrderClass}
    (hk : orderClass f = some k) (h : k = .c1Long ∨ k = .modArith)
    (hr : ∀ b c n, readOrder f b c n = some (mk b (readC1 c n) (c.getLsbD 0))) (b : BitVec 4)
    (n : Option Addr) (c2 : Bool) : decode (encodeC1 f b n c2 ++ rest) = .ok (mk b n c2, rest) := by
  cases n with
  | none =>
    cases c2 <;> exact decode_short hk (by rcases h with rfl | rfl <;> rfl) (hr ..) rest
  | some n =>
    cases c2 <;> exact decode_long hk (by rcases h with rfl | rfl <;> rfl) (hr ..) rest

/-- A special-register order, its register number being B and C together (R67). -/
theorem decode_encodeRegister {mk : BitVec 6 → Instr} (hk : orderClass f = some .shortSR)
    (hr : ∀ b c n, readOrder f b c n = some (mk (b ++ c))) (r : BitVec 6) :
    decode (mkGroup f (r.extractLsb' 2 4) (r.extractLsb' 0 2) :: rest) = .ok (mk r, rest) := by
  have whole : (r.extractLsb' 2 4 ++ r.extractLsb' 0 2 : BitVec 6) = r := by revert r; decide
  exact decode_short hk rfl ((hr ..).trans (by rw [whole])) rest

end

/-- Every well-formed order decodes from its own groups, whatever follows them (R60 to R72). -/
theorem decode_encode (i : Instr) (rest : List Group) (h : WellFormed i = true) :
    decode (encode i ++ rest) = .ok (i, rest) := by
  cases i with
  | csb o | cst o | cad o | cat o | not o | and o | lor o | dba o | sub o | add o | mpy o | div o | ndv o | vid o
  | ldq o | dav o => exact decode_encodeOperand rest rfl (fun _ _ _ => rfl) h
  | ssc d | asc d | str d | xch d | stc d | stn d | stf d | sif d | seq d | stu d | stl d | stq d | srm d =>
    exact decode_encodeDest rest rfl (fun _ _ _ => rfl) h
  | atn a | ibt a | pid a | sfn a | fbf a | bbf a | jlh a | lin a | orb a | pod a | sbe a | ade a | cse a | cae a
  | lrs a | ars a => exact decode_encodeAddrForm rest rfl (fun _ _ _ => rfl) h
  | cjs m c | cjf m c | sia m c | sex m c | hlt m c => exact decode_short rfl rfl rfl rest
  | asn r | ssn r | ssr r => exact decode_encodeRegister rest rfl (fun _ _ _ => rfl) r
  | sqw b c n | jnm b c n | jzm b c n | cjz b c n | ldm b c n | jpm b c n | jum b c n | jsb b c n | cju b c n =>
    exact decode_long rfl rfl rfl rest
  | jdc t c n =>
    have reads : readOrder 46 (conditionB t) c n = some (.jdc t c n) := by
      rw [← readCondition_conditionB t, conditionB_readCondition]
      rfl
    exact decode_long rfl rfl reads rest
  | sfr b n c2 | lfr b n c2 => exact decode_encodeC1 rest rfl (.inl rfl) (fun _ _ _ => rfl) b n c2
  | cnm m n c2 | csm m n c2 | crm m n c2 | cam m n c2 | nom m n c2 | nam m n c2 | orm m n c2 | anm m n c2
  | eqm m n c2 | sbm m n c2 | eom m n c2 | adm m n c2 =>
    exact decode_encodeC1 rest rfl (.inr rfl) (fun _ _ _ => rfl) m n c2

/-! The number of groups (R14, R62). -/

open Machine in
theorem encodeNormal_length (f : BitVec 7) (a : NormalAddr) : (encodeNormal f a).length = normalGroups a := by
  cases a <;> rfl

open Machine in
theorem encodeOperand_length (f : BitVec 7) (o : Operand) : (encodeOperand f o).length = operandGroups o := by
  cases o with
  | core a => exact encodeNormal_length f a
  | _ => rfl

open Machine in
theorem encodeDest_length (f : BitVec 7) (d : Dest) : (encodeDest f d).length = destGroups d := by
  cases d with
  | core a => exact encodeNormal_length f a
  | fast b => rfl

theorem encodeC1_length (f : BitVec 7) (b : BitVec 4) (n : Option Addr) (c2 : Bool) :
    (encodeC1 f b n c2).length = if n.isSome then 2 else 1 := by
  cases n <;> rfl

/-- Settles O1: the round trip by operand form; the lengths by operand form, order by order. -/
theorem decodeOfEncode : Obligations.DecodeOfEncode := by
  refine ⟨decode_encode, ?arith, ?store, ?address, ?optional, ?long, fun _ _ _ => rfl, ?short, ?register⟩
  case arith =>
    simp only [Machine.arithOrders, List.forall_mem_cons]
    simp [encode, encodeOperand_length]
  case store =>
    simp only [Machine.storeOrders, List.forall_mem_cons]
    simp [encode, encodeDest_length]
  case address =>
    simp only [Machine.freeAddressOrders, Machine.guardedOrders, List.cons_append, List.nil_append,
      List.forall_mem_cons]
    simp [encode, encodeAddrForm, encodeNormal_length]
  case optional =>
    simp only [List.forall_mem_cons]
    simp [encode, encodeC1_length]
  case long =>
    simp only [List.forall_mem_cons]
    simp [encode]
  case short =>
    simp only [List.forall_mem_cons]
    simp [encode]
  case register =>
    simp only [List.forall_mem_cons]
    simp [encode]

/-! Encoding what was decoded, for each operand form. -/

/-- The groups a reading of the fields F, B, C, N stands for: N only where the class is long (R62). -/
def fieldGroups (k : OrderClass) (f : BitVec 7) (b : BitVec 4) (c : BitVec 2) (n : Addr) : List Group :=
  mkGroup f b c :: if k.isLong b c then [n] else []

/-- The four values of C. -/
theorem groupC_cases (c : BitVec 2) : c = 0 ∨ c = 1 ∨ c = 2 ∨ c = 3 := by
  revert c; decide

/-- Outside 8, 9 and 10 the operand that C = 3 selects is short: a fast register, or zero from 11 on (R63). -/
theorem readOperand_three_short {b : BitVec 4} (h8 : b ≠ 8) (h9 : b ≠ 9) (h10 : b ≠ 10) (n : Addr) :
    readOperand b 3 n = (if b.toNat < 8 then .fast (b.extractLsb' 0 3) else .zero b) ∧
      OrderClass.normalArith.isLong b 3 = false ∧ (b.toNat < 8 → (b.extractLsb' 0 3).zeroExtend 4 = b) ∧
      (¬b.toNat < 8 → 11 ≤ b.toNat) := by
  have digits : OrderClass.normalArith.isLong b 3 = false ∧
      (b.toNat < 8 → (b.extractLsb' 0 3).zeroExtend 4 = b) ∧ (¬b.toNat < 8 → 11 ≤ b.toNat) := by
    revert h8 h9 h10; revert b; decide
  refine ⟨?_, digits⟩
  unfold readOperand
  rw [if_neg (by decide), if_neg (by decide), if_neg (by decide), if_neg h8, if_neg h9, if_neg h10]

/-- A full-word arithmetic order (R63). -/
theorem encodeOperand_readOperand (f : BitVec 7) (b : BitVec 4) (c : BitVec 2) (n : Addr) :
    (readOperand b c n).wellFormed = true ∧
      encodeOperand f (readOperand b c n) = fieldGroups .normalArith f b c n := by
  obtain rfl | rfl | rfl | rfl := groupC_cases c
  · exact ⟨rfl, rfl⟩
  · exact ⟨rfl, rfl⟩
  · exact ⟨rfl, rfl⟩
  · by_cases h8 : b = 8
    · subst h8; exact ⟨rfl, rfl⟩
    by_cases h9 : b = 9
    · subst h9; exact ⟨rfl, rfl⟩
    by_cases h10 : b = 10
    · subst h10; exact ⟨rfl, rfl⟩
    obtain ⟨reads, short, register, from11⟩ := readOperand_three_short h8 h9 h10 n
    rw [reads, fieldGroups, short]
    split
    case isTrue low =>
      rw [encodeOperand, register low]
      exact ⟨rfl, rfl⟩
    case isFalse high => exact ⟨decide_eq_true (from11 high), rfl⟩

/-- With C = 3 every B but 8 is short for a store order and for an address order (R64, R65). -/
theorem b_ne_eight {b : BitVec 4} (h8 : b ≠ 8) :
    b.toNat ≠ 8 ∧ OrderClass.normalStore.isLong b 3 = false ∧ OrderClass.normalAddr.isLong b 3 = false := by
  revert h8; revert b; decide

/-- A full-word store order (R64). -/
theorem encodeDest_readDest (f : BitVec 7) (b : BitVec 4) (c : BitVec 2) (n : Addr) :
    (readDest b c n).wellFormed = true ∧ encodeDest f (readDest b c n) = fieldGroups .normalStore f b c n := by
  obtain rfl | rfl | rfl | rfl := groupC_cases c
  · exact ⟨rfl, rfl⟩
  · exact ⟨rfl, rfl⟩
  · exact ⟨rfl, rfl⟩
  · by_cases h8 : b = 8
    · subst h8; exact ⟨rfl, rfl⟩
    · obtain ⟨not8, short, -⟩ := b_ne_eight h8
      have reads : readDest b 3 n = .fast b := if_neg h8
      rw [reads, fieldGroups, short]
      exact ⟨decide_eq_true not8, rfl⟩

/-- An order whose address is its operand (R65). -/
theorem encodeAddrForm_readAddrForm (f : BitVec 7) (b : BitVec 4) (c : BitVec 2) (n : Addr) :
    (readAddrForm b c n).wellFormed = true ∧
      encodeAddrForm f (readAddrForm b c n) = fieldGroups .normalAddr f b c n := by
  obtain rfl | rfl | rfl | rfl := groupC_cases c
  · exact ⟨rfl, rfl⟩
  · exact ⟨rfl, rfl⟩
  · exact ⟨rfl, rfl⟩
  · by_cases h8 : b = 8
    · subst h8; exact ⟨rfl, rfl⟩
    · obtain ⟨not8, -, short⟩ := b_ne_eight h8
      have reads : readAddrForm b 3 n = .noAddress b := if_neg h8
      rw [reads, fieldGroups, short]
      exact ⟨decide_eq_true not8, rfl⟩

/-- An order whose N is present iff C_1 = 1 (R69, R70). -/
theorem encodeC1_readC1 (f : BitVec 7) (b : BitVec 4) (c : BitVec 2) (n : Addr) :
    encodeC1 f b (readC1 c n) (c.getLsbD 0) = mkGroup f b c :: if c.getLsbD 1 then [n] else [] := by
  obtain rfl | rfl | rfl | rfl := groupC_cases c <;> rfl

/-- A special-register order (R67). -/
theorem register_fields (b : BitVec 4) (c : BitVec 2) :
    (b ++ c).extractLsb' 2 4 = b ∧ (b ++ c).extractLsb' 0 2 = c := by
  revert b c; decide

@[simp] theorem readOperand_wellFormed (b : BitVec 4) (c : BitVec 2) (n : Addr) :
    (readOperand b c n).wellFormed = true := (encodeOperand_readOperand 0 b c n).1

@[simp] theorem readDest_wellFormed (b : BitVec 4) (c : BitVec 2) (n : Addr) :
    (readDest b c n).wellFormed = true := (encodeDest_readDest 0 b c n).1

@[simp] theorem readAddrForm_wellFormed (b : BitVec 4) (c : BitVec 2) (n : Addr) :
    (readAddrForm b c n).wellFormed = true := (encodeAddrForm_readAddrForm 0 b c n).1

theorem eq_ofNat_of_toNat {f : BitVec 7} {m : Nat} (h : f.toNat = m) : f = BitVec.ofNat 7 m := by
  subst h; simp

/-- Row by row of the opcode table: the order read from some fields is well-formed and is written back as these fields (R72). -/
theorem encode_readOrder {f : BitVec 7} {b : BitVec 4} {c : BitVec 2} {n : Addr} {k : OrderClass} {i : Instr}
    (hk : orderClass f = some k) (hr : readOrder f b c n = some i) :
    WellFormed i = true ∧ encode i = fieldGroups k f b c n := by
  unfold orderClass at hk
  split at hk
  case h_78 => cases hk
  all_goals
    rename_i code
    cases hk
    obtain rfl := eq_ofNat_of_toNat code
    obtain rfl := Option.some.inj hr
    simp only [WellFormed, readOperand_wellFormed, readDest_wellFormed, readAddrForm_wellFormed, encode,
      encodeOperand_readOperand, encodeDest_readDest, encodeAddrForm_readAddrForm, encodeC1_readC1,
      register_fields, conditionB_readCondition, true_and]
    rfl

/-- An assigned code names an order, whatever the other fields (R72). -/
theorem readOrder_isSome {f : BitVec 7} {k : OrderClass} (hk : orderClass f = some k) (b : BitVec 4)
    (c : BitVec 2) (n : Addr) : ∃ i, readOrder f b c n = some i := by
  unfold orderClass at hk
  split at hk
  case h_78 => cases hk
  all_goals
    rename_i code
    obtain rfl := eq_ofNat_of_toNat code
    exact ⟨_, rfl⟩

/-- A group whose code has no class is a non-existent order (R73). -/
theorem decode_unassigned {g : Group} (hk : orderClass (groupF g) = none) (rest : List Group) :
    decode (g :: rest) = .error (.nonexistent (groupF g)) := by
  simp only [decode, hk]

/-- A long order without its second group. -/
theorem decode_missing {g : Group} {k : OrderClass} (hk : orderClass (groupF g) = some k)
    (long : k.isLong (groupB g) (groupC g) = true) : decode [g] = .error .missingN := by
  simp only [decode, hk, long, if_true]

/-- Everything the decoder answers: no group, an unassigned code, a missing N, or the order read from the fields (R60 to R73). -/
theorem decode_cases (gs : List Group) :
    (gs = [] ∧ decode gs = .error .noGroup) ∨
    ∃ g tail, gs = g :: tail ∧
      ((orderClass (groupF g) = none ∧ decode gs = .error (.nonexistent (groupF g))) ∨
       ∃ k, orderClass (groupF g) = some k ∧
        (decode gs = .error .missingN ∨
         ∃ n i rest, readOrder (groupF g) (groupB g) (groupC g) n = some i ∧ decode gs = .ok (i, rest) ∧
          gs = fieldGroups k (groupF g) (groupB g) (groupC g) n ++ rest)) := by
  cases gs with
  | nil => exact .inl ⟨rfl, rfl⟩
  | cons g tail =>
    refine .inr ⟨g, tail, rfl, ?_⟩
    cases hk : orderClass (groupF g) with
    | none => exact .inl ⟨rfl, decode_unassigned hk tail⟩
    | some k =>
      refine .inr ⟨k, rfl, ?_⟩
      cases length : k.isLong (groupB g) (groupC g) with
      | false =>
        obtain ⟨i, hr⟩ := readOrder_isSome hk (groupB g) (groupC g) 0
        have decoded := decode_short hk length hr tail
        rw [mkGroup_fields] at decoded
        exact .inr ⟨0, i, tail, hr, decoded, by simp [fieldGroups, mkGroup_fields, length]⟩
      | true =>
        cases tail with
        | nil => exact .inl (decode_missing hk length)
        | cons n tail =>
          obtain ⟨i, hr⟩ := readOrder_isSome hk (groupB g) (groupC g) n
          have decoded := decode_long hk length hr tail
          rw [mkGroup_fields] at decoded
          exact .inr ⟨n, i, tail, hr, decoded, by simp [fieldGroups, mkGroup_fields, length]⟩

/-- Settles O2: what decodes was read from fields, and those fields are what the order is written as. -/
theorem encodeOfDecode : Obligations.EncodeOfDecode := by
  intro gs rest i h
  obtain ⟨-, empty⟩ | ⟨g, tail, -, ⟨-, unassigned⟩ | ⟨k, hk, missing | ⟨n, j, rest', hr, decoded, groups⟩⟩⟩ :=
    decode_cases gs
  · exact absurd (empty.symm.trans h) nofun
  · exact absurd (unassigned.symm.trans h) nofun
  · exact absurd (missing.symm.trans h) nofun
  · obtain ⟨rfl, rfl⟩ : j = i ∧ rest' = rest := by simpa using decoded.symm.trans h
    obtain ⟨wellFormed, written⟩ := encode_readOrder hk hr
    exact ⟨wellFormed, by rw [groups, written]⟩

/-! The unassigned codes (R73). -/

/-- The decoder calls an order non-existent exactly where its code has no class (R73). -/
theorem decode_nonexistent_iff (g : Group) (rest : List Group) :
    decode (g :: rest) = .error (.nonexistent (groupF g)) ↔ orderClass (groupF g) = none := by
  refine ⟨fun h => ?_, fun hk => decode_unassigned hk rest⟩
  obtain ⟨empty, -⟩ | ⟨g', tail, heq, ⟨unassigned, -⟩ | ⟨k, -, missing | ⟨n, i, rest', -, decoded, -⟩⟩⟩ :=
    decode_cases (g :: rest)
  · cases empty
  · cases heq
    exact unassigned
  · exact absurd (missing.symm.trans h) nofun
  · exact absurd (decoded.symm.trans h) nofun

/-- The codes without a class, from the table (R73). -/
theorem orderClass_eq_none_iff (f : BitVec 7) :
    orderClass f = none ↔
      (f.toNat ≤ 16 ∨ f.toNat = 27 ∨ f.toNat = 30 ∨ f.toNat = 32 ∨ (40 ≤ f.toNat ∧ f.toNat ≤ 43) ∨
        f.toNat = 96 ∨ f.toNat = 100 ∨ f.toNat = 102 ∨ 104 ≤ f.toNat) := by
  revert f; decide

/-- Settles O3: the decoder asks the class table, which is finite. -/
theorem unassignedCodes : Obligations.UnassignedCodes :=
  ⟨fun g rest => (decode_nonexistent_iff g rest).trans (orderClass_eq_none_iff (groupF g)), by decide⟩

/-- Settles O4: the decoder on fixed words. -/
theorem decodeWords : Obligations.DecodeWords := by
  refine ⟨rfl, rfl, rfl, rfl, rfl, rfl, rfl, rfl⟩

end Sys2Proof


/-! K and the two normalizations as relations between integers (41_fp_common R101 to R105). -/

namespace Sys2Proof.Machine

/-! K (R105). -/

/-- Settles O18: the three clauses of K, each by what AQ and E hold after they are written. -/
theorem correctOverflowDetectZero : Obligations.CorrectOverflowDetectZero := by
  intro x fw ew lower upper
  unfold CorrectedTo
  split
  case isTrue zero =>
    rw [x.k_zero fw ew zero]
    have written := (x.orZ true).setAQ_aq_mod (wrap89 fw)
    have wrapped := wrap89_mod fw
    exact ⟨by simp, rfl, by rw [Acc.setE_aq]; omega, Acc.setE_eInt_mod _ ew⟩
  case isFalse notZero =>
    obtain ⟨hz, hf⟩ := not_or.mp notZero
    have zOff : x.z = false := Bool.eq_false_iff.mpr hz
    split
    case isTrue range =>
      rw [x.k_inRange fw ew zOff hf range.1 range.2]
      exact ⟨zOff, rfl, x.setAQ_aq range.1 range.2, Acc.setE_eInt_mod _ ew⟩
    case isFalse overflow =>
      rw [x.k_outOfRange fw ew zOff overflow]
      have quarter_fits := (x.setOVIf (decide (127 < ew + 1))).setAQ_aq (v := fw / 4) (by omega) (by omega)
      exact ⟨by simp [zOff], by simp [zOff], by simpa using quarter_fits, Acc.setE_eInt_mod _ (ew + 1)⟩

/-- K, for the fractions that orders hand it. -/
theorem Acc.k_correctedTo (x : Acc) {fw : Int} (ew : Int) (lower : -2 ^ 90 ≤ fw) (upper : fw < 2 ^ 90) :
    CorrectedTo x fw ew (x.k fw ew) := correctOverflowDetectZero x fw ew lower upper

/-- What K makes of an accumulator depends on its indicators only. -/
theorem CorrectedTo.congr {x x' y : Acc} {fw ew : Int} (h : CorrectedTo x fw ew y) (hz : x'.z = x.z)
    (hov : x'.ov = x.ov) : CorrectedTo x' fw ew y := by
  unfold CorrectedTo at h ⊢
  rw [hz, hov]
  exact h

/-- An accumulator that K has left is zero only with Z on (R38, R105). -/
theorem CorrectedTo.zeroMarked {x y : Acc} {fw ew : Int} (h : CorrectedTo x fw ew y) : y.zeroMarked := by
  intro hy
  unfold CorrectedTo at h
  split at h
  case isTrue => exact h.1
  case isFalse notZero =>
    obtain ⟨-, hf⟩ := not_or.mp notZero
    split at h
    case isTrue =>
      obtain ⟨-, -, haq, -⟩ := h
      omega
    case isFalse overflow =>
      obtain ⟨-, -, haq, -⟩ := h
      omega

/-- K leaves OV on (R105). -/
theorem CorrectedTo.ov_of_ov {x y : Acc} {fw ew : Int} (h : CorrectedTo x fw ew y) (hov : x.ov = true) :
    y.ov = true := by
  unfold CorrectedTo at h
  split at h
  case isTrue => exact h.2.1.trans hov
  case isFalse =>
    split at h
    case isTrue => exact h.2.1.trans hov
    case isFalse => simpa [hov] using h.2.1

/-- Below +127 K does not touch OV (R105). -/
theorem CorrectedTo.ov_eq {x y : Acc} {fw ew : Int} (h : CorrectedTo x fw ew y) (he : ew < 127) : y.ov = x.ov := by
  unfold CorrectedTo at h
  split at h
  case isTrue => exact h.2.1
  case isFalse =>
    split at h
    case isTrue => exact h.2.1
    case isFalse =>
      have small : ¬127 < ew + 1 := by omega
      simpa [small] using h.2.1

/-! Normalization (R101 to R103). -/

/-- What normalization works on is what the accumulator holds. -/
theorem Acc.work_fits (x : Acc) : NormWork.fits ⟨x.aq, x.eInt, x.z⟩ := by
  have hb := x.aq_bounds
  have he := x.eInt_bounds
  exact ⟨hb.1, hb.2, fun h => by simp only at h; omega⟩

/-- Both normalizations in terms of the loop: it loses no digit, and the rest is written back (R102, R103). -/
theorem Acc.normalizeWith_fields (part : Bool) (x : Acc) {w : NormWork}
    (h : normLoop part 129 ⟨x.aq, x.eInt, x.z⟩ = w) (fits : w.fits) :
    (x.normalizeWith part).aq = w.v ∧ ((x.normalizeWith part).eInt - w.e) % 256 = 0 ∧
      (x.normalizeWith part).z = w.z ∧ (x.normalizeWith part).ov = x.ov := by
  unfold Acc.normalizeWith
  rw [h]
  exact ⟨({ x with z := w.z } : Acc).setAQ_aq fits.1 fits.2.1, Acc.setE_eInt_mod _ _, rfl, rfl⟩

/-- Where normalization is done at the start nothing changes (R102, R103). -/
theorem Acc.normalizeWith_done {part : Bool} {x : Acc}
    (h : NormWork.done part ⟨x.aq, x.eInt, x.z⟩ = true) : x.normalizeWith part = x := by
  have stays : normLoop part 129 ⟨x.aq, x.eInt, x.z⟩ = ⟨x.aq, x.eInt, x.z⟩ := by
    rw [normLoop, if_pos h]
  unfold Acc.normalizeWith
  rw [stays]
  exact (congrArg (Acc.setE · x.eInt) x.setAQ_self).trans x.setE_self

/-- The tests of the loop, asked of an accumulator (R101 to R103). -/
theorem Acc.work_done_iff (part : Bool) (x : Acc) :
    NormWork.done part ⟨x.aq, x.eInt, x.z⟩ = true ↔
      x.z = true ∨ (part = true ∧ x.q = 0) ∨ (2 ^ 42 ≤ x.aInt ∨ x.aInt < -2 ^ 42) := by
  have qZero : x.qInt = 0 ↔ x.q = 0 := by
    rw [Acc.qInt, ← BitVec.toNat_inj]
    exact Int.natCast_eq_zero
  rw [NormWork.done_eq_true]
  simp only [x.aq_mod, x.top45_aq, isNorm_eq_true, qZero]

/-- Settles O19: the loop's own account of its shifts, read off the accumulator it is written back to. -/
theorem normalizationShifts : Obligations.NormalizationShifts := by
  intro part x
  obtain ⟨k, hv, he, hz, fits, done, -, odd, before⟩ :=
    normLoop_spec part 129 ⟨x.aq, x.eInt, x.z⟩ x.work_fits (by have := x.eInt_bounds; simp only; omega)
  generalize hw : normLoop part 129 ⟨x.aq, x.eInt, x.z⟩ = w at hv he hz fits done odd
  obtain ⟨naq, nE, nz, nov⟩ := x.normalizeWith_fields part hw fits
  have stop : (x.normalizeWith part).z = true ∨ (part = true ∧ (x.normalizeWith part).q = 0) ∨
      (2 ^ 42 ≤ (x.normalizeWith part).aInt ∨ (x.normalizeWith part).aInt < -2 ^ 42) := by
    rw [NormWork.done_eq_true, ← naq, ← nz] at done
    exact ((x.normalizeWith part).work_done_iff part).mp ((NormWork.done_eq_true _ _).mpr done)
  refine ⟨k, naq.trans hv, by rwa [he] at nE, nz.trans hz, nov, fun j hj => ?_, stop, fun hk => ?_,
    fun h => Acc.normalizeWith_done ((x.work_done_iff part).mpr h)⟩
  · obtain ⟨small, notDone⟩ := before j hj
    simp only [isNorm_eq_false, top45] at small
    refine ⟨by omega, by omega, fun even => ?_⟩
    have going := notDone even
    rw [Bool.eq_false_iff, ne_eq, NormWork.done_eq_true, not_or, not_or] at going
    obtain ⟨zOff, qLeft, -⟩ := going
    simp only [NormWork.shift, Bool.or_eq_true, decide_eq_true_eq, not_or] at zOff
    exact ⟨Bool.eq_false_iff.mpr zOff.1, by omega, fun hp hq => qLeft ⟨hp, hq⟩⟩
  · have normal := odd hk
    rwa [← naq, Acc.top45_aq, isNorm_eq_true] at normal

/-! Consequences for the orders that normalize. -/

@[simp] theorem Acc.normalizeWith_ov (part : Bool) (x : Acc) : (x.normalizeWith part).ov = x.ov := by
  obtain ⟨-, -, -, -, hov, -⟩ := normalizationShifts part x
  exact hov

/-- Normalization leaves Z on, or a normalized fraction (R102). -/
theorem Acc.normalize_normal {x : Acc} (h : x.normalize.z = false) :
    2 ^ 42 ≤ x.normalize.aInt ∨ x.normalize.aInt < -2 ^ 42 := by
  obtain ⟨-, -, -, -, -, -, stop, -⟩ := normalizationShifts false x
  rcases stop with hz | ⟨hp, -⟩ | normal
  · exact absurd (hz.symm.trans h) nofun
  · cases hp
  · exact normal

/-- A shifted fraction is zero only where the fraction was (R102, R103). -/
theorem Acc.normalizeWith_zeroMarked {part : Bool} {x : Acc} (h : x.zeroMarked) :
    (x.normalizeWith part).zeroMarked := by
  intro zero
  obtain ⟨k, haq, -, hz, -⟩ := normalizationShifts part x
  have hx : x.aq = 0 := by
    rw [haq] at zero
    exact (mul_eq_zero.mp zero).resolve_right (pow_ne_zero k (by decide))
  rw [hz, h hx, Bool.true_or]

end Sys2Proof.Machine


/-! The arithmetic orders that work on values: CAD, CSB, CAT, CST, ADD, SUB, MPY, DIV, NDV, VID and DAV (42_fp_arithmetic). -/

namespace Sys2Proof.Machine

/-! The immediate operands (R85). -/

/-- The default immediate word holds N in its left quarter, with the exponent 6 or 0 (R85). -/
theorem immDefaultWord_fields (b : BitVec 4) (n : Addr) :
    xval (immDefaultWord b n) = n.toInt * 2 ^ 32 ∧ yval (immDefaultWord b n) = if b = 9 then 6 else 0 := by
  have lower : -2 ^ 12 ≤ n.toInt := n.le_toInt
  have upper : n.toInt < 2 ^ 12 := n.toInt_lt
  refine ⟨mkword_xval (n.toInt * 2 ^ 32) (if b = 9 then 6 else 0) (by omega) (by omega), ?_⟩
  have hy := yval_bounds (immDefaultWord b n)
  have hmod : (yval (immDefaultWord b n) - if b = 9 then 6 else 0) % 128 = 0 := mkword_yval _ _
  have small : (if b = 9 then 6 else 0 : Int) = 6 ∨ (if b = 9 then 6 else 0 : Int) = 0 := by
    split <;> simp
  omega

/-- Whatever its digits, an immediate word has the value of the default one (R85, D3). -/
theorem exactValue_immOperandWord (p : Params) (b : BitVec 4) (n : Addr) :
    exactValue (immOperandWord p b n) = exactValue (immDefaultWord b n) := by
  unfold immOperandWord
  split
  case isTrue same => exact same.2
  case isFalse => rfl

/-- The immediate operands: by default N in the left quarter, and always the value of N, or of N/4096 (R85). -/
theorem immediate_operand (p : Params) (b : BitVec 4) (n : Addr) :
    exactValue (immOperandWord p b n) = n.toInt * 2 ^ 32 * 4 ^ (if b = 9 then 70 else 64) ∧
      (p.immDefault = true → xval (immOperandWord p b n) = n.toInt * 2 ^ 32 ∧
        yval (immOperandWord p b n) = if b = 9 then 6 else 0) := by
  obtain ⟨hx, hy⟩ := immDefaultWord_fields b n
  constructor
  · rw [exactValue_immOperandWord, exactValue, hx, hy]
    split <;> rfl
  · intro default
    have digits : immOperandWord p b n = immDefaultWord b n := by simp [immOperandWord, default]
    rw [digits]
    exact ⟨hx, hy⟩

/-! Clear adds (R120 to R123). -/

/-- A result of K that Z and the exponent range do not disturb, as the value it holds. -/
theorem CorrectedTo.holdsValue {x y : Acc} {v e : Int} (h : CorrectedTo x (v * 2 ^ 44) e y) (zOff : x.z = false)
    (he : -128 ≤ e ∧ e < 127) (hv : -2 ^ 45 ≤ v ∧ v ≤ 2 ^ 45) :
    if -2 ^ 44 ≤ v ∧ v < 2 ^ 44 then HoldsValue x (v * 2 ^ 44) e y else HoldsValue x (v * 2 ^ 42) (e + 1) y := by
  have aqb := y.aq_bounds
  have eb := y.eInt_bounds
  unfold CorrectedTo at h
  split at h
  case isTrue zero =>
    obtain ⟨hz, hov, haq, hE⟩ := h
    have v0 : v = 0 := by rcases zero with hz | h0 <;> [simp [zOff] at hz; omega]
    rw [if_pos (by omega)]
    exact ⟨by omega, by omega, by simp [hz, v0], hov⟩
  case isFalse notZero =>
    have v0 : v ≠ 0 := fun h0 => notZero (.inr (by omega))
    split at h
    case isTrue range =>
      obtain ⟨hz, hov, haq, hE⟩ := h
      rw [if_pos (by omega)]
      exact ⟨haq, by omega, by rw [hz, eq_comm, decide_eq_false_iff_not]; omega, hov⟩
    case isFalse overflow =>
      obtain ⟨hz, hov, haq, hE⟩ := h
      have small : ¬127 < e + 1 := by omega
      rw [if_neg (by omega)]
      exact ⟨by omega, by omega, by rw [hz, eq_comm, decide_eq_false_iff_not]; omega, by simpa [small] using hov⟩

/-- A clear add of n times the operand, n being 1, -1, 2 or -2 (R120 to R123). -/
theorem clearAdd_correctedTo {n : Int} (hn : n ∈ [1, -1, 2, -2]) (w : Word) (x : Acc) :
    CorrectedTo x.clearZ (n * xval w * 2 ^ 44) (yval w) (clearAdd n w x) ∧
      -2 ^ 45 ≤ n * xval w ∧ n * xval w ≤ 2 ^ 45 := by
  have hx := xval_bounds w
  have bounds : -2 ^ 45 ≤ n * xval w ∧ n * xval w ≤ 2 ^ 45 := by
    simp only [List.mem_cons, List.not_mem_nil, or_false] at hn
    rcases hn with rfl | rfl | rfl | rfl <;> omega
  exact ⟨Acc.k_correctedTo _ _ (by omega) (by omega), bounds⟩

/-- The four orders are clear adds of 1, -1, 2 and -2 times the operand (R120 to R123). -/
theorem clearAdd_orders :
    ∀ p ∈ ([(1, Instr.cad), (-1, Instr.csb), (2, Instr.cat), (-2, Instr.cst)] : List (Int × (Operand → Instr))),
      p.1 ∈ ([1, -1, 2, -2] : List Int) ∧ ∀ o s, exec (p.2 o) s = arithOrder o (clearAdd p.1) s := by
  simp only [List.forall_mem_cons]
  exact ⟨⟨by decide, fun _ _ => rfl⟩, ⟨by decide, fun _ _ => rfl⟩, ⟨by decide, fun _ _ => rfl⟩,
    ⟨by decide, fun _ _ => rfl⟩, nofun⟩

/-- The codes of the four orders (R72). -/
theorem clearAddOrders_codes (o : Operand) :
    [codeOf (.cad o), codeOf (.csb o), codeOf (.cat o), codeOf (.cst o)] = [some 66, some 64, some 67, some 65] := by
  rw [codeOf_eq_of_encode (i := .cad o) rfl, codeOf_eq_of_encode (i := .csb o) rfl,
    codeOf_eq_of_encode (i := .cat o) rfl, codeOf_eq_of_encode (i := .cst o) rfl]
  rfl

/-- Settles O23: the immediate operands by their value; the four orders are clear adds of 1, -1, 2 and -2 times the operand. -/
theorem clearAddOrders : Obligations.ClearAddOrders := by
  refine ⟨fun n s => ?immediate, fun p hp o s hr hq => ⟨clearAddOrders_codes o, ?order⟩⟩
  case immediate =>
    refine List.forall_mem_cons.mpr ⟨?integer, List.forall_mem_singleton.mpr ?fraction⟩
    case integer =>
      obtain ⟨value, digits⟩ := immediate_operand s.params 9 n
      refine ⟨value.trans ?_, digits⟩
      rw [if_pos rfl]
      ring
    case fraction => exact immediate_operand s.params 10 n
  case order =>
    obtain ⟨hn, meaning⟩ := clearAdd_orders p hp
    obtain ⟨t, answered, done, hacc, hdiv⟩ := arithOrder_done (act := clearAdd p.1) hr hq
    obtain ⟨corrected, bounds⟩ := clearAdd_correctedTo hn (s.operandWord o) s.acc
    have hy := yval_bounds (s.operandWord o)
    rw [← hacc] at corrected
    exact ⟨t, (meaning o s).trans answered, done, hdiv, corrected.holdsValue rfl (by omega) bounds⟩

/-! Addition and subtraction (R110, R129, R131). -/

/-- The shifted fraction of an aligned sum is no larger than before the shift. -/
theorem shifted_bounds {v b : Int} (k : Nat) (hb : 0 ≤ b) (h : -b ≤ v ∧ v ≤ b) : -b ≤ v / 4 ^ k ∧ v / 4 ^ k ≤ b :=
  ediv_four_pow_bounds v b k hb h.1 h.2

/-- The four paths of R129, for the operand or its negative. -/
theorem Acc.addSub_spec (x : Acc) {sg : Int} (hsg : sg ∈ [1, -1]) (w : Word) :
    (x.addSub sg w).ov = x.ov ∧
    (let v := sg * xval w * 2 ^ 44
     let y := yval w
     let d := x.eInt - y
     if y = -64 then x.addSub sg w = x
     else if x.z = true ∨ d ≤ -45 then CorrectedTo { x with z := false } v y (x.addSub sg w)
     else if 45 ≤ d then x.addSub sg w = x
     else if 0 ≤ d then CorrectedTo x (x.aq + v / 4 ^ d.toNat) x.eInt (x.addSub sg w)
     else CorrectedTo x (x.aq / 4 ^ (-d).toNat + v) y (x.addSub sg w)) := by
  have hx := xval_bounds w
  have hy := yval_bounds w
  have haq := x.aq_bounds
  have hv : -2 ^ 88 ≤ sg * xval w * 2 ^ 44 ∧ sg * xval w * 2 ^ 44 ≤ 2 ^ 88 := by
    simp only [List.mem_cons, List.not_mem_nil, or_false] at hsg
    rcases hsg with rfl | rfl <;> omega
  simp only [Acc.addSub]
  generalize sg * xval w * 2 ^ 44 = v at hv ⊢
  generalize yval w = y at hy ⊢
  by_cases zero : y = -64
  · simp only [if_pos zero]
    exact ⟨trivial, trivial⟩
  simp only [if_neg zero]
  by_cases clear : x.z = true ∨ x.eInt - y ≤ -45
  · have cleared : CorrectedTo x.clearZ v y (x.clearZ.k v y) := x.clearZ.k_correctedTo y (by omega) (by omega)
    have path : (if x.z = true then x.clearZ.k v y else if 45 ≤ x.eInt - y then x
        else if x.eInt - y ≤ -45 then x.clearZ.k v y
        else x.k (addAligned x.aq x.eInt v y).1 (addAligned x.aq x.eInt v y).2) = x.clearZ.k v y := by
      split_ifs with hz above low
      · rfl
      · have low := clear.resolve_left hz
        omega
      · rfl
      · exact absurd (clear.resolve_left hz) low
    rw [path, if_pos clear]
    exact ⟨cleared.ov_eq (by omega), cleared⟩
  obtain ⟨zOff, notBelow⟩ := not_or.mp clear
  rw [if_neg zOff, if_neg clear]
  by_cases above : 45 ≤ x.eInt - y
  · rw [if_pos above, if_pos above]
    exact ⟨rfl, rfl⟩
  rw [if_neg above, if_neg above, if_neg notBelow, addAligned]
  by_cases high : y ≤ x.eInt
  · have hs := shifted_bounds (x.eInt - y).toNat (by norm_num) hv
    have sum : CorrectedTo x (x.aq + v / 4 ^ (x.eInt - y).toNat) x.eInt _ :=
      x.k_correctedTo x.eInt (by omega) (by omega)
    rw [if_pos high, if_pos (by omega)]
    exact ⟨sum.ov_eq (by omega), sum⟩
  · have hs := shifted_bounds (v := x.aq) (y - x.eInt).toNat (b := 2 ^ 88) (by norm_num) (by omega)
    have sum : CorrectedTo x (x.aq / 4 ^ (y - x.eInt).toNat + v) y _ := x.k_correctedTo y (by omega) (by omega)
    rw [if_neg high, if_neg (by omega), Int.neg_sub]
    exact ⟨sum.ov_eq (by omega), sum⟩

/-- ADD and SUB are R129 with the sign +1 and -1 (R129, R131). -/
theorem addSub_orders : ∀ p ∈ ([(1, Instr.add), (-1, Instr.sub)] : List (Int × (Operand → Instr))),
    p.1 ∈ ([1, -1] : List Int) ∧ ∀ o s, exec (p.2 o) s = arithOrder o (fun w x => x.addSub p.1 w) s := by
  simp only [List.forall_mem_cons]
  exact ⟨⟨by decide, fun _ _ => rfl⟩, ⟨by decide, fun _ _ => rfl⟩, nofun⟩

/-- Settles O25: both orders are the four paths of R129, with the operand and with its negative. -/
theorem addAndSubtract : Obligations.AddAndSubtract := by
  intro p hp o s hr hq
  obtain ⟨hsg, meaning⟩ := addSub_orders p hp
  obtain ⟨t, answered, done, hacc, hdiv⟩ := arithOrder_done (act := fun w x => x.addSub p.1 w) hr hq
  obtain ⟨hov, paths⟩ := s.acc.addSub_spec hsg (s.operandWord o)
  rw [← hacc] at hov paths
  exact ⟨t, (meaning o s).trans answered, done, hdiv, hov, paths⟩

/-! Multiplication (R130). -/

/-- Monitoring the exponent with Z off (R108). -/
theorem Acc.monitorE_zOff {x : Acc} (zOff : x.z = false) (e : Int) :
    x.monitorE e = { x with z := decide (e < -128), ov := x.ov || decide (127 < e) } := by
  simp [Acc.monitorE, Acc.setOVIf_eq, Acc.orZ, zOff]

/-- The exact product of a rounded fraction and an operand fits K (R130). -/
theorem round_mul_bounds (x : Acc) (w : Word) : -2 ^ 88 ≤ x.round * xval w ∧ x.round * xval w ≤ 2 ^ 88 := by
  have hr := x.round_bounds
  have hw := xval_bounds w
  constructor <;> nlinarith

/-- The action of MPY: the by-pass, or the exact product corrected by K (R130). -/
theorem multiply_spec (w : Word) (x : Acc) :
    let n := x.partialNormalize
    let e := n.eInt + yval w
    if n.z = true ∨ yval w = -64 then multiply w x = { n with z := true }
    else CorrectedTo { n with z := decide (e < -128), ov := n.ov || decide (127 < e) } (n.round * xval w) e
      (multiply w x) := by
  simp only [multiply]
  split
  case isTrue => simp [Acc.orZ]
  case isFalse goes =>
    have zOff : x.partialNormalize.z = false := Bool.eq_false_iff.mpr (not_or.mp goes).1
    have product := round_mul_bounds x.partialNormalize w
    rw [Acc.monitorE_zOff zOff]
    exact Acc.k_correctedTo _ _ (by omega) (by omega)

/-- Settles O26: MPY is an arithmetic order with that action. -/
theorem multiplyOrder : Obligations.MultiplyOrder := by
  intro o s hr hq
  obtain ⟨t, answered, done, hacc, hdiv⟩ := arithOrder_done (act := multiply) hr hq
  have action := multiply_spec (s.operandWord o) s.acc
  rw [← hacc] at action
  exact ⟨t, answered, done, hdiv, action⟩

/-! Division (R112 to R115, R132 to R134). -/

/-- The quotient of R113 is the one a claim asks for. -/
theorem roundedQuotient_roundedTo (fn : Int) {xd : Int} (g : Nat) :
    RoundedTo fn (xd * 4 ^ g) (roundedQuotient fn xd g) := by
  unfold roundedQuotient
  generalize xd * 4 ^ g = d
  have split_quotient := Int.fmod_add_mul_fdiv (2 * fn + d) (2 * d)
  constructor
  · intro hd
    have lower := Int.fmod_nonneg_of_pos (2 * fn + d) (b := 2 * d) (by omega)
    have upper := Int.fmod_lt_of_pos (2 * fn + d) (b := 2 * d) (by omega)
    constructor <;> linarith
  · intro hd
    have lower := Int.fmod_nonneg_of_pos (-(2 * fn + d)) (b := -(2 * d)) (by omega)
    have upper := Int.fmod_lt_of_pos (-(2 * fn + d)) (b := -(2 * d)) (by omega)
    rw [Int.neg_fmod_neg] at lower upper
    constructor <;> linarith

/-- A quotient at most 1 in size, by a positive divisor, rounds to one that fits K (R113). -/
theorem quotient_bounds_of_pos {n d q : Int} (hd : 0 < d) (hn : -(d * 2 ^ 44) ≤ n ∧ n ≤ d * 2 ^ 44)
    (lower : 2 * d * q ≤ 2 * n + d) (upper : 2 * n + d < 2 * d * (q + 1)) : -2 ^ 45 ≤ q ∧ q ≤ 2 ^ 45 := by
  constructor
  · by_contra below
    have large : d * (q + 1) ≤ d * -2 ^ 45 := mul_le_mul_of_nonneg_left (by omega) hd.le
    linarith
  · by_contra above
    have large : d * (2 ^ 45 + 1) ≤ d * q := mul_le_mul_of_nonneg_left (by omega) hd.le
    linarith

/-- A quotient at most 1 in size rounds to one that fits K (R112, R113). -/
theorem RoundedTo.bounds {n d q : Int} (h : RoundedTo n d q) (hd : d ≠ 0) (hn : n.natAbs ≤ d.natAbs * 2 ^ 44) :
    -2 ^ 45 ≤ q ∧ q ≤ 2 ^ 45 := by
  obtain ⟨positive, negative⟩ := h
  rcases lt_or_gt_of_ne hd with below | above
  · obtain ⟨h1, h2⟩ := negative below
    exact quotient_bounds_of_pos (n := -n) (d := -d) (by omega) (by omega) (by linarith) (by linarith)
  · obtain ⟨h1, h2⟩ := positive above
    exact quotient_bounds_of_pos above (by omega) h1 h2

/-- A dividend that fits AQ over a normalized divisor: the correction of R112 makes the quotient at most 1 in size (D8). -/
theorem improper_bounds {fn xd : Int} (hfn : fn.natAbs ≤ 2 ^ 88) (hxd : 2 ^ 42 ≤ xd.natAbs) :
    xd * 4 ^ improper fn xd ≠ 0 ∧ fn.natAbs ≤ (xd * 4 ^ improper fn xd).natAbs * 2 ^ 44 := by
  unfold improper
  split
  · rw [pow_one]
    omega
  · rw [pow_zero, mul_one]
    omega

/-- SetOV as the record it leaves (R107). -/
theorem Acc.setOV_eq (x : Acc) : x.setOV = { x with ov := x.ov || !x.z } := by
  have always := x.setOVIf_eq true
  rwa [Bool.true_and] at always

/-- DivideCore with Z off and a normalized divisor: the by-pass below -128, or the rounded quotient corrected by K (R112, R115). -/
theorem Acc.divideCore_spec {x : Acc} (zOff : x.z = false) {fn en xd yd : Int} (hfn : fn.natAbs ≤ 2 ^ 88)
    (hxd : 2 ^ 42 ≤ xd.natAbs) :
    let g := improper fn xd
    let e := en - yd + g
    if e < -128 then
      (x.divideCore fn en xd yd).1 = { x with z := true } ∧ (x.divideCore fn en xd yd).2.1 = 0 ∧
        (x.divideCore fn en xd yd).2.2 = -64
    else
      ((x.divideCore fn en xd yd).2.1, (x.divideCore fn en xd yd).2.2) = Config.divRemainder fn en xd yd ∧
      ∃ q, RoundedTo fn (xd * 4 ^ g) q ∧
        CorrectedTo { x with ov := x.ov || decide (127 < e) } (q * 2 ^ 44) e (x.divideCore fn en xd yd).1 := by
  simp only [Acc.divideCore]
  split
  case isTrue => simp [Acc.orZ, zeroRemainder]
  case isFalse =>
    obtain ⟨divisor, size⟩ := improper_bounds hfn hxd
    have quotient := roundedQuotient_roundedTo fn (xd := xd) (improper fn xd)
    obtain ⟨lower, upper⟩ := quotient.bounds divisor size
    refine ⟨rfl, _, quotient, ?_⟩
    rw [Acc.setOVIf_eq, zOff, Bool.not_false, Bool.and_true]
    exact Acc.k_correctedTo _ _ (by omega) (by omega)

/-- R114 leaves a zero operand alone, and normalizes any other, with the exponent counted down by no more than 22. -/
theorem normalizeOperand_cases (w : Word) :
    (xval w = 0 ∧ normalizeOperand (xval w) (yval w) = (0, yval w)) ∨
    (xval w ≠ 0 ∧ (normalizeOperand (xval w) (yval w)).1 ≠ 0 ∧
      2 ^ 42 ≤ (normalizeOperand (xval w) (yval w)).1.natAbs ∧
      -2 ^ 44 ≤ (normalizeOperand (xval w) (yval w)).1 ∧ (normalizeOperand (xval w) (yval w)).1 < 2 ^ 44 ∧
      -86 ≤ (normalizeOperand (xval w) (yval w)).2 ∧ (normalizeOperand (xval w) (yval w)).2 ≤ 63) := by
  have hx := xval_bounds w
  have hy := yval_bounds w
  obtain ⟨zero, other⟩ := operandNormalized (xval w) (yval w) hx.1 hx.2
  by_cases h0 : xval w = 0
  · exact .inl ⟨h0, (zero h0).trans (by rw [h0])⟩
  · obtain ⟨k, places, result, normalized, lower, upper⟩ := other h0
    rw [result]
    generalize xval w * 4 ^ k = v at normalized lower upper
    refine .inr ⟨h0, ?_, ?_, lower, upper, ?_, ?_⟩ <;> simp only <;> omega

/-- The action of DIV and NDV (R132, R133). -/
theorem divCommon_spec {sg : Int} (hsg : sg ∈ ([1, -1] : List Int)) (w : Word) (a : Acc) :
    let n := a.normalize
    let x := normalizeOperand (xval w) (yval w)
    let g : Nat := if x.1.natAbs * 2 ^ 44 < n.aq.natAbs then 1 else 0
    let e := n.eInt - x.2 + g
    if xval w = 0 then
      (divCommon sg w a).1 = { n with ov := n.ov || !n.z } ∧ (divCommon sg w a).2.1 = 0 ∧ (divCommon sg w a).2.2 = -64
    else if n.z = true ∨ e < -128 then
      (divCommon sg w a).1 = { n with z := true } ∧ (divCommon sg w a).2.1 = 0 ∧ (divCommon sg w a).2.2 = -64
    else
      ((divCommon sg w a).2.1, (divCommon sg w a).2.2) = Config.divRemainder n.aq n.eInt (sg * x.1) x.2 ∧
      ∃ q, RoundedTo n.aq (sg * x.1 * 4 ^ g) q ∧
        CorrectedTo { n with ov := n.ov || decide (127 < e) } (q * 2 ^ 44) e (divCommon sg w a).1 := by
  simp only [divCommon]
  have aqb := a.normalize.aq_bounds
  obtain ⟨zero, result⟩ | ⟨nonzero, numerator, normal, -, -, -, -⟩ := normalizeOperand_cases w
  · rw [result, if_pos zero]
    exact ⟨a.normalize.setOV_eq, rfl, rfl⟩
  · rw [if_neg nonzero, if_neg numerator]
    generalize normalizeOperand (xval w) (yval w) = x at normal
    have size : (sg * x.1).natAbs = x.1.natAbs := by
      simp only [List.mem_cons, List.not_mem_nil, or_false] at hsg
      rcases hsg with rfl | rfl <;> omega
    have correction : improper a.normalize.aq (sg * x.1) =
        if x.1.natAbs * 2 ^ 44 < a.normalize.aq.natAbs then 1 else 0 := by rw [improper, size]
    cases hz : a.normalize.z with
    | true => exact ⟨congrArg (fun z => { a.normalize with z := z }) hz, rfl, rfl⟩
    | false =>
      have core := Acc.divideCore_spec hz (fn := a.normalize.aq) (en := a.normalize.eInt) (xd := sg * x.1)
        (yd := x.2) (by omega) (by omega)
      simp only [correction, hz] at core
      simp only [false_or, Bool.false_eq_true, if_false]
      exact core

/-- DIV and NDV divide by the operand and by its negative (R132, R133). -/
theorem divide_orders : ∀ p ∈ ([(1, Instr.div), (-1, Instr.ndv)] : List (Int × (Operand → Instr))),
    p.1 ∈ ([1, -1] : List Int) ∧ ∀ o s, exec (p.2 o) s = divideOrder o (divCommon p.1) s := by
  simp only [List.forall_mem_cons]
  exact ⟨⟨by decide, fun _ _ => rfl⟩, ⟨by decide, fun _ _ => rfl⟩, nofun⟩

/-- Settles O27: both orders are divides with that action. -/
theorem divideOrders : Obligations.DivideOrders := by
  intro p hp o s hr hq
  obtain ⟨hsg, meaning⟩ := divide_orders p hp
  obtain ⟨t, answered, done, hacc, hrem, hes, hdiv⟩ := divideOrder_done (act := divCommon p.1) hr hq
  have action := divCommon_spec hsg (s.operandWord o) s.acc
  simp only [← hacc, ← hrem, ← hes] at action
  exact ⟨t, (meaning o s).trans answered, done, hdiv, action⟩

/-- The accumulator as VID prepares it for the divide: the normalized operand, m at the exponent e, in its place (R134). -/
def Acc.interchanged (n : Acc) (w : Word) (m e : Int) : Acc :=
  ((({ n with a := frac w, q := 0 }.setE (yval w)).setAQ (m * 2 ^ 44)).setE e)

/-- VID with Z off (R134). -/
theorem inverseDivide_zOff {w : Word} {a : Acc} (hz : a.normalize.z = false) :
    inverseDivide w a =
      let x := normalizeOperand (xval w) (yval w)
      let c := a.normalize.interchanged w x.1 x.2
      if x.1 = 0 then (c.orZ true, zeroRemainder)
      else c.divideCore (x.1 * 2 ^ 44) x.2 a.normalize.round a.normalize.eInt :=
  if_neg (Bool.eq_false_iff.mp hz)

/-- What the prepared accumulator holds. -/
theorem Acc.interchanged_fields (n : Acc) (w : Word) {m e : Int} (hm : -2 ^ 44 ≤ m ∧ m < 2 ^ 44)
    (he : -128 ≤ e ∧ e ≤ 127) :
    (n.interchanged w m e).aq = m * 2 ^ 44 ∧ (n.interchanged w m e).eInt = e ∧ (n.interchanged w m e).z = n.z ∧
      (n.interchanged w m e).ov = n.ov :=
  ⟨({ n with a := frac w, q := 0 }.setE (yval w)).setAQ_aq (by omega) (by omega), Acc.setE_eInt _ he.1 he.2,
    rfl, rfl⟩

/-- The normalized operand fits the accumulator (R114). -/
theorem normalizeOperand_fits (w : Word) :
    (-2 ^ 44 ≤ (normalizeOperand (xval w) (yval w)).1 ∧ (normalizeOperand (xval w) (yval w)).1 < 2 ^ 44) ∧
      -128 ≤ (normalizeOperand (xval w) (yval w)).2 ∧ (normalizeOperand (xval w) (yval w)).2 ≤ 127 := by
  have hy := yval_bounds w
  obtain ⟨-, result⟩ | ⟨-, -, -, h1, h2, h3, h4⟩ := normalizeOperand_cases w
  · rw [result]
    simp only
    omega
  · omega

/-- The action of VID (R134). -/
theorem inverseDivide_spec (w : Word) (a : Acc) :
    let n := a.normalize
    let x := normalizeOperand (xval w) (yval w)
    let g : Nat := if n.round.natAbs < x.1.natAbs then 1 else 0
    let e := x.2 - n.eInt + g
    let r := inverseDivide w a
    if n.z = true then
      r.1.aq = xval w * 2 ^ 44 ∧ r.1.eInt = yval w ∧ r.1.z = true ∧ r.1.ov = true ∧ r.2.1 = 0 ∧ r.2.2 = -64
    else if x.1 = 0 ∨ e < -128 then
      r.1.aq = x.1 * 2 ^ 44 ∧ r.1.eInt = x.2 ∧ r.1.z = true ∧ r.1.ov = n.ov ∧ r.2.1 = 0 ∧ r.2.2 = -64
    else
      (r.2.1, r.2.2) = Config.divRemainder (x.1 * 2 ^ 44) x.2 n.round n.eInt ∧
      ∃ q, RoundedTo (x.1 * 2 ^ 44) (n.round * 4 ^ g) q ∧
        CorrectedTo { n with ov := n.ov || decide (127 < e) } (q * 2 ^ 44) e r.1 := by
  cases hz : a.normalize.z with
  | true =>
    have hy := yval_bounds w
    have bypass : inverseDivide w a =
        ((({ a.normalize with a := frac w, q := 0 } : Acc).setE (yval w)).forceOV, zeroRemainder) := if_pos hz
    simp only [bypass]
    rw [if_pos hz]
    exact ⟨(add_zero _ : xval w * 2 ^ 44 + 0 = _),
      Acc.setE_eInt { a.normalize with a := frac w, q := 0 } (by omega) (by omega), hz, rfl, rfl, rfl⟩
  | false =>
    have normal := Acc.normalize_normal hz
    have neighbour := a.normalize.round_eq_or
    have divisor : 2 ^ 42 ≤ a.normalize.round.natAbs := by omega
    obtain ⟨hm, he⟩ := normalizeOperand_fits w
    rw [inverseDivide_zOff hz]
    generalize normalizeOperand (xval w) (yval w) = x at hm he
    obtain ⟨paq, pe, pz, pov⟩ := a.normalize.interchanged_fields w hm he
    have correction : improper (x.1 * 2 ^ 44) a.normalize.round =
        if a.normalize.round.natAbs < x.1.natAbs then 1 else 0 := by
      unfold improper
      split_ifs <;> omega
    have core := Acc.divideCore_spec (pz.trans hz) (fn := x.1 * 2 ^ 44) (en := x.2) (xd := a.normalize.round)
      (yd := a.normalize.eInt) (by omega) divisor
    simp only [correction] at core
    simp only [hz, Bool.false_eq_true, if_false]
    generalize (if a.normalize.round.natAbs < x.1.natAbs then 1 else 0) = g at core
    by_cases zero : x.1 = 0
    · rw [if_pos zero, if_pos (.inl zero)]
      exact ⟨paq, pe, by simp, pov, rfl, rfl⟩
    · rw [if_neg zero]
      split at core
      case isTrue below =>
        obtain ⟨hacc, hr, hes⟩ := core
        rw [if_pos (.inr below), hacc]
        exact ⟨paq, pe, rfl, pov, hr, hes⟩
      case isFalse notBelow =>
        obtain ⟨remainder, q, quotient, corrected⟩ := core
        rw [if_neg (not_or.mpr ⟨zero, notBelow⟩)]
        exact ⟨remainder, q, quotient, corrected.congr (pz.trans hz).symm (by rw [pov])⟩

/-- Settles O28: VID is a divide with that action. -/
theorem inverseDivideOrder : Obligations.InverseDivideOrder := by
  intro o s hr hq
  obtain ⟨t, answered, done, hacc, hrem, hes, hdiv⟩ := divideOrder_done (act := inverseDivide) hr hq
  have action := inverseDivide_spec (s.operandWord o) s.acc
  simp only [← hacc, ← hrem, ← hes] at action
  exact ⟨t, answered, done, hdiv, action⟩

/-! Difference of absolute values (R135). -/

/-- The action of DAV: its four paths, each corrected by K from Z off (R135). -/
theorem differenceAbs_spec (w : Word) (a : Acc) :
    let n := a.partialNormalize
    let u := -((xval w).natAbs : Int) * 2 ^ 44
    let v := (n.round.natAbs : Int) * 2 ^ 44
    let y := yval w
    let d := y - n.eInt
    if n.z = true ∨ 45 ≤ d then CorrectedTo { n with z := false } u y (differenceAbs w a)
    else if d ≤ -45 then CorrectedTo { n with z := false } v n.eInt (differenceAbs w a)
    else if 0 ≤ d then CorrectedTo { n with z := false } (u + v / 4 ^ d.toNat) y (differenceAbs w a)
    else CorrectedTo { n with z := false } (u / 4 ^ (-d).toNat + v) n.eInt (differenceAbs w a) := by
  have hx := xval_bounds w
  have hr := a.partialNormalize.round_bounds
  have hu : -2 ^ 88 ≤ -((xval w).natAbs : Int) * 2 ^ 44 ∧ -((xval w).natAbs : Int) * 2 ^ 44 ≤ 2 ^ 88 := by omega
  have hv : -2 ^ 88 ≤ (a.partialNormalize.round.natAbs : Int) * 2 ^ 44 ∧
      (a.partialNormalize.round.natAbs : Int) * 2 ^ 44 ≤ 2 ^ 88 := by omega
  simp only [differenceAbs]
  generalize -((xval w).natAbs : Int) * 2 ^ 44 = u at hu ⊢
  generalize (a.partialNormalize.round.natAbs : Int) * 2 ^ 44 = v at hv ⊢
  generalize yval w = y
  generalize a.partialNormalize = n
  have corrected : ∀ f e : Int, -2 ^ 90 ≤ f → f < 2 ^ 90 → CorrectedTo { n with z := false } f e (n.clearZ.k f e) :=
    fun f e lower upper => n.clearZ.k_correctedTo e lower upper
  by_cases zOn : n.z = true
  · rw [if_pos zOn, if_pos (.inl zOn)]
    exact corrected u y (by omega) (by omega)
  rw [if_neg zOn]
  by_cases high : 45 ≤ y - n.eInt
  · rw [if_pos high, if_pos (.inr high)]
    exact corrected u y (by omega) (by omega)
  rw [if_neg high, if_neg (not_or.mpr ⟨zOn, high⟩)]
  by_cases low : y - n.eInt ≤ -45
  · rw [if_pos low, if_pos low]
    exact corrected v n.eInt (by omega) (by omega)
  rw [if_neg low, if_neg low, addAligned]
  by_cases above : n.eInt ≤ y
  · have hs := shifted_bounds (y - n.eInt).toNat (by norm_num) hv
    rw [if_pos above, if_pos (by omega)]
    exact corrected _ y (by omega) (by omega)
  · have hs := shifted_bounds (n.eInt - y).toNat (by norm_num) hu
    rw [if_neg above, if_neg (by omega), Int.neg_sub]
    exact corrected _ n.eInt (by omega) (by omega)

/-- Settles O29: DAV is an arithmetic order with that action. -/
theorem differenceAbsoluteOrder : Obligations.DifferenceAbsoluteOrder := by
  intro o s hr hq
  obtain ⟨t, answered, done, hacc, hdiv⟩ := arithOrder_done (act := differenceAbs) hr hq
  have action := differenceAbs_spec (s.operandWord o) s.acc
  rw [← hacc] at action
  exact ⟨t, answered, done, hdiv, action⟩

end Sys2Proof.Machine


/-! The store orders (43_fp_store). -/

namespace Sys2Proof.Machine

/-! The words stored. -/

/-- The fraction of a stored word, modulo 2 in units of 2^-44 (R7). -/
theorem mkword_xval_mod (m y : Int) : (xval (mkword m y) - m) % 2 ^ 45 = 0 := by
  unfold xval
  rw [mkword_frac, BitVec.toInt_ofInt, Int.bmod_def]
  omega

/-- The exponent of a stored word, where it fits (R7). -/
theorem mkword_yval_fits (m : Int) {y : Int} (h : -64 ≤ y ∧ y ≤ 63) : yval (mkword m y) = y := by
  have hmod := mkword_yval m y
  have hb := yval_bounds (mkword m y)
  omega

/-- The exponent field of a word that stores E: its right seven digits (R148). -/
theorem mkword_expf_eInt (m : Int) (x : Acc) : expf (mkword m x.eInt) = x.e.extractLsb' 0 7 := by
  rw [mkword_expf, Acc.eInt]
  apply BitVec.eq_of_toNat_eq
  rw [BitVec.toNat_ofInt, BitVec.extractLsb'_toNat, Nat.shiftRight_zero, BitVec.toInt_eq_toNat_bmod, Int.bmod_def]
  have := x.e.isLt
  omega

/-! K at the end of a store. -/

/-- K changes nothing where Z is on already (R105). -/
theorem Acc.kHere_zOn {x : Acc} (h : x.z = true) : x.kHere = x := by
  rw [x.kHere_eq, Acc.orZ, h, Bool.true_or, ← h]

/-- With Z off K sets Z exactly for a zero fraction (R105). -/
theorem Acc.kHere_zOff {x : Acc} (h : x.z = false) : x.kHere = { x with z := decide (x.aq = 0) } := by
  rw [x.kHere_eq, Acc.orZ, h, Bool.false_or]

/-- Normalization with Z on does nothing (R102). -/
theorem Acc.normalize_zOn {x : Acc} (h : x.z = true) : x.normalize = x :=
  Acc.normalizeWith_done ((x.work_done_iff false).mpr (.inl h))

/-- A normalized fraction is not zero (R101). -/
theorem Acc.normalize_aq_ne_zero {x : Acc} (h : x.normalize.z = false) : x.normalize.aq ≠ 0 := by
  have normal := Acc.normalize_normal h
  have hq := x.normalize.qInt_bounds
  unfold Acc.aq
  omega

/-! STR and STU (R141, R142). -/

/-- The accumulator whose number STR or STU stores. -/
def Acc.toStore (x : Acc) (norm : Bool) : Acc := if norm then x.normalize else x

/-- StrWord: floating point zero with Z on, else the common tail of R106 (R141). -/
theorem Acc.strWord_eq (x : Acc) (norm : Bool) :
    x.strWord norm =
      if (x.toStore norm).z = true then (zeroWord, x.toStore norm)
      else (x.toStore norm).storeConvert (x.toStore norm).round (x.toStore norm).eInt := by
  unfold Acc.strWord
  split
  case isTrue zOn =>
    have unchanged : x.toStore norm = x := by
      unfold Acc.toStore
      split
      · exact Acc.normalize_zOn zOn
      · rfl
    rw [unchanged, if_pos zOn]
  case isFalse => rfl

/-- The word and the accumulator StrWord leaves (R106, R141). -/
theorem Acc.strWord_spec (x : Acc) (norm : Bool) :
    let n := x.toStore norm
    if n.z = true then x.strWord norm = (zeroWord, n)
    else StoredAs n.round n.eInt (x.strWord norm).1 ∧
      (x.strWord norm).2 = { n with ov := n.ov || storeOverflows n.round n.eInt } := by
  simp only
  rw [x.strWord_eq]
  generalize x.toStore norm = n
  split
  case isTrue => rfl
  case isFalse zOff =>
    obtain ⟨lower, upper⟩ := n.round_bounds
    refine ⟨n.storeConvert_storedAs lower upper, ?_⟩
    rw [n.storeConvert_acc, Bool.eq_false_iff.mpr zOff, Bool.not_false, Bool.and_true]

/-- The action of STR and STU: after the store K can only set Z (R141, R142). -/
theorem strAcc_spec (norm : Bool) (x : Acc) :
    let n := x.toStore norm
    if n.z = true then (strAcc norm x).1 = zeroWord ∧ (strAcc norm x).2 = n
    else StoredAs n.round n.eInt (strAcc norm x).1 ∧
      (strAcc norm x).2 =
        { n with z := decide (n.aq = 0), ov := n.ov || storeOverflows n.round n.eInt } := by
  have stored := x.strWord_spec norm
  simp only [strAcc] at stored ⊢
  generalize x.toStore norm = n at stored
  split at stored
  case isTrue zOn =>
    rw [stored, if_pos zOn]
    exact ⟨rfl, Acc.kHere_zOn zOn⟩
  case isFalse zOff =>
    obtain ⟨word, acc⟩ := stored
    rw [if_neg zOff, acc]
    exact ⟨word, Acc.kHere_zOff (x := { n with ov := _ }) (Bool.eq_false_iff.mpr zOff)⟩

/-- Settles O30: the two actions; after STR, whose fraction is normalized, Z stays off. -/
theorem normalStores : Obligations.NormalStores := by
  intro d s hwf hd hq
  constructor
  · obtain ⟨t, answered, done, hacc⟩ := storeAcc_done (act := strAcc true) hwf hd hq
    have action := strAcc_spec true s.acc
    rw [← hacc] at action
    refine ⟨t, _, answered, done, ?_⟩
    simp only [Acc.toStore, if_true] at action ⊢
    cases hz : s.acc.normalize.z with
    | true => simpa [hz] using action
    | false => simpa [hz, Acc.normalize_aq_ne_zero hz] using action
  · obtain ⟨t, answered, done, hacc⟩ := storeAcc_done (act := strAcc false) hwf hd hq
    have action := strAcc_spec false s.acc
    rw [← hacc] at action
    exact ⟨t, _, answered, done, action⟩

/-! STN (R143). -/

/-- The action of STN (R143, D17). -/
theorem storeNegative_spec (x : Acc) :
    let n := x.normalize
    let m := if n.z = false ∧ n.round = 2 ^ 42 then -2 ^ 44 else -n.round
    let e := if n.z = false ∧ n.round = 2 ^ 42 then n.eInt - 1 else n.eInt
    if n.z = true ∨ e < -128 then
      (storeNegative x).1 = zeroWord ∧ CorrectedTo { n with z := true } (m * 2 ^ 44) e (storeNegative x).2
    else
      StoredAs m e (storeNegative x).1 ∧
      CorrectedTo { n with ov := n.ov || storeOverflows m e } (m * 2 ^ 44) e (storeNegative x).2 := by
  simp only [storeNegative, decide_eq_true_eq]
  obtain ⟨lower, upper⟩ := x.normalize.round_bounds
  generalize x.normalize = n at lower upper
  have hm : -2 ^ 44 ≤ (if n.z = false ∧ n.round = 2 ^ 42 then -2 ^ 44 else -n.round) ∧
      (if n.z = false ∧ n.round = 2 ^ 42 then -2 ^ 44 else -n.round) ≤ 2 ^ 44 := by split <;> omega
  generalize (if n.z = false ∧ n.round = 2 ^ 42 then -2 ^ 44 else -n.round) = m at hm
  generalize (if n.z = false ∧ n.round = 2 ^ 42 then n.eInt - 1 else n.eInt) = e
  have corrected : ∀ y : Acc, CorrectedTo y (m * 2 ^ 44) e (y.k (m * 2 ^ 44) e) :=
    fun y => y.k_correctedTo e (by omega) (by omega)
  by_cases zero : n.z = true ∨ e < -128
  · have zOn : (n.orZ (decide (e < -128))).z = true := by simpa using zero
    rw [if_pos zero, if_pos zOn]
    exact ⟨rfl, (corrected _).congr zOn.symm rfl⟩
  · obtain ⟨zOff, fits⟩ := not_or.mp zero
    have same : n.orZ (decide (e < -128)) = n := by simp [Acc.orZ, fits]
    rw [if_neg zero, same, if_neg zOff]
    refine ⟨n.storeConvert_storedAs hm.1 hm.2, (corrected _).congr ?_ ?_⟩
    · rw [n.storeConvert_acc]
    · rw [n.storeConvert_acc, Bool.eq_false_iff.mpr zOff, Bool.not_false, Bool.and_true]

/-- Settles O31: STN is a store order with that action. -/
theorem storeNegativeOrder : Obligations.StoreNegativeOrder := by
  intro d s hwf hd hq
  obtain ⟨t, answered, done, hacc⟩ := storeAcc_done (act := storeNegative) hwf hd hq
  have action := storeNegative_spec s.acc
  rw [← hacc] at action
  exact ⟨t, _, answered, done, action⟩

/-! Stores at a given exponent: STF, SEQ, SIF and SIA (R111, R144, R145, R147, R168). -/

/-- The fraction of `x` shifted to the exponent `t`, before digits are lost at the left (R111). -/
def Acc.shiftedFraction (x : Acc) (t : Int) : Int :=
  if 0 < x.eInt - t then x.aq * 4 ^ (x.eInt - t).toNat else x.aq / 4 ^ (-(x.eInt - t)).toNat

/-- Digits are lost at the left where the shifted fraction leaves [-1, 1) (R111). -/
def shiftLoses (v : Int) : Bool := decide (v < -2 ^ 88 ∨ 2 ^ 88 ≤ v)

/-- The accumulator `y` is `x` shifted to the exponent `t` (R111, D19). -/
def ShiftedTo (x : Acc) (t : Int) (y : Acc) : Prop :=
  (y.aq - x.shiftedFraction t) % 2 ^ 89 = 0 ∧ y.eInt = t ∧ y.z = x.z ∧
    y.ov = (x.ov || shiftLoses (x.shiftedFraction t))

theorem inRange_eq_not_shiftLoses (v : Int) : (!inRange v) = shiftLoses v := by
  rw [Bool.eq_iff_iff, Bool.not_eq_true', ← Bool.not_eq_true, inRange_iff, shiftLoses, decide_eq_true_eq]
  omega

theorem Acc.shiftToExponent_spec {x : Acc} (hz : x.z = false) {t : Int} (ht : -128 ≤ t ∧ t ≤ 127) :
    ShiftedTo x t (x.shiftToExponent t) := by
  unfold ShiftedTo Acc.shiftToExponent Acc.shiftedFraction
  simp only
  split
  case isTrue =>
    generalize x.aq * 4 ^ (x.eInt - t).toNat = v
    have written := (x.setOVIf (!inRange v)).setAQ_aq_mod (wrap89 v)
    have wrapped := wrap89_mod v
    refine ⟨by rw [Acc.setE_aq]; omega, Acc.setE_eInt _ ht.1 ht.2, by simp, ?_⟩
    simp [hz, inRange_eq_not_shiftLoses]
  case isFalse =>
    have hb := x.aq_bounds
    have shifted := shifted_bounds (v := x.aq) (b := 2 ^ 88) (-(x.eInt - t)).toNat (by norm_num) (by omega)
    have fits : shiftLoses (x.aq / 4 ^ (-(x.eInt - t)).toNat) = false := by
      have upper : x.aq / 4 ^ (-(x.eInt - t)).toNat < 2 ^ 88 :=
        Int.ediv_lt_of_lt_mul (by positivity) (by
          have : (1 : Int) ≤ 4 ^ (-(x.eInt - t)).toNat := one_le_pow₀ (by norm_num)
          nlinarith)
      exact decide_eq_false (by omega)
    refine ⟨by rw [Acc.setE_aq]; exact Acc.setAQ_aq_mod x _, Acc.setE_eInt _ ht.1 ht.2, rfl, ?_⟩
    rw [fits, Bool.or_false]
    rfl

/-- With Z on nothing is shifted; with Z off the accumulator is shifted to `t` (R144, R145, R147, R168). -/
theorem Acc.shifted_cases (x : Acc) {t : Int} (ht : -128 ≤ t ∧ t ≤ 127) :
    (x.z = true ∧ (if x.z then x else x.shiftToExponent t) = x) ∨
    (x.z = false ∧ ShiftedTo x t (if x.z then x else x.shiftToExponent t)) := by
  cases hz : x.z with
  | true => exact .inl ⟨rfl, rfl⟩
  | false => exact .inr ⟨rfl, Acc.shiftToExponent_spec hz ht⟩

/-- The word of STF and SEQ for the rounded fraction `m` (R144, R145). -/
theorem fixedPointWord_fields (m : Int) {t : Int} (ht : -64 ≤ t ∧ t ≤ 63) :
    let w := if m = 0 ∨ t = -64 then zeroWord else mkword m t
    if m = 0 ∨ t = -64 then w = zeroWord else (xval w - m) % 2 ^ 45 = 0 ∧ yval w = t := by
  by_cases zero : m = 0 ∨ t = -64
  · simp only [if_pos zero]
  · simp only [if_neg zero]
    exact ⟨mkword_xval_mod m t, mkword_yval_fits m ht⟩

/-- The action of STF and SEQ: the rounded fraction at the exponent `t`, +1 as -1 with OV on (R144, R145, D19). -/
theorem Acc.storeShifted_spec (x : Acc) {t : Int} (ht : -64 ≤ t ∧ t ≤ 63) :
    let r := x.storeShifted t
    if x.z = true then r = (zeroWord, x)
    else
      (r.2.aq - x.shiftedFraction t) % 2 ^ 89 = 0 ∧ r.2.eInt = t ∧ r.2.z = decide (r.2.aq = 0) ∧
      r.2.ov = (x.ov || shiftLoses (x.shiftedFraction t) || decide (r.2.round = 2 ^ 44)) ∧
      (if r.2.round = 0 ∨ t = -64 then r.1 = zeroWord else (xval r.1 - r.2.round) % 2 ^ 45 = 0 ∧ yval r.1 = t) := by
  unfold Acc.storeShifted
  obtain ⟨zOn, same⟩ | ⟨zOff, shifted⟩ := x.shifted_cases (t := t) (by omega)
  · simp only [same]
    have noOV : x.setOVIf (decide (x.round = 2 ^ 44)) = x := by
      rw [Acc.setOVIf_eq, zOn, Bool.not_true, Bool.and_false, Bool.or_false, ← zOn]
    rw [if_pos zOn, noOV, if_pos (.inl zOn), Acc.kHere_zOn zOn]
  · generalize (if x.z then x else x.shiftToExponent t) = y at shifted
    obtain ⟨haq, he, hz, hov⟩ := shifted
    have yOff : y.z = false := hz.trans zOff
    have kept : (y.setOVIf (decide (y.round = 2 ^ 44))).kHere =
        { y with z := decide (y.aq = 0), ov := y.ov || decide (y.round = 2 ^ 44) } := by
      rw [Acc.setOVIf_eq, yOff, Bool.not_false, Bool.and_true]
      exact Acc.kHere_zOff rfl
    simp only [kept, zOff, Bool.false_eq_true, if_false, Acc.setOVIf_z, yOff, false_or]
    have lowest : t ≤ -64 ↔ t = -64 := by omega
    have digits : ∀ z ov, ({ y with z := z, ov := ov } : Acc).round = y.round := fun _ _ => rfl
    simp only [lowest, digits, hov]
    -- The rounded fraction as a number of its own: deciding whether it is 0 must not unfold the rounding.
    generalize y.round = m
    exact ⟨haq, he, rfl, trivial, fixedPointWord_fields m ht⟩

/-- The action of SIF and SIA: A, unrounded, at the exponent `t` (R147, R168, D19). -/
theorem Acc.storeInteger_spec (x : Acc) {t : Int} (ht : -64 ≤ t ∧ t ≤ 63) :
    let r := x.storeInteger t
    if x.z = true then r = (zeroWord, x)
    else
      (r.2.aq - x.shiftedFraction t) % 2 ^ 89 = 0 ∧ r.2.eInt = t ∧ r.2.z = decide (r.2.aq = 0) ∧
      r.2.ov = (x.ov || shiftLoses (x.shiftedFraction t)) ∧
      (if r.2.aInt = 0 then r.1 = zeroWord else xval r.1 = r.2.aInt ∧ yval r.1 = t) := by
  unfold Acc.storeInteger
  obtain ⟨zOn, same⟩ | ⟨zOff, shifted⟩ := x.shifted_cases (t := t) (by omega)
  · simp only [same]
    rw [if_pos zOn, if_pos (.inl zOn), Acc.kHere_zOn zOn]
  · generalize (if x.z then x else x.shiftToExponent t) = y at shifted
    obtain ⟨haq, he, hz, hov⟩ := shifted
    have yOff : y.z = false := hz.trans zOff
    simp only [Acc.kHere_zOff yOff, zOff, Bool.false_eq_true, if_false, yOff, false_or]
    have digits : ∀ z, ({ y with z := z } : Acc).aInt = y.aInt := fun _ => rfl
    simp only [digits]
    refine ⟨haq, he, rfl, hov, ?_⟩
    have hb := y.aInt_bounds
    by_cases zero : y.aInt = 0
    · rw [if_pos zero, if_pos zero]
    · rw [if_neg zero, if_neg zero]
      exact ⟨mkword_xval _ _ (by omega) (by omega), mkword_yval_fits _ ht⟩

/-- A store order whose action uses the accumulator and the number in F1 (R140, R145). -/
theorem storeF1_done {s : State} {d : Dest} {act : Word → Acc → Word × Acc} (hwf : Mem.wf s.core = true)
    (hd : s.canStore d) (hq : s.quiet) :
    ∃ t, storeOrder d (fun s1 => ((act (s1.getF 1) s1.acc).1, s1.afterDC (act (s1.getF 1) s1.acc).2)) s = .next t ∧
      StoreDone s t d (act (s.getF 1) s.acc).1 ∧ t.acc = (act (s.getF 1) s.acc).2 := by
  obtain ⟨s1, t, answered, ⟨acc, -, -, -, free, f1⟩, hacc, hfree, stored, hdiv, frame, ended, fast, counted⟩ :=
    storeOrder_done (act := fun s1 => ((act (s1.getF 1) s1.acc).1, s1.afterDC (act (s1.getF 1) s1.acc).2))
      (fun _ => rfl) hwf hd hq
  simp only [State.afterDC_acc, State.afterDC_free, acc, free, f1] at hacc hfree stored
  refine ⟨t, answered, ⟨?_, ended, stored, hdiv, fast, counted⟩, hacc⟩
  unfold OnlyStore
  rw [frame]
  simp [hfree]

/-- STF stores at the exponent 0, SEQ at that of the number in F1 (R144, R145, D29). -/
theorem fixedPoint_orders (s : State) :
    ∀ p ∈ ([(0, Instr.stf), (yval (s.getF 1), Instr.seq)] : List (Int × (Dest → Instr))),
      (-64 ≤ p.1 ∧ p.1 ≤ 63) ∧ ∀ d, Mem.wf s.core = true → s.canStore d → s.quiet →
        ∃ t, exec (p.2 d) s = .next t ∧ StoreDone s t d (s.acc.storeShifted p.1).1 ∧
          t.acc = (s.acc.storeShifted p.1).2 := by
  simp only [List.forall_mem_cons]
  exact ⟨⟨by decide, fun d => storeAcc_done (act := fun x => x.storeShifted 0)⟩,
    ⟨yval_bounds _, fun d => storeF1_done (act := fun w x => x.storeShifted (yval w))⟩, nofun⟩

/-- Settles O32: both orders are the store at a given exponent. -/
theorem fixedPointStores : Obligations.FixedPointStores := by
  intro d s hwf hd hq p hp
  obtain ⟨ht, order⟩ := fixedPoint_orders s p hp
  obtain ⟨t, answered, done, hacc⟩ := order d hwf hd hq
  have action := s.acc.storeShifted_spec ht
  refine ⟨t, _, answered, done, ?_⟩
  simp only [← hacc] at action
  split
  case isTrue zOn =>
    rw [if_pos zOn] at action
    rw [hacc, action]
    exact ⟨rfl, rfl⟩
  case isFalse zOff =>
    rw [if_neg zOff] at action
    exact action

/-- Settles O33: SIF is the integer store at the exponent 22. -/
theorem integerStore : Obligations.IntegerStore := by
  intro d s hwf hd hq
  obtain ⟨t, answered, done, hacc⟩ := storeAcc_done (act := fun x => x.storeInteger 22) hwf hd hq
  have action := s.acc.storeInteger_spec (t := 22) (by omega)
  refine ⟨t, _, answered, done, ?_⟩
  simp only [← hacc] at action
  split
  case isTrue zOn =>
    rw [if_pos zOn] at action
    rw [hacc, action]
    exact ⟨rfl, rfl⟩
  case isFalse zOff =>
    rw [if_neg zOff] at action
    exact action

end Sys2Proof.Machine


/-! The stores of digits and of the remainder, and the stores that exchange or clear (43_fp_store R146 to R154). -/

namespace Sys2Proof.Machine

/-! STL and STQ (R148, R149). -/

/-- The fraction field of a word that stores A (R148). -/
theorem mkword_frac_aInt (x : Acc) (y : Int) : frac (mkword x.aInt y) = x.a := by
  rw [mkword_frac, Acc.aInt, BitVec.ofInt_toInt]

/-- Q after a sign digit 0 is a fraction a word can hold (R149). -/
theorem mkword_xval_qInt (x : Acc) (y : Int) : xval (mkword x.qInt y) = x.qInt := by
  have hq := x.qInt_bounds
  exact mkword_xval _ _ (by omega) (by omega)

/-- Settles O34: both orders store digits as they stand, and E modulo 128. -/
theorem logicalStores : Obligations.LogicalStores := by
  intro d s hwf hd hq
  constructor
  · obtain ⟨t, answered, done, hacc⟩ := storeAcc_done (act := fun x => (mkword x.aInt x.eInt, x)) hwf hd hq
    exact ⟨t, _, answered, done, hacc, mkword_frac_aInt _ _, mkword_expf_eInt _ _⟩
  · obtain ⟨t, answered, done, hacc⟩ := storeAcc_done (act := fun x => (mkword x.qInt x.eInt, x)) hwf hd hq
    exact ⟨t, _, answered, done, hacc, mkword_xval_qInt _ _, mkword_expf_eInt _ _⟩

/-! SRM (R151). -/

/-- SRM changes no more of the state than a store order's action may. -/
theorem storeRemainder_act (s : State) : StoreAct s (storeRemainder s).2 (storeRemainder s).2.free := by
  unfold storeRemainder
  split
  · split <;> rfl
  · rfl

/-- The word of SRM after a divide (R151). -/
def remainderWord (r : BitVec 45) (es : Int) : Word :=
  if r = 0 ∨ es ≤ -64 then zeroWord else mkword r.toInt es

/-- After a divide SRM stores the remainder, with OV on from +64 on (R151). -/
theorem storeRemainder_divLast {s : State} (h : s.divLast = true) :
    (storeRemainder s).1 = remainderWord s.r s.es ∧ (storeRemainder s).2.free = s.free ∧
      (storeRemainder s).2.acc =
        if s.r = 0 ∨ s.es ≤ -64 then s.acc
        else { s.acc with ov := s.acc.ov || (decide (64 ≤ s.es) && !s.acc.z) } := by
  unfold storeRemainder remainderWord
  rw [if_pos h]
  split
  · exact ⟨rfl, rfl, rfl⟩
  · exact ⟨rfl, rfl, Acc.setOVIf_eq _ _⟩

/-- After any other order SRM draws a free word and a free OV (U6). -/
theorem storeRemainder_free {s : State} (h : s.divLast = false) :
    storeRemainder s =
      (Config.freeWord s.free,
        { s.afterDC { s.acc with ov := Config.freeOverflow s.free } with free := s.free + 1 }) :=
  if_neg (Bool.eq_false_iff.mp h)

/-- Settles O35: SRM is a store order with that action. -/
theorem remainderStored : Obligations.RemainderStored := by
  intro d s hwf hd hq hdiv
  obtain ⟨s1, t, answered, ⟨acc, r, es, divLast, free, -⟩, hacc, hfree, stored, cleared, frame, ended, fast, counted⟩ :=
    storeOrder_done storeRemainder_act hwf hd hq
  obtain ⟨word, keptFree, result⟩ := storeRemainder_divLast (divLast.trans hdiv)
  rw [keptFree, free] at hfree
  rw [word, r, es] at stored
  rw [result, r, es, acc] at hacc
  refine ⟨t, _, answered, ⟨?_, ended, stored, cleared, fast, counted⟩, ?_⟩
  · unfold OnlyStore
    rw [frame]
    simp [hfree]
  · unfold remainderWord
    split
    case isTrue zero =>
      rw [if_pos zero] at hacc
      exact ⟨rfl, hacc⟩
    case isFalse number =>
      rw [if_neg number] at hacc
      exact ⟨by rw [mkword_frac, BitVec.ofInt_toInt], mkword_yval _ _, hacc⟩

/-- Settles O36: the same with the free word and the free OV. -/
theorem remainderFree : Obligations.RemainderFree := by
  intro d s hwf hd hq hdiv
  obtain ⟨s1, t, answered, ⟨acc, -, -, divLast, -, -⟩, hacc, -, stored, cleared, frame, ⟨cc, na, nb⟩, fast, counted⟩ :=
    storeOrder_done storeRemainder_act hwf hd hq
  rw [storeRemainder_free (divLast.trans hdiv)] at hacc
  have onlyOV : t.acc = { s.acc with ov := t.acc.ov } := by rw [hacc, ← acc]; rfl
  refine ⟨t, _, answered, ?_, cc, stored, fast, counted⟩
  rw [← onlyOV, ← na, ← nb]
  rw [cleared, ← hdiv] at frame
  exact frame

/-! STC, ASC and SSC (R150, R153, R154). -/

/-- The rounding error that STC leaves fits A (R150). -/
theorem Acc.roundingError_bounds (x : Acc) :
    -2 ^ 88 ≤ (x.qInt - (x.round - x.aInt) * 2 ^ 44) * 2 ^ 44 ∧
      (x.qInt - (x.round - x.aInt) * 2 ^ 44) * 2 ^ 44 < 2 ^ 88 := by
  have hq := x.qInt_bounds
  have neighbour := x.round_eq_or
  omega

/-- The tail of STC (R150). -/
theorem Acc.stcTail_correctedTo (x : Acc) :
    CorrectedTo (x.orZ (decide (x.eInt - 22 < -128))) ((x.qInt - (x.round - x.aInt) * 2 ^ 44) * 2 ^ 44)
      (x.eInt - 22) x.stcTail := by
  obtain ⟨lower, upper⟩ := x.roundingError_bounds
  exact (x.orZ (decide (x.eInt - 22 < -128))).k_correctedTo (x.eInt - 22) (le_trans (by norm_num) lower)
    (lt_trans upper (by norm_num))

/-- The same where OV may have been set by the store. -/
theorem Acc.stcTail_withOV (x : Acc) (ov : Bool) :
    CorrectedTo { x with z := x.z || decide (x.eInt - 22 < -128), ov := ov }
      ((x.qInt - (x.round - x.aInt) * 2 ^ 44) * 2 ^ 44) (x.eInt - 22) ({ x with ov := ov } : Acc).stcTail := by
  have digits : ({ x with ov := ov } : Acc).round = x.round := rfl
  have tail := Acc.stcTail_correctedTo { x with ov := ov }
  rw [digits] at tail
  exact tail

/-- The action of STC: what STR stores, and then the rounding error at e - 22 (R150, D17). -/
theorem storeClear_spec (x : Acc) :
    let n := x.normalize
    let e := n.eInt - 22
    let v := (n.qInt - (n.round - n.aInt) * 2 ^ 44) * 2 ^ 44
    if n.z = true then (storeClear x).1 = zeroWord ∧ CorrectedTo n v e (storeClear x).2
    else
      StoredAs n.round n.eInt (storeClear x).1 ∧
      CorrectedTo { n with z := decide (e < -128), ov := n.ov || storeOverflows n.round n.eInt } v e
        (storeClear x).2 := by
  have stored := x.strWord_spec true
  simp only [storeClear, Acc.toStore, if_true] at stored ⊢
  generalize x.normalize = n at stored
  split at stored
  case isTrue zOn =>
    rw [stored, if_pos zOn]
    exact ⟨rfl, n.stcTail_correctedTo.congr (by simp [zOn]) rfl⟩
  case isFalse zOff =>
    obtain ⟨word, acc⟩ := stored
    rw [if_neg zOff, acc]
    have zTail : (n.z || decide (n.eInt - 22 < -128)) = decide (n.eInt - 22 < -128) := by
      rw [Bool.eq_false_iff.mpr zOff, Bool.false_or]
    rw [← zTail]
    exact ⟨word, n.stcTail_withOV _⟩

/-- Settles O37: STC is a store order with that action. -/
theorem storeClearOrder : Obligations.StoreClearOrder := by
  intro d s hwf hd hq
  obtain ⟨t, answered, done, hacc⟩ := storeAcc_done (act := storeClear) hwf hd hq
  have action := storeClear_spec s.acc
  rw [← hacc] at action
  exact ⟨t, _, answered, done, action⟩

/-- ASC and SSC are STC after ADD and after SUB (R153, R154). -/
theorem addStoreClear_orders : ∀ p ∈ ([(1, Instr.asc), (-1, Instr.ssc)] : List (Int × (Dest → Instr))),
    ∀ d s, exec (p.2 d) s = exchangeOrder d (fun w x => storeClear (x.addSub p.1 w)) s := by
  simp only [List.forall_mem_cons]
  exact ⟨fun _ _ => rfl, fun _ _ => rfl, nofun⟩

/-- Settles O39: both orders read their destination and act as STC on the sum. -/
theorem addStoreClearOrders : Obligations.AddStoreClearOrders := by
  intro p hp d s hwf hd hq
  obtain ⟨t, answered, done, hacc⟩ :=
    exchangeOrder_done (act := fun w x => storeClear (x.addSub p.1 w)) hwf hd hq
  have action := storeClear_spec (s.acc.addSub p.1 (s.destWord d))
  rw [← hacc] at action
  exact ⟨t, _, (addStoreClear_orders p hp d s).trans answered, done, action⟩

/-! XCH (R146). -/

/-- The action of XCH: the word of STR, and the old contents as CAD loads them (R146). -/
def exchangeAct (w : Word) (x : Acc) : Word × Acc :=
  ((x.strWord true).1, (x.strWord true).2.clearZ.k (xval w * 2 ^ 44) (yval w))

theorem exchangeAct_spec (w : Word) (x : Acc) :
    HoldsValue (exchangeAct w x).2 (xval w * 2 ^ 44) (yval w) (exchangeAct w x).2 ∧
    (let n := x.normalize
     if n.z = true then (exchangeAct w x).1 = zeroWord ∧ (exchangeAct w x).2.ov = n.ov
     else StoredAs n.round n.eInt (exchangeAct w x).1 ∧
      (exchangeAct w x).2.ov = (n.ov || storeOverflows n.round n.eInt)) := by
  have hx := xval_bounds w
  have hy := yval_bounds w
  have loaded : CorrectedTo (x.strWord true).2.clearZ (xval w * 2 ^ 44) (yval w) (exchangeAct w x).2 :=
    Acc.k_correctedTo _ _ (by omega) (by omega)
  have value := loaded.holdsValue rfl (by omega) (by omega)
  rw [if_pos hx] at value
  obtain ⟨haq, he, hz, hov⟩ := value
  refine ⟨⟨haq, he, hz, rfl⟩, ?_⟩
  have stored := x.strWord_spec true
  simp only [Acc.toStore, if_true] at stored ⊢
  rw [hov, Acc.clearZ_ov, exchangeAct]
  split at stored
  case isTrue zOn =>
    rw [stored, if_pos zOn]
    exact ⟨rfl, rfl⟩
  case isFalse zOff =>
    obtain ⟨word, acc⟩ := stored
    rw [if_neg zOff, acc]
    exact ⟨word, rfl⟩

end Sys2Proof.Machine

namespace Sys2Proof

open Machine in
/-- Settles O38: XCH reads its destination and acts so. -/
theorem exchangeOrder : Obligations.ExchangeOrder := by
  intro d s hwf hd hq
  obtain ⟨t, answered, done, hacc⟩ := exchangeOrder_done (act := exchangeAct) hwf hd hq
  have action := exchangeAct_spec (s.destWord d) s.acc
  rw [← hacc] at action
  exact ⟨t, _, answered, done, action⟩

end Sys2Proof


/-! The shifts and the quarter-word stores (44_exponent_shift_quarter R165 to R168). -/

namespace Sys2Proof.Machine

/-! Shifts (R165, R166). -/

/-- The right 7 digits of the address as a signed number are its balanced remainder modulo 128 (R89). -/
theorem yshift_eq_bmod (addr : Addr) : yshift addr = Int.bmod addr.toNat 128 := by
  rw [yshift, BitVec.toInt_eq_toNat_bmod, BitVec.extractLsb'_toNat, Nat.shiftRight_zero, Int.natCast_mod]
  exact Int.emod_bmod _ 128

/-- A logical shift as arithmetic on the digits as a number (R165, D28). -/
theorem logicalShift_toNat {w : Nat} (v : BitVec w) (n : Int) :
    (logicalShift v n).toNat = if 0 ≤ n then v.toNat / 4 ^ n.toNat else v.toNat * 4 ^ (-n).toNat % 2 ^ w := by
  have four_pow : ∀ k : Nat, 2 ^ (2 * k) = 4 ^ k := fun k => pow_mul 2 2 k
  unfold logicalShift
  split
  · rw [BitVec.toNat_ushiftRight, Nat.shiftRight_eq_div_pow, four_pow]
  · rw [BitVec.toNat_shiftLeft, Nat.shiftLeft_eq, four_pow]

/-- A and Q are the two parts of the 89 digits of a long shift (R166). -/
theorem longShift_digits (x : Acc) (n : Int) :
    (longShift x n).a.toNat * 2 ^ 44 + (longShift x n).q.toNat = (logicalShift (x.a ++ x.q) n).toNat := by
  unfold longShift
  have hb := (logicalShift (x.a ++ x.q) n).isLt
  simp only [BitVec.extractLsb'_toNat, Nat.shiftRight_eq_div_pow]
  omega

/-- What K leaves after a shift: the digits as they are, and Z set for all digits zero (R105, R165, R166). -/
theorem shifted_kHere {x y : Acc} (hz : y.z = x.z) (hov : y.ov = x.ov) (he : y.e = x.e) :
    y.kHere.a = y.a ∧ y.kHere.q = y.q ∧ y.kHere.e = x.e ∧ y.kHere.ov = x.ov ∧
      y.kHere.z = (x.z || decide (y.kHere.aq = 0)) := by
  have hk : y.kHere.z = (x.z || decide (y.aq = 0)) := by rw [y.kHere_eq, Acc.orZ_z, hz]
  rw [hk, y.kHere_eq]
  exact ⟨rfl, rfl, he, hov, rfl⟩

/-- Settles O41: both orders are a logical shift followed by K. -/
theorem shiftOrders : Obligations.ShiftOrders := by
  intro a s hq
  simp only [← yshift_eq_bmod]
  constructor
  · obtain ⟨t, answered, only, -, ended, copies, frame, counted, hacc, hdiv⟩ := addressDC_done (a := a)
      (act := fun addr x => { x with a := logicalShift x.a (yshift addr) }.kHere) hq
    obtain ⟨ha, hq, he, hov, hz⟩ := shifted_kHere (x := s.acc)
      (y := { s.acc with a := logicalShift s.acc.a (yshift (s.address a)) }) rfl rfl rfl
    rw [← hacc] at ha hq he hov hz
    refine ⟨t, answered, only, ended, copies, frame, counted, hdiv, ?_, hq, he, hov, hz⟩
    rw [ha]
    exact logicalShift_toNat s.acc.a _
  · obtain ⟨t, answered, only, -, ended, copies, frame, counted, hacc, hdiv⟩ := addressDC_done (a := a)
      (act := fun addr x => (longShift x (yshift addr)).kHere) hq
    obtain ⟨ha, hq, he, hov, hz⟩ := shifted_kHere (x := s.acc) (y := longShift s.acc (yshift (s.address a))) rfl rfl rfl
    rw [← hacc] at ha hq he hov hz
    refine ⟨t, answered, only, ended, copies, frame, counted, hdiv, ?_, he, hov, hz⟩
    rw [ha, hq, longShift_digits, logicalShift_toNat, BitVec.toNat_append,
      ← Nat.shiftLeft_add_eq_or_of_lt s.acc.q.isLt, Nat.shiftLeft_eq]

/-! Quarter-word stores (R90, R167, R168). -/

/-- The digits of the word of SEX: 39 of A, and E with its sign in 13 (R167). -/
theorem sexWord_fields (x : Acc) :
    (x.a.extractLsb' 6 39 ++ x.e.signExtend 13 : Word).extractLsb' 13 39 = x.a.extractLsb' 6 39 ∧
      ((x.a.extractLsb' 6 39 ++ x.e.signExtend 13 : Word).extractLsb' 0 13).toInt = x.eInt := by
  constructor
  · rw [BitVec.extractLsb'_append_eq_left]
  · rw [BitVec.extractLsb'_append_eq_right]
    exact BitVec.toInt_signExtend_of_le (by decide)

/-- Settles O42: both orders are quarter-word stores; SIA is the integer store at the exponent 6. -/
theorem quarterStores : Obligations.QuarterStores := by
  intro m c s hq
  constructor
  · obtain ⟨t, answered, only, -, ended, f0, quarter, frame, hacc, hdiv⟩ := quarterStore_done (s := s) (m := m)
      (act := fun x => (x.a.extractLsb' 6 39 ++ x.e.signExtend 13, x)) hq
    obtain ⟨digits, exponent⟩ := sexWord_fields s.acc
    exact ⟨t, answered, only, ended, frame, hdiv, hacc, by rw [quarter, f0], by rw [f0]; exact digits,
      by rw [f0]; exact exponent⟩
  · obtain ⟨t, answered, only, -, ended, f0, quarter, frame, hacc, hdiv⟩ := quarterStore_done (s := s) (m := m)
      (act := fun x => x.storeInteger 6) hq
    have action := s.acc.storeInteger_spec (t := 6) (by omega)
    refine ⟨t, answered, only, ended, frame, hdiv, by rw [quarter, f0], ?_⟩
    simp only [← hacc, ← f0] at action
    split
    case isTrue zOn =>
      rw [if_pos zOn] at action
      rw [hacc, f0, action]
      exact ⟨rfl, rfl⟩
    case isFalse zOff =>
      rw [if_neg zOff] at action
      exact action

end Sys2Proof.Machine


/-! What every order keeps of the accumulator: OV on stays on, and a zero stays marked (R18, R19, R38). -/

namespace Sys2Proof.Machine

/-- From `x` to `y` OV does not go off, and a zero marked by Z stays marked (R19, R38). -/
def Acc.Follows (x y : Acc) : Prop := (x.ov = true → y.ov = true) ∧ (x.zeroMarked → y.zeroMarked)

theorem Acc.Follows.refl (x : Acc) : x.Follows x := ⟨id, id⟩

theorem Acc.Follows.trans {x y z : Acc} (h1 : x.Follows y) (h2 : y.Follows z) : x.Follows z :=
  ⟨h2.1 ∘ h1.1, h2.2 ∘ h1.2⟩

/-- What K leaves is marked, wherever it started from (R105). -/
theorem CorrectedTo.follows {x y : Acc} {fw ew : Int} (h : CorrectedTo x fw ew y) {x0 : Acc}
    (hov : x0.ov = true → x.ov = true) : x0.Follows y := ⟨fun h0 => h.ov_of_ov (hov h0), fun _ => h.zeroMarked⟩

theorem Acc.Follows.of_zOn {x y : Acc} (hz : y.z = true) (hov : x.ov = true → y.ov = true) : x.Follows y :=
  ⟨hov, fun _ _ => hz⟩

theorem Acc.Follows.kHere {x y : Acc} (hov : x.ov = true → y.ov = true) : x.Follows y.kHere := by
  rw [y.kHere_eq]
  exact ⟨hov, fun _ hzero => by simpa using .inr hzero⟩

theorem Acc.normalizeWith_follows (part : Bool) (x : Acc) : x.Follows (x.normalizeWith part) :=
  ⟨fun h => by simpa using h, Acc.normalizeWith_zeroMarked⟩

/-- A value left with Z exactly for zero is marked (R38). -/
theorem Acc.Follows.of_z_eq {x y : Acc} (hz : y.z = decide (y.aq = 0)) (hov : x.ov = true → y.ov = true) :
    x.Follows y := ⟨hov, fun _ hzero => by simpa [hz] using hzero⟩

/-! The arithmetic orders (file 42). -/

theorem clearAdd_follows {n : Int} (hn : n ∈ [1, -1, 2, -2]) (w : Word) (x : Acc) : x.Follows (clearAdd n w x) :=
  (clearAdd_correctedTo hn w x).1.follows id

theorem Acc.addSub_follows {sg : Int} (hsg : sg ∈ [1, -1]) (w : Word) (x : Acc) : x.Follows (x.addSub sg w) := by
  obtain ⟨-, spec⟩ := x.addSub_spec hsg w
  dsimp only at spec
  split_ifs at spec
  · rw [spec]; exact .refl x
  · exact spec.follows id
  · rw [spec]; exact .refl x
  · exact spec.follows id
  · exact spec.follows id

theorem multiply_follows (w : Word) (x : Acc) : x.Follows (multiply w x) := by
  have normal : x.Follows x.partialNormalize := x.normalizeWith_follows true
  have spec := multiply_spec w x
  dsimp only at spec
  split_ifs at spec
  · rw [spec]; exact .of_zOn rfl normal.1
  · exact spec.follows fun h => by simp [normal.1 h]

theorem divCommon_follows {sg : Int} (hsg : sg ∈ ([1, -1] : List Int)) (w : Word) (x : Acc) :
    x.Follows (divCommon sg w x).1 := by
  have normal : x.Follows x.normalize := x.normalizeWith_follows false
  have spec := divCommon_spec hsg w x
  dsimp only at spec
  generalize (if (normalizeOperand (xval w) (yval w)).1.natAbs * 2 ^ 44 < x.normalize.aq.natAbs then 1 else 0) = g
    at spec
  split_ifs at spec
  · rw [spec.1]; exact ⟨fun h => by simp [normal.1 h], normal.2⟩
  · rw [spec.1]; exact .of_zOn rfl normal.1
  · obtain ⟨-, q, -, corrected⟩ := spec
    exact corrected.follows fun h => by simp [normal.1 h]

theorem inverseDivide_follows (w : Word) (x : Acc) : x.Follows (inverseDivide w x).1 := by
  have normal : x.Follows x.normalize := x.normalizeWith_follows false
  have spec := inverseDivide_spec w x
  dsimp only at spec
  generalize (if x.normalize.round.natAbs < (normalizeOperand (xval w) (yval w)).1.natAbs then 1 else 0) = g at spec
  split_ifs at spec
  · obtain ⟨-, -, hz, hov, -⟩ := spec
    exact .of_zOn hz fun _ => hov
  · obtain ⟨-, -, hz, hov, -⟩ := spec
    exact .of_zOn hz fun h => by rw [hov, normal.1 h]
  · obtain ⟨-, q, -, corrected⟩ := spec
    exact corrected.follows fun h => by simp [normal.1 h]

theorem differenceAbs_follows (w : Word) (x : Acc) : x.Follows (differenceAbs w x) := by
  have normal : x.Follows x.partialNormalize := x.normalizeWith_follows true
  have spec := differenceAbs_spec w x
  dsimp only at spec
  split_ifs at spec
  all_goals exact spec.follows normal.1

/-! The stores (file 43). -/

theorem strAcc_follows (norm : Bool) (x : Acc) : x.Follows (strAcc norm x).2 := by
  have start : x.Follows (x.toStore norm) := by
    cases norm
    · exact .refl x
    · exact x.normalizeWith_follows false
  have spec := strAcc_spec norm x
  dsimp only at spec
  split_ifs at spec
  · rw [spec.2]; exact start
  · rw [spec.2]; exact .of_z_eq rfl fun h => by simp [start.1 h]

theorem storeNegative_follows (x : Acc) : x.Follows (storeNegative x).2 := by
  have normal : x.Follows x.normalize := x.normalizeWith_follows false
  have spec := storeNegative_spec x
  dsimp only at spec
  generalize (if x.normalize.z = false ∧ x.normalize.round = 2 ^ 42 then (-2 ^ 44 : Int) else -x.normalize.round) = m
    at spec
  generalize (if x.normalize.z = false ∧ x.normalize.round = 2 ^ 42 then x.normalize.eInt - 1 else x.normalize.eInt) = e
    at spec
  split_ifs at spec
  · exact spec.2.follows normal.1
  · exact spec.2.follows fun h => by simp [normal.1 h]

theorem Acc.storeShifted_follows (x : Acc) {t : Int} (ht : -64 ≤ t ∧ t ≤ 63) : x.Follows (x.storeShifted t).2 := by
  have spec := x.storeShifted_spec ht
  dsimp only at spec
  by_cases hz : x.z = true
  · rw [if_pos hz] at spec
    rw [spec]; exact .refl x
  · rw [if_neg hz] at spec
    obtain ⟨-, -, marked, hov, -⟩ := spec
    exact .of_z_eq marked fun h => by simp [hov, h]

theorem Acc.storeInteger_follows (x : Acc) {t : Int} (ht : -64 ≤ t ∧ t ≤ 63) : x.Follows (x.storeInteger t).2 := by
  have spec := x.storeInteger_spec ht
  dsimp only at spec
  by_cases hz : x.z = true
  · rw [if_pos hz] at spec
    rw [spec]; exact .refl x
  · rw [if_neg hz] at spec
    obtain ⟨-, -, marked, hov, -⟩ := spec
    exact .of_z_eq marked fun h => by simp [hov, h]

theorem storeClear_follows (x : Acc) : x.Follows (storeClear x).2 := by
  have normal : x.Follows x.normalize := x.normalizeWith_follows false
  have spec := storeClear_spec x
  dsimp only at spec
  split_ifs at spec
  · exact spec.2.follows normal.1
  · exact spec.2.follows fun h => by simp [normal.1 h]

theorem exchangeAct_follows (w : Word) (x : Acc) : x.Follows (exchangeAct w x).2 := by
  have normal : x.Follows x.normalize := x.normalizeWith_follows false
  obtain ⟨⟨value, -, marked, -⟩, spec⟩ := exchangeAct_spec w x
  refine .of_z_eq (by rw [marked, value]) fun h => ?_
  dsimp only at spec
  split_ifs at spec
  · rw [spec.2, normal.1 h]
  · simp [spec.2, normal.1 h]

/-! Exponents and shifts (file 44). -/

theorem setExponent_follows (x : Acc) (ew : Int) : x.Follows (setExponent x ew) := by
  obtain ⟨ha, hq, -, hov, hz⟩ := setExponent_holdsExponent x ew
  refine ⟨fun h => by simp [hov, h], fun _ hzero => ?_⟩
  have same : (setExponent x ew).aq = x.aq := by simp only [Acc.aq, Acc.aInt, Acc.qInt, ha, hq]
  simp [hz, ← same, hzero]

end Sys2Proof.Machine


/-! What every order leaves: the invariant of the machine, the switches and the parameters, and the accumulator (R20, R21, R24, R30 to R33, R94, R243, R247). -/

namespace Sys2Proof.Machine

/-! Channels and transfers (R247, R280). -/

theorem State.channel_eq (s : State) (c : BitVec 5) : s.channel c = s.channels[c.toNat]'(c.isLt) := by
  have hc : c.toNat < 32 := c.isLt
  simp [State.channel, Vector.getD, hc]

theorem State.channel_setChannel (s : State) (c d : BitVec 5) (x : Option Transfer) :
    (s.setChannel c x).channel d = if c = d then x else s.channel d := by
  simp only [State.channel_eq, State.setChannel, Vector.getElem_setIfInBounds, BitVec.toNat_inj]

/-- An address made of a block and a place in it (R47). -/
theorem block_append_toNat (k : BitVec 5) (i : BitVec 8) :
    (k ++ i : Addr).toNat = k.toNat * 256 + i.toNat := by
  rw [BitVec.toNat_append, ← Nat.shiftLeft_add_eq_or_of_lt i.isLt, Nat.shiftLeft_eq]

/-- A transfer begun by IBT lies in the block of its address (R176). -/
theorem transferOf_inside (p : Params) (msg : Message) (addr : Addr) : (transferOf p msg addr).inside := by
  have hl : (transferOf p msg addr).last.toNat = (blockOf addr).toNat * 256 + 255 := block_append_toNat _ _
  have hn : (transferOf p msg addr).next.toNat / 256 = (blockOf addr).toNat := by
    unfold transferOf
    dsimp only
    split
    · rw [block_append_toNat, show (0 : BitVec 8).toNat = 0 from rfl]
      omega
    · rw [blockOf_toNat]
  exact ⟨by omega, by omega⟩

/-- A transfer that goes on after a word is still in its block (R247). -/
theorem Transfer.afterWord_inside {p : Params} {c : BitVec 5} {stop : Bool} {x y : Transfer} (h : x.inside)
    (hy : x.afterWord p c stop = some y) : y.inside := by
  obtain ⟨hlast, hblock⟩ := h
  unfold Transfer.afterWord at hy
  split at hy
  case isTrue => cases hy
  case isFalse going =>
    obtain rfl := Option.some.inj hy
    simp only [Bool.or_eq_true, decide_eq_true_eq, not_or] at going
    have bound : (x.next + 1).toNat = x.next.toNat + 1 := by
      have := x.last.isLt
      show (x.next.toNat + 1) % 2 ^ 13 = x.next.toNat + 1
      omega
    exact ⟨hlast, by simp only [bound]; omega⟩

/-! The parts of the invariant that no operation of the machine breaks. -/

/-- Each transfer in progress is inside its block (R247). -/
def State.transfersInside (s : State) : Prop := ∀ c x, s.channel c = some x → x.inside

/-- The pair number has twelve digits (R24). -/
def State.pairInside (s : State) : Prop := s.params.twoMemories = true → s.ip.toNat < 4096

/-- From `s` to `t` the parameters stay, and with them what the invariant says of core, the held pair and the transfers. -/
structure Sound (s t : State) : Prop where
  params : t.params = s.params
  wf : Mem.wf s.core = true → Mem.wf t.core = true
  core : s.coreInside → t.coreInside
  pair : s.pairInside → t.pairInside
  transfers : s.transfersInside → t.transfersInside

theorem Sound.refl (s : State) : Sound s s := ⟨rfl, id, id, id, id⟩

theorem Sound.trans {s t u : State} (h1 : Sound s t) (h2 : Sound t u) : Sound s u :=
  ⟨h2.params.trans h1.params, h2.wf ∘ h1.wf, h2.core ∘ h1.core, h2.pair ∘ h1.pair, h2.transfers ∘ h1.transfers⟩

theorem Sound.of_same {s t : State} (hp : t.params = s.params) (hc : t.core = s.core) (hi : t.ip = s.ip)
    (hch : t.channels = s.channels) : Sound s t := by
  refine ⟨hp, by rw [hc]; exact id, ?_, ?_, ?_⟩
  · unfold State.coreInside; rw [hp, hc]; exact id
  · unfold State.pairInside; rw [hp, hi]; exact id
  · unfold State.transfersInside State.channel; rw [hch]; exact id

theorem Sound.setCore (s : State) (a : Addr) (v : Word) : Sound s (s.setCore a v) :=
  ⟨rfl, fun h => State.wf_setCore h a v, fun h => State.coreInside_setCore h a v, id, id⟩

theorem Sound.setChannel (s : State) (c : BitVec 5) (x : Option Transfer)
    (hx : s.transfersInside → ∀ y, x = some y → y.inside) : Sound s (s.setChannel c x) := by
  refine ⟨rfl, id, id, id, fun h d y hy => ?_⟩
  rw [State.channel_setChannel] at hy
  split at hy
  · exact hx h y hy
  · exact h d y hy

theorem Sound.moveWord (s : State) (c : BitVec 5) (w : Word) (x : Transfer) : Sound s (s.moveWord c w x) := by
  unfold State.moveWord
  split
  · exact .setCore s x.next w
  · exact .of_same rfl rfl rfl rfl

theorem State.moveWord_channels (s : State) (c : BitVec 5) (w : Word) (x : Transfer) :
    (s.moveWord c w x).channels = s.channels := by
  unfold State.moveWord
  split <;> rfl

/-- One word of a transfer breaks nothing (R247). -/
theorem Sound.transferWord (s : State) (c : BitVec 5) (w : Word) (stop : Bool) :
    Sound s (s.transferWord c w stop) := by
  obtain idle | ⟨x, -, active, moved⟩ := s.transferWord_cases c w stop
  · rw [idle]; exact .refl s
  · rw [moved]
    have channels := s.moveWord_channels c w x
    refine (Sound.moveWord s c w x).trans ((Sound.setChannel _ c _ fun inside y hy => ?_).trans
      (.of_same rfl rfl rfl rfl))
    refine Transfer.afterWord_inside (inside c x ?_) hy
    rw [← active, State.channel, channels, State.channel]

theorem Sound.transferWords (s : State) (cs : List ChannelWord) : Sound s (s.transferWords cs) := by
  induction cs generalizing s with
  | nil => exact .refl s
  | cons c cs ih => exact (Sound.transferWord s c.channel c.word c.stop).trans (ih _)

theorem Sound.interlude (s : State) : Sound s s.interlude := by
  unfold State.interlude
  cases s.inside with
  | nil => exact .refl s
  | cons cs rest =>
    have passed : Sound s { s with inside := rest } := .of_same rfl rfl rfl rfl
    exact passed.trans (.transferWords _ cs)

theorem Sound.holdPair (s : State) (hp : s.params.twoMemories = true) (w : Addr) (v8 v9 : Word) :
    Sound s (s.holdPair w v8 v9) := by
  refine ⟨rfl, id, id, fun _ _ => ?_, id⟩
  have := w.isLt
  simp only [State.holdPair, State.pairOf, hp, if_true, BitVec.toNat_ushiftRight, Nat.shiftRight_eq_div_pow]
  omega

theorem Sound.loadWord (s : State) (hp : s.params.twoMemories = false) (w : Addr) : Sound s (s.loadPair w) := by
  unfold State.loadPair
  rw [hp]
  exact ⟨rfl, id, id, fun _ both => absurd both (by simp [hp]), id⟩

/-- Fetching breaks nothing (R50, R52, R53). -/
theorem Fetched.sound {s t : State} (h : Fetched s t) : Sound s t := by
  induction h with
  | refl => exact .refl s
  | landed _ ih => exact ih.trans (.of_same rfl rfl rfl rfl)
  | drawn _ ih => exact ih.trans (.of_same rfl rfl rfl rfl)
  | interlude _ ih => exact ih.trans (.interlude _)
  | holdPair _ hp w v8 v9 ih => exact ih.trans (.holdPair _ hp w v8 v9)
  | loadWord _ hp w ih => exact ih.trans (.loadWord _ hp w)

/-! What no order touches. -/

/-- Everything that no order touches, or only Interplay inside it (R30 to R33, R57, R237, R247, log 19). -/
structure Keeps (s t : State) : Prop where
  sound : Sound s t
  black : t.black = s.black
  green : t.green = s.green
  engineering : t.engineering = s.engineering
  interplayAlways : t.interplayAlways = s.interplayAlways
  cause : t.cause = s.cause
  events : t.events = s.events
  idle : s.inside = [] → t.inside = [] ∧ t.blockDone = s.blockDone ∧ t.deviceOut = s.deviceOut

theorem Keeps.trans {s t u : State} (h1 : Keeps s t) (h2 : Keeps t u) : Keeps s u where
  sound := h1.sound.trans h2.sound
  black := h2.black.trans h1.black
  green := h2.green.trans h1.green
  engineering := h2.engineering.trans h1.engineering
  interplayAlways := h2.interplayAlways.trans h1.interplayAlways
  cause := h2.cause.trans h1.cause
  events := h2.events.trans h1.events
  idle := fun h => by
    obtain ⟨hi, hb, hd⟩ := h1.idle h
    obtain ⟨hi2, hb2, hd2⟩ := h2.idle hi
    exact ⟨hi2, hb2.trans hb, hd2.trans hd⟩

/-- The fields an order may write, core and the channels apart. -/
theorem Keeps.of_frame {s t : State}
    (h : t = { s with fast := t.fast, cc := t.cc, acc := t.acc, r := t.r, es := t.es, divLast := t.divLast,
                      intMode := t.intMode, na := t.na, nb := t.nb, busy := t.busy, prepared := t.prepared,
                      tapeIn := t.tapeIn, tapeOut := t.tapeOut, stopped := t.stopped, jumped := t.jumped,
                      free := t.free }) : Keeps s t := by
  rw [h]
  exact ⟨.of_same rfl rfl rfl rfl, rfl, rfl, rfl, rfl, rfl, rfl, fun hi => ⟨hi, rfl, rfl⟩⟩

theorem Keeps.setCore (s : State) (a : Addr) (v : Word) : Keeps s (s.setCore a v) :=
  ⟨.setCore s a v, rfl, rfl, rfl, rfl, rfl, rfl, fun hi => ⟨hi, rfl, rfl⟩⟩

theorem Keeps.beginTransfer (s : State) (c : BitVec 5) (msg : Message) (addr : Addr) :
    Keeps s (s.setChannel c (some (transferOf s.params msg addr))) :=
  ⟨.setChannel s c _ fun _ _ hy => Option.some.inj hy ▸ transferOf_inside s.params msg addr,
    rfl, rfl, rfl, rfl, rfl, rfl, fun hi => ⟨hi, rfl, rfl⟩⟩

theorem Keeps.interlude (s : State) : Keeps s s.interlude :=
  ⟨.interlude s, by simp, by simp, by simp, by simp, by simp, by simp,
    fun hi => by rw [State.interlude_nil hi]; exact ⟨hi, rfl, rfl⟩⟩

/-! What each order does to the accumulator and to the interrupt mode. -/

/-- The Delayed Control orders (R20, R21). -/
def Delayed (i : Instr) : Prop :=
  (∃ f ∈ arithOrders, ∃ o, i = f o) ∨ (∃ f ∈ storeOrders, ∃ d, i = f d) ∨
  (∃ f ∈ ([.cae, .cse, .ade, .sbe, .ars, .lrs] : List (AddrForm → Instr)), ∃ a, i = f a) ∨
  ∃ m c, i = .sex m c ∨ i = .sia m c

/-- The arithmetic unit is as it was (R21). -/
def SameArithmetic (s t : State) : Prop := t.acc = s.acc ∧ t.r = s.r ∧ t.es = s.es ∧ t.divLast = s.divLast

/-- Everything an order that completes can have done to the arithmetic unit and to the interrupt mode. -/
inductive Effect (s t : State) : Instr → Prop where
  /-- nothing -/
  | control {i : Instr} (hm : t.intMode = s.intMode) (h : SameArithmetic s t) : Effect s t i
  /-- JDC with B = 0 leaves the interrupt mode (R239) -/
  | leave {c : BitVec 2} {n : Addr} (hm : t.intMode = false) (h : SameArithmetic s t) :
      Effect s t (.jdc .leaveInterrupt c n)
  /-- JDC with B = 10 or 11 clears OV (R206) -/
  | clearOV {x : Condition} {c : BitVec 2} {n : Addr} (hx : x = .ovOnClear ∨ x = .ovOffClear)
      (hm : t.intMode = s.intMode) (h : SameArithmetic s.clearOV t) : Effect s t (.jdc x c n)
  /-- a Delayed Control order works on the accumulator -/
  | arithmetic {i : Instr} (hi : Delayed i) (hm : t.intMode = s.intMode) (h : s.acc.Follows t.acc) : Effect s t i
  /-- SRM after an order that was no divide leaves a free OV (U6) -/
  | freeOverflow {d : Dest} (hd : s.divLast = false) (hm : t.intMode = s.intMode)
      (h : t.acc = { s.acc with ov := t.acc.ov }) : Effect s t (.srm d)

/-- An order `i` that was obeyed in `s` and left `t`. -/
structure Obeyed (s t : State) (i : Instr) : Prop where
  keeps : Keeps s t
  pending : t.na = 0 ∨ t.nb = 0
  effect : Effect s t i

/-! The Advanced Control shapes. -/

/-- An Advanced Control order that writes neither core nor the channels. -/
theorem Obeyed.of_control {s t : State} {i : Instr}
    (h : t = { s with fast := t.fast, cc := t.cc, na := t.na, nb := t.nb, busy := t.busy, prepared := t.prepared,
                      tapeIn := t.tapeIn, tapeOut := t.tapeOut, stopped := t.stopped, jumped := t.jumped,
                      free := t.free }) (pending : t.na = 0 ∨ t.nb = 0) : Obeyed s t i :=
  ⟨.of_frame (by rw [h]), pending, .control (by rw [h]) (by rw [h]; exact ⟨rfl, rfl, rfl, rfl⟩)⟩

/-- An Advanced Control order that stores a word (R211, R214). -/
theorem Obeyed.of_store {s t : State} {i : Instr} {a : Addr} {v : Word} {g : Nat}
    (h : memWrite s.clearPending a v (complete g) = .next t) : Obeyed s t i := by
  obtain rfl := complete_next (memWrite_next h).2
  exact ⟨(Keeps.of_frame (t := s.clearPending) rfl).trans ((Keeps.setCore _ a v).trans (.of_frame rfl)), .inl rfl,
    .control rfl ⟨rfl, rfl, rfl, rfl⟩⟩

/-- A long jump (R190). -/
theorem Obeyed.of_jump {s s1 t : State} {i : Instr} {p : Bool} {c : BitVec 2} {n : Addr}
    (h : jumpIf p c n s s1 = .next t) (h1 : s1 = { s with fast := s1.fast, na := 0, nb := 0 }) : Obeyed s t i := by
  obtain ⟨-, rfl⟩ | ⟨-, rfl⟩ := jumpIf_next h
  all_goals
    rw [h1]
    exact .of_control rfl (.inl rfl)

/-- An address order of Advanced Control whose action leaves core and the channels alone (R171). -/
theorem Obeyed.of_addressAC {s t : State} {i : Instr} {f : AddrForm} {act : Addr → State → State}
    (h : addressAC f act s = .next t)
    (hact : ∀ addr u, act addr u = { u with fast := (act addr u).fast, na := (act addr u).na, nb := (act addr u).nb,
                                            busy := (act addr u).busy, prepared := (act addr u).prepared })
    (pending : ∀ addr u, u.na = 0 → u.nb = 0 → (act addr u).na = 0 ∨ (act addr u).nb = 0) : Obeyed s t i := by
  obtain ⟨a, rfl, rfl⟩ := addressAC_next h
  refine .of_control ?_ (pending _ _ (State.prepare_na s a) (State.prepare_nb s a))
  rw [hact]
  cases a <;> rfl

theorem Obeyed.of_modArith {s t : State} {i : Instr} {op : Group → Group → Group} {m : BitVec 4} {n : Option Addr}
    {toNext : Bool} (h : modArith op m n toNext s = .next t) : Obeyed s t i := by
  obtain rfl := complete_next h
  cases toNext
  · exact .of_control rfl (.inl rfl)
  · exact .of_control rfl (.inr rfl)

theorem Obeyed.of_countHeld {s t : State} {i : Instr} {second : Bool} {m : BitVec 4} {c : BitVec 2}
    (h : countHeld second m c s = .next t) : Obeyed s t i := by
  obtain rfl | rfl := countHeld_next h
  all_goals exact .of_control rfl (.inl rfl)

/-- JDC (R206). -/
theorem Obeyed.of_jdc {s t : State} {x : Condition} {c : BitVec 2} {n : Addr} (h : execJdc x c n s = .next t) :
    Obeyed s t (.jdc x c n) := by
  obtain ⟨-, rfl⟩ | ⟨-, rfl⟩ := jumpIf_next h
  all_goals
    refine ⟨?_, ?_, ?_⟩
    · cases x <;> exact .of_frame rfl
    · cases x <;> exact .inl rfl
    · cases x with
      | leaveInterrupt => exact .leave rfl ⟨rfl, rfl, rfl, rfl⟩
      | ovOnClear => exact .clearOV (.inl rfl) rfl ⟨rfl, rfl, rfl, rfl⟩
      | ovOffClear => exact .clearOV (.inr rfl) rfl ⟨rfl, rfl, rfl, rfl⟩
      | _ => exact .control rfl ⟨rfl, rfl, rfl, rfl⟩

/-! The Delayed Control shapes. -/

/-- The state a full-word order acts in is the one before it but for the pending amounts and a counted modifier (R83). -/
theorem State.prepare_eq (s : State) (a : NormalAddr) :
    s.prepare a = { s with fast := (s.prepare a).fast, na := 0, nb := 0 } := by cases a <;> rfl

theorem Keeps.prepare (s : State) (a : NormalAddr) : Keeps s (s.prepare a) := by
  rw [s.prepare_eq a]
  exact .of_frame rfl

theorem withOperand_next_frame {s t : State} {o : Operand} {k : Word → State → Out}
    (h : withOperand s o k = .next t) :
    ∃ s1, s1 = { s with fast := s1.fast, na := 0, nb := 0 } ∧ k (s.operandWord o) s1 = .next t := by
  obtain ⟨s0, rfl | ⟨a, -, rfl⟩, answered⟩ := withOperand_next h
  · exact ⟨_, rfl, answered⟩
  · refine ⟨_, ?_, answered⟩
    rw [s.prepare_eq a]
    rfl

theorem Obeyed.of_arithOrder {s t : State} {i : Instr} {o : Operand} {act : Word → Acc → Acc} (hi : Delayed i)
    (h : arithOrder o act s = .next t) (hact : ∀ w (x : Acc), x.Follows (act w x)) : Obeyed s t i := by
  obtain ⟨s1, h1, answered⟩ := withOperand_next_frame h
  obtain rfl := completeDC_next answered
  rw [h1]
  exact ⟨.of_frame rfl, .inl rfl, .arithmetic hi rfl (hact _ _)⟩

theorem Obeyed.of_divideOrder {s t : State} {i : Instr} {o : Operand} {act : Word → Acc → Acc × (BitVec 45 × Int)}
    (hi : Delayed i) (h : divideOrder o act s = .next t) (hact : ∀ w (x : Acc), x.Follows (act w x).1) : Obeyed s t i := by
  obtain ⟨s1, h1, answered⟩ := withOperand_next_frame h
  obtain rfl := completeDC_next answered
  rw [h1]
  exact ⟨.of_frame rfl, .inl rfl, .arithmetic hi rfl (hact _ _)⟩

theorem Obeyed.of_addressDC {s t : State} {i : Instr} {f : AddrForm} {act : Addr → Acc → Acc} (hi : Delayed i)
    (h : addressDC f act s = .next t) (hact : ∀ addr (x : Acc), x.Follows (act addr x)) : Obeyed s t i := by
  obtain ⟨a, -, rfl⟩ := addressDC_next h
  rw [s.prepare_eq a]
  exact ⟨.of_frame rfl, .inl rfl, .arithmetic hi rfl (hact _ _)⟩

theorem Obeyed.of_quarterStore {s t : State} {i : Instr} {m : BitVec 4} {act : Acc → Word × Acc} (hi : Delayed i)
    (h : quarterStore m act s = .next t) (hact : ∀ x : Acc, x.Follows (act x).2) : Obeyed s t i := by
  obtain rfl := completeDC_next h
  exact ⟨.of_frame rfl, .inl rfl, .arithmetic hi rfl (hact _)⟩

theorem State.storeFast_eq (s : State) (b : BitVec 4) (w : Word) :
    s.storeFast b w = { s with fast := (s.storeFast b w).fast } := by
  unfold State.storeFast
  split <;> rfl

/-- A store order that is answered: its action, in the prepared state, and the word stored (R87, R140). -/
theorem storeOrder_next {s t : State} {d : Dest} {act : State → Word × State}
    (hact : ∀ s1, StoreAct s1 (act s1).2 (act s1).2.free) (h : storeOrder d act s = .next t) :
    ∃ s1, s1 = { s with fast := s1.fast, na := 0, nb := 0 } ∧ Keeps s t ∧ t.na = 0 ∧ t.intMode = s.intMode ∧
      t.acc = (act s1).2.acc := by
  cases d with
  | core a =>
    have acted := hact (s.prepare a)
    obtain rfl := completeDC_next (memWrite_next h).2
    refine ⟨s.prepare a, s.prepare_eq a, ?_, ?_, ?_, rfl⟩
    · have before : Keeps s (act (s.prepare a)).2 := by
        rw [acted]
        exact (Keeps.prepare s a).trans (.of_frame rfl)
      exact before.trans ((Keeps.of_frame rfl).trans ((Keeps.setCore _ _ _).trans (.of_frame rfl)))
    · show (act (s.prepare a)).2.na = 0
      rw [acted]
      exact State.prepare_na s a
    · show (act (s.prepare a)).2.intMode = s.intMode
      rw [acted]
      exact State.prepare_intMode s a
  | fast b =>
    have acted := hact s.clearPending
    simp only [storeOrder] at h
    split at h
    case isTrue => exact absurd h (illegalOrder_ne_next _ _)
    case isFalse =>
      obtain rfl := completeDC_next h
      refine ⟨s.clearPending, rfl, ?_, ?_, ?_, ?_⟩
      · rw [State.storeFast_eq, acted]
        exact .of_frame rfl
      · rw [State.storeFast_eq, acted]; rfl
      · rw [State.storeFast_eq, acted]; rfl
      · rw [State.storeFast_eq]; rfl

theorem Obeyed.of_storeAcc {s t : State} {i : Instr} {d : Dest} {act : Acc → Word × Acc} (hi : Delayed i)
    (h : storeAcc d act s = .next t) (hact : ∀ x : Acc, x.Follows (act x).2) : Obeyed s t i := by
  obtain ⟨s1, h1, keeps, hna, hm, hacc⟩ := storeOrder_next
    (act := fun s1 => ((act s1.acc).1, s1.afterDC (act s1.acc).2)) (fun _ => rfl) h
  refine ⟨keeps, .inl hna, .arithmetic hi hm ?_⟩
  rw [hacc, h1]
  exact hact s.acc

/-- An exchange order that is answered: what its action made of the accumulator (R88, R140). -/
theorem Obeyed.of_exchangeOrder {s t : State} {i : Instr} {d : Dest} {act : Word → Acc → Word × Acc} (hi : Delayed i)
    (h : Machine.exchangeOrder d act s = .next t) (hact : ∀ w (x : Acc), x.Follows (act w x).2) : Obeyed s t i := by
  cases d with
  | core a =>
    simp only [Machine.exchangeOrder] at h
    obtain ⟨-, answered⟩ := memRead_next h
    generalize (s.prepare a).coreWord (s.address a) = w at answered
    generalize hu : ((s.prepare a).setF 1 w).interlude = u at answered
    have before : Keeps s u := by
      rw [← hu]
      exact (Keeps.prepare s a).trans ((Keeps.of_frame (t := (s.prepare a).setF 1 w) rfl).trans (.interlude _))
    have hna : u.na = 0 := by rw [← hu]; simp
    have hm : u.intMode = s.intMode := by rw [← hu]; simp
    have hacc : u.acc = s.acc := by rw [← hu]; simp
    obtain rfl := completeDC_next (memWrite_next answered).2
    refine ⟨before.trans ((Keeps.of_frame rfl).trans ((Keeps.setCore _ _ _).trans (.of_frame rfl))), .inl hna,
      .arithmetic hi hm ?_⟩
    rw [← hacc]
    exact hact w u.acc
  | fast b =>
    simp only [Machine.exchangeOrder] at h
    split at h
    case isTrue => exact absurd h (illegalOrder_ne_next _ _)
    case isFalse =>
      obtain rfl := completeDC_next h
      rw [State.storeFast_eq]
      exact ⟨.of_frame rfl, .inl rfl, .arithmetic hi rfl (hact _ _)⟩

/-- SRM (R151). -/
theorem Obeyed.of_srm {s t : State} {d : Dest} (h : execSrm d s = .next t) : Obeyed s t (.srm d) := by
  obtain ⟨s1, h1, keeps, hna, hm, hacc⟩ := storeOrder_next storeRemainder_act h
  have acc1 : s1.acc = s.acc := by rw [h1]
  have div1 : s1.divLast = s.divLast := by rw [h1]
  refine ⟨keeps, .inl hna, ?_⟩
  cases hd : s.divLast with
  | true =>
    obtain ⟨-, -, after⟩ := storeRemainder_divLast (div1.trans hd)
    refine .arithmetic (.inr (.inl ⟨.srm, by simp [storeOrders], d, rfl⟩)) hm ?_
    rw [hacc, after, acc1]
    split
    · exact .refl s.acc
    · exact ⟨fun hov => by simp [hov], id⟩
  | false =>
    refine .freeOverflow hd hm ?_
    rw [hacc, storeRemainder_free (div1.trans hd), acc1]
    rfl

end Sys2Proof.Machine


/-! The frame of every order and of every step (10_state R18 to R21, 60_exceptions R243 and R247). -/

namespace Sys2Proof.Machine

/-! The families of orders, one order after another. -/

theorem arithOrders_obeyed {s t : State} {o : Operand} :
    ∀ f ∈ arithOrders, exec (f o) s = .next t → Obeyed s t (f o) := by
  intro f hf
  have delayed : Delayed (f o) := .inl ⟨f, hf, o, rfl⟩
  revert f
  simp only [arithOrders, List.forall_mem_cons]
  exact ⟨fun d (h : execCad o s = .next t) => .of_arithOrder d h (clearAdd_follows (by simp)),
    fun d (h : execCsb o s = .next t) => .of_arithOrder d h (clearAdd_follows (by simp)),
    fun d (h : execCat o s = .next t) => .of_arithOrder d h (clearAdd_follows (by simp)),
    fun d (h : execCst o s = .next t) => .of_arithOrder d h (clearAdd_follows (by simp)),
    fun d (h : execNot o s = .next t) => .of_arithOrder d h fun _ _ => .kHere id,
    fun d (h : execAnd o s = .next t) => .of_arithOrder d h fun _ _ => .kHere id,
    fun d (h : execLor o s = .next t) => .of_arithOrder d h fun _ _ => .kHere id,
    fun d (h : execDba o s = .next t) => .of_arithOrder d h fun _ _ => .kHere id,
    fun d (h : execLdq o s = .next t) => .of_arithOrder d h fun _ _ => .kHere id,
    fun d (h : execAdd o s = .next t) => .of_arithOrder d h (Acc.addSub_follows (by simp)),
    fun d (h : execSub o s = .next t) => .of_arithOrder d h (Acc.addSub_follows (by simp)),
    fun d (h : execMpy o s = .next t) => .of_arithOrder d h multiply_follows,
    fun d (h : execDiv o s = .next t) => .of_divideOrder d h (divCommon_follows (by simp)),
    fun d (h : execNdv o s = .next t) => .of_divideOrder d h (divCommon_follows (by simp)),
    fun d (h : execVid o s = .next t) => .of_divideOrder d h inverseDivide_follows,
    fun d (h : execDav o s = .next t) => .of_arithOrder d h differenceAbs_follows, nofun⟩

theorem State.afterDC_storeAct (s : State) (x : Acc) : StoreAct s (s.afterDC x) (s.afterDC x).free := rfl

/-- SEQ, whose exponent is that of the word in F1 (R145). -/
theorem Obeyed.of_seq {s t : State} {i : Instr} {d : Dest} (hi : Delayed i) (h : execSeq d s = .next t) :
    Obeyed s t i := by
  obtain ⟨s1, h1, keeps, hna, hm, hacc⟩ := storeOrder_next
    (act := fun s1 => ((s1.acc.storeShifted (yval (s1.getF 1))).1, s1.afterDC (s1.acc.storeShifted (yval (s1.getF 1))).2))
    (fun s1 => s1.afterDC_storeAct _) h
  have acc1 : s1.acc = s.acc := by rw [h1]
  refine ⟨keeps, .inl hna, .arithmetic hi hm ?_⟩
  have bounds := yval_bounds (s1.getF 1)
  rw [hacc, ← acc1]
  simp only [State.afterDC_acc]
  generalize yval (s1.getF 1) = y at bounds
  exact s1.acc.storeShifted_follows ⟨bounds.1, bounds.2⟩

theorem storeOrders_obeyed {s t : State} {d : Dest} :
    ∀ f ∈ storeOrders, exec (f d) s = .next t → Obeyed s t (f d) := by
  intro f hf
  have delayed : Delayed (f d) := .inr (.inl ⟨f, hf, d, rfl⟩)
  revert f
  simp only [storeOrders, List.forall_mem_cons]
  exact ⟨fun i (h : execStr d s = .next t) => .of_storeAcc i h (strAcc_follows true),
    fun i (h : execStu d s = .next t) => .of_storeAcc i h (strAcc_follows false),
    fun i (h : execStn d s = .next t) => .of_storeAcc i h storeNegative_follows,
    fun i (h : execStf d s = .next t) => .of_storeAcc i h fun x => x.storeShifted_follows (by omega),
    fun i h => .of_seq i h,
    fun i (h : execXch d s = .next t) => .of_exchangeOrder i h exchangeAct_follows,
    fun i (h : execSif d s = .next t) => .of_storeAcc i h fun x => x.storeInteger_follows (by omega),
    fun i (h : execStl d s = .next t) => .of_storeAcc i h .refl,
    fun i (h : execStq d s = .next t) => .of_storeAcc i h .refl,
    fun i (h : execStc d s = .next t) => .of_storeAcc i h storeClear_follows, fun _ h => .of_srm h,
    fun i (h : execAsc d s = .next t) =>
      .of_exchangeOrder i h fun w x => (x.addSub_follows (by simp) w).trans (storeClear_follows _),
    fun i (h : execSsc d s = .next t) =>
      .of_exchangeOrder i h fun w x => (x.addSub_follows (by simp) w).trans (storeClear_follows _), nofun⟩

theorem exponentAndShiftOrders_obeyed {s t : State} {a : AddrForm} :
    ∀ f ∈ ([.cae, .cse, .ade, .sbe, .ars, .lrs] : List (AddrForm → Instr)),
      exec (f a) s = .next t → Obeyed s t (f a) := by
  intro f hf
  have delayed : Delayed (f a) := .inr (.inr (.inl ⟨f, hf, a, rfl⟩))
  revert f
  simp only [List.forall_mem_cons]
  exact ⟨fun i (h : execCae a s = .next t) => .of_addressDC i h fun _ x => setExponent_follows x _,
    fun i (h : execCse a s = .next t) => .of_addressDC i h fun _ x => setExponent_follows x _,
    fun i (h : execAde a s = .next t) => .of_addressDC i h fun _ x => setExponent_follows x _,
    fun i (h : execSbe a s = .next t) => .of_addressDC i h fun _ x => setExponent_follows x _,
    fun i (h : execArs a s = .next t) => .of_addressDC i h fun _ _ => .kHere id,
    fun i (h : execLrs a s = .next t) => .of_addressDC i h fun _ _ => .kHere id, nofun⟩

theorem guardedOrders_obeyed {s t : State} {a : AddrForm} :
    ∀ f ∈ guardedOrders, exec (f a) s = .next t → Obeyed s t (f a) := by
  have begun : ∀ {i : Instr}, execIbt a s = .next t → Obeyed s t i := by
    intro i h
    obtain ⟨a, -, rfl⟩ := addressAC_next (interplayOrder_next h).2
    exact ⟨(Keeps.prepare s a).trans ((Keeps.beginTransfer _ _ _ _).trans (.of_frame rfl)),
      .inl (State.prepare_na s a), .control (State.prepare_intMode s a)
        ⟨State.prepare_acc s a, State.prepare_r s a, State.prepare_es s a, State.prepare_divLast s a⟩⟩
  simp only [guardedOrders, List.forall_mem_cons]
  exact ⟨fun h => .of_addressAC (interplayOrder_next h).2 (fun _ _ => rfl) fun _ _ h _ => .inl h,
    fun h => .of_addressAC (interplayOrder_next h).2 (fun _ _ => rfl) fun _ _ h _ => .inl h, begun,
    fun h => .of_addressAC (interplayOrder_next h).2 (fun _ _ => rfl) fun _ _ h _ => .inl h,
    fun h => .of_addressAC (interplayOrder_next h).2 (fun _ _ => rfl) fun _ _ h _ => .inl h, nofun⟩

theorem execJlh_obeyed {s t : State} {i : Instr} {a : AddrForm} (h : execJlh a s = .next t) : Obeyed s t i := by
  obtain ⟨a, -, answered⟩ := withAddress_next h
  obtain rfl := Host.Outcome.next.inj answered
  rw [s.prepare_eq a]
  exact .of_control rfl (.inl rfl)

/-- ASN and SSN, whatever they make of the value read (R183, R184). -/
theorem readSpecial_obeyed {s t : State} {i : Instr} {r : BitVec 6} {op : BitVec 13 → BitVec 13}
    (h : readSpecial r s.clearPending (fun v s1 => complete 1 { s1 with na := op v }) = .next t) : Obeyed s t i := by
  obtain ⟨c, rest, -, -, answered⟩ | ⟨-, answered⟩ := readSpecial_next h
  all_goals
    obtain rfl := complete_next answered
    exact .of_control rfl (.inr rfl)

theorem execSsr_obeyed {s t : State} {i : Instr} {r : BitVec 6} (h : execSsr r s = .next t) : Obeyed s t i := by
  obtain rfl := complete_next h
  unfold State.writeSpecial
  split
  · exact .of_control rfl (.inl rfl)
  · exact .of_control rfl (.inl rfl)

theorem execHlt_obeyed {s t : State} {i : Instr} {b : BitVec 4} {c : BitVec 2} (h : execHlt b c s = .next t) :
    Obeyed s t i := by
  unfold execHlt at h
  split at h
  all_goals
    obtain rfl := complete_next h
    exact .of_control rfl (.inl rfl)

theorem execLfr_obeyed {s t : State} {i : Instr} {b : BitVec 4} {n : Option Addr} {c2 : Bool}
    (h : execLfr b n c2 s = .next t) : Obeyed s t i := by
  unfold execLfr at h
  split at h
  case isTrue => exact absurd h (illegalOrder_ne_next _ _)
  case isFalse =>
    obtain rfl := complete_next (memRead_next h).2
    exact .of_control rfl (.inl rfl)

theorem execSqw_obeyed {s t : State} {i : Instr} {b : BitVec 4} {c : BitVec 2} {n : Addr}
    (h : execSqw b c n s = .next t) : Obeyed s t i := by
  unfold execSqw at h
  split at h
  case isTrue => exact absurd h (illegalOrder_ne_next _ _)
  case isFalse => exact .of_store h

theorem execSfr_obeyed {s t : State} {i : Instr} {b : BitVec 4} {n : Option Addr} {c2 : Bool}
    (h : execSfr b n c2 s = .next t) : Obeyed s t i := by
  unfold execSfr at h
  split at h
  case isTrue => exact absurd h (illegalOrder_ne_next _ _)
  case isFalse => exact .of_store h

/-- Everything an order that is answered can have done. -/
theorem exec_obeyed {i : Instr} {s t : State} (h : exec i s = .next t) : Obeyed s t i := by
  cases i with
  | csb o | cst o | cad o | cat o | not o | and o | lor o | dba o | sub o | add o | mpy o | div o | ndv o | vid o
  | ldq o | dav o => exact arithOrders_obeyed _ (by simp [arithOrders]) h
  | ssc d | asc d | str d | xch d | stc d | stn d | stf d | sif d | seq d | stu d | stl d | stq d | srm d =>
    exact storeOrders_obeyed _ (by simp [storeOrders]) h
  | cae a | cse a | ade a | sbe a | ars a | lrs a => exact exponentAndShiftOrders_obeyed _ (by simp) h
  | pid a | pod a | ibt a | bbf a | fbf a => exact guardedOrders_obeyed _ (by simp [guardedOrders]) h
  | lin a => exact .of_addressAC (show execLin a s = _ from h) (fun _ _ => rfl) fun _ _ h _ => .inl h
  | atn a => exact .of_addressAC (show execAtn a s = _ from h) (fun _ _ => rfl) fun _ _ _ h => .inr h
  | sfn a => exact .of_addressAC (show execSfn a s = _ from h) (fun _ _ => rfl) fun _ _ _ h => .inr h
  | orb a => exact .of_addressAC (show execOrb a s = _ from h) (fun _ _ => rfl) fun _ _ h _ => .inl h
  | jlh a => exact execJlh_obeyed h
  | cjs m c | cjf m c => exact .of_countHeld h
  | sex m c => exact .of_quarterStore (.inr (.inr (.inr ⟨m, c, .inl rfl⟩))) h .refl
  | sia m c =>
    exact .of_quarterStore (.inr (.inr (.inr ⟨m, c, .inr rfl⟩))) (show execSia m c s = _ from h)
      fun x => x.storeInteger_follows (by omega)
  | asn r => exact readSpecial_obeyed (op := fun v => s.na + v) h
  | ssn r => exact readSpecial_obeyed (op := fun v => s.na - v) h
  | ssr r => exact execSsr_obeyed h
  | sqw b c n => exact execSqw_obeyed h
  | jnm b c n => exact .of_jump (show execJnm b c n s = _ from h) rfl
  | jzm b c n => exact .of_jump (show execJzm b c n s = _ from h) rfl
  | cjz b c n => exact .of_jump (show execCjz b c n s = _ from h) rfl
  | jpm b c n => exact .of_jump (show execJpm b c n s = _ from h) rfl
  | jum b c n => exact .of_jump (show execJum b c n s = _ from h) rfl
  | jsb b c n => exact .of_jump (show execJsb b c n s = _ from h) rfl
  | cju b c n => exact .of_jump (show execCju b c n s = _ from h) rfl
  | jdc x c n => exact .of_jdc h
  | ldm b c n =>
    obtain rfl := complete_next (memRead_next (show execLdm b c n s = _ from h)).2
    exact .of_control rfl (.inl rfl)
  | sfr b n c2 => exact execSfr_obeyed (c2 := c2) h
  | lfr b n c2 => exact execLfr_obeyed (c2 := c2) h
  | cnm m n b => exact .of_modArith (show execCnm m n b s = _ from h)
  | csm m n b => exact .of_modArith (show execCsm m n b s = _ from h)
  | crm m n b => exact .of_modArith (show execCrm m n b s = _ from h)
  | cam m n b => exact .of_modArith (show execCam m n b s = _ from h)
  | nom m n b => exact .of_modArith (show execNom m n b s = _ from h)
  | nam m n b => exact .of_modArith (show execNam m n b s = _ from h)
  | orm m n b => exact .of_modArith (show execOrm m n b s = _ from h)
  | anm m n b => exact .of_modArith (show execAnm m n b s = _ from h)
  | eqm m n b => exact .of_modArith (show execEqm m n b s = _ from h)
  | sbm m n b => exact .of_modArith (show execSbm m n b s = _ from h)
  | eom m n b => exact .of_modArith (show execEom m n b s = _ from h)
  | adm m n b => exact .of_modArith (show execAdm m n b s = _ from h)
  | hlt b c => exact execHlt_obeyed (b := b) (c := c) h

/-! What every order leaves. -/

/-- Settles O57: only JDC with B = 0 leaves the interrupt mode. -/
theorem onlyLeaveInterruptLeavesMode : Obligations.OnlyLeaveInterruptLeavesMode := by
  intro i s t h
  obtain ⟨keeps, -, effect⟩ := exec_obeyed h
  have mode : (t.intMode ≠ s.intMode → ∃ c n, i = .jdc .leaveInterrupt c n) ∧ (t.intMode = true → s.intMode = true) := by
    cases effect with
    | control hm _ | clearOV _ hm _ | arithmetic _ hm _ | freeOverflow _ hm _ =>
      exact ⟨fun changed => absurd hm changed, fun on => hm ▸ on⟩
    | leave hm _ => exact ⟨fun _ => ⟨_, _, rfl⟩, fun on => absurd on (by simp [hm])⟩
  exact ⟨mode.1, mode.2, keeps.sound.params, keeps.black, keeps.green, keeps.engineering, keeps.interplayAlways,
    keeps.cause, keeps.events, fun hi => (keeps.idle hi).2⟩

/-- Settles O58: among the effects an order can have only the clearing of OV and a free OV put it off. -/
theorem overflowStaysOn : Obligations.OverflowStaysOn := by
  intro i s t h on off
  have stays : t.acc = s.acc → False := fun same => by simp [same, on] at off
  cases (exec_obeyed h).effect with
  | control _ same | leave _ same => exact (stays same.1).elim
  | clearOV cleared _ _ =>
    obtain rfl | rfl := cleared
    · exact .inl ⟨_, _, .inl rfl⟩
    · exact .inl ⟨_, _, .inr rfl⟩
  | arithmetic _ _ follows => exact absurd (follows.1 on) (by simp [off])
  | freeOverflow notDivide _ _ => exact .inr ⟨⟨_, rfl⟩, notDivide⟩

/-- Settles O59: what completes without being a Delayed Control order leaves the arithmetic unit but for OV. -/
theorem onlyDelayedControlChangesAccumulator : Obligations.OnlyDelayedControlChangesAccumulator := by
  intro i s t h changed
  cases (exec_obeyed h).effect with
  | control _ same | leave _ same | clearOV _ _ same =>
    obtain ⟨hacc, hr, hes, hdiv⟩ := same
    simp [hacc, hr, hes, hdiv, State.clearOV] at changed
  | arithmetic delayed _ _ => exact delayed
  | freeOverflow _ _ _ => exact .inr (.inl ⟨.srm, by simp [storeOrders], _, rfl⟩)

/-- An order keeps a zero marked (R38). -/
theorem Obeyed.zeroMarked {s t : State} {i : Instr} (h : Obeyed s t i) (marked : s.acc.zeroMarked) :
    t.acc.zeroMarked := by
  cases h.effect with
  | control _ same | leave _ same =>
    rw [same.1]
    exact marked
  | clearOV _ _ same =>
    rw [same.1]
    exact marked
  | arithmetic _ _ follows => exact follows.2 marked
  | freeOverflow _ _ ov =>
    rw [ov]
    exact marked

/-- An order keeps the invariant (R20, R24, R94, R247). -/
theorem Sound.inv {s t : State} (h : Sound s t) (pending : t.na = 0 ∨ t.nb = 0) (inv : s.Inv) : t.Inv := by
  obtain ⟨wf, core, pair, -, transfers⟩ := inv
  exact ⟨h.wf wf, h.core core, h.pair pair, pending, h.transfers transfers⟩

/-! Steps. -/

/-- Everything a step that is answered can have done: a stopped machine stands still, an order is fetched and obeyed, or something acts from outside (R249, R270). -/
theorem obey_next {s t : State} (h : obey s = .next t) :
    t = s ∨ ∃ i u, Fetched s u ∧ Obeyed u t i := by
  unfold obey at h
  split at h
  case isTrue => exact .inl (Host.Outcome.next.inj h).symm
  case isFalse =>
    obtain ⟨i, u, fetched, answered⟩ := fetchOrder_next h
    exact .inr ⟨i, u, fetched, exec_obeyed answered⟩

/-- An event from outside breaks nothing and leaves the accumulator and the pending amounts, unless it lets an order be obeyed. -/
theorem deliver_next {s t : State} {e : Event} (h : deliver e s obey = .next t) :
    (Sound s t ∧ t.acc = s.acc ∧ t.na = s.na ∧ t.nb = s.nb) ∨ obey s = .next t := by
  have same : s = t → Sound s t ∧ t.acc = s.acc ∧ t.na = s.na ∧ t.nb = s.nb :=
    fun e => e ▸ ⟨.refl s, rfl, rfl, rfl⟩
  cases e with
  | order => exact .inr h
  | transfer c w stop =>
    obtain rfl := Host.Outcome.next.inj h
    refine .inl ⟨.transferWord s c w stop, ?_⟩
    rw [s.transferWord_frame c w stop]
    exact ⟨rfl, rfl, rfl⟩
  | malfunction | blockDone =>
    unfold deliver at h
    dsimp only at h
    split at h
    · exact .inl (same (requestInterrupt_next h).2.symm)
    · exact .inl (same (Host.Outcome.next.inj h))
  | clock => exact .inl (same (requestInterrupt_next h).2.symm)
  | black p | green p | engineering on | interplayLegal always | tape c =>
    obtain rfl := Host.Outcome.next.inj h
    exact .inl ⟨.of_same rfl rfl rfl rfl, rfl, rfl, rfl⟩

/-- Everything a step that is answered can have done to what the invariants speak of. -/
theorem step_next {s t : State} (h : step s = .next t) :
    (Sound s t ∧ t.acc = s.acc ∧ t.na = s.na ∧ t.nb = s.nb) ∨
    ∃ i u, Sound s u ∧ u.acc = s.acc ∧ Obeyed u t i := by
  have obeyed : ∀ {u : State}, Sound s u → u.acc = s.acc → u.na = s.na → u.nb = s.nb → obey u = .next t →
      (Sound s t ∧ t.acc = s.acc ∧ t.na = s.na ∧ t.nb = s.nb) ∨ ∃ i u, Sound s u ∧ u.acc = s.acc ∧ Obeyed u t i := by
    intro u sound hacc hna hnb h
    obtain rfl | ⟨i, v, fetched, done⟩ := obey_next h
    · exact .inl ⟨sound, hacc, hna, hnb⟩
    · exact .inr ⟨i, v, sound.trans fetched.sound, by rw [fetched.frame]; exact hacc, done⟩
  unfold step at h
  split at h
  · exact obeyed (.refl s) rfl rfl rfl h
  · next e rest _ =>
    have passed : Sound s { s with events := rest } := .of_same rfl rfl rfl rfl
    obtain ⟨sound, kept⟩ | h := deliver_next h
    · exact .inl ⟨passed.trans sound, kept⟩
    · exact obeyed passed rfl rfl rfl h

/-- Settles O54: what acts between orders is sound, and so is every order. -/
theorem stepKeepsInvariant : Obligations.StepKeepsInvariant := by
  intro s t inv h
  obtain ⟨sound, -, hna, hnb⟩ | ⟨i, u, sound, -, done⟩ := step_next h
  · obtain ⟨-, -, -, pending, -⟩ := id inv
    exact sound.inv (by rw [hna, hnb]; exact pending) inv
  · exact (sound.trans done.keeps.sound).inv done.pending inv

/-- Settles O56: outside an order the accumulator stays, and every order keeps a zero marked. -/
theorem stepKeepsZeroMarked : Obligations.StepKeepsZeroMarked := by
  intro s t marked h
  obtain ⟨-, hacc, -⟩ | ⟨i, u, -, hacc, done⟩ := step_next h
  · rw [hacc]
    exact marked
  · exact done.zeroMarked (by rw [hacc]; exact marked)

/-- Settles O55: nothing is listed in core, and every channel is idle. -/
theorem resetMeetsInvariant : Obligations.ResetMeetsInvariant := by
  refine ⟨rfl, fun p hp => ?_, fun _ => ?_, .inl rfl, fun c x hx => ?_⟩
  · cases hp
  · exact Nat.zero_lt_succ _
  · rw [State.channel_eq] at hx
    simp [State.reset] at hx

end Sys2Proof.Machine


/-! Orders that are refused: illegal combinations of digits, the Interplay orders where they are illegal, and stores into a busy block (40_operand_preparation R74 and R96, 45_interplay_and_address_orders R170, 20_memory R45). -/

namespace Sys2Proof.Machine

/-! Illegal orders (R74, R170). -/

/-- An illegal order interrupts with nothing else changed, or is a fault where it cannot (R96, D26). -/
theorem illegalOrder_eq (s : State) :
    illegalOrder s =
      if s.intMode = false ∧ s.engineering = false then
        .fault (.programInterrupt .illegalOrder { s with intMode := true, cause := some .illegalOrder })
      else .fault .illegalUninterruptible := by
  simp only [illegalOrder, State.interruptible, Bool.and_eq_true, Bool.not_eq_true']
  rfl

theorem toNat_eq_one_iff (b : BitVec 4) : b.toNat = 1 ↔ b = 1 := (BitVec.toNat_inj (y := 1#4))

theorem destIllegal_true {b : BitVec 4} (h : b.toNat = 1 ∨ 9 ≤ b.toNat) : destIllegal b = true := by
  simp only [destIllegal, Bool.or_eq_true, beq_iff_eq, decide_eq_true_eq, ← toNat_eq_one_iff]
  omega

theorem sourceIllegal_true {b : BitVec 4} (h : b.toNat = 1 ∨ 8 ≤ b.toNat) : sourceIllegal b = true := by
  simpa only [sourceIllegal, Bool.or_eq_true, beq_iff_eq, decide_eq_true_eq, ← toNat_eq_one_iff] using h

/-- The action of a store order knows no parameter of the implementation. -/
def Unparametric (act : State → Word × State) : Prop :=
  ∀ (s : State) (p : Params), act { s with params := p } = ((act s).1, { (act s).2 with params := p })

/-- A store order is an action that yields the word to store and leaves the rest of the machine to the store (R140). -/
def IsStoreOrder (meaning : Dest → State → Out) : Prop :=
  ∃ act : State → Word × State, (∀ s1, StoreAct s1 (act s1).2 (act s1).2.free) ∧ Unparametric act ∧
    meaning = fun d s => storeOrder d act s

/-- An exchange order is an action on the old contents of its destination and the accumulator (R88). -/
def IsExchangeOrder (meaning : Dest → State → Out) : Prop :=
  ∃ act : Word → Acc → Word × Acc, meaning = fun d s => Machine.exchangeOrder d act s

theorem storeAcc_isStoreOrder (act : Acc → Word × Acc) : IsStoreOrder fun d s => storeAcc d act s :=
  ⟨fun s1 => ((act s1.acc).1, s1.afterDC (act s1.acc).2), fun s1 => s1.afterDC_storeAct _, fun _ _ => rfl, rfl⟩

/-- A store that also looks at F1, as SEQ does (R145). -/
theorem storeF1_isStoreOrder (act : Word → Acc → Word × Acc) :
    IsStoreOrder fun d s =>
      storeOrder d (fun s1 => ((act (s1.getF 1) s1.acc).1, s1.afterDC (act (s1.getF 1) s1.acc).2)) s :=
  ⟨_, fun s1 => s1.afterDC_storeAct _, fun _ _ => rfl, rfl⟩

theorem storeRemainder_unparametric : Unparametric storeRemainder := by
  intro s p
  unfold storeRemainder
  dsimp only
  split_ifs <;> rfl

/-- The thirteen full-word stores are store orders, but for the three that first read their destination (R88). -/
theorem storeOrders_shape :
    ∀ f ∈ storeOrders, IsStoreOrder (fun d s => exec (f d) s) ∨ IsExchangeOrder (fun d s => exec (f d) s) := by
  simp only [storeOrders, List.forall_mem_cons]
  exact ⟨.inl (storeAcc_isStoreOrder (strAcc true)), .inl (storeAcc_isStoreOrder (strAcc false)),
    .inl (storeAcc_isStoreOrder storeNegative), .inl (storeAcc_isStoreOrder fun x => x.storeShifted 0),
    .inl (storeF1_isStoreOrder fun w x => x.storeShifted (yval w)), .inr ⟨exchangeAct, rfl⟩, .inl (storeAcc_isStoreOrder fun x => x.storeInteger 22),
    .inl (storeAcc_isStoreOrder fun x => (mkword x.aInt x.eInt, x)),
    .inl (storeAcc_isStoreOrder fun x => (mkword x.qInt x.eInt, x)), .inl (storeAcc_isStoreOrder storeClear),
    .inl ⟨storeRemainder, storeRemainder_act, storeRemainder_unparametric, rfl⟩, .inr ⟨fun w x => storeClear (x.addSub 1 w), rfl⟩,
    .inr ⟨fun w x => storeClear (x.addSub (-1) w), rfl⟩, nofun⟩

/-- An arithmetic order is an action on its operand and the accumulator (R84). -/
def IsArithOrder (meaning : Operand → State → Out) : Prop :=
  ∃ act : Word → Acc → Acc, meaning = fun o s => arithOrder o act s

/-- A divide also leaves a remainder (R115). -/
def IsDivideOrder (meaning : Operand → State → Out) : Prop :=
  ∃ act : Word → Acc → Acc × (BitVec 45 × Int), meaning = fun o s => divideOrder o act s

/-- The sixteen full-word arithmetic orders are arithmetic orders, three of them divides. -/
theorem arithOrders_shape :
    ∀ f ∈ arithOrders, IsArithOrder (fun o s => exec (f o) s) ∨ IsDivideOrder (fun o s => exec (f o) s) := by
  have not : IsArithOrder execNot := ⟨_, rfl⟩
  have and : IsArithOrder execAnd := ⟨_, rfl⟩
  have lor : IsArithOrder execLor := ⟨_, rfl⟩
  have dba : IsArithOrder execDba := ⟨_, rfl⟩
  have ldq : IsArithOrder execLdq := ⟨_, rfl⟩
  simp only [arithOrders, List.forall_mem_cons]
  exact ⟨.inl ⟨clearAdd 1, rfl⟩, .inl ⟨clearAdd (-1), rfl⟩, .inl ⟨clearAdd 2, rfl⟩, .inl ⟨clearAdd (-2), rfl⟩,
    .inl not, .inl and, .inl lor, .inl dba, .inl ldq, .inl ⟨fun w x => x.addSub 1 w, rfl⟩,
    .inl ⟨fun w x => x.addSub (-1) w, rfl⟩, .inl ⟨multiply, rfl⟩, .inr ⟨divCommon 1, rfl⟩,
    .inr ⟨divCommon (-1), rfl⟩, .inr ⟨inverseDivide, rfl⟩, .inl ⟨differenceAbs, rfl⟩, nofun⟩

/-- A store into F1, F8 or above is illegal, whatever is stored (R74). -/
theorem storeOrders_illegal {b : BitVec 4} (h : destIllegal b = true) (s : State) {f : Dest → Instr}
    (hf : f ∈ storeOrders) : exec (f (.fast b)) s = illegalOrder s := by
  obtain ⟨act, -, -, meaning⟩ | ⟨act, meaning⟩ := storeOrders_shape f hf
  · exact (congrFun (congrFun meaning _) s).trans (if_pos h)
  · exact (congrFun (congrFun meaning _) s).trans (if_pos h)

/-- An Interplay or Block Checker order is an action under the test of R170. -/
theorem guardedOrders_act : ∀ f ∈ guardedOrders, ∃ act, ∀ x s, exec (f x) s = interplayOrder x act s := by
  simp only [guardedOrders, List.forall_mem_cons]
  exact ⟨⟨_, fun _ _ => rfl⟩, ⟨_, fun _ _ => rfl⟩, ⟨_, fun _ _ => rfl⟩, ⟨_, fun _ _ => rfl⟩, ⟨_, fun _ _ => rfl⟩, nofun⟩

/-- No address order has a meaning without its address (R171). -/
theorem addressOrders_illegal (b : BitVec 4) (s : State) {f : AddrForm → Instr}
    (hf : f ∈ freeAddressOrders ∨ f ∈ guardedOrders) : exec (f (.noAddress b)) s = illegalOrder s := by
  obtain free | guarded := hf
  · revert f
    simp only [freeAddressOrders, List.forall_mem_cons]
    exact ⟨rfl, rfl, rfl, rfl, rfl, rfl, rfl, rfl, rfl, rfl, rfl, nofun⟩
  · obtain ⟨act, meaning⟩ := guardedOrders_act f guarded
    rw [meaning]
    unfold interplayOrder
    split <;> rfl

/-- Settles O15: every illegal form is answered as an illegal order. -/
theorem illegalFormsStop : Obligations.IllegalFormsStop := by
  intro i s form
  rw [← illegalOrder_eq]
  cases form with
  | store hf hb => exact storeOrders_illegal (destIllegal_true hb) s hf
  | address b hf => exact addressOrders_illegal b s hf
  | sqw c n hb => exact if_pos (sourceIllegal_true hb)
  | sfr n c hb => exact if_pos (sourceIllegal_true hb)
  | lfr n c hb => exact if_pos (by simpa [loadIllegal] using hb)

theorem State.interplayLegal_iff (s : State) :
    s.interplayLegal = true ↔
      s.params.interplayPresent = true ∧ (s.intMode = true ∨ s.interplayAlways = true ∨ s.engineering = true) := by
  simp only [State.interplayLegal, Bool.and_eq_true, Bool.or_eq_true, or_assoc]

/-- Settles O16: the test of R170 decides, and where it passes the order completes. -/
theorem interplayLegality : Obligations.InterplayLegality := by
  intro f hf x s
  obtain ⟨act, meaning⟩ := guardedOrders_act f hf
  rw [meaning]
  constructor
  · rintro legal a rfl
    exact ⟨_, interplayOrder_done (s.interplayLegal_iff.mpr legal) a act⟩
  · intro illegal
    rw [← illegalOrder_eq]
    refine if_neg fun legal => ?_
    rw [s.interplayLegal_iff] at legal
    obtain absent | ⟨hm, ha, he⟩ := illegal
    · simp [absent] at legal
    · simp [hm, ha, he] at legal

/-! References into a busy block (R44 to R46). -/

theorem memRead_busy {s : State} {a : Addr} (h : s.violation a = true) (k : Word → Out) :
    memRead s a k = s.busyFault := if_pos h

theorem memWrite_busy {s : State} {a : Addr} (h : s.violation a = true) (v : Word) (k : State → Out) :
    memWrite s a v k = s.busyFault := if_pos h

/-- The reference of an order meets the same Block Checker before and after the order is prepared (R46). -/
theorem State.violation_prepare (s : State) (a : NormalAddr) (b : Addr) :
    (s.prepare a).violation b = s.violation b := State.violation_congr (by simp) (by simp) (by simp) b

/-- What a refused store leaves: core and cc as they were (R45). -/
def StoreRefused (s : State) (out : Out) : Prop :=
  ∃ t, out = .fault (.programInterrupt .busyBlock t) ∧ t.core = s.core ∧ SameCore s t ∧ t.cc = s.cc

theorem StoreRefused.of_busy {s u : State} {out : Out} (h : out = u.busyFault) (hc : u.core = s.core)
    (hp : u.params = s.params) (hcc : u.cc = s.cc) : StoreRefused s out :=
  ⟨_, h, hc, State.coreWord_congr hc hp, hcc⟩

theorem storeOrder_busy {s : State} {a : NormalAddr} {act : State → Word × State}
    (hact : ∀ s1, StoreAct s1 (act s1).2 (act s1).2.free) (h : s.violation (s.address a) = true) :
    StoreRefused s (storeOrder (.core a) act s) := by
  have acted := hact (s.prepare a)
  have hu : ((act (s.prepare a)).2.setF 0 (act (s.prepare a)).1).violation (s.address a) = true := by
    rw [State.violation_congr (s := s.prepare a) (by rw [State.setF_busy, acted]) (by rw [State.setF_intMode, acted])
      (by rw [State.setF_engineering, acted]), State.violation_prepare, h]
  refine .of_busy (memWrite_busy hu _ _) ?_ ?_ ?_
  · rw [State.setF_core, acted]
    exact State.prepare_core s a
  · rw [State.setF_params, acted]
    exact State.prepare_params s a
  · rw [State.setF_cc, acted]
    exact State.prepare_cc s a

theorem exchangeOrder_busy {s : State} {a : NormalAddr} {act : Word → Acc → Word × Acc}
    (h : s.violation (s.address a) = true) : StoreRefused s (Machine.exchangeOrder (.core a) act s) := by
  rw [Machine.exchangeOrder]
  exact .of_busy (u := s.prepare a) (memRead_busy ((s.violation_prepare a _).trans h) _) (State.prepare_core s a)
    (State.prepare_params s a) (State.prepare_cc s a)

/-- Settles O14: a store is refused at its write, an exchange already at its read. -/
theorem busyStoreRefused : Obligations.BusyStoreRefused := by
  refine ⟨fun f hf a s h => ?_, fun b c n s hb h => ?_, fun b n c s hb h => ?_⟩
  · show StoreRefused s (exec (f (.core a)) s)
    obtain ⟨act, acted, -, meaning⟩ | ⟨act, meaning⟩ := storeOrders_shape f hf
    · rw [congrFun (congrFun meaning _) s]
      exact storeOrder_busy acted h
    · rw [congrFun (congrFun meaning _) s]
      exact exchangeOrder_busy h
  · have refused : execSqw b c n s = s.clearPending.busyFault := by
      rw [execSqw, hb]
      exact memWrite_busy (s := s.clearPending) h _ _
    exact ⟨_, refused, rfl, rfl⟩
  · have refused : execSfr b n c s = s.clearPending.busyFault := by
      rw [execSfr, hb]
      exact memWrite_busy (s := s.clearPending) h _ _
    exact ⟨_, refused, rfl, rfl⟩

end Sys2Proof.Machine


/-! OV_INTERRUPTS: it only adds an interrupt after an order that turned OV on (60_exceptions R234, D23). -/

namespace Sys2Proof.Machine

/-- The same machine without OV_INTERRUPTS. -/
def State.silent (s : State) : State := { s with params := { s.params with ovInterrupts := false } }

/-- What an order answers with OV_INTERRUPTS, given what it answers without: an order that turns OV on where an interrupt can occur ends in the Arithmetic interrupt, and every other one completes the same (R234, D23). -/
def Announces (s : State) (loud quiet : Out) : Prop :=
  ∀ t, quiet = .next t →
    loud =
      if s.intMode = false ∧ s.engineering = false ∧ s.acc.ov = false ∧ t.acc.ov = true then
        .fault (.programInterrupt .arithmetic { t with params := s.params, intMode := true, cause := some .arithmetic })
      else .next { t with params := s.params }

/-! Interplay does not depend on OV_INTERRUPTS. -/

theorem State.transferWord_silent (s : State) (c : BitVec 5) (w : Word) (stop : Bool) :
    s.silent.transferWord c w stop = (s.transferWord c w stop).silent := by
  have moved : ∀ x, s.silent.moveWord c w x = (s.moveWord c w x).silent := by
    intro x
    unfold State.moveWord
    split <;> rfl
  have active : s.silent.channel c = s.channel c := rfl
  have present : s.silent.params.interplayPresent = s.params.interplayPresent := rfl
  unfold State.transferWord
  rw [active, present]
  split
  · cases s.channel c with
    | none => rfl
    | some x =>
      dsimp only
      rw [moved]
      show (if (x.afterWord s.params c stop).isNone = true then _ else _) = _
      split <;> rfl
  · rfl

theorem State.transferWords_silent (s : State) (cs : List ChannelWord) :
    s.silent.transferWords cs = (s.transferWords cs).silent := by
  induction cs generalizing s with
  | nil => rfl
  | cons c cs ih =>
    simp only [State.transferWords]
    rw [State.transferWord_silent]
    exact ih _

theorem State.interlude_silent (s : State) : s.silent.interlude = s.interlude.silent := by
  have places : s.silent.inside = s.inside := rfl
  unfold State.interlude
  rw [places]
  cases s.inside with
  | nil => rfl
  | cons cs rest => exact State.transferWords_silent { s with inside := rest } cs

theorem State.prepare_silent (s : State) (a : NormalAddr) : s.silent.prepare a = (s.prepare a).silent := by
  cases a <;> rfl

/-! The ways an order ends. -/

theorem Announces.of_refused {s : State} {loud quiet : Out} (h : ∀ t, quiet ≠ .next t) : Announces s loud quiet :=
  fun t answered => absurd answered (h t)

/-- An order that does not turn OV on just completes. -/
theorem Announces.next {s u : State} (hp : u.params = s.params) (hov : u.acc.ov = true → s.acc.ov = true) :
    Announces s (.next u) (.next u.silent) := by
  intro t answered
  obtain rfl := Host.Outcome.next.inj answered
  rw [if_neg fun turned => absurd (hov turned.2.2.2) (by simp [turned.2.2.1]), ← hp]
  rfl

theorem Announces.memRead {s u : State} {a : Addr} {k k' : Word → Out}
    (h : Announces s (k (u.coreWord a)) (k' (u.coreWord a))) :
    Announces s (memRead u a k) (memRead u.silent a k') := by
  have same : u.silent.violation a = u.violation a := rfl
  unfold Machine.memRead
  rw [same]
  split
  · exact .of_refused fun t => raiseInterrupt_ne_next _ _ t
  · exact h

theorem Announces.memWrite {s u : State} {a : Addr} {v : Word} {k : State → Out}
    (h : Announces s (k (u.setCore a v)) (k (u.setCore a v).silent)) :
    Announces s (memWrite u a v k) (memWrite u.silent a v k) := by
  have same : u.silent.violation a = u.violation a := rfl
  unfold Machine.memWrite
  rw [same]
  split
  · exact .of_refused fun t => raiseInterrupt_ne_next _ _ t
  · exact h

/-- A Delayed Control order asks for the interrupt at its end (R234). -/
theorem Announces.completeDC {s u : State} {g : Nat} (on : s.params.ovInterrupts = true) (hp : u.params = s.params)
    (hm : u.intMode = s.intMode) (he : u.engineering = s.engineering) :
    Announces s (completeDC g s.acc.ov u) (completeDC g s.acc.ov u.silent) := by
  intro t answered
  obtain rfl := completeDC_next answered
  have back : { (u.silent.advance g) with params := s.params } = u.advance g := by rw [← hp]; rfl
  rw [back]
  have acc : (u.silent.advance g).acc.ov = u.acc.ov := rfl
  rw [acc]
  by_cases turned : s.acc.ov = false ∧ u.acc.ov = true
  · have asks : Machine.completeDC g s.acc.ov u = requestInterrupt .arithmetic (u.advance g) := by
      simp [Machine.completeDC, hp, on, turned]
    have possible : (u.advance g).interruptible = (!s.intMode && !s.engineering) := by
      simp [State.interruptible, hm, he]
    rw [asks, requestInterrupt, possible, ← back]
    simp [turned, raiseInterrupt, State.enterInterrupt]
  · have ends : Machine.completeDC g s.acc.ov u = .next (u.advance g) := by
      rw [Machine.completeDC, if_neg (by simpa [hp, on] using turned)]
    rw [ends, if_neg fun h => turned h.2.2]

/-! The shapes of orders. -/

variable {s : State}

theorem Announces.arithOrder (on : s.params.ovInterrupts = true) (o : Operand) (act : Word → Acc → Acc) :
    Announces s (arithOrder o act s) (arithOrder o act s.silent) := by
  cases o with
  | core a =>
    simp only [Machine.arithOrder, withOperand, s.prepare_silent a]
    exact .memRead (.completeDC on (by simp) (by simp) (by simp))
  | _ => exact .completeDC on rfl rfl rfl

theorem Announces.divideOrder (on : s.params.ovInterrupts = true) (o : Operand)
    (act : Word → Acc → Acc × (BitVec 45 × Int)) :
    Announces s (divideOrder o act s) (divideOrder o act s.silent) := by
  cases o with
  | core a =>
    simp only [Machine.divideOrder, withOperand, s.prepare_silent a]
    exact .memRead (.completeDC on (by simp) (by simp) (by simp))
  | _ => exact .completeDC on rfl rfl rfl

theorem Announces.illegal {u : State} {loud : Out} : Announces s loud (illegalOrder u) :=
  .of_refused fun t => illegalOrder_ne_next u t

theorem Announces.storeOrder (on : s.params.ovInterrupts = true) (d : Dest) {act : State → Word × State}
    (acted : ∀ s1, StoreAct s1 (act s1).2 (act s1).2.free) (unparametric : Unparametric act) :
    Announces s (storeOrder d act s) (storeOrder d act s.silent) := by
  have silent : ∀ u : State, act u.silent = ((act u).1, (act u).2.silent) := by
    intro u
    rw [State.silent, unparametric, acted u]
    rfl
  have kept : ∀ u : State, (act u).2.params = u.params ∧ (act u).2.intMode = u.intMode ∧
      (act u).2.engineering = u.engineering := by
    intro u
    rw [acted u]
    exact ⟨rfl, rfl, rfl⟩
  cases d with
  | core a =>
    obtain ⟨hp, hm, he⟩ := kept (s.prepare a)
    simp only [Machine.storeOrder, s.prepare_silent a, silent]
    exact .memWrite (.completeDC on (hp.trans (by simp)) (hm.trans (by simp)) (he.trans (by simp)))
  | fast b =>
    obtain ⟨hp, hm, he⟩ := kept s.clearPending
    have stored : ∀ (u : State) (w : Word), u.silent.storeFast b w = (u.storeFast b w).silent := by
      intro u w
      unfold State.storeFast
      split <;> rfl
    have cleared : s.silent.clearPending = s.clearPending.silent := rfl
    simp only [Machine.storeOrder, cleared, silent, stored]
    split
    · exact .illegal
    · exact .completeDC on ((State.storeFast_params _ _ _).trans hp) ((State.storeFast_intMode _ _ _).trans hm)
        ((State.storeFast_engineering _ _ _).trans he)

theorem Announces.exchangeOrder (on : s.params.ovInterrupts = true) (d : Dest) (act : Word → Acc → Word × Acc) :
    Announces s (Machine.exchangeOrder d act s) (Machine.exchangeOrder d act s.silent) := by
  cases d with
  | core a =>
    simp only [Machine.exchangeOrder, s.prepare_silent a]
    refine .memRead ?_
    generalize (s.prepare a).coreWord (s.address a) = w
    have between : ((s.prepare a).silent.setF 1 w).interlude = ((s.prepare a).setF 1 w).interlude.silent :=
      State.interlude_silent ((s.prepare a).setF 1 w)
    rw [between]
    exact .memWrite (.completeDC on (by simp) (by simp) (by simp))
  | fast b =>
    simp only [Machine.exchangeOrder]
    split
    · exact .illegal
    · unfold State.storeFast
      split
      · exact .completeDC on rfl rfl rfl
      · exact .completeDC on rfl rfl rfl

theorem Announces.addressDC (on : s.params.ovInterrupts = true) (f : AddrForm) (act : Addr → Acc → Acc) :
    Announces s (addressDC f act s) (addressDC f act s.silent) := by
  cases f with
  | addr a =>
    simp only [Machine.addressDC, withAddress, s.prepare_silent a]
    exact .completeDC on (by simp) (by simp) (by simp)
  | noAddress b => exact .illegal

theorem Announces.quarterStore (on : s.params.ovInterrupts = true) (m : BitVec 4) (act : Acc → Word × Acc) :
    Announces s (quarterStore m act s) (quarterStore m act s.silent) := .completeDC on rfl rfl rfl

theorem Announces.complete {u : State} {g : Nat} (hp : u.params = s.params) (hov : u.acc.ov = true → s.acc.ov = true) :
    Announces s (complete g u) (complete g u.silent) := .next hp hov

/-- An Advanced Control order on an address (R171). -/
theorem Announces.addressAC (f : AddrForm) {act : Addr → State → State}
    (silent : ∀ addr u, act addr u.silent = (act addr u).silent) (hp : ∀ addr u, (act addr u).params = u.params)
    (hacc : ∀ addr u, (act addr u).acc = u.acc) : Announces s (addressAC f act s) (addressAC f act s.silent) := by
  cases f with
  | addr a =>
    simp only [Machine.addressAC, withAddress, s.prepare_silent a, silent]
    exact .complete ((hp _ _).trans (by simp)) (by simp [hacc])
  | noAddress b => exact .illegal

theorem Announces.interplayOrder (f : AddrForm) {act : Addr → State → State}
    (silent : ∀ addr u, act addr u.silent = (act addr u).silent) (hp : ∀ addr u, (act addr u).params = u.params)
    (hacc : ∀ addr u, (act addr u).acc = u.acc) :
    Announces s (interplayOrder f act s) (interplayOrder f act s.silent) := by
  have legal : s.silent.interplayLegal = s.interplayLegal := rfl
  unfold Machine.interplayOrder
  rw [legal]
  split
  · exact .addressAC f silent hp hacc
  · exact .illegal

theorem Announces.jumpIf (p : Bool) (c : BitVec 2) (n : Addr) {u : State} (hp : u.params = s.params)
    (hov : u.acc.ov = true → s.acc.ov = true) : Announces s (jumpIf p c n s u) (jumpIf p c n s.silent u.silent) := by
  unfold Machine.jumpIf
  split
  · exact .next hp hov
  · exact .complete hp hov

theorem Announces.countHeld (second : Bool) (m : BitVec 4) (c : BitVec 2) :
    Announces s (countHeld second m c s) (countHeld second m c s.silent) := by
  unfold Machine.countHeld
  dsimp only
  have same : (s.silent.clearPending.countM m).getM m = (s.clearPending.countM m).getM m := rfl
  rw [same]
  split
  · exact .next rfl id
  · exact .complete rfl id

theorem Announces.modArith (op : Group → Group → Group) (m : BitVec 4) (n : Option Addr) (toNext : Bool) :
    Announces s (modArith op m n toNext s) (modArith op m n toNext s.silent) := by
  cases toNext
  · exact .complete rfl id
  · exact .complete rfl id

theorem Announces.readSpecial (r : BitVec 6) (op : BitVec 13 → BitVec 13) :
    Announces s (readSpecial r s.clearPending fun v s1 => Machine.complete 1 { s1 with na := op v })
      (readSpecial r s.silent.clearPending fun v s1 => Machine.complete 1 { s1 with na := op v }) := by
  have tape : s.silent.clearPending.isTape r = s.clearPending.isTape r := rfl
  have input : s.silent.clearPending.tapeIn = s.clearPending.tapeIn := rfl
  unfold Machine.readSpecial
  rw [tape, input]
  split
  · split
    · exact .of_refused fun _ h => by cases h
    · next c rest _ => exact .complete (u := { s.clearPending with tapeIn := rest, na := op (c.zeroExtend 13) }) rfl id
  · have drawn : s.silent.clearPending.free = s.clearPending.free := rfl
    rw [drawn]
    generalize Config.freeSpecial s.clearPending.free = v
    exact .complete (u := { s.clearPending with free := s.free + 1, na := op v }) rfl id

/-! The families of orders. -/

theorem arithOrders_announce (on : s.params.ovInterrupts = true) (o : Operand) {f : Operand → Instr}
    (hf : f ∈ arithOrders) : Announces s (exec (f o) s) (exec (f o) s.silent) := by
  obtain ⟨act, meaning⟩ | ⟨act, meaning⟩ := arithOrders_shape f hf
  · rw [congrFun (congrFun meaning o) s, congrFun (congrFun meaning o) s.silent]
    exact .arithOrder on o act
  · rw [congrFun (congrFun meaning o) s, congrFun (congrFun meaning o) s.silent]
    exact .divideOrder on o act

theorem storeOrders_announce (on : s.params.ovInterrupts = true) (d : Dest) {f : Dest → Instr} (hf : f ∈ storeOrders) :
    Announces s (exec (f d) s) (exec (f d) s.silent) := by
  obtain ⟨act, acted, unparametric, meaning⟩ | ⟨act, meaning⟩ := storeOrders_shape f hf
  · rw [congrFun (congrFun meaning d) s, congrFun (congrFun meaning d) s.silent]
    exact .storeOrder on d acted unparametric
  · rw [congrFun (congrFun meaning d) s, congrFun (congrFun meaning d) s.silent]
    exact .exchangeOrder on d act

theorem exponentAndShiftOrders_announce (on : s.params.ovInterrupts = true) (f : AddrForm) :
    ∀ i ∈ ([.cae f, .cse f, .ade f, .sbe f, .ars f, .lrs f] : List Instr), Announces s (exec i s) (exec i s.silent) := by
  simp only [List.forall_mem_cons]
  exact ⟨.addressDC on f fun addr x => setExponent x (ystar addr),
    .addressDC on f fun addr x => setExponent x (-ystar addr),
    .addressDC on f fun addr x => setExponent x (x.eInt + ystar addr),
    .addressDC on f fun addr x => setExponent x (x.eInt - ystar addr),
    .addressDC on f fun addr x => ({ x with a := logicalShift x.a (yshift addr) } : Acc).kHere,
    .addressDC on f fun addr x => (longShift x (yshift addr)).kHere, nofun⟩

theorem guardedOrders_announce (f : AddrForm) : ∀ i ∈ guardedOrders, Announces s (exec (i f) s) (exec (i f) s.silent) := by
  simp only [guardedOrders, List.forall_mem_cons]
  exact ⟨.interplayOrder f (act := fun addr s1 => { s1 with prepared := messageOf .input addr })
      (fun _ _ => rfl) (fun _ _ => rfl) (fun _ _ => rfl),
    .interplayOrder f (act := fun addr s1 => { s1 with prepared := messageOf .output addr })
      (fun _ _ => rfl) (fun _ _ => rfl) (fun _ _ => rfl),
    .interplayOrder f
      (act := fun addr s1 => s1.setChannel s1.prepared.channel (some (transferOf s1.params s1.prepared addr)))
      (fun _ _ => rfl) (fun _ _ => rfl) (fun _ _ => rfl),
    .interplayOrder f (act := fun addr s1 => s1.setBusy (blockOf addr) true)
      (fun _ _ => rfl) (fun _ _ => rfl) (fun _ _ => rfl),
    .interplayOrder f (act := fun addr s1 => s1.setBusy (blockOf addr) false)
      (fun _ _ => rfl) (fun _ _ => rfl) (fun _ _ => rfl), nofun⟩

theorem execJlh_announces (f : AddrForm) : Announces s (execJlh f s) (execJlh f s.silent) := by
  cases f with
  | addr a =>
    simp only [execJlh, withAddress, s.prepare_silent a]
    exact .next (u := (s.prepare a).jumpTo (s.address a) 0) (by simp) (by simp)
  | noAddress b => exact .illegal

theorem execSsr_announces (r : BitVec 6) : Announces s (execSsr r s) (execSsr r s.silent) := by
  have silent : s.silent.clearPending.writeSpecial r s.na = (s.clearPending.writeSpecial r s.na).silent := by
    have tape : s.silent.clearPending.isTape r = s.clearPending.isTape r := rfl
    unfold State.writeSpecial
    rw [tape]
    split <;> rfl
  show Announces s (Machine.complete 1 (s.clearPending.writeSpecial r s.na))
    (Machine.complete 1 (s.silent.clearPending.writeSpecial r s.na))
  rw [silent]
  exact .complete (by simp) (by simp)

theorem execHlt_announces (b : BitVec 4) (c : BitVec 2) : Announces s (execHlt b c s) (execHlt b c s.silent) := by
  have black : s.silent.black = s.black := rfl
  unfold execHlt
  rw [black]
  cases s.black with
  | up => exact .complete (u := { s.clearPending with stopped := Config.freeStop s.free, free := s.free + 1 }) rfl id
  | center => exact .complete (u := { s.clearPending with stopped := true }) rfl id
  | down => exact .complete rfl id

theorem execSqw_announces (b : BitVec 4) (c : BitVec 2) (n : Addr) :
    Announces s (execSqw b c n s) (execSqw b c n s.silent) := by
  unfold execSqw
  split
  · exact .illegal
  · exact .memWrite (u := s.clearPending) (.complete rfl id)

theorem execLfr_announces (b : BitVec 4) (n : Option Addr) (c : Bool) :
    Announces s (execLfr b n c s) (execLfr b n c s.silent) := by
  unfold execLfr
  split
  · exact .illegal
  · exact .memRead (u := s.clearPending) (.complete (u := s.clearPending.setF b.toNat _) rfl id)

theorem execSfr_announces (b : BitVec 4) (n : Option Addr) (c : Bool) :
    Announces s (execSfr b n c s) (execSfr b n c s.silent) := by
  unfold execSfr
  split
  · exact .illegal
  · exact .memWrite (u := s.clearPending) (.complete rfl id)

theorem execLdm_announces (b : BitVec 4) (c : BitVec 2) (n : Addr) :
    Announces s (execLdm b c n s) (execLdm b c n s.silent) :=
  .memRead (u := s.clearPending) (.complete (u := s.clearPending.setM b _) rfl id)

theorem execJdc_announces (x : Condition) (c : BitVec 2) (n : Addr) :
    Announces s (execJdc x c n s) (execJdc x c n s.silent) := by
  have condition : s.silent.condition x = s.condition x := by cases x <;> rfl
  have effect : s.silent.clearPending.conditionEffect x = (s.clearPending.conditionEffect x).silent := by
    cases x <;> rfl
  unfold execJdc
  rw [condition, effect]
  refine .jumpIf _ c n ?_ ?_
  · cases x <;> rfl
  · cases x with
    | ovOnClear | ovOffClear => exact fun h => by cases h
    | _ => exact id

/-- Every order announces an overflow at its end, or turns none on. -/
theorem exec_announces (on : s.params.ovInterrupts = true) (i : Instr) :
    Announces s (exec i s) (exec i s.silent) := by
  cases i with
  | csb o | cst o | cad o | cat o | not o | and o | lor o | dba o | sub o | add o | mpy o | div o | ndv o | vid o
  | ldq o | dav o => exact arithOrders_announce on o (by simp [arithOrders])
  | ssc d | asc d | str d | xch d | stc d | stn d | stf d | sif d | seq d | stu d | stl d | stq d | srm d =>
    exact storeOrders_announce on d (by simp [storeOrders])
  | cae f | cse f | ade f | sbe f | ars f | lrs f => exact exponentAndShiftOrders_announce on f _ (by simp)
  | pid f | pod f | ibt f | bbf f | fbf f => exact guardedOrders_announce f _ (by simp [guardedOrders])
  | lin f =>
    exact .addressAC f (act := fun addr s1 => s1.setF 1 (rep4 addr)) (fun _ _ => rfl) (fun _ _ => rfl) (fun _ _ => rfl)
  | atn f =>
    exact .addressAC f (act := fun addr s1 => { s1 with na := addr }) (fun _ _ => rfl) (fun _ _ => rfl) (fun _ _ => rfl)
  | sfn f =>
    exact .addressAC f (act := fun addr s1 => { s1 with na := -addr }) (fun _ _ => rfl) (fun _ _ => rfl) (fun _ _ => rfl)
  | orb f =>
    exact .addressAC f (act := fun addr s1 => { s1 with nb := addr.extractLsb' 0 4 }) (fun _ _ => rfl) (fun _ _ => rfl)
      (fun _ _ => rfl)
  | jlh f => exact execJlh_announces f
  | cjf m c => exact .countHeld false m c
  | cjs m c => exact .countHeld true m c
  | sex m c => exact .quarterStore on m fun x => (x.a.extractLsb' 6 39 ++ x.e.signExtend 13, x)
  | sia m c => exact .quarterStore on m fun x => x.storeInteger 6
  | asn r => exact .readSpecial r fun v => s.na + v
  | ssn r => exact .readSpecial r fun v => s.na - v
  | ssr r => exact execSsr_announces r
  | sqw b c n => exact execSqw_announces b c n
  | ldm b c n => exact execLdm_announces b c n
  | lfr b n c => exact execLfr_announces b n c
  | sfr b n c => exact execSfr_announces b n c
  | jpm b c n => exact .jumpIf (!(s.getM b).msb) c n (u := s.clearPending) rfl id
  | jnm b c n => exact .jumpIf (s.getM b).msb c n (u := s.clearPending) rfl id
  | jzm b c n => exact .jumpIf (s.getM b == 0) c n (u := s.clearPending) rfl id
  | jum b c n => exact .jumpIf (s.getM b != 0) c n (u := s.clearPending) rfl id
  | cju b c n => exact .jumpIf (s.getM b + 1 != 0) c n (u := s.clearPending.countM b) rfl id
  | cjz b c n => exact .jumpIf (s.getM b + 1 == 0) c n (u := s.clearPending.countM b) rfl id
  | jsb b c n => exact .jumpIf true c n (u := s.clearPending.setM b (s.cc.secondWord + 1)) rfl id
  | jdc x c n => exact execJdc_announces x c n
  | cam m n b => exact .modArith (fun addr _ => addr) m n b
  | csm m n b => exact .modArith (fun addr _ => -addr) m n b
  | adm m n b => exact .modArith (fun addr v => v + addr) m n b
  | sbm m n b => exact .modArith (fun addr v => v - addr) m n b
  | cnm m n b => exact .modArith (fun addr _ => ~~~addr) m n b
  | crm m n b =>
    exact .modArith (fun addr v => v.rotateRight ((addr.extractLsb' 0 4 : BitVec 4).toNat % 13)) m n b
  | anm m n b => exact .modArith (fun addr v => addr &&& v) m n b
  | orm m n b => exact .modArith (fun addr v => addr ||| v) m n b
  | eom m n b => exact .modArith (fun addr v => addr ^^^ v) m n b
  | eqm m n b => exact .modArith (fun addr v => ~~~(addr ^^^ v)) m n b
  | nam m n b => exact .modArith (fun addr v => ~~~addr &&& v) m n b
  | nom m n b => exact .modArith (fun addr v => ~~~addr ||| v) m n b
  | hlt b c => exact execHlt_announces b c

/-- Settles O17: without OV_INTERRUPTS the same order leaves what the interrupt finds. -/
theorem overflowInterrupts : Obligations.OverflowInterrupts :=
  fun i _ t on quiet => exec_announces on i t quiet

end Sys2Proof.Machine


/-! Jumps, the conditional stop, and the orders on modifiers and fast registers (46_jumps, 47_fast_register_and_modifier). -/

namespace Sys2Proof.Machine

/-- Writing a modifier changes no other fast register and no other modifier (R12). -/
theorem FastFrame.setM (s : State) (i : BitVec 4) (v : Group) : FastFrame s (s.setM i v) [] [i] := by
  refine ⟨fun j hj _ => s.getF_setM_low i v j (by omega), fun k hk _ => ?_⟩
  rw [State.getM_setM, if_neg (by simpa using hk)]

/-! Jumps (R190 to R206). -/

/-- A long jump: to word N plus the pending amount if the condition holds, else cc advances (R190). -/
theorem jumpIf_done (p : Bool) (c : BitVec 2) (n : Addr) (s u : State) :
    jumpIf p c n s u =
      .next { u with cc := if p then ⟨n + s.na, c⟩ else u.cc.past 2, jumped := p || u.jumped } := by
  cases p <;> rfl

theorem add_one_beq_zero (g : Group) : (g + 1 == 0) = decide (g.toNat = 8191) := by
  rw [Bool.eq_iff_iff, beq_iff_eq, decide_eq_true_eq]
  bv_omega

theorem add_one_bne_zero (g : Group) : (g + 1 != 0) = decide (g.toNat ≠ 8191) := by
  rw [bne, add_one_beq_zero, ← decide_not]

theorem group_beq_zero (g : Group) : (g == 0) = decide (g.toNat = 0) := by
  rw [Bool.eq_iff_iff, beq_iff_eq, decide_eq_true_eq]
  bv_omega

/-- Settles O47: a counting jump tests the counted modifier, the others test it as it is. -/
theorem modifierJumps : Obligations.ModifierJumps := by
  intro b c n s
  have counting : ∀ p : Bool, ∃ t, jumpIf p c n s (s.clearPending.countM b) = .next t ∧ OnlyControl s t ∧ t.na = 0 ∧
      t.nb = 0 ∧ FastFrame s t [] [b] ∧ t.getM b = s.getM b + 1 ∧ t.cc = if p then ⟨n + s.na, c⟩ else s.cc.past 2 :=
    fun p => ⟨_, jumpIf_done p c n s _, rfl, rfl, rfl, (FastFrame.setM s b _).congr rfl,
      State.getM_setM_same s b _, rfl⟩
  have testing : ∀ p : Bool, ∃ t, jumpIf p c n s s.clearPending = .next t ∧ OnlyControl s t ∧ t.na = 0 ∧ t.nb = 0 ∧
      t.fast = s.fast ∧ t.cc = if p then ⟨n + s.na, c⟩ else s.cc.past 2 :=
    fun p => ⟨_, jumpIf_done p c n s _, rfl, rfl, rfl, rfl, rfl⟩
  simp only [List.forall_mem_cons]
  refine ⟨⟨?cju, ?cjz, nofun⟩, ?jpm, ?jnm, ?jzm, ?jum, nofun⟩
  case cju => rw [← add_one_bne_zero]; exact counting _
  case cjz => rw [← add_one_beq_zero]; exact counting _
  case jpm =>
    have positive : decide ((s.getM b).toNat < 4096) = !(s.getM b).msb := by
      rw [BitVec.msb_eq_decide, ← decide_not, decide_eq_decide]
      omega
    rw [positive]
    exact testing _
  case jnm => rw [← BitVec.msb_eq_decide (s.getM b)]; exact testing _
  case jzm => rw [← group_beq_zero]; exact testing _
  case jum => rw [decide_not, ← group_beq_zero]; exact testing _

theorem Counter.secondWord_eq (c : Counter) : c.secondWord = c.succ.word := by
  unfold Counter.secondWord Counter.succ
  split <;> rfl

/-- Settles O48: the word that holds N is the word of the next position. -/
theorem subroutineJump : Obligations.SubroutineJump := by
  intro b c n s
  refine ⟨_, jumpIf_done true c n s _, rfl, rfl, rfl, (FastFrame.setM s b _).congr rfl, ?_, rfl⟩
  rw [← Counter.secondWord_eq]
  exact State.getM_setM_same s b _

/-- The sign digit of A is the sign of A as an integer (R206). -/
theorem Acc.sign_eq (x : Acc) : x.sign = decide (x.aInt < 0) := BitVec.msb_eq_toInt

/-- JDC tests its condition, then takes its side effect (R206). -/
theorem execJdc_done (x : Condition) (c : BitVec 2) (n : Addr) (s : State) :
    ∃ t, exec (.jdc x c n) s = .next t ∧
      t = { s with cc := if s.condition x then ⟨n + s.na, c⟩ else s.cc.past 2, na := 0, nb := 0, jumped := t.jumped,
                   intMode := if x = .leaveInterrupt then false else s.intMode,
                   acc := { s.acc with ov := if x = .ovOnClear ∨ x = .ovOffClear then false else s.acc.ov } } :=
  ⟨_, jumpIf_done (s.condition x) c n s _, by cases x <;> rfl⟩

/-- The conditions with a side effect are those of B = 0, 10 and 11 (R206). -/
theorem readCondition_effects (b : BitVec 4) :
    (readCondition b = .leaveInterrupt ↔ b.toNat = 0) ∧
      (readCondition b = .ovOnClear ∨ readCondition b = .ovOffClear ↔ b.toNat = 10 ∨ b.toNat = 11) := by
  revert b
  decide

/-- Settles O49: the condition named by each B, with the sign of A read off. -/
theorem conditionalJump : Obligations.ConditionalJump := by
  intro b c n s
  obtain ⟨leaves, clears⟩ := readCondition_effects b
  obtain ⟨t, answered, after⟩ := execJdc_done (readCondition b) c n s
  simp only [leaves, clears] at after
  refine ⟨t, answered, ?_, ?_⟩
  · rw [after]
  · rw [after]
    dsimp only
    congr 2
    rw [← Acc.sign_eq]
    unfold readCondition
    have bound := b.isLt
    generalize b.toNat = k at bound ⊢
    interval_cases k <;> rfl

/-- The word a held jump names (R54, R59). -/
theorem State.heldAddr_toNat (s : State) (second : Bool) :
    (s.heldAddr second).toNat =
      if s.params.twoMemories then (2 * s.ip.toNat + second.toNat) % 8192 else s.ip.toNat := by
  unfold State.heldAddr
  split
  · cases second
    · exact BitVec.toNat_mul _ _
    · show (2 * s.ip + 1).toNat = _
      simp only [BitVec.toNat_add, BitVec.toNat_mul, Bool.toNat_true]
      simp
  · rfl

/-- Settles O46: the count decides between the held word and the next position. -/
theorem heldJumps : Obligations.HeldJumps := by
  have held : ∀ (second : Bool) (m : BitVec 4) (c : BitVec 2) (s : State),
      ∃ t, countHeld second m c s = .next t ∧ OnlyControl s t ∧ t.jumped = s.jumped ∧ t.na = 0 ∧ t.nb = 0 ∧
        FastFrame s t [] [m] ∧ t.getM m = s.getM m + 1 ∧
        (if (s.getM m).toNat = 8191 then t.cc = s.cc.past 1
         else t.cc.group = c ∧
          t.cc.word.toNat =
            if s.params.twoMemories then (2 * s.ip.toNat + second.toNat) % 8192 else s.ip.toNat) := by
    intro second m c s
    have counted : (s.clearPending.countM m).getM m = s.getM m + 1 := State.getM_setM_same s m _
    have frame : FastFrame s (s.clearPending.countM m) [] [m] := (FastFrame.setM s m _).congr rfl
    have zero : s.getM m + 1 ≠ 0 ↔ (s.getM m).toNat ≠ 8191 := by bv_omega
    unfold countHeld
    simp only [counted, zero]
    by_cases last : (s.getM m).toNat = 8191
    · simp only [last, not_true_eq_false, if_true, if_false, ne_eq]
      exact ⟨_, rfl, rfl, rfl, rfl, rfl, frame.congr rfl, counted, rfl⟩
    · simp only [ne_eq, last, not_false_eq_true, if_true, if_false]
      exact ⟨_, rfl, rfl, rfl, rfl, rfl, frame.congr rfl, counted, rfl, State.heldAddr_toNat s second⟩
  simp only [Obligations.HeldJumps, List.forall_mem_cons]
  exact ⟨held false, held true, nofun⟩

/-- Settles O50: HLT looks at the black switch only. -/
theorem conditionalStop : Obligations.ConditionalStop := by
  intro b c s
  refine ⟨fun h => ?_, fun h => ?_, fun h => ⟨Config.freeStop s.free, ?_⟩⟩
  all_goals
    show execHlt b c s = _
    unfold execHlt
    conv_lhs => rw [h]
    rfl

/-! LDM, SQW, LFR and SFR (R210 to R214). -/

/-- Settles O51: LDM writes a modifier; SQW writes a word with one quarter replaced. -/
theorem quarterMoves : Obligations.QuarterMoves := by
  intro b c n s free
  constructor
  · have answered : exec (.ldm b c n) s =
        complete 2 (s.clearPending.setM b (quarter (s.coreWord (n + s.na)) (b.toNat % 4))) :=
      memRead_free (s := s.clearPending) free
        fun w => complete 2 (s.clearPending.setM b (quarter w (b.toNat % 4)))
    exact ⟨_, answered, rfl, rfl, ⟨rfl, rfl, rfl⟩, (FastFrame.setM s b _).congr rfl, State.getM_setM_same s b _⟩
  · intro wf b1 b8
    have legal : sourceIllegal b = false := by
      simp only [sourceIllegal, Bool.or_eq_false_iff, beq_eq_false_iff_ne, decide_eq_false_iff_not, ne_eq,
        ← toNat_eq_one_iff]
      exact ⟨b1, by omega⟩
    have answered : exec (.sqw b c n) s =
        complete 2 (s.clearPending.setCore (n + s.na)
          (setQuarter (s.coreWord (n + s.na)) c.toNat (quarter (s.getF b.toNat) c.toNat))) := by
      show execSqw b c n s = _
      rw [execSqw, legal]
      exact memWrite_free (s := s.clearPending) free _ _
    have word := State.coreWord_setCore (s := s.clearPending) wf (n + s.na)
    refine ⟨_, answered, rfl, fun a ha => ?_, fun k hk => ?_⟩
    · exact (word a _).trans (if_neg ha)
    · have hc := c.isLt
      calc _ = quarter (setQuarter (s.coreWord (n + s.na)) c.toNat (quarter (s.getF b.toNat) c.toNat)) k :=
            congrArg (quarter · k) ((word (n + s.na) _).trans (if_pos rfl))
        _ = _ := by
          rw [quarter_setQuarter, Nat.mod_eq_of_lt hk, Nat.mod_eq_of_lt hc]
          split
          case isTrue same => rw [same]
          case isFalse => rfl

/-- Settles O52: LFR writes one fast register, SFR one core word. -/
theorem fastRegisterMoves : Obligations.FastRegisterMoves := by
  intro b n c s free b8
  constructor
  · intro b2
    have legal : loadIllegal b = false := by
      simp only [loadIllegal, Bool.or_eq_false_iff, decide_eq_false_iff_not]
      omega
    have answered : exec (.lfr b n c) s =
        complete (c1Groups n) (s.clearPending.setF b.toNat (s.coreWord (n.getD 0 + s.na))) := by
      show execLfr b n c s = _
      rw [execLfr, legal]
      exact memRead_free (s := s.clearPending) free
        fun w => complete (c1Groups n) (s.clearPending.setF b.toNat w)
    refine ⟨_, answered, rfl, rfl, ⟨rfl, rfl, rfl⟩, ((FastFrame.refl s).setF b.toNat _).congr rfl,
      State.getF_setF_same s _ _ (by omega), fun _ i hi => ?_⟩
    exact (State.getM_setF_eq s i (k := b.toNat) _ (by omega)).trans (if_pos hi)
  · intro wf b1
    have legal : sourceIllegal b = false := by
      simp only [sourceIllegal, Bool.or_eq_false_iff, beq_eq_false_iff_ne, decide_eq_false_iff_not, ne_eq,
        ← toNat_eq_one_iff]
      exact ⟨b1, by omega⟩
    have answered : exec (.sfr b n c) s =
        complete (c1Groups n) (s.clearPending.setCore (n.getD 0 + s.na) (s.getF b.toNat)) := by
      show execSfr b n c s = _
      rw [execSfr, legal]
      exact memWrite_free (s := s.clearPending) free _ _
    have word := State.coreWord_setCore (s := s.clearPending) wf (n.getD 0 + s.na)
    exact ⟨_, answered, rfl, (word _ _).trans (if_pos rfl), fun a ha => (word a _).trans (if_neg ha)⟩

/-! Modifier arithmetic (R215 to R227). -/

/-- A rotation to the right moves the right k digits to the left end (R221). -/
theorem rotateRight_toNat (v : Group) {k : Nat} (hk : k < 13) :
    (v.rotateRight k).toNat = v.toNat / 2 ^ k + v.toNat % 2 ^ k * 2 ^ (13 - k) := by
  have bound : v.toNat / 2 ^ k < 2 ^ (13 - k) := by
    rw [Nat.div_lt_iff_lt_mul (by positivity), ← pow_add, Nat.sub_add_cancel (by omega)]
    exact v.isLt
  have wrapped : v.toNat <<< (13 - k) % 2 ^ 13 = (v.toNat % 2 ^ k) <<< (13 - k) := by
    rw [Nat.shiftLeft_eq, Nat.shiftLeft_eq]
    rw [show (2 : Nat) ^ 13 = 2 ^ k * 2 ^ (13 - k) by rw [← pow_add, Nat.add_sub_cancel' (by omega)],
      Nat.mul_mod_mul_right]
  rw [BitVec.toNat_rotateRight, Nat.mod_eq_of_lt hk, wrapped, Nat.shiftRight_eq_div_pow, Nat.or_comm,
    ← Nat.shiftLeft_add_eq_or_of_lt bound, Nat.shiftLeft_eq, Nat.add_comm]

/-- Each modifier arithmetic order computes what its row says (R216 to R227). -/
theorem modifierResults_meaning (addr v : Group) :
    ∀ p ∈ modifierResults addr v, ∃ op : Group → Group → Group,
      (op addr v).toNat = p.1 ∧ ∀ b n x s, exec (p.2 b n x) s = modArith op b n x s := by
  have hv := v.isLt
  have ha := addr.isLt
  simp only [modifierResults, List.forall_mem_cons]
  refine ⟨⟨fun a _ => a, rfl, fun _ _ _ _ => rfl⟩, ⟨fun a _ => -a, ?csm, fun _ _ _ _ => rfl⟩,
    ⟨fun a v => v + a, BitVec.toNat_add v addr, fun _ _ _ _ => rfl⟩, ⟨fun a v => v - a, ?sbm, fun _ _ _ _ => rfl⟩,
    ⟨fun a _ => ~~~a, BitVec.toNat_not, fun _ _ _ _ => rfl⟩,
    ⟨fun a v => v.rotateRight ((a.extractLsb' 0 4 : BitVec 4).toNat % 13), ?crm, fun _ _ _ _ => rfl⟩,
    ⟨fun a v => a &&& v, BitVec.toNat_and addr v, fun _ _ _ _ => rfl⟩,
    ⟨fun a v => a ||| v, BitVec.toNat_or addr v, fun _ _ _ _ => rfl⟩,
    ⟨fun a v => a ^^^ v, BitVec.toNat_xor addr v, fun _ _ _ _ => rfl⟩,
    ⟨fun a v => ~~~(a ^^^ v), ?eqm, fun _ _ _ _ => rfl⟩, ⟨fun a v => ~~~a &&& v, ?nam, fun _ _ _ _ => rfl⟩,
    ⟨fun a v => ~~~a ||| v, ?nom, fun _ _ _ _ => rfl⟩, nofun⟩
  case csm => exact BitVec.toNat_neg addr
  case sbm =>
    rw [BitVec.toNat_sub]
    omega
  case crm =>
    have digits : (addr.extractLsb' 0 4 : BitVec 4).toNat = addr.toNat % 16 := by
      rw [BitVec.extractLsb'_toNat]
      rfl
    dsimp only
    rw [digits, rotateRight_toNat v (Nat.mod_lt _ (by omega))]
  case eqm => rw [BitVec.toNat_not, BitVec.toNat_xor]
  case nam => rw [BitVec.toNat_and, BitVec.toNat_not]
  case nom => rw [BitVec.toNat_or, BitVec.toNat_not]

/-- Settles O53: the result of each order goes to M_B or to the next address. -/
theorem modifierArithmetic : Obligations.ModifierArithmetic := by
  intro b n s p hp
  obtain ⟨op, result, meaning⟩ := modifierResults_meaning _ _ p hp
  rw [meaning, meaning, modArith_done, modArith_done]
  refine ⟨⟨_, rfl, rfl, rfl, ⟨rfl, rfl, rfl⟩, (FastFrame.setM s b _).congr rfl, ?_⟩, ⟨_, rfl, rfl, rfl, rfl, rfl, rfl, result⟩⟩
  rw [← result]
  exact congrArg BitVec.toNat (State.getM_setM_same s b _)

end Sys2Proof.Machine


/-! Addresses, the Interplay and Block Checker orders, the orders on the next address and on the special registers (40_operand_preparation R82, 45_interplay_and_address_orders). -/

namespace Sys2Proof.Machine

/-! The orders whose address is their operand (R172 to R181). -/

theorem State.isBusy_eq (s : State) (k : BitVec 5) : s.isBusy k = s.busy[k.toNat]'(k.isLt) := by
  have hk : k.toNat < 32 := k.isLt
  simp [State.isBusy, Vector.getD, hk]

theorem State.isBusy_setBusy (s : State) (k j : BitVec 5) (v : Bool) :
    (s.setBusy k v).isBusy j = if k = j then v else s.isBusy j := by
  simp only [State.isBusy_eq, State.setBusy, Vector.getElem_setIfInBounds, BitVec.toNat_inj]

/-- The frame of an order that prepares its address and then touches no fast register. -/
theorem State.prepare_framed (s : State) (a : NormalAddr) {t : State} (h : t.fast = (s.prepare a).fast) :
    FastFrame s t [] (normalCounts a) ∧ Counted s t [] (normalCounts a) := by
  obtain ⟨frame, counted⟩ := s.prepare_frame a
  exact ⟨frame.congr h, counted.congr h⟩

theorem messageOf_fields (dir : Direction) (addr : Addr) :
    (messageOf dir addr).channel.toNat = addr.toNat / 256 ∧ (messageOf dir addr).detail.toNat = addr.toNat % 256 := by
  refine ⟨blockOf_toNat addr, ?_⟩
  simp [messageOf]

/-- PID and POD (R172, R175). -/
theorem preparing_done {s : State} (legal : s.interplayLegal = true) (a : NormalAddr) (dir : Direction) :
    ∃ t, interplayOrder (.addr a) (fun addr s1 => { s1 with prepared := messageOf dir addr }) s = .next t ∧
      t = { s with fast := t.fast, cc := t.cc, na := 0, nb := 0, prepared := t.prepared } ∧
      t.cc = s.cc.past (normalGroups a) ∧ FastFrame s t [] (normalCounts a) ∧
      Counted s t [] (normalCounts a) ∧ t.prepared.direction = dir ∧
      t.prepared.channel.toNat = (s.address a).toNat / 256 ∧ t.prepared.detail.toNat = (s.address a).toNat % 256 := by
  obtain ⟨frame, counted⟩ := s.prepare_framed a
    (t := ({ s.prepare a with prepared := messageOf dir (s.address a) } : State).advance (normalGroups a)) rfl
  exact ⟨_, interplayOrder_done legal a _, by rw [s.prepare_eq a]; rfl, by rw [s.prepare_eq a]; rfl, frame, counted, rfl,
    messageOf_fields dir (s.address a)⟩

/-- BBF and FBF (R173, R174). -/
theorem blocking_done {s : State} (legal : s.interplayLegal = true) (a : NormalAddr) (v : Bool) :
    ∃ t, interplayOrder (.addr a) (fun addr s1 => s1.setBusy (blockOf addr) v) s = .next t ∧
      t = { s with fast := t.fast, cc := t.cc, na := 0, nb := 0, busy := t.busy } ∧
      t.cc = s.cc.past (normalGroups a) ∧ FastFrame s t [] (normalCounts a) ∧ Counted s t [] (normalCounts a) ∧
      ∀ k : BitVec 5, t.isBusy k = if k.toNat = (s.address a).toNat / 256 then v else s.isBusy k := by
  obtain ⟨frame, counted⟩ := s.prepare_framed a
    (t := ((s.prepare a).setBusy (blockOf (s.address a)) v).advance (normalGroups a)) rfl
  refine ⟨_, interplayOrder_done legal a _, by rw [s.prepare_eq a]; rfl, by rw [s.prepare_eq a]; rfl, frame, counted,
    fun k => ?_⟩
  have busy := State.isBusy_setBusy (s.prepare a) (blockOf (s.address a)) k v
  rw [show (s.prepare a).isBusy k = s.isBusy k by rw [s.prepare_eq a]; rfl] at busy
  simp only [eq_comm (b := k), ← BitVec.toNat_inj (x := k), blockOf_toNat] at busy
  exact busy

/-- What IBT begins (R176, R247). -/
theorem transferOf_bounds (p : Params) (msg : Message) (addr : Addr) :
    (transferOf p msg addr).next.toNat =
        (if p.fixedBlock msg.channel then addr.toNat / 256 * 256 else addr.toNat) ∧
      (transferOf p msg addr).last.toNat = addr.toNat / 256 * 256 + 255 := by
  constructor
  · unfold transferOf
    dsimp only
    split
    · rw [block_append_toNat, blockOf_toNat, show (0 : BitVec 8).toNat = 0 from rfl, Nat.add_zero]
    · rfl
  · exact (block_append_toNat _ _).trans (by rw [blockOf_toNat]; rfl)

/-- Settles O43: the five orders act on the prepared state. -/
theorem interplayOrders : Obligations.InterplayOrders := by
  intro a s present allowed
  have legal : s.interplayLegal = true := s.interplayLegal_iff.mpr ⟨present, allowed⟩
  simp only [List.forall_mem_cons]
  refine ⟨⟨preparing_done legal a .input, preparing_done legal a .output, nofun⟩, ?_,
    blocking_done legal a true, blocking_done legal a false, nofun⟩
  have hp : (s.prepare a).prepared = s.prepared := s.prepare_prepared a
  have hparams : (s.prepare a).params = s.params := s.prepare_params a
  have answered : exec (.ibt (.addr a)) s = .next (((s.prepare a).setChannel s.prepared.channel
      (some (transferOf s.params s.prepared (s.address a)))).advance (normalGroups a)) := by
    refine (interplayOrder_done legal a _).trans ?_
    rw [hp, hparams]
  obtain ⟨frame, counted⟩ := s.prepare_framed a (t := ((s.prepare a).setChannel s.prepared.channel
    (some (transferOf s.params s.prepared (s.address a)))).advance (normalGroups a)) rfl
  have channel := State.channel_setChannel (s.prepare a) s.prepared.channel
  obtain ⟨next, last⟩ := transferOf_bounds s.params s.prepared (s.address a)
  refine ⟨_, _, answered, by rw [s.prepare_eq a]; rfl, by rw [s.prepare_eq a]; rfl, frame, counted,
    (channel _ _).trans (if_pos rfl), fun d hd => ?_, rfl, rfl, next, last⟩
  refine (channel d _).trans ((if_neg (Ne.symm hd)).trans ?_)
  rw [s.prepare_eq a]
  rfl

/-- The address of each form as a number (R82, D4). -/
theorem State.address_toNat (s : State) (a : NormalAddr) :
    (s.address a).toNat = ((match a with
      | .direct m => (s.getM m).toNat
      | .counted m => (s.getM m).toNat
      | .indexed m n => n.toNat + (s.getM m).toNat
      | .fixed n => n.toNat) + s.na.toNat) % 8192 := by
  cases a with
  | direct m => exact BitVec.toNat_add _ _
  | counted m => exact BitVec.toNat_add _ _
  | indexed m n =>
    simp only [State.address, BitVec.toNat_add]
    omega
  | fixed n => exact BitVec.toNat_add _ _

/-- ATN, SFN and ORB make some amounts pending (R179 to R181). -/
theorem addressOrders_pending (a : NormalAddr) (s : State) (na : BitVec 13) (nb : BitVec 4) {act : Addr → State → State}
    (h : act (s.address a) (s.prepare a) = { s.prepare a with na := na, nb := nb }) :
    ∃ t, addressAC (.addr a) act s = .next t ∧ OnlyControl s t ∧ t.jumped = s.jumped ∧
      t.cc = s.cc.past (normalGroups a) ∧ t.na = na ∧ t.nb = nb ∧
      FastFrame s t [] (normalCounts a) ∧ Counted s t [] (normalCounts a) := by
  refine ⟨_, addressAC_done s a act, ?_⟩
  rw [h]
  obtain ⟨frame, counted⟩ := s.prepare_framed a
    (t := ({ s.prepare a with na := na, nb := nb } : State).advance (normalGroups a)) rfl
  exact ⟨by rw [s.prepare_eq a]; rfl, by rw [s.prepare_eq a]; rfl, by rw [s.prepare_eq a]; rfl, rfl, rfl, frame, counted⟩

/-- Settles O44: the orders act on the prepared state with the address as a number. -/
theorem addressOrders : Obligations.AddressOrders := by
  intro a s
  have hna : (s.prepare a).na = 0 := s.prepare_na a
  have hnb : (s.prepare a).nb = 0 := s.prepare_nb a
  have digits : (s.address a).extractLsb' 0 4 = BitVec.ofNat 4 (s.address a).toNat := rfl
  refine ⟨s.address_toNat a, ?lin, ?pending, ?jlh⟩
  case lin =>
    obtain ⟨frame, counted⟩ := s.prepare_frame a
    refine ⟨_, addressAC_done s a fun addr s1 => s1.setF 1 (rep4 addr), ?_, ⟨?_, ?_, ?_⟩, ?_, fun k => ?_, (frame.setF 1 _).congr rfl,
      (counted.setF 1 _).congr rfl⟩
    any_goals
      rw [s.prepare_eq a]
      rfl
    exact (congrArg (quarter · k) (State.getF_setF_same (s.prepare a) 1 _ (by omega))).trans (quarter_rep4 _ k)
  case pending =>
    simp only [List.forall_mem_cons]
    refine ⟨addressOrders_pending a s _ _ (act := fun addr s1 => { s1 with na := addr }) ?_,
      addressOrders_pending a s _ _ (act := fun addr s1 => { s1 with na := -addr }) ?_,
      addressOrders_pending a s _ _ (act := fun addr s1 => { s1 with nb := addr.extractLsb' 0 4 }) ?_, nofun⟩
    · rw [← hnb]
    · rw [← hnb]
    · rw [← hna, digits]
  case jlh =>
    obtain ⟨frame, counted⟩ := s.prepare_framed a (t := (s.prepare a).jumpTo (s.address a) 0) rfl
    exact ⟨_, rfl, by rw [s.prepare_eq a]; rfl, rfl, hna, hnb, frame, counted⟩

/-! The special registers (R182 to R185). -/

theorem State.isTape_iff (s : State) (r : BitVec 6) :
    s.isTape r = true ↔ s.params.specialDecoded = false ∨ r = 0 := by
  simp [State.isTape]

/-- A character read from the tape goes through the order's operation into the pending amount. -/
theorem readSpecial_tape {s : State} {r : BitVec 6} (tape : s.isTape r = true) {c : Char7} {rest : List Char7}
    (h : s.tapeIn = c :: rest) (k : BitVec 13 → State → Out) :
    readSpecial r s.clearPending k = k (c.zeroExtend 13) { s.clearPending with tapeIn := rest } := by
  have tape' : s.clearPending.isTape r = true := tape
  have input : s.clearPending.tapeIn = c :: rest := h
  rw [readSpecial, if_pos tape', input]

theorem readSpecial_empty {s : State} {r : BitVec 6} (tape : s.isTape r = true) (h : s.tapeIn = [])
    (k : BitVec 13 → State → Out) : readSpecial r s.clearPending k = .refused .tapeReaderEmpty := by
  have tape' : s.clearPending.isTape r = true := tape
  have input : s.clearPending.tapeIn = [] := h
  rw [readSpecial, if_pos tape', input]

theorem readSpecial_unassigned {s : State} {r : BitVec 6} (other : s.isTape r = false) (k : BitVec 13 → State → Out) :
    readSpecial r s.clearPending k = k (Config.freeSpecial s.free) { s.clearPending with free := s.free + 1 } := by
  have other' : ¬ s.clearPending.isTape r = true := by simpa using (show s.clearPending.isTape r = false from other)
  exact if_neg other'

/-- Settles O45: register 0, and every register where they are not decoded, is the paper tape; the others are free. -/
theorem specialRegisterOrders : Obligations.SpecialRegisterOrders := by
  intro r s
  constructor
  · intro assigned
    have tape := (s.isTape_iff r).mpr assigned
    refine ⟨fun c rest input => ⟨⟨_, readSpecial_tape tape input fun v s1 => complete 1 { s1 with na := s.na + v }, rfl, ?_⟩,
        ⟨_, readSpecial_tape tape input fun v s1 => complete 1 { s1 with na := s.na - v }, rfl, ?_⟩⟩,
      fun input => ⟨readSpecial_empty tape input fun v s1 => complete 1 { s1 with na := s.na + v },
        readSpecial_empty tape input fun v s1 => complete 1 { s1 with na := s.na - v }⟩, ?_⟩
    · show (s.na + c.zeroExtend 13).toNat = _
      have hc := c.isLt
      rw [BitVec.toNat_add, BitVec.toNat_setWidth]
      omega
    · show ((s.na - c.zeroExtend 13).toNat + c.toNat) % 8192 = _
      have hc := c.isLt
      have hna := s.na.isLt
      rw [BitVec.toNat_sub, BitVec.toNat_setWidth]
      omega
    · have punched : s.clearPending.writeSpecial r s.na =
          { s.clearPending with tapeOut := s.tapeOut ++ [s.na.extractLsb' 0 7] } := if_pos tape
      refine ⟨_, s.na.extractLsb' 0 7, congrArg (complete 1) punched, rfl, ?_⟩
      rw [BitVec.extractLsb'_toNat]
      rfl
  · intro decoded hr
    have other : s.isTape r = false := by
      rw [Bool.eq_false_iff, ne_eq, s.isTape_iff, not_or]
      exact ⟨by simp [decoded], hr⟩
    have ignored : s.clearPending.writeSpecial r s.na = s.clearPending :=
      if_neg (by simpa using (show s.clearPending.isTape r = false from other))
    exact ⟨⟨_, readSpecial_unassigned other fun v s1 => complete 1 { s1 with na := s.na + v },
      readSpecial_unassigned other fun v s1 => complete 1 { s1 with na := s.na - v }⟩, congrArg (complete 1) ignored⟩

end Sys2Proof.Machine


/-! Core references, and what acts on the machine from outside: Interplay, interrupts, the operator and the tape reader (20_memory R44 and R45, 60_exceptions R231, R233, R235, R247 and R249). -/

namespace Sys2Proof.Machine

/-! Checked references to core (R44, R45, R59). -/

/-- Two addresses name one core word where they agree modulo the words attached (R44, R59). -/
theorem coreIndex_eq_iff (p : Params) (a b : Addr) :
    coreIndex p a = coreIndex p b ↔
      if p.twoMemories then a.toNat % 8192 = b.toNat % 8192 else a.toNat % 4096 = b.toNat % 4096 := by
  unfold coreIndex Params.coreWords
  cases p.twoMemories <;> exact Iff.rfl

/-- Settles O11: a reference that is no violation reads or writes one word, a violation changes nothing. -/
theorem coreReadAndWrite : Obligations.CoreReadAndWrite := by
  intro s a v wf
  refine ⟨coreIndex_eq_iff s.params a, fun free => ?_, fun busy => ?_⟩
  · have word := State.coreWord_setCore wf a
    exact ⟨memRead_free free, s.setCore a v, memWrite_free free v, rfl, State.wf_setCore wf a v,
      (word a v).trans (if_pos rfl), fun b other => (word b v).trans (if_neg other)⟩
  · exact ⟨_, rfl, memRead_busy busy, memWrite_busy busy v⟩

/-! Interplay between orders and inside them (R50, R247). -/

/-- Interplay does not look at what is still to act from outside. -/
theorem State.transferWord_events (s : State) (es : List Event) (c : BitVec 5) (w : Word) (stop : Bool) :
    { s with events := es }.transferWord c w stop = { s.transferWord c w stop with events := es } := by
  have moved := s.transferWord_interplayOf { s with events := es } rfl c w stop
  rw [s.transferWord_frame c w stop]
  exact moved

/-- With an event listed, a step delivers it (R270). -/
theorem step_event {s : State} {e : Event} {rest : List Event} (h : s.events = e :: rest) :
    step s = deliver e { s with events := rest } obey := by
  unfold step
  rw [h]

theorem step_transfer {s : State} {rest : List Event} {c : BitVec 5} {w : Word} {stop : Bool}
    (h : s.events = .transfer c w stop :: rest) : step s = .next ({ s with events := rest }.transferWord c w stop) :=
  step_event h

/-- A run whose first step is answered goes on from there. -/
theorem run_succ {s t : State} (h : step s = .next t) (k : Nat) :
    Sys2Proof.core.run (k + 1) s = Sys2Proof.core.run k t := by
  have general : ∀ (M : Host.Core) (s t : M.State), M.step s = .next t → M.run (k + 1) s = M.run k t := by
    intro M s t h
    rw [Host.Core.run, h]
  exact general Sys2Proof.core s t h

/-- Words moved one a step are the words moved one after another (R50, R247). -/
theorem run_transfers (s : State) (cs : List ChannelWord) :
    Sys2Proof.core.run cs.length { s with events := cs.map fun c => .transfer c.channel c.word c.stop } =
      .next { s.transferWords cs with events := [] } := by
  induction cs generalizing s with
  | nil => rfl
  | cons c cs ih =>
    have one : step { s with events := (c :: cs).map fun c => .transfer c.channel c.word c.stop } =
        .next { s.transferWord c.channel c.word c.stop with
          events := cs.map fun c => .transfer c.channel c.word c.stop } :=
      (step_transfer rfl).trans (congrArg _ (s.transferWord_events _ _ _ _))
    exact (run_succ one cs.length).trans (ih _)

/-- One word of a transfer in progress (R247, D31). -/
theorem State.transferWord_active {s : State} {c : BitVec 5} {x : Transfer} (present : s.params.interplayPresent = true)
    (active : s.channel c = some x) (w : Word) (stop : Bool) :
    s.transferWord c w stop =
      { (s.moveWord c w x).setChannel c (x.afterWord s.params c stop) with
        blockDone := s.blockDone || (x.afterWord s.params c stop).isNone } := by
  have kept : (s.moveWord c w x).blockDone = s.blockDone := by
    unfold State.moveWord
    split <;> rfl
  unfold State.transferWord
  rw [if_pos present, active]
  dsimp only
  cases x.afterWord s.params c stop with
  | none => simp
  | some y => simp [← kept, State.setChannel]

theorem State.transferWord_inside (s : State) (c : BitVec 5) (w : Word) (stop : Bool) :
    (s.transferWord c w stop).inside = s.inside := by
  obtain idle | ⟨x, -, -, moved⟩ := s.transferWord_cases c w stop
  · rw [idle]
  · rw [moved]
    unfold State.moveWord
    split <;> rfl

/-- When a transfer is over (R247). -/
theorem Transfer.afterWord_eq (p : Params) (c : BitVec 5) (stop : Bool) (x : Transfer) :
    x.afterWord p c stop =
      if x.last.toNat ≤ x.next.toNat ∨ (stop = true ∧ p.fixedBlock c = false) then none
      else some { x with next := x.next + 1 } := by
  simp only [Transfer.afterWord, Bool.or_eq_true, Bool.and_eq_true, decide_eq_true_eq, Bool.not_eq_true']

/-- An input word goes to core, an output word to the device (R247). -/
theorem State.moveWord_spec {s : State} (wf : Mem.wf s.core = true) (c : BitVec 5) (w : Word) (x : Transfer) :
    (x.direction = .input →
      (s.moveWord c w x).coreWord x.next = w ∧ CoreFrame s (s.moveWord c w x) x.next ∧
        (s.moveWord c w x).deviceOut = s.deviceOut) ∧
    (x.direction = .output →
      SameCore s (s.moveWord c w x) ∧ (s.moveWord c w x).deviceOut = s.deviceOut ++ [(c, s.coreWord x.next)]) := by
  have word := State.coreWord_setCore wf x.next
  constructor
  · intro input
    have moved : s.moveWord c w x = s.setCore x.next w := by rw [State.moveWord, input]
    rw [moved]
    exact ⟨(word x.next w).trans (if_pos rfl), fun b other => (word b w).trans (if_neg other), rfl⟩
  · intro output
    have moved : s.moveWord c w x = { s with deviceOut := s.deviceOut ++ [(c, s.coreWord x.next)] } := by
      rw [State.moveWord, output]
    rw [moved]
    exact ⟨fun _ => rfl, rfl⟩

/-- Everything one word of a transfer in progress does (R247). -/
theorem State.transferWord_spec {s : State} {c : BitVec 5} {x : Transfer} (wf : Mem.wf s.core = true)
    (present : s.params.interplayPresent = true) (active : s.channel c = some x) (w : Word) (stop : Bool) {t : State}
    (ht : s.transferWord c w stop = t) :
    (x.direction = .input → t.coreWord x.next = w ∧ CoreFrame s t x.next ∧ t.deviceOut = s.deviceOut) ∧
    (x.direction = .output → SameCore s t ∧ t.deviceOut = s.deviceOut ++ [(c, s.coreWord x.next)]) ∧
    (∀ d, d ≠ c → t.channel d = s.channel d) ∧
    t.channel c = x.afterWord s.params c stop ∧
    t.blockDone = (s.blockDone || (x.afterWord s.params c stop).isNone) := by
  have channels := s.moveWord_channels c w x
  obtain ⟨input, output⟩ := State.moveWord_spec wf c w x
  rw [← ht, State.transferWord_active present active]
  generalize x.afterWord s.params c stop = after
  generalize s.moveWord c w x = u at channels input output
  have channel := State.channel_setChannel u c
  refine ⟨input, output, fun d other => ?_, (channel c after).trans (if_pos rfl), rfl⟩
  refine ((channel d after).trans (if_neg (Ne.symm other))).trans ?_
  rw [State.channel, channels, State.channel]

/-- Settles O8: a step of a transfer is one word of Interplay, and an interlude is a run of them. -/
theorem transferMovesOneWord : Obligations.TransferMovesOneWord := by
  refine ⟨fun p => rfl, fun s cs places passed => ?_, fun s rest c w stop x wf listed present active => ?_⟩
  · rw [run_transfers { s with inside := places } cs, State.interlude, passed]
  · have frame := ({ s with events := rest } : State).transferWord_frame c w stop
    obtain ⟨input, output, others, here, done⟩ :=
      State.transferWord_spec (s := { s with events := rest }) (x := x) wf present active w stop rfl
    have inside := ({ s with events := rest } : State).transferWord_inside c w stop
    refine ⟨_, step_transfer listed, ?_, input, output, others, ?_⟩
    · generalize ({ s with events := rest } : State).transferWord c w stop = t at frame inside
      rw [frame, inside]
    · rw [here, done]
      simp only [Transfer.afterWord_eq]
      split
      · exact ⟨rfl, by simp⟩
      · exact ⟨rfl, by simp⟩

/-! Interrupts from outside (R231, R233, R235). -/

theorem requestInterrupt_eq (c : Cause) (s : State) :
    requestInterrupt c s =
      if s.intMode = true ∨ s.engineering = true then .next s
      else .fault (.programInterrupt c { s with intMode := true, cause := some c }) := by
  cases hm : s.intMode <;> cases he : s.engineering
  all_goals simp [requestInterrupt, State.interruptible, raiseInterrupt, State.enterInterrupt, hm, he]

/-- Settles O9: a request that asks is answered as R238 and R240 say, and one that does not ask does nothing. -/
theorem outsideInterrupts : Obligations.OutsideInterrupts := by
  intro s rest e c asks which listed
  have delivered : step s =
      if asks = true then requestInterrupt c { s with events := rest } else .next { s with events := rest } := by
    rw [step_event listed]
    obtain ⟨rfl, rfl, rfl⟩ | ⟨rfl, rfl, rfl⟩ | ⟨rfl, rfl, rfl⟩ := which <;> rfl
  rw [delivered, requestInterrupt_eq]
  cases asks <;> simp

/-! The operator and the tape reader (R29 to R33, R249, R270). -/

/-- Settles O10: a stopped machine stands still, and each event writes what it names. -/
theorem stopAndRelease : Obligations.StopAndRelease := by
  have moved : ∀ (s : State) (rest : List Event) (p : BlackSwitch), s.events = .black p :: rest →
      step s = .next ({ s with events := rest }.moveBlack p) := fun _ _ _ listed => step_event listed
  refine ⟨fun s stopped idle => ?_, fun s rest p listed => ⟨_, moved s rest p listed, rfl, ?_⟩,
    fun s rest => ⟨fun _ listed => step_event listed, fun _ listed => step_event listed,
      fun _ listed => step_event listed, fun _ listed => step_event listed⟩,
    fun s rest p listed hp => ⟨_, _, moved s _ .up listed, moved _ rest p rfl, rfl, ?_, ?_⟩⟩
  · unfold step
    rw [idle]
    exact if_pos stopped
  · simp [State.moveBlack, imp_iff_not_or]
  · simp [State.moveBlack]
  · simp [State.moveBlack, hp]

end Sys2Proof.Machine


/-! Fetching orders: the held words, refills, and the order that the control groups at cc stand for (20_memory R52 to R55, 40_operand_preparation R80). -/

namespace Sys2Proof.Machine

/-! The pair of a word (R24, R52, R59). -/

/-- A word is the first or the second of its pair. -/
theorem State.pairOf_word {s : State} (two : s.params.twoMemories = true) (w : Addr) :
    (w.getLsbD 0 = false → 2 * s.pairOf w = w) ∧ (w.getLsbD 0 = true → 2 * s.pairOf w + 1 = w) := by
  have half : (s.pairOf w).toNat = w.toNat / 2 := by
    simp [State.pairOf, two, Nat.shiftRight_eq_div_pow]
  have odd : w.getLsbD 0 = decide (w.toNat % 2 = 1) := by
    rw [BitVec.getLsbD, Nat.testBit_zero]
  rw [odd]
  constructor
  · intro even
    have := of_decide_eq_false even
    bv_omega
  · intro odd
    have := of_decide_eq_true odd
    bv_omega

/-- Both words of a pair lie in one block (R47, R52). -/
theorem State.blockOf_pair {s : State} (two : s.params.twoMemories = true) (w : Addr) :
    blockOf (2 * s.pairOf w) = blockOf w ∧ blockOf (2 * s.pairOf w + 1) = blockOf w := by
  have half : (s.pairOf w).toNat = w.toNat / 2 := by
    simp [State.pairOf, two, Nat.shiftRight_eq_div_pow]
  have first : (2 * s.pairOf w).toNat = w.toNat / 2 * 2 := by bv_omega
  have second : (2 * s.pairOf w + 1).toNat = w.toNat / 2 * 2 + 1 := by bv_omega
  constructor
  · rw [← BitVec.toNat_inj, blockOf_toNat, blockOf_toNat, first]
    omega
  · rw [← BitVec.toNat_inj, blockOf_toNat, blockOf_toNat, second]
    omega

/-- Whether a refill is refused shows on either of its references (R46, R52). -/
theorem State.violation_pair {s : State} (two : s.params.twoMemories = true) (w : Addr) :
    s.violation (2 * s.pairOf w) = s.violation w ∧ s.violation (2 * s.pairOf w + 1) = s.violation w := by
  obtain ⟨first, second⟩ := s.blockOf_pair two w
  simp only [State.violation, first, second, and_self]

/-- After a refill the word is held as core holds it (R52, R59). -/
theorem State.getF_loadPair (s : State) (w : Addr) : (s.loadPair w).getF (s.heldIndex w) = s.coreWord w := by
  unfold State.loadPair State.heldIndex
  cases two : s.params.twoMemories with
  | false => exact State.getF_setF_same s 9 _ (by omega)
  | true =>
    obtain ⟨even, odd⟩ := s.pairOf_word two w
    simp only [if_true]
    cases second : w.getLsbD 0 with
    | false =>
      have first := State.getF_setF_ne (s.setF 8 (s.coreWord (2 * s.pairOf w))) (j := 8) (k := 9)
        (s.coreWord (2 * s.pairOf w + 1)) (by omega)
      refine first.trans ((State.getF_setF_same s 8 _ (by omega)).trans ?_)
      rw [even second]
    | true =>
      refine (State.getF_setF_same (s.setF 8 _) 9 _ (by omega)).trans ?_
      rw [odd second]

/-! Refills (R52, R59, D13). -/

/-- With no reference between its two, a refill that is not refused leaves the pair held (R50, R52). -/
theorem refill_free {s : State} {w : Addr} (free : s.violation w = false) (k : State → Out)
    (quiet : s.params.twoMemories = true → s.undisturbed) : refill s w k = k (s.refilled w) := by
  unfold refill State.refilled
  cases two : s.params.twoMemories with
  | false =>
    simp only [Bool.false_eq_true, if_false]
    exact memRead_free free _
  | true =>
    simp only [if_true]
    obtain ⟨first, second⟩ := s.violation_pair two w
    have second' : s.interlude.violation (2 * s.pairOf w + 1) = false :=
      (State.violation_congr (by simp) (by simp) (by simp) _).trans (second.trans free)
    rw [memRead_free (first.trans free), memRead_free second', State.loadPair, State.interlude_params, if_pos two,
      State.interlude_undisturbed (quiet two)]
    rfl

theorem refill_busy {s : State} {w : Addr} (busy : s.violation w = true) (k : State → Out) :
    refill s w k = s.busyFault := by
  unfold refill
  cases two : s.params.twoMemories with
  | false => exact (if_neg Bool.false_ne_true).trans (memRead_busy busy _)
  | true => exact (if_pos rfl).trans (memRead_busy ((s.violation_pair two w).1.trans busy) _)

/-- What no refill touches of what the rest of the fetch looks at. -/
structure FetchFrame (s t : State) : Prop where
  cc : t.cc = s.cc
  nb : t.nb = s.nb
  jumped : t.jumped = s.jumped
  params : t.params = s.params
  busy : t.busy = s.busy
  intMode : t.intMode = s.intMode
  engineering : t.engineering = s.engineering

theorem State.refilled_frame (s : State) (w : Addr) : FetchFrame s (s.refilled w) := by
  unfold State.refilled
  split
  · exact ⟨by simp, by simp, by simp, by simp, by simp, by simp, by simp⟩
  · exact ⟨by simp, by simp, by simp, by simp, by simp, by simp, by simp⟩

/-- A refill with no reference between its two changes no core word. -/
theorem State.refilled_coreWord {s : State} (quiet : s.params.twoMemories = true → s.undisturbed) (w a : Addr) :
    (s.refilled w).coreWord a = s.coreWord a := by
  unfold State.refilled
  cases two : s.params.twoMemories with
  | false => exact State.coreWord_congr (by simp) (by simp) a
  | true =>
    have core : s.interlude.core = s.core := by rw [State.interlude_undisturbed (quiet two)]
    exact State.coreWord_congr ((State.loadPair_core _ w).trans core) (by simp) a

/-- After such a refill the held word is the core word (R52). -/
theorem State.refilled_getF {s : State} (quiet : s.params.twoMemories = true → s.undisturbed) (w : Addr) :
    (s.refilled w).getF ((s.refilled w).heldIndex w) = s.coreWord w := by
  have index : (s.refilled w).heldIndex w = s.heldIndex w := by
    simp only [State.heldIndex, (s.refilled_frame w).params]
  rw [index]
  unfold State.refilled
  cases two : s.params.twoMemories with
  | false => exact s.getF_loadPair w
  | true =>
    have core : s.interlude.coreWord w = s.coreWord w :=
      State.coreWord_congr (by rw [State.interlude_undisturbed (quiet two)]) (by simp) w
    have same : s.interlude.heldIndex w = s.heldIndex w := by simp [State.heldIndex]
    rw [← core, ← same]
    exact s.interlude.getF_loadPair w

/-! Fetching a word. -/

/-- The second half of a fetch: which copy of a held word is obeyed (R55, D12). -/
def chooseCopy (w : Addr) (k : Word → State → Out) (s : State) : Out :=
  if s.getF (s.heldIndex w) = s.coreWord w then k (s.coreWord w) s
  else if Config.freeFreshCopy s.free then k (s.coreWord w) s.drawn
  else k (s.getF (s.heldIndex w)) s.drawn

theorem fetchWord_eq (s : State) (w : Addr) (k : Word → State → Out) :
    fetchWord s w k = ensureHeld s w (chooseCopy w k) := rfl

/-- A fresh copy leaves no choice; of a stale one either copy may be obeyed (R55, D12). -/
theorem chooseCopy_cases (w : Addr) (s : State) :
    (s.getF (s.heldIndex w) = s.coreWord w ∧ ∀ k, chooseCopy w k s = k (s.coreWord w) s) ∨
    (∀ k, chooseCopy w k s = k (s.coreWord w) s.drawn) ∨ ∀ k, chooseCopy w k s = k (s.getF (s.heldIndex w)) s.drawn := by
  unfold chooseCopy
  by_cases fresh : s.getF (s.heldIndex w) = s.coreWord w
  · exact .inl ⟨fresh, fun _ => if_pos fresh⟩
  · refine .inr ?_
    simp only [if_neg fresh]
    cases Config.freeFreshCopy s.free with
    | true => exact .inl fun _ => rfl
    | false => exact .inr fun _ => rfl

theorem ensureHeld_away {s : State} {w : Addr} (away : s.holds w = false) (k : State → Out) :
    ensureHeld s w k = refill s.landed w k := if_neg (by simp [away])

theorem State.landed_settled {s : State} (settled : s.jumped = false) : s.landed = s := by
  unfold State.landed
  rw [← settled]

/-- A pair that is held, no jump having led to it, is not read again (R53). -/
theorem ensureHeld_settled {s : State} {w : Addr} (held : s.holds w = true) (settled : s.jumped = false)
    (k : State → Out) : ensureHeld s w k = k s := by
  have landed := State.landed_settled settled
  unfold ensureHeld
  rw [if_pos held, settled, landed]
  rfl

/-- After a jump into the held pair it may be read again, where that could show (R53, D12). -/
theorem ensureHeld_held {s : State} {w : Addr} (held : s.holds w = true) :
    (∀ k, ensureHeld s w k = k s.landed) ∨
    (s.jumped = true ∧ s.refillShows w = true ∧
      ((∀ k, ensureHeld s w k = k s.landed.drawn) ∨ ∀ k, ensureHeld s w k = refill s.landed.drawn w k)) := by
  unfold ensureHeld
  simp only [if_pos held]
  by_cases shows : (s.jumped && s.refillShows w) = true
  · simp only [if_pos shows]
    rw [Bool.and_eq_true] at shows
    refine .inr ⟨shows.1, shows.2, ?_⟩
    cases Config.freeRefetch s.free with
    | true => exact .inr fun _ => rfl
    | false => exact .inl fun _ => rfl
  · exact .inl fun _ => if_neg shows

/-- Where nothing refuses or clouds the fetch, the core word is fetched and its pair is held (R52 to R55). -/
theorem fetchWord_plain {s : State} {w : Addr} (plain : s.plainFetch w) (k : Word → State → Out) :
    fetchWord s w k = k (s.coreWord w) (s.afterHolding w) := by
  unfold State.plainFetch at plain
  unfold State.afterHolding
  rw [fetchWord_eq]
  split at plain
  case isTrue held =>
    obtain ⟨fresh, settled⟩ := plain
    rw [if_pos held]
    obtain landed | ⟨jumped, shows, -⟩ := ensureHeld_held held
    · rw [landed]
      exact if_pos fresh
    · exact absurd shows (by simp [settled jumped])
  case isFalse away =>
    obtain ⟨free, quiet⟩ := plain
    have quiet' : s.landed.params.twoMemories = true → s.landed.undisturbed := quiet
    have word : (s.landed.refilled w).coreWord w = s.coreWord w := State.refilled_coreWord quiet' w w
    have copy := (State.refilled_getF quiet' w).trans word.symm
    rw [if_neg away, ensureHeld_away (by simpa using away), refill_free (s := s.landed) free _ quiet', chooseCopy,
      if_pos copy, word]

/-- A word that is held, no jump having led to it, is fetched as the held copy or as the core word (R55, D12). -/
theorem fetchWord_held {s : State} {w : Addr} (held : s.holds w = true) (settled : s.jumped = false) :
    ∃ v ∈ [s.getF (s.heldIndex w), s.coreWord w], ∃ f, ∀ k, fetchWord s w k = k v { s with free := f } := by
  simp only [fetchWord_eq, ensureHeld_settled held settled]
  obtain ⟨-, fresh⟩ | core | copy := chooseCopy_cases w s
  · exact ⟨_, by simp, _, fresh⟩
  · exact ⟨_, by simp, _, core⟩
  · exact ⟨_, by simp, _, copy⟩

/-- A refused fetch of a word that is not held (D13). -/
theorem fetchWord_busy {s : State} {w : Addr} (away : s.holds w = false) (busy : s.violation w = true)
    (k : Word → State → Out) : fetchWord s w k = s.landed.busyFault := by
  rw [fetchWord_eq, ensureHeld_away away]
  exact refill_busy (s := s.landed) busy _

/-! The order that the groups at cc stand for. -/

/-- The rest of a fetch, once the word at cc is there: the order from its position `c` (steps 1 to 3 of R80). -/
def orderFrom (c : BitVec 2) (v : Word) (s : State) (k : Instr → State → Out) : Out :=
  let g := orB (quarter v c.toNat) s.nb
  match orderClass (groupF g) with
  | none => nonexistentOrder (groupF g) s
  | some cls =>
    if cls.isLong (groupB g) (groupC g) then
      fetchSecond s s.cc.succ v fun n s2 => withDecoded [g, n] (groupF g) s2 fun i s3 => k i s3.interlude
    else withDecoded [g] (groupF g) s fun i s3 => k i s3.interlude

theorem fetchOrder_eq (s : State) (k : Instr → State → Out) :
    fetchOrder s k = fetchWord s s.cc.word fun v s1 => orderFrom s.cc.group v s1 k := by
  unfold fetchOrder orderFrom
  refine congrArg (fetchWord s s.cc.word) (funext fun v => funext fun s1 => ?_)
  -- As one text the two sides share one matcher and are the same term; as modules they do not.
  dsimp only <;>
    (generalize orderClass (groupF (orB (quarter v s.cc.group.toNat) s1.nb)) = found
     cases found <;> rfl)

theorem step_order {s : State} (idle : s.events = []) (running : s.stopped = false) :
    step s = fetchWord s s.cc.word fun v s1 => orderFrom s.cc.group v s1 exec := by
  unfold step
  rw [idle, ← fetchOrder_eq]
  exact if_neg (by simp [running])

theorem withDecoded_ok {gs rest : List Group} {i : Instr} (h : decode gs = .ok (i, rest)) (f : BitVec 7) (s : State)
    (k : Instr → State → Out) : withDecoded gs f s k = k i s := by
  unfold withDecoded
  rw [h]

/-- The groups an order was decoded from are its first group and, where its class is long, N, and the rest. -/
theorem decode_ok {gs rest : List Group} {i : Instr} (h : decode gs = .ok (i, rest)) :
    ∃ g n cls, orderClass (groupF g) = some cls ∧
      gs = g :: (if cls.isLong (groupB g) (groupC g) then [n] else []) ++ rest := by
  obtain ⟨-, bad⟩ | ⟨g, tail, -, ⟨-, bad⟩ | ⟨cls, hcls, bad | ⟨n, j, rest', -, decoded, groups⟩⟩⟩ := decode_cases gs
  · rw [h] at bad
    cases bad
  · rw [h] at bad
    cases bad
  · rw [h] at bad
    cases bad
  · rw [h] at decoded
    cases decoded
    refine ⟨g, n, cls, hcls, ?_⟩
    rw [fieldGroups, mkGroup_fields] at groups
    exact groups

/-- An order of one group is short. -/
theorem decode_one {g : Group} {i : Instr} (h : decode [g] = .ok (i, [])) :
    ∃ cls, orderClass (groupF g) = some cls ∧ cls.isLong (groupB g) (groupC g) = false := by
  obtain ⟨g', n, cls, hcls, groups⟩ := decode_ok h
  cases length : cls.isLong (groupB g') (groupC g') with
  | false =>
    obtain rfl : g = g' := by simpa [length] using groups
    exact ⟨cls, hcls, length⟩
  | true => simp [length] at groups

/-- An order that takes two groups is long. -/
theorem decode_two {g n : Group} {i : Instr} (h : decode [g, n] = .ok (i, [])) :
    ∃ cls, orderClass (groupF g) = some cls ∧ cls.isLong (groupB g) (groupC g) = true := by
  obtain ⟨g', n', cls, hcls, groups⟩ := decode_ok h
  cases length : cls.isLong (groupB g') (groupC g') with
  | false => simp [length] at groups
  | true =>
    obtain ⟨rfl, -⟩ : g = g' ∧ n = n' := by simpa [length] using groups
    exact ⟨cls, hcls, length⟩

/-- An order that lies wholly in the word fetched (R14, R62). -/
theorem orderFrom_readsIn {v : Word} {s u : State} {i : Instr} (h : s.readsIn v i) (hcc : u.cc = s.cc) (hnb : u.nb = s.nb)
    (k : Instr → State → Out) : orderFrom s.cc.group v u k = k i u.interlude := by
  unfold orderFrom
  rw [hnb, hcc]
  obtain decoded | ⟨notLast, decoded⟩ := h
  · obtain ⟨cls, hcls, short⟩ := decode_one decoded
    simp only [hcls, short, Bool.false_eq_true, if_false]
    exact withDecoded_ok decoded _ u _
  · obtain ⟨cls, hcls, long⟩ := decode_two decoded
    have succ : s.cc.succ = ⟨s.cc.word, s.cc.group + 1⟩ := if_neg notLast
    have hgroup : s.cc.group.toNat ≠ 3 := fun h => notLast (BitVec.eq_of_toNat_eq h)
    have next : (s.cc.group + 1).toNat = s.cc.group.toNat + 1 := by bv_omega
    have notFirst : s.cc.group + 1 ≠ 0 := fun h => by
      have := congrArg BitVec.toNat h
      rw [next] at this
      exact absurd this (Nat.succ_ne_zero _)
    simp only [hcls, long, if_true, fetchSecond, succ, if_neg notFirst, next]
    exact withDecoded_ok decoded _ u _

/-- A long order whose N lies in the next word: that word is fetched, after a place for Interplay (R14, R50). -/
theorem orderFrom_crossing {v : Word} {s u : State} {cls : OrderClass} (last : s.cc.group = 3) (hcc : u.cc = s.cc)
    (hnb : u.nb = s.nb) (hcls : orderClass (groupF (orB (quarter v 3) s.nb)) = some cls)
    (long : cls.isLong (groupB (orB (quarter v 3) s.nb)) (groupC (orB (quarter v 3) s.nb)) = true)
    (k : Instr → State → Out) :
    orderFrom s.cc.group v u k = fetchWord u.interlude s.cc.succ.word fun v1 s1 =>
      withDecoded [orB (quarter v 3) s.nb, quarter v1 0] (groupF (orB (quarter v 3) s.nb)) s1
        fun i s3 => k i s3.interlude := by
  have succ : s.cc.succ.group = 0 := by rw [Counter.succ, if_pos last]
  have three : s.cc.group.toNat = 3 := by rw [last]; rfl
  unfold orderFrom
  rw [hnb, hcc, three]
  simp only [hcls, long, if_true, fetchSecond, if_pos succ]

end Sys2Proof.Machine


/-! Steps that obey an order: the order at cc, a non-existent order, a stale held word, a reference into a busy block (20_memory R46 and R52 to R55, 30_encoding R73, 40_operand_preparation R80). -/

namespace Sys2Proof.Machine

/-! The state once the word at cc is held. -/

/-- What holding a word leaves of what the rest of the fetch looks at; a jump has landed. -/
theorem State.afterHolding_frame (s : State) (w : Addr) : FetchFrame s.landed (s.afterHolding w) := by
  unfold State.afterHolding
  split
  · exact ⟨rfl, rfl, rfl, rfl, rfl, rfl, rfl⟩
  · exact s.landed.refilled_frame w

theorem State.groupAt_eq (s : State) : s.groupAt s.cc = quarter (s.coreWord s.cc.word) s.cc.group.toNat := rfl

/-- A step with a plain fetch obeys the order at cc in the core word (R80). -/
theorem step_plain {s : State} (idle : s.events = []) (running : s.stopped = false) (plain : s.plainFetch s.cc.word) :
    step s = orderFrom s.cc.group (s.coreWord s.cc.word) (s.afterHolding s.cc.word) exec := by
  rw [step_order idle running, fetchWord_plain plain]

/-- Settles O5: the order lies in one word, or its second group is fetched from the next. -/
theorem stepObeysDecodedOrder : Obligations.StepObeysDecodedOrder := by
  intro s i idle running plain
  have frame := s.afterHolding_frame s.cc.word
  rw [step_plain idle running plain]
  refine ⟨fun decoded => ?_, fun notLast decoded => ?_, fun last decoded plain2 => ?_⟩
  · exact orderFrom_readsIn (.inl decoded) frame.cc frame.nb exec
  · have succ : s.cc.succ = ⟨s.cc.word, s.cc.group + 1⟩ := if_neg notLast
    have hgroup : s.cc.group.toNat ≠ 3 := fun h => notLast (BitVec.eq_of_toNat_eq h)
    have next : (s.cc.group + 1).toNat = s.cc.group.toNat + 1 := by bv_omega
    have second : s.groupAt s.cc.succ = quarter (s.coreWord s.cc.word) (s.cc.group.toNat + 1) := by
      rw [succ, State.groupAt, next]
    rw [second] at decoded
    exact orderFrom_readsIn (.inr ⟨notLast, decoded⟩) frame.cc frame.nb exec
  · have three : s.cc.group.toNat = 3 := by rw [last]; rfl
    have first : s.cc.succ.group = 0 := by rw [Counter.succ, if_pos last]
    rw [State.groupAt_eq, three, State.groupAt, first] at decoded
    obtain ⟨cls, hcls, long⟩ := decode_two decoded
    rw [orderFrom_crossing last frame.cc frame.nb hcls long, fetchWord_plain plain2]
    exact withDecoded_ok decoded _ _ _

@[simp] theorem groupF_orB (g : Group) (nb : BitVec 4) : groupF (orB g nb) = groupF g := groupF_mkGroup _ _ _

@[simp] theorem groupC_orB (g : Group) (nb : BitVec 4) : groupC (orB g nb) = groupC g := groupC_mkGroup _ _ _

/-- A non-existent order interrupts with nothing else changed, or is a fault where it cannot (R73, D26). -/
theorem nonexistentOrder_eq (f : BitVec 7) {s u : State} (hm : u.intMode = s.intMode)
    (he : u.engineering = s.engineering) :
    nonexistentOrder f u =
      if s.intMode = false ∧ s.engineering = false then
        .fault (.programInterrupt .illegalOrder { u with intMode := true, cause := some .illegalOrder })
      else .fault (.nonexistentUninterruptible f) := by
  have possible : u.interruptible = true ↔ s.intMode = false ∧ s.engineering = false := by
    simp [State.interruptible, hm, he]
  simp only [nonexistentOrder, possible]
  rfl

/-- Settles O6: the pending B digits leave F, so an unassigned F is refused at once. -/
theorem stepRefusesNonexistentOrder : Obligations.StepRefusesNonexistentOrder := by
  intro s idle running plain unassigned
  have frame := s.afterHolding_frame s.cc.word
  have refused : step s = nonexistentOrder (groupF (s.groupAt s.cc)) (s.afterHolding s.cc.word) := by
    rw [step_plain idle running plain, orderFrom, ← State.groupAt_eq]
    simp only [groupF_orB, unassigned]
  exact refused.trans (nonexistentOrder_eq _ frame.intMode frame.engineering)

/-! A stale held word (R55, D12). -/

/-- A place inside an order is passed alike whatever the model's marks are. -/
theorem State.interlude_marks (s : State) (j : Bool) (f : Nat) :
    { s with jumped := j, free := f }.interlude = { s.interlude with jumped := j, free := f } := by
  have passed := s.interlude_interplayOf { s with jumped := j, free := f } rfl
  rw [s.interlude_frame]
  exact passed

theorem State.interlude_setFree (s : State) (f : Nat) :
    { s with free := f }.interlude = { s.interlude with free := f } := by
  have passed := s.interlude_interplayOf { s with free := f } rfl
  rw [s.interlude_frame]
  exact passed

/-- The order that is obeyed from a held word without another reading of it: that of either copy, or, where they differ not at all, that of the core word. -/
theorem chooseCopy_order {s u : State} {i j : Instr} (hi : s.readsIn (s.getF (s.heldIndex s.cc.word)) i)
    (hj : s.readsIn (s.coreWord s.cc.word) j) {m : Bool} {f : Nat} (hu : u = { s with jumped := m, free := f }) :
    ∃ f', f ≤ f' ∧ f' ≤ f + 1 ∧
      (chooseCopy s.cc.word (fun v s1 => orderFrom s.cc.group v s1 exec) u =
          exec i { s.interlude with jumped := m, free := f' } ∨
        chooseCopy s.cc.word (fun v s1 => orderFrom s.cc.group v s1 exec) u =
          exec j { s.interlude with jumped := m, free := f' }) := by
  have order : ∀ {v : Word} {i : Instr} (f : Nat), s.readsIn v i →
      orderFrom s.cc.group v { s with jumped := m, free := f } exec = exec i { s.interlude with jumped := m, free := f } :=
    fun {v i} f h => (orderFrom_readsIn (u := { s with jumped := m, free := f }) h rfl rfl exec).trans
      (congrArg (exec i) (s.interlude_marks m f))
  subst hu
  obtain ⟨-, fresh⟩ | core | copy := chooseCopy_cases s.cc.word { s with jumped := m, free := f }
  · exact ⟨f, by omega, by omega, .inr ((fresh _).trans (order f hj))⟩
  · exact ⟨f + 1, by omega, by omega, .inr ((core _).trans (order (f + 1) hj))⟩
  · exact ⟨f + 1, by omega, by omega, .inl ((copy _).trans (order (f + 1) hi))⟩

/-- After another reading of the pair the order is that of the core word, unless the reading is refused (R46, R53). -/
theorem refill_order {s u : State} {j : Instr} (hj : s.readsIn (s.coreWord s.cc.word) j)
    (quiet : s.params.twoMemories = true → s.undisturbed) {m : Bool} {f : Nat}
    (hu : u = { s with jumped := m, free := f }) :
    refill u s.cc.word (chooseCopy s.cc.word fun v s1 => orderFrom s.cc.group v s1 exec) =
      if s.violation s.cc.word then u.busyFault else exec j (u.refilled s.cc.word).interlude := by
  have busy : u.violation s.cc.word = s.violation s.cc.word := by rw [hu]; rfl
  have quiet' : u.params.twoMemories = true → u.undisturbed := by rw [hu]; exact quiet
  have word : u.coreWord s.cc.word = s.coreWord s.cc.word := by rw [hu]; rfl
  have frame := u.refilled_frame s.cc.word
  have core : (u.refilled s.cc.word).coreWord s.cc.word = s.coreWord s.cc.word :=
    (State.refilled_coreWord quiet' _ _).trans word
  have fresh := (State.refilled_getF quiet' s.cc.word).trans (word.trans core.symm)
  split
  case isTrue refused => exact refill_busy (busy.trans refused) _
  case isFalse free =>
    rw [refill_free (busy.trans (by simpa using free)) _ quiet', chooseCopy, if_pos fresh, core]
    exact orderFrom_readsIn hj (frame.cc.trans (by rw [hu])) (frame.nb.trans (by rw [hu])) exec

/-- Settles O7: the choices of copy and of another reading, one after the other. -/
theorem heldCopyOrCoreWord : Obligations.HeldCopyOrCoreWord := by
  intro s idle running held
  refine ⟨fun i j hi hj => ⟨fun settled stale => ?_, fun jumped quiet => ?_⟩, fun settled last held2 ord orders => ?_⟩
  · have order : ∀ {v : Word} {i : Instr}, s.readsIn v i →
        orderFrom s.cc.group v s.drawn exec = exec i { s.interlude with free := s.free + 1 } :=
      fun {v i} h => (orderFrom_readsIn (u := s.drawn) h rfl rfl exec).trans
        (congrArg (exec i) (s.interlude_setFree (s.free + 1)))
    rw [step_order idle running, fetchWord_eq, ensureHeld_settled held settled]
    obtain ⟨fresh, -⟩ | core | copy := chooseCopy_cases s.cc.word s
    · exact absurd fresh stale
    · exact .inr ((core _).trans (order hj))
    · exact .inl ((copy _).trans (order hi))
  · rw [step_order idle running, fetchWord_eq]
    obtain landed | ⟨-, -, landed | again⟩ := ensureHeld_held held
    · obtain ⟨f, lower, upper, obeyed⟩ := chooseCopy_order (u := s.landed) (m := false) (f := s.free) hi hj rfl
      rw [landed]
      exact ⟨f, lower, by omega, obeyed.imp id .inl⟩
    · obtain ⟨f, lower, upper, obeyed⟩ := chooseCopy_order (u := s.landed.drawn) (m := false) (f := s.free + 1) hi hj rfl
      rw [landed]
      exact ⟨f, by omega, by omega, obeyed.imp id .inl⟩
    · have obeyed := refill_order (u := s.landed.drawn) (m := false) (f := s.free + 1) hj quiet rfl
      rw [again, obeyed]
      refine ⟨s.free + 1, by omega, by omega, .inr (.inr ?_)⟩
      split <;> rfl
  · obtain ⟨v, hv, f, first⟩ := fetchWord_held held settled
    obtain ⟨v', hv', f', second⟩ := fetchWord_held (s := { s.interlude with free := f }) (w := s.cc.succ.word)
      (by simpa [State.holds, State.pairOf] using held2) (by simpa using settled)
    have copies : [({ s.interlude with free := f } : State).getF
          (({ s.interlude with free := f } : State).heldIndex s.cc.succ.word),
        ({ s.interlude with free := f } : State).coreWord s.cc.succ.word] =
        [s.getF (s.heldIndex s.cc.succ.word), s.interlude.coreWord s.cc.succ.word] := by
      simp [State.getF, State.heldIndex, State.coreWord]
    rw [copies] at hv'
    have decoded := orders v hv v' hv'
    obtain ⟨cls, hcls, long⟩ := decode_two decoded
    refine ⟨v, hv, v', hv', f', ?_⟩
    rw [step_order idle running, first, orderFrom_crossing (u := { s with free := f }) last rfl rfl hcls long,
      s.interlude_setFree f, second,
      withDecoded_ok decoded]
    exact congrArg (exec (ord v v')) (s.interlude.interlude_setFree f')

/-! References into a busy block (R46, R52, D13). -/

/-- An arithmetic order whose operand is refused has counted its modifier, and done nothing else (R46, R236). -/
theorem arithOrders_busy {f : Operand → Instr} (hf : f ∈ arithOrders) {a : NormalAddr} {s : State}
    (busy : s.violation (s.address a) = true) : exec (f (.core a)) s = (s.prepare a).busyFault := by
  have busy' := (s.violation_prepare a (s.address a)).trans busy
  obtain ⟨act, meaning⟩ | ⟨act, meaning⟩ := arithOrders_shape f hf
  · rw [congrFun (congrFun meaning (.core a)) s, arithOrder, withOperand]
    exact memRead_busy busy' _
  · rw [congrFun (congrFun meaning (.core a)) s, divideOrder, withOperand]
    exact memRead_busy busy' _

/-- Settles O13: the reference is refused in the state in which it is made. -/
theorem busyOperandRefused : Obligations.BusyOperandRefused := by
  refine ⟨fun f hf a s busy => ?_, fun b c n s busy => ?_, fun b n c s b2 b8 busy => ?_, fun s idle running => ⟨?_, ?_⟩⟩
  · obtain ⟨frame, counted⟩ := s.prepare_framed a
      (t := { s.prepare a with intMode := true, cause := some .busyBlock }) rfl
    exact ⟨_, arithOrders_busy hf busy, by rw [s.prepare_eq a], frame, counted⟩
  · show execLdm b c n s = s.clearPending.busyFault
    rw [execLdm]
    exact memRead_busy (s := s.clearPending) busy _
  · have legal : loadIllegal b = false := by
      simp only [loadIllegal, Bool.or_eq_false_iff, decide_eq_false_iff_not]
      omega
    show execLfr b n c s = s.clearPending.busyFault
    rw [execLfr, legal, if_neg Bool.false_ne_true]
    exact memRead_busy (s := s.clearPending) busy _
  · intro away busy
    rw [step_order idle running]
    exact fetchWord_busy away busy _
  · intro cls plain last hcls long away busy
    have frame := s.afterHolding_frame s.cc.word
    have three : s.cc.group.toNat = 3 := by rw [last]; rfl
    rw [State.groupAt_eq, three] at hcls long
    have away' : (s.afterHolding s.cc.word).interlude.holds s.cc.succ.word = false := by
      simpa [State.holds, State.pairOf] using away
    have busy' : (s.afterHolding s.cc.word).interlude.violation s.cc.succ.word = true := by
      rw [State.violation_congr (s := s) ((State.interlude_busy _).trans frame.busy)
        ((State.interlude_intMode _).trans frame.intMode) ((State.interlude_engineering _).trans frame.engineering)]
      exact busy
    have settled : (s.afterHolding s.cc.word).interlude.jumped = false := (State.interlude_jumped _).trans frame.jumped
    rw [step_plain idle running plain,
      orderFrom_crossing last frame.cc frame.nb (by simpa using hcls) (by simpa using long),
      fetchWord_busy away' busy', State.landed_settled settled]

end Sys2Proof.Machine
